-- ==== Sys2Proof/Word.lean ====
section
/-! DEFINITION. The plain word types of Ezrak (R1, R2). -/

namespace Sys2Proof

/-- One byte of memory. -/
abbrev Byte := BitVec 8
/-- A 32-bit register, queue element or instruction word (R40, R83). -/
abbrev Word := BitVec 32
/-- A 64-bit value: a register pair, an address, a literal (R41, R83). -/
abbrev DWord := BitVec 64

end Sys2Proof
end

