-- ==== Sys2Proof/Syntax.lean ====
section
/-! DEFINITION. The instructions of Kyosyn and the other steps of the part: one constructor of `Instr` per row of
spec/opcode_table.json. Operand fields are already pulled out of the words (R85, R88, R89). The rows without an
encoding (95_what_each_step_holds.md) are steps of the engines, the scheduler, the firmware, the fabric and the pins;
their arguments say which agent moves and what comes from outside the device. -/

namespace Sys2Proof

/-- The two slices of a kernel (R23). -/
inductive Slice | access | execute
deriving DecidableEq, Repr

/-- The TYPE codes of R93. -/
inductive Ty
  | none | i8 | i16 | i32 | i64 | n8 | n16 | n32 | n64 | b32 | b64
  | f64 | f32 | bf16 | f16 | e5m2 | e4m3 | e2m1 | lg6 | ob8 | ob4 | bf16x2 | f16x2
deriving DecidableEq, Repr

/-- Rounding modes (R94). -/
inductive Rnd | rne | rz | ru | rd
deriving DecidableEq, Repr

/-- Cache hints (R95). -/
inductive Hint | none | evict | keep | l2only | noalloc
deriving DecidableEq, Repr

/-- A 9-bit operand specifier (R89). `special` carries the class-0b10 index 0x20 to 0x34. -/
inductive Operand
  | reg (n : BitVec 7)
  | uni (n : BitVec 6)
  | queue (n : BitVec 4)
  | set (n : BitVec 4)
  | special (n : BitVec 7)
  | lit
  | imm (v : BitVec 7)
deriving DecidableEq, Repr

/-- The fields of an extended instruction (R88). `mods` is MOD[31:26]. -/
structure Ext where
  stop : Bool := false
  ahead : BitVec 4 := 0
  dst : Operand := .reg 0
  a : Operand := .reg 0
  b : Operand := .reg 0
  c : Operand := .reg 0
  d : Operand := .reg 0
  g0 : BitVec 4 := 0
  g1 : BitVec 4 := 0
  hint : Hint := .none
  ty : Ty := .none
  rnd : Rnd := .rne
  sat : Bool := false
  fz : Bool := false
  mods : BitVec 6 := 0
  lit : Option DWord := .none
deriving DecidableEq, Repr

/-- The fields of a base word (R85), with its literal where the framing carries one (R87). -/
structure Base where
  stop : Bool := false
  d : BitVec 6 := 0
  a : BitVec 6 := 0
  b : BitVec 6 := 0
  imm : Bool := false
  uns : Bool := false
  lit : Option DWord := .none
deriving DecidableEq, Repr

/-- Condition codes of `cmp` (R105, R131). -/
inductive Cmp | eq | ne | lt | le | gt | ge
deriving DecidableEq, Repr
/-- Condition codes of `fcmp` (R136). -/
inductive FCmp | eq | ne | lt | le | gt | ge | un | num
deriving DecidableEq, Repr
/-- Modes of `shfl` (R151). -/
inductive ShflMode | idx | up | down | xor
deriving DecidableEq, Repr
/-- Operations of `red` and `scan` (R153). -/
inductive RedOp | add | min | max | and | or | xor
deriving DecidableEq, Repr
/-- Operations of `atom` other than `.cas` (R216). -/
inductive AtomOp | add | min | max | and | or | xor | exch
deriving DecidableEq, Repr
/-- Fence scopes (R55, R105). -/
inductive Scope | lane | block | team | device | fabric
deriving DecidableEq, Repr

/-- A partition record (R420). -/
structure PartRec where
  part : Nat := 0
  valid : Bool := false
  reqsig : Bool := false
  clusters : BitVec 48 := 0
  ways : BitVec 16 := 0
  memmap : List Nat := []
  qfirst : Nat := 0
  qcount : Nat := 0
  codefirst : Nat := 0
  codecnt : Nat := 0
  supq : Nat := 0
deriving DecidableEq, Repr

/-- A remote device's answer to an outbound access (R199, R217, R411), with the transport key under which its protection verifies, if any
(R409). -/
inductive RemoteAnswer
  | data (v : DWord) (key : Option (List Byte) := none)
  | refused (key : Option (List Byte) := none)
deriving DecidableEq, Repr

/-- Operations of an inbound RMA request (R406); `other` is one that uses a feature Ezrak does not implement. -/
inductive InOp | read | write | add | min | max | and | or | xor | swap | cas | fadd | other
deriving DecidableEq, Repr

/-- An inbound fabric request (R406, R409, R410): its source endpoint and job, the partition and ASID that it names, its
operation, the address, the bytes to be read, the payload (for compare-swap the compared value and then the new one), the
transport key with its domain under which its protection verifies, if any, and its sequence number at its source (R412). -/
structure InRequest where
  fep : BitVec 128
  job : Nat
  rpart : Nat
  rasid : Nat
  op : InOp
  is64 : Bool
  addr : DWord
  len : Nat
  data : List Byte
  key : Option (List Byte)
  seq : Nat := 0
deriving DecidableEq, Repr

/-- What one participant of a collective contributes from outside this device (R236). -/
structure Contribution where
  rank : Nat
  gather : Bool
  count : Nat
  ty : Nat
  op : Nat
  data : List Byte
  refused : Bool
  port : Nat := 15
deriving DecidableEq, Repr

/-- The agent that met an uncorrectable error (R384); of a scratchpad word of a slot it is whoever reads it next, and the address is
the word's offset. -/
inductive McAgent
  | load (id : Nat)
  | store (core slot group lane : Nat)
  | atomic (id : Nat)
  | atomicNr (core slot group lane : Nat)
  | engine (core channel : Nat)
  | scratch (slot : Nat)
  | walk
deriving DecidableEq, Repr

/-- The measured times and places of a sampled instruction (R403). -/
structure SampleTimes where
  replays : Nat := 0
  ttlb : Nat := 0
  tl1 : Nat := 0
  tl2 : Nat := 0
  tmem : Nat := 0
  level : Nat := 0
deriving DecidableEq, Repr

/-- A firmware-mode launch submitted by Equinox (R352). -/
structure FwLaunch where
  part : Nat
  kdesc : DWord
  args : DWord
  nblk : Nat
  team : Nat
  wb : Nat
  ofa : Bool
deriving DecidableEq, Repr

/-- A firmware-mode image loaded by Equinox itself (R118). -/
structure FwImage where
  part : Nat
  image : List Byte
  datava : DWord
  asid : Nat
deriving DecidableEq, Repr

/-- What boot reads from outside: the Equinox image, which carries the owner root key and a signature, and what Equinox then sets up
(R423, R432). -/
structure BootInput where
  image : List Byte
  records : List PartRec
  qtab : Nat
  fep : Nat
deriving DecidableEq, Repr

/-- A temperature sensor: of a cluster's die, or of an HBM4E stack (R436). -/
inductive Sensor
  | cluster (n : Nat)
  | stack (n : Nat)
deriving DecidableEq, Repr

/-- What a droop sensor shows of a core supply (R434). -/
structure SupplyLevel where
  supply : Nat
  volts : Nat
deriving DecidableEq, Repr

/-- One constructor per row of spec/opcode_table.json. Voltages are in thousandths of nominal, temperatures in thousandths of a degree
(log 51). -/
inductive Instr
  -- integer and logic (R125)
  | add (f : Ext) | addBase (f : Base) | sub (f : Ext) | subBase (f : Base) | mulLo (f : Ext) | mulHi (f : Ext)
  | mad (f : Ext) | min (f : Ext) | minBase (f : Base) | max (f : Ext) | maxBase (f : Base)
  | abs (f : Ext) | absBase (f : Base) | neg (f : Ext) | negBase (f : Base)
  | and (f : Ext) | andBase (f : Base) | or (f : Ext) | orBase (f : Base) | xor (f : Ext) | xorBase (f : Base)
  | not (f : Ext) | notBase (f : Base) | shl (f : Ext) | shlBase (f : Base) | shr (f : Ext) | shrBase (f : Base)
  | sar (f : Ext) | sarBase (f : Base) | bfx (f : Ext) | bfi (f : Ext) | popc (f : Ext) | popcBase (f : Base)
  | clz (f : Ext) | clzBase (f : Base) | brev (f : Ext) | brevBase (f : Base) | sel (f : Ext)
  | cmp (cc : Cmp) (f : Ext) | mov (f : Ext) | movBase (f : Base)
  -- floating point (R133)
  | fadd (f : Ext) | fsub (f : Ext) | fmul (f : Ext) | fma (f : Ext) | fmin (f : Ext) | fmax (f : Ext)
  | fcmp (cc : FCmp) (f : Ext) | fclass (f : Ext) | frint (f : Ext) | ex2s (f : Ext) | lg2 (f : Ext) | rcp (f : Ext)
  | rsq (f : Ext) | sqrt (f : Ext) | div (f : Ext)
  -- conversion and packed (R141-R145)
  | cvt (src : Ty) (f : Ext) | pack (f : Ext) | unpack (f : Ext) | dot2 (f : Ext) | dp4 (f : Ext)
  -- cross-lane (R147)
  | qswapH (f : Ext) | qswapV (f : Ext) | qbcast (f : Ext) | qsum (f : Ext) | shfl (m : ShflMode) (f : Ext)
  | voteAny (f : Ext) | voteAll (f : Ext) | voteBallot (f : Ext) | red (op : RedOp) (f : Ext)
  | scan (op : RedOp) (excl : Bool) (f : Ext) | matchLanes (f : Ext)
  -- predicates (R146)
  | pand (f : Ext) | por (f : Ext) | pxor (f : Ext) | pnot (f : Ext) | ptest (f : Ext)
  -- control and rejoin sets (R161)
  | bra (f : Ext) | brQ (f : Ext) | brx (f : Ext) | call (f : Ext) | ret (f : Ext) | exit (f : Ext)
  | joinInit (f : Ext) | joinEnter (f : Ext) | joinQuit (f : Ext) | joinWait (f : Ext) | joinTest (f : Ext)
  | joinSave (f : Ext) | joinLoad (f : Ext) | yield (f : Ext) | nap (f : Ext) | trap (f : Ext) | brk (f : Ext)
  | nop (f : Ext) | nopBase (f : Base)
  -- memory, queues, atomics, barriers, engines (R193)
  | ldQ (f : Ext) | ldY (f : Ext) | ldSp (f : Ext) | ldFab (f : Ext) | ldMc (f : Ext) | stream (f : Ext)
  | st (f : Ext) | stY (f : Ext) | stSp (f : Ext) | prefetch (f : Ext) | qflush (f : Ext) | qcount (f : Ext)
  | atom (op : AtomOp) (f : Ext) | atomCas (f : Ext) | lr (f : Ext) | sc (f : Ext) | fence (s : Scope) (f : Ext)
  | smov (f : Ext) | barInit (f : Ext) | barArrive (f : Ext) | barWait (f : Ext) | barInval (f : Ext) | barTest (f : Ext)
  | copyAsync (f : Ext) | copyWait (f : Ext) | collRs (f : Ext) | collAg (f : Ext)
  | task (f : Ext) | post (f : Ext) | postCnt (f : Ext) | seal (f : Ext) | steal (f : Ext)
  -- matrix engine (R250)
  | mma (f : Ext) | mmaTeam (f : Ext) | zclr (f : Ext) | zld (f : Ext) | zst (f : Ext) | zcvt (f : Ext) | zadd (f : Ext)
  | sclSetA (f : Ext) | sclSetB (f : Ext) | fmtVote (f : Ext)
  -- system instructions (R336)
  | sysrd (f : Ext) | syswr (f : Ext) | sampleWrite (f : Ext) | eret (f : Ext) | tret (f : Ext) | tlbinv (f : Ext)
  | tlbinvAll (f : Ext) | ctxsave (f : Ext) | ctxsaveFree (f : Ext) | ctxload (f : Ext) | halt (f : Ext) | haltSafe (f : Ext)
  | l1wb (f : Ext) | fwcall (f : Ext) | sysfence (f : Ext)
  -- firmware services (R426), the management processor and Equinox
  | fwVersion (tag : Word) | fwDescribe (tag : Word) | fwKeyAccept (tag : Word) | fwKeyRevoke (tag : Word)
  | fwMeasure (tag : Word) | fwLoad (tag : Word) | fwFreeDescriptor (tag : Word) | fwTssInstall (tag : Word)
  | fwTssRemove (tag : Word) | fwUnknownCode (tag : Word)
  | mailboxAnswerPort (tag answer : Word) | mgmtRegisterPort (part idx : Nat) (wr : Option DWord)
  | firmwareSubmission (l : FwLaunch) | partitionRecordChange (r : PartRec)
  -- scheduler (R342-R358)
  | packetTake (queue : Nat) | headAging (queue : Nat) | placement (part team : Nat) | waitWordRead (queue : Nat)
  | concurrentAdmission (part : Nat) | drainMark (part : Nat) | blockStart (part serial : Nat)
  | blockEnd (core slot : Nat) | launchEnd (part serial : Nat)
  -- memory system and engines
  | loadDataReturn (id : Nat) | remoteResponse (id : Nat) (ans : RemoteAnswer)
  | multicastRead (part serial team group lane : Nat) | streamRow (core slot group queue : Nat)
  | storeDataTake (core slot group lane : Nat) | decouplingDeadlock (core slot group : Nat)
  | rejoinDeadlock (core slot group : Nat) (sl : Slice) | napEnd (core slot group : Nat) (sl : Slice) (lane : Nat)
  | matrixAccept (core : Nat) | matrixComplete (core : Nat) | teamRendezvous (part serial team group : Nat)
  | copyEnter (core slot group : Nat) | copyLineWrite (core channel : Nat) | copyComplete (core channel : Nat)
  | collectiveComplete (id : Nat) (cs : List Contribution) | collectiveTimeout (id : Nat)
  | barrierStoreDrop (index : Nat) | watchdogTrap (core slot group : Nat) (sl : Slice) | clockCreep (core : Nat)
  | recallMessage (core line : Nat) (tag : Option Nat) | leaseMessage (core line leaseEnd : Nat)
  | tableWalk (core part asid : Nat) (va : DWord) | invalidationComplete (id : Nat)
  | windowEntry (part : Nat) | teamReadyPlace (part cluster : Nat) | clusterSteal (part cluster : Nat)
  | trapRecordWrite (core : Nat) | memoryMachineCheck (core : Nat) (agent : McAgent) (pa : DWord)
  | stateMachineCheck (core slot group storage : Nat) (lanes : DWord) | preemptionRequest (handle : Word)
  | remoteAbandon (id : Nat) | launchAbort (part : Nat) | breakpointHit (core slot group : Nat) (sl : Slice) (pc : Nat)
  | safeStopComplete (core slot group : Nat) | parkingTimeout (core slot group : Nat)
  | sampleRecord (core : Nat) (t : SampleTimes) | inboundRequest (r : InRequest) | deadLinkTimeout (id : Nat)
  | portTrained (port : Nat) | keyGraceExpiry (part idx : Nat) | boot (b : BootInput) | reset | alarm | powerRemoval
  | supplySag (x : SupplyLevel) | stretchEnd | thermalThrottle (steps : Nat) | thermtrip | portDown (port : Nat)
  | packetRetransmit (id port : Nat) | thermalRecovery | thermtripClear | firmwareModeLoad (image : FwImage)
deriving DecidableEq, Repr

end Sys2Proof
end

