-- ==== Sys2Proof/Machine/Encoding.lean ====
section
/-! DEFINITION. The opcode map and the operand tables of the spec as data: for each row with an encoding, its major and
minor code, slices, types and the kind of each operand position (R105, R120, R125, R133, R141-R147, R161, R193, R250,
R311, R336), and the check that an instruction is a legal encoding (R86-R96, R106). -/

namespace Sys2Proof

/-- MOD[26+k] of an instruction. -/
def Ext.modBit (f : Ext) (k : Nat) : Bool := f.mods.getLsbD k
abbrev Ext.sp (f : Ext) : Bool := f.modBit 0
abbrev Ext.nr (f : Ext) : Bool := f.modBit 1
abbrev Ext.acq (f : Ext) : Bool := f.modBit 2
abbrev Ext.rel (f : Ext) : Bool := f.modBit 3
/-- Channel, direction and BAR of `copy.async` (R230). -/
def Ext.ch (f : Ext) : Nat := (f.mods.extractLsb' 0 3).toNat
def Ext.dir (f : Ext) : Nat := (f.mods.extractLsb' 3 2).toNat
abbrev Ext.bar (f : Ext) : Bool := f.modBit 5

end Sys2Proof

namespace Sys2Proof.Machine
open Sys2Proof

/-! ### Types -/

/-- The TYPE code of R93. -/
def tyCode : Ty → Nat
  | .none => 0 | .i8 => 1 | .i16 => 2 | .i32 => 3 | .i64 => 4 | .n8 => 5 | .n16 => 6 | .n32 => 7 | .n64 => 8
  | .b32 => 9 | .b64 => 10 | .f64 => 16 | .f32 => 17 | .bf16 => 18 | .f16 => 19 | .e5m2 => 20 | .e4m3 => 21
  | .e2m1 => 22 | .lg6 => 23 | .ob8 => 24 | .ob4 => 25 | .bf16x2 => 26 | .f16x2 => 27

/-- The type of a TYPE code; reserved codes have none (R93). -/
def tyOfCode : Nat → Option Ty
  | 0 => some .none | 1 => some .i8 | 2 => some .i16 | 3 => some .i32 | 4 => some .i64 | 5 => some .n8 | 6 => some .n16
  | 7 => some .n32 | 8 => some .n64 | 9 => some .b32 | 10 => some .b64 | 16 => some .f64 | 17 => some .f32
  | 18 => some .bf16 | 19 => some .f16 | 20 => some .e5m2 | 21 => some .e4m3 | 22 => some .e2m1 | 23 => some .lg6
  | 24 => some .ob8 | 25 => some .ob4 | 26 => some .bf16x2 | 27 => some .f16x2 | _ => Option.none

/-- The operand width of a type (R121, R141). -/
def tyWidth : Ty → Nat
  | .i64 | .n64 | .b64 | .f64 => 64
  | .i16 | .n16 | .bf16 | .f16 => 16
  | .i8 | .n8 | .e5m2 | .e4m3 | .ob8 => 8
  | .lg6 => 6
  | .e2m1 | .ob4 => 4
  | _ => 32

/-- Types that a small immediate may stand for (R91): integers and raw bits, and four floating-point types. -/
def tyImmOk : Ty → Bool
  | .i8 | .i16 | .i32 | .i64 | .n8 | .n16 | .n32 | .n64 | .b32 | .b64 => true
  | .f64 | .f32 | .bf16 | .f16 => true
  | _ => false

/-! ### Special registers (R51) -/

/-- Width of the special register of a class-0b10 index. -/
def specialWidth (n : Nat) : Nat := if n = 0x31 ∨ n = 0x33 ∨ n = 0x34 then 64 else 32

/-- The index names a special register of the table in R51. -/
def specialListed (n : Nat) : Bool := decide (0x20 ≤ n ∧ n ≤ 0x34)

/-- `%fencestat` belongs to the access slice alone. -/
def specialSlice (n : Nat) (sl : Slice) : Bool := decide (n ≠ 0x32) || decide (sl = .access)

/-- Special registers whose scope reads group or block, which an `s` destination may take (R43, R51). -/
def specialUniform (n : Nat) : Bool := decide (n ≠ 0x20 ∧ n ≠ 0x21 ∧ n ≠ 0x32)

/-! ### Operand kinds -/

/-- The type of an operand position: the instruction's TYPE, the source type of `cvt`, the accumulator type of `dp4`,
or a fixed type. -/
inductive OT | t | s | acc | fix (t : Ty)
deriving DecidableEq, Repr

def OT.ty (o : OT) (t src : Ty) : Ty :=
  match o with
  | .t => t
  | .s => src
  | .acc => match t with
    | .i8 => .i32
    | .n8 => .n32
    | _ => .f32
  | .fix u => u

/-- The kinds of operand positions (R120, R161, R188, R243, R250, R311, R336). -/
inductive Kind
  | no                 -- reserved (R96)
  | val (o : OT)       -- value source
  | lane (o : OT)      -- value source, no queue
  | dst (o : OT)       -- value destination
  | reg (o : OT)       -- destination of class 0b00 only
  | regUni (o : OT)    -- destination of class 0b00 or 0b01
  | pred | tile | set
  | qpos               -- names a queue without popping or pushing
  | gbase              -- global base
  | base               -- global base, or scratchpad base under .sp
  | off                -- signed 32-bit offset
  | fwd12 | fwd11      -- forward queue destination q0-q12, q0-q11
  | fwdReg             -- forward queue, class 0b00 or 0b01
  | regQ11             -- class 0b00 or q0-q11
  | q13 | q13val       -- q13 only; value source with q13 allowed
  | desc               -- run of eight uniform registers
  | fmt                -- class 0b00, a format word
  | mmaOp | record        -- matrix operand; operand record only
  | uni64 | uni32      -- uniform sources of scl.set
  | recSrc             -- source of post
  | rel | relSec | sec | secRU   -- branch targets
  | q12                -- the decision queue
  | code16 | sysIdx
  | copyDst | copySrc | copyBar
deriving DecidableEq, Repr

/-- Everything the encoding tables say of one row. -/
structure Sig where
  major : Nat
  minor : Nat := 0
  acc : Bool := true
  exe : Bool := true
  tys : List Ty := [.none]
  dst : Kind := .no
  a : Kind := .no
  b : Kind := .no
  c : Kind := .no
  d : Kind := .no
  modes : Bool := false
  sat : Bool := false
  fz : Bool := false
  mods : BitVec 6 := 0
  hint : Bool := false
  ahead : Bool := true
deriving DecidableEq, Repr

def tyInt : List Ty := [.i32, .n32, .i64, .n64]
def tyBits : List Ty := [.b32, .b64]
def tyF6 : List Ty := [.f64, .f32, .bf16, .f16, .bf16x2, .f16x2]
def tyF4 : List Ty := [.f64, .f32, .bf16, .f16]
def tyF3 : List Ty := [.f32, .bf16, .f16]
def tyNum : List Ty := [.i32, .n32, .i64, .n64, .f32, .f64]
def tyLoad : List Ty := [.i8, .n8, .i16, .n16, .b32, .b64]
def tyStore : List Ty := [.n8, .n16, .b32, .b64]
def tyPack : List Ty := [.bf16x2, .f16x2, .e4m3, .e5m2, .e2m1, .lg6, .ob8, .ob4]
def tyAll : List Ty :=
  [.i8, .i16, .i32, .i64, .n8, .n16, .n32, .n64, .f64, .f32, .bf16, .f16, .e5m2, .e4m3, .e2m1, .lg6, .ob8, .ob4]

abbrev w32 : OT := .fix .b32
abbrev w64 : OT := .fix .b64
abbrev packed : OT := .fix .f16x2
abbrev vT : Kind := .val .t
abbrev v32 : Kind := .val w32

def condMinor : Cmp → Nat
  | .eq => 0 | .ne => 1 | .lt => 2 | .le => 3 | .gt => 4 | .ge => 5
def fcondMinor : FCmp → Nat
  | .eq => 0 | .ne => 1 | .lt => 2 | .le => 3 | .gt => 4 | .ge => 5 | .un => 6 | .num => 7
def shflMinor : ShflMode → Nat
  | .idx => 0 | .up => 1 | .down => 2 | .xor => 3
def redMinor : RedOp → Nat
  | .add => 0 | .min => 1 | .max => 2 | .and => 3 | .or => 4 | .xor => 5
def atomMinor : AtomOp → Nat
  | .add => 0 | .min => 1 | .max => 2 | .and => 3 | .or => 4 | .xor => 5 | .exch => 6
def scopeCode : Scope → Nat
  | .lane => 0 | .block => 1 | .team => 2 | .device => 3 | .fabric => 4

/-- Integer rows of R125 with two value sources. -/
def sigII (major : Nat) (tys : List Ty) (sat : Bool := false) : Sig :=
  { major, tys, dst := .dst .t, a := vT, b := vT, sat }
/-- Integer rows of R125 with one value source. -/
def sigI (major : Nat) (tys : List Ty) (sat : Bool := false) : Sig :=
  { major, tys, dst := .dst .t, a := vT, sat }
/-- Shift rows of R125: the count is a 32-bit operand. -/
def sigSh (major : Nat) : Sig := { major, tys := tyBits, dst := .dst .t, a := vT, b := v32 }
/-- Floating-point rows of R133. -/
def sigF (major : Nat) (tys : List Ty) (b c : Kind) (modes sat : Bool) : Sig :=
  { major, tys, acc := false, dst := .dst .t, a := vT, b, c, modes, sat, fz := true }
/-- Predicate rows of R146. -/
def sigP (major : Nat) (b : Kind) : Sig := { major, dst := .pred, a := .pred, b }
/-- Control rows of R161; AHEAD is zero (R160). -/
def sigC (major : Nat) (minor : Nat := 0) (dst a b : Kind := .no) : Sig :=
  { major, minor, dst, a, b, ahead := false }
/-- Rows of the access slice (R193, R311). -/
def sigA (major minor : Nat) (tys : List Ty) (dst a b c d : Kind) (mods : BitVec 6) (hint : Bool) : Sig :=
  { major, minor, exe := false, tys, dst, a, b, c, d, mods, hint }
/-- Rows of the matrix engine (R250). -/
def sigM (major minor : Nat) (tys : List Ty) (dst a b c d : Kind) (modes : Bool := false) (mods : BitVec 6 := 0) : Sig :=
  { major, minor, acc := false, tys, dst, a, b, c, d, modes, mods }
/-- System rows (R336). -/
def sigS (minor : Nat) (dst a b c : Kind := .no) (tys : List Ty := [.none]) (mods : BitVec 6 := 0) : Sig :=
  { major := 0x7e, minor, tys, dst, a, b, c, mods, ahead := false }

/-- MOD[31:26] masks: bit 0 is MOD[26]. -/
abbrev mSp : BitVec 6 := 1
abbrev mNr : BitVec 6 := 2
abbrev mAcq : BitVec 6 := 4
abbrev mRel : BitVec 6 := 8

/-- The row of the encoding tables that an instruction belongs to; base words and steps without an encoding have none. -/
def sig? : Instr → Option (Sig × Ext)
  | .add f => some (sigII 0x00 tyInt true, f)
  | .sub f => some (sigII 0x01 tyInt true, f)
  | .mulLo f => some (sigII 0x02 tyInt, f)
  | .mulHi f => some (sigII 0x03 tyInt, f)
  | .mad f => some ({ sigII 0x04 tyInt true with c := vT }, f)
  | .min f => some (sigII 0x05 tyInt, f)
  | .max f => some (sigII 0x06 tyInt, f)
  | .abs f => some (sigI 0x07 [.i32, .i64] true, f)
  | .neg f => some (sigI 0x08 [.i32, .i64] true, f)
  | .and f => some (sigII 0x09 tyBits, f)
  | .or f => some (sigII 0x0a tyBits, f)
  | .xor f => some (sigII 0x0b tyBits, f)
  | .not f => some (sigI 0x0c tyBits, f)
  | .shl f => some (sigSh 0x0d, f)
  | .shr f => some (sigSh 0x0e, f)
  | .sar f => some (sigSh 0x0f, f)
  | .bfx f => some ({ sigII 0x10 tyInt with b := v32, c := v32 }, f)
  | .bfi f => some ({ sigII 0x11 tyBits with c := v32, d := v32 }, f)
  | .popc f => some ({ sigI 0x12 tyBits with dst := .dst w32 }, f)
  | .clz f => some ({ sigI 0x13 tyBits with dst := .dst w32 }, f)
  | .brev f => some (sigI 0x14 tyBits, f)
  | .sel f => some ({ sigII 0x15 tyBits with c := .pred }, f)
  | .cmp cc f => some ({ major := 0x16, minor := condMinor cc, tys := tyInt ++ tyBits, dst := .pred, a := vT, b := vT }, f)
  | .mov f => some (sigI 0x17 tyBits, f)
  | .fadd f => some (sigF 0x20 tyF6 vT .no true true, f)
  | .fsub f => some (sigF 0x21 tyF6 vT .no true true, f)
  | .fmul f => some (sigF 0x22 tyF6 vT .no true true, f)
  | .fma f => some (sigF 0x23 tyF6 vT vT true true, f)
  | .fmin f => some (sigF 0x24 tyF6 vT .no false false, f)
  | .fmax f => some (sigF 0x25 tyF6 vT .no false false, f)
  | .fcmp cc f => some ({ sigF 0x26 tyF4 vT .no false false with minor := fcondMinor cc, dst := .pred }, f)
  | .fclass f => some ({ sigF 0x27 tyF4 v32 .no false false with dst := .pred, fz := false }, f)
  | .frint f => some (sigF 0x28 tyF4 .no .no true false, f)
  | .ex2s f => some (sigF 0x29 tyF3 vT vT false false, f)
  | .lg2 f => some (sigF 0x2a tyF3 .no .no false false, f)
  | .rcp f => some (sigF 0x2b tyF3 .no .no false false, f)
  | .rsq f => some (sigF 0x2c tyF3 .no .no false false, f)
  | .sqrt f => some (sigF 0x2d tyF4 .no .no (f.ty = .f64) false, f)
  | .div f => some (sigF 0x2e [.f64, .f32] vT .no true true, f)
  | .cvt src f => some ({ major := 0x38, minor := tyCode src, acc := false, tys := tyAll, dst := .dst .t, a := .val .s,
                          modes := true, sat := true, fz := true }, f)
  | .pack f => some ({ major := 0x39, acc := false, tys := tyPack, dst := .dst w32, a := .val (.fix .f32), b := .val (.fix .f32),
                       c := if f.ty = .bf16x2 ∨ f.ty = .f16x2 then .no else .val (.fix .f32),
                       d := if f.ty = .bf16x2 ∨ f.ty = .f16x2 then .no else .val (.fix .f32),
                       modes := f.ty ≠ .lg6, sat := f.ty = .bf16x2 ∨ f.ty = .f16x2 ∨ f.ty = .e5m2 }, f)
  | .unpack f => some ({ major := 0x3a, acc := false, tys := tyPack, dst := .dst w32, a := .val packed, b := v32 }, f)
  | .dot2 f => some ({ major := 0x3b, acc := false, tys := [.bf16x2, .f16x2], dst := .dst w32, a := .val packed,
                       b := .val packed, c := .val (.fix .f32), modes := true, sat := true }, f)
  | .dp4 f => some ({ major := 0x3c, acc := false, tys := [.i8, .n8, .e4m3, .e5m2], dst := .dst w32, a := .val packed,
                      b := .val packed, c := .val .acc, modes := f.ty = .e4m3 ∨ f.ty = .e5m2, sat := true }, f)
  | .qswapH f => some ({ major := 0x40, minor := 0, tys := tyBits, dst := .reg .t, a := .lane .t }, f)
  | .qswapV f => some ({ major := 0x40, minor := 1, tys := tyBits, dst := .reg .t, a := .lane .t }, f)
  | .qbcast f => some ({ major := 0x41, tys := tyBits, dst := .reg .t, a := .lane .t, b := .lane w32 }, f)
  | .qsum f => some ({ major := 0x42, tys := tyNum, dst := .reg .t, a := .lane .t, modes := f.ty = .f32 ∨ f.ty = .f64 }, f)
  | .shfl m f => some ({ major := 0x43, minor := shflMinor m, tys := tyBits, dst := .reg .t, a := .lane .t, b := .lane w32 }, f)
  | .voteAny f => some ({ major := 0x44, minor := 0, dst := .pred, a := .pred }, f)
  | .voteAll f => some ({ major := 0x44, minor := 1, dst := .pred, a := .pred }, f)
  | .voteBallot f => some ({ major := 0x44, minor := 2, tys := tyBits, dst := .reg .t, a := .pred }, f)
  | .red op f => some ({ major := 0x45, minor := redMinor op,
                         tys := if op = .add ∨ op = .min ∨ op = .max then tyNum else tyBits,
                         dst := .reg .t, a := .lane .t, modes := op = .add ∧ (f.ty = .f32 ∨ f.ty = .f64) }, f)
  | .scan op excl f => some ({ major := 0x46, minor := redMinor op + (if excl then 8 else 0),
                               tys := if op = .add ∨ op = .min ∨ op = .max then tyNum else tyBits,
                               dst := .reg .t, a := .lane .t, modes := op = .add ∧ (f.ty = .f32 ∨ f.ty = .f64) }, f)
  | .matchLanes f => some ({ major := 0x47, tys := tyBits, dst := .reg w64, a := .lane .t }, f)
  | .pand f => some (sigP 0x50 .pred, f)
  | .por f => some (sigP 0x51 .pred, f)
  | .pxor f => some (sigP 0x52 .pred, f)
  | .pnot f => some (sigP 0x53 .no, f)
  | .ptest f => some ({ major := 0x54, tys := tyBits, dst := .pred, a := vT }, f)
  | .bra f => some (sigC 0x58 0 .no .rel, f)
  | .brQ f => some ({ sigC 0x59 0 .no .q12 .rel with acc := false }, f)
  | .brx f => some (sigC 0x5a 0 .no .sec, f)
  | .call f => some (sigC 0x5b 0 (.regUni w32) .relSec, f)
  | .ret f => some (sigC 0x5c 0 .no .secRU, f)
  | .exit f => some (sigC 0x5d, f)
  | .joinInit f => some (sigC 0x5e 0 .no .set (.val w64), f)
  | .joinEnter f => some (sigC 0x5e 1 .no .set, f)
  | .joinQuit f => some (sigC 0x5e 2 .no .set, f)
  | .joinWait f => some (sigC 0x5e 3 .no .set, f)
  | .joinTest f => some (sigC 0x5e 4 .pred .set, f)
  | .joinSave f => some (sigC 0x5e 5 .no .set v32, f)
  | .joinLoad f => some (sigC 0x5e 6 .no .set v32, f)
  | .yield f => some (sigC 0x5f, f)
  | .nap f => some (sigC 0x60 0 .no v32, f)
  | .trap f => some (sigC 0x61 0 .no .code16, f)
  | .brk f => some (sigC 0x62 0 .no .code16, f)
  | .nop f => some (sigC 0x63, f)
  | .ldQ f => some (sigA 0x68 0 tyLoad .fwd12 .gbase .off .no .no mAcq true, f)
  | .ldY f => some (sigA 0x68 1 tyLoad (.regUni .t) .gbase .off .no .no 0 true, f)
  | .ldSp f => some (sigA 0x68 2 tyLoad .fwdReg v32 .off .no .no 0 true, f)
  | .ldFab f => some (sigA 0x68 3 tyLoad .fwd12 .gbase .off .no .no mAcq true, f)
  | .ldMc f => some (sigA 0x68 4 tyLoad .fwd12 .gbase .off .no .no 0 true, f)
  | .stream f => some (sigA 0x69 0 tyLoad .fwd11 .desc .no .no .no 0 true, f)
  | .st f => some (sigA 0x6a 0 tyStore .no .gbase .off .q13 .no mRel true, f)
  | .stY f => some (sigA 0x6a 1 tyStore .no .gbase .off vT .no mRel true, f)
  | .stSp f => some (sigA 0x6a 2 tyStore .no v32 .off .q13val .no 0 true, f)
  | .prefetch f => some (sigA 0x6b 0 [.none] .no .gbase .off .no .no 0 true, f)
  | .qflush f => some ({ sigA 0x6c 0 [.none] .no .qpos .no .no .no 0 false with exe := true }, f)
  | .qcount f => some ({ sigA 0x6d 0 [.none] (.reg w32) .qpos .no .no .no 0 false with exe := true }, f)
  | .atom op f => some (sigA 0x6e (atomMinor op)
      (match op with
        | .add => [.i32, .n32, .i64, .n64, .f32, .f64, .bf16x2]
        | .min | .max => [.i32, .n32, .i64, .n64, .f32, .f64, .bf16x2]
        | _ => tyBits) .regQ11 .base .off vT .no (mSp ||| mNr ||| mAcq ||| mRel) true, f)
  | .atomCas f => some (sigA 0x6e 7 tyBits .regQ11 .base .off vT vT (mSp ||| mNr ||| mAcq ||| mRel) true, f)
  | .lr f => some (sigA 0x6f 0 tyBits (.reg .t) .base .off .no .no mSp true, f)
  | .sc f => some (sigA 0x70 0 tyBits .pred .base .off vT .no mSp true, f)
  | .fence s f => some (sigA 0x71 (scopeCode s) [.none] (.reg w32) .no .no .no .no mNr false, f)
  | .smov f => some ({ sigA 0x72 0 tyBits (.dst .t) v32 .no .no .no 0 false with exe := true }, f)
  | .barInit f => some (sigA 0x7c 0 [.none] .no .base .off v32 .no mSp false, f)
  | .barArrive f => some (sigA 0x7c 1 [.none] (.reg w32) .base .off v32 .no (mSp ||| mNr) false, f)
  | .barWait f => some (sigA 0x7c 2 [.none] (.reg w32) .base .off v32 .no (mSp ||| mNr) false, f)
  | .barInval f => some (sigA 0x7c 3 [.none] .no .base .off .no .no mSp false, f)
  | .barTest f => some (sigA 0x7c 4 [.none] .pred .base .off v32 .no mSp false, f)
  | .copyAsync f => some (sigA 0x7d 0 [.none] .no .copyDst .copySrc v32 .copyBar 0x3f true, f)
  | .copyWait f => some (sigA 0x7d 1 [.none] (.reg w32) v32 v32 .no .no 0 false, f)
  | .collRs f => some (sigA 0x7d 0x10 [.none] .no .desc .no .no .no 0 false, f)
  | .collAg f => some (sigA 0x7d 0x11 [.none] .no .desc .no .no .no 0 false, f)
  | .task f => some (sigA 0x7d 0x20 [.none] (.reg w32) .no .no .no .no mNr false, f)
  | .post f => some (sigA 0x7d 0x21 [.none] (.reg w32) .gbase .recSrc .no .no mNr false, f)
  | .postCnt f => some (sigA 0x7d 0x21 [.none] (.reg w32) .gbase .off v32 .no (mSp ||| mNr) false, f)
  | .seal f => some (sigA 0x7d 0x22 [.none] (.reg w32) .gbase .no .no .no mNr false, f)
  | .steal f => some (sigA 0x7d 0x23 [.none] .desc .gbase .no .no .no 0 false, f)
  | .mma f => some (sigM 0x78 0 [.none] .tile .mmaOp .mmaOp .fmt (.lane w32) false 1, f)
  | .mmaTeam f => some (sigM 0x78 1 [.none] .tile .record .record .fmt (.lane w32) false 1, f)
  | .zclr f => some (sigM 0x79 0 [.none] .tile .no .no .no .no, f)
  | .zld f => some (sigM 0x79 1 tyF4 .tile (.lane w32) (.lane w32) .no .no, f)
  | .zst f => some (sigM 0x79 2 [.f64, .f32, .bf16, .f16, .e5m2, .e4m3, .e2m1] .no (.lane w32) .tile (.lane w32) .fmt true, f)
  | .zcvt f => some (sigM 0x79 3 [.f64, .f32, .bf16, .f16, .e5m2, .e4m3, .e2m1] .tile .tile .fmt .no .no true, f)
  | .zadd f => some (sigM 0x79 4 [.none] .tile .tile .fmt .no .no, f)
  | .sclSetA f => some (sigM 0x7a 0 [.none] .no .uni64 .uni32 .no .no false 1, f)
  | .sclSetB f => some (sigM 0x7a 0 [.none] .no .uni64 .uni32 .no .no false 1, f)
  | .fmtVote f => some (sigM 0x7b 0 [.none] (.reg w32) .fmt .no .no .no, f)
  | .sysrd f => some (sigS 0 (.regUni .t) .sysIdx .no .no tyBits, f)
  | .syswr f => some (sigS 1 .no .sysIdx vT .no tyBits, f)
  | .sampleWrite f => some (sigS 1 .no .sysIdx vT .no tyBits, f)
  | .eret f => some (sigS 2 .no v32 v32, f)
  | .tret f => some (sigS 3 (.dst w32) v32, f)
  | .tlbinv f => some (sigS 4 .no .gbase v32, f)
  | .tlbinvAll f => some (sigS 5 .no v32, f)
  | .ctxsave f => some (sigS 6 (.regUni w64) v32 (.val w64) v32 [.none] 1, f)
  | .ctxsaveFree f => some (sigS 6 (.regUni w64) v32 (.val w64) v32 [.none] 1, f)
  | .ctxload f => some (sigS 7 (.dst w32) v32 (.val w64), f)
  | .halt f => some (sigS 8 (.dst w32) v32 .no .no [.none] 1, f)
  | .haltSafe f => some (sigS 8 (.dst w32) v32 .no .no [.none] 1, f)
  | .l1wb f => some (sigS 9, f)
  | .fwcall f => some (sigS 0xa (.dst w32) v32 (.val w64), f)
  | .sysfence f => some (sigS 0xb, f)
  | _ => none

/-- The base-word rows of R86: their major, base type, number of sources, and whether UNS is legal. -/
structure BaseSig where
  major : Nat
  ty : Ty
  srcs : Nat
  uns : Bool := false
deriving DecidableEq, Repr

def base? : Instr → Option (BaseSig × Base)
  | .addBase f => some (⟨0x00, .i32, 2, false⟩, f)
  | .subBase f => some (⟨0x01, .i32, 2, false⟩, f)
  | .minBase f => some (⟨0x05, .i32, 2, true⟩, f)
  | .maxBase f => some (⟨0x06, .i32, 2, true⟩, f)
  | .absBase f => some (⟨0x07, .i32, 1, false⟩, f)
  | .negBase f => some (⟨0x08, .i32, 1, false⟩, f)
  | .andBase f => some (⟨0x09, .b32, 2, false⟩, f)
  | .orBase f => some (⟨0x0a, .b32, 2, false⟩, f)
  | .xorBase f => some (⟨0x0b, .b32, 2, false⟩, f)
  | .notBase f => some (⟨0x0c, .b32, 1, false⟩, f)
  | .shlBase f => some (⟨0x0d, .b32, 2, false⟩, f)
  | .shrBase f => some (⟨0x0e, .b32, 2, false⟩, f)
  | .sarBase f => some (⟨0x0f, .b32, 2, false⟩, f)
  | .popcBase f => some (⟨0x12, .b32, 1, false⟩, f)
  | .clzBase f => some (⟨0x13, .b32, 1, false⟩, f)
  | .brevBase f => some (⟨0x14, .b32, 1, false⟩, f)
  | .movBase f => some (⟨0x17, .b32, 1, false⟩, f)
  | .nopBase f => some (⟨0x63, .none, 0, false⟩, f)
  | _ => none

/-- The register that a 6-bit base field names (R85). -/
def baseReg (n : BitVec 6) : Operand :=
  if n.toNat < 48 then .reg (n.zeroExtend 7) else .uni (BitVec.ofNat 6 (n.toNat - 48))

/-- The extended form that a base word behaves as (R86, R87). -/
def baseExt (g : BaseSig) (f : Base) : Ext :=
  let lastB : Operand := if f.lit.isSome then .lit else if f.imm then .imm (f.b.zeroExtend 7) else baseReg f.b
  { stop := f.stop
    dst := if g.srcs = 0 then .reg 0 else baseReg f.d
    a := if g.srcs = 0 then .reg 0 else if g.srcs = 1 ∧ f.lit.isSome then .lit else baseReg f.a
    b := if g.srcs = 2 then lastB else .reg 0
    ty := if f.uns then .n32 else g.ty
    lit := f.lit }

/-- The fields of any encoded instruction, in extended form. -/
def ext? (i : Instr) : Option Ext :=
  match sig? i with
  | some (_, f) => some f
  | none => (base? i).map fun p => baseExt p.1 p.2

/-! ### Legality (R86-R96, R106) -/

/-- A register of the slice's per-lane file (R89): `y64` to `y127` do not exist. -/
def regOk (sl : Slice) (n : BitVec 7) : Bool := decide (sl = .execute ∨ n.toNat < 64)

/-- A queue that the slice may pop as a value source (R47). -/
def popOk (sl : Slice) (n : BitVec 4) : Bool :=
  match sl with
  | .execute => decide (n.toNat ≤ 11)
  | .access => decide (14 ≤ n.toNat)

/-- A queue that the slice may push as a value destination (R47, R122). -/
def pushOk (sl : Slice) (n : BitVec 4) : Bool :=
  match sl with
  | .execute => decide (13 ≤ n.toNat)
  | .access => decide (n.toNat ≤ 12)

def specOk (sl : Slice) (n : BitVec 7) (w : Nat) : Bool :=
  specialListed n.toNat && specialSlice n.toNat sl && decide (specialWidth n.toNat = w)

/-- A value source of type `t` (R120, R90, R91). -/
def valOk (sl : Slice) (ty : Ty) (o : Operand) : Bool :=
  match o with
  | .reg n => regOk sl n
  | .uni _ => true
  | .queue n => popOk sl n
  | .special n => specOk sl n (tyWidth ty)
  | .lit => true
  | .imm _ => tyImmOk ty
  | .set _ => false

def isReg (sl : Slice) : Operand → Bool
  | .reg n => regOk sl n
  | _ => false

def isUni : Operand → Bool
  | .uni _ => true
  | _ => false

/-- The kinds of operands a position accepts. -/
def kindOk (sl : Slice) (f : Ext) (src : Ty) (k : Kind) (o : Operand) : Bool :=
  match k with
  | .no => decide (o = .reg 0)
  | .val k => valOk sl (k.ty f.ty src) o
  | .lane k => valOk sl (k.ty f.ty src) o && (match o with | .queue _ => false | _ => true)
  | .dst _ => isReg sl o || isUni o || (match o with | .queue n => pushOk sl n | _ => false)
  | .reg _ => isReg sl o
  | .regUni _ => isReg sl o || isUni o
  | .pred => match o with | .reg n => decide (n.toNat < 8) | _ => false
  | .tile => match o with | .reg n => decide (n.toNat < 8) | _ => false
  | .set => match o with | .set _ => true | _ => false
  | .qpos => match o with | .queue _ => true | _ => false
  | .gbase => gb o
  | .base => if f.sp then valOk sl .b32 o else gb o
  | .off => valOk sl .b32 o && (decide (o ≠ .lit) || decide (f.a ≠ .lit))
  | .fwd12 => match o with | .queue n => decide (n.toNat ≤ 12) | _ => false
  | .fwd11 => match o with | .queue n => decide (n.toNat ≤ 11) | _ => false
  | .fwdReg => isReg sl o || isUni o || (match o with | .queue n => decide (n.toNat ≤ 12) | _ => false)
  | .regQ11 => isReg sl o || (match o with | .queue n => decide (n.toNat ≤ 11) | _ => false)
  | .q13 => decide (o = .queue 13)
  | .q13val => decide (o = .queue 13) || valOk sl f.ty o
  | .desc => match o with | .uni n => decide (n.toNat % 2 = 0 ∧ n.toNat ≤ 56) | _ => false
  | .fmt => isReg sl o
  | .mmaOp => match o with
    | .uni n => decide (n.toNat % 2 = 0)
    | .reg _ => true
    | .queue n => decide (n.toNat ≤ 11)
    | _ => false
  | .record => match o with | .uni n => decide (n.toNat % 2 = 0) | _ => false
  | .uni64 => match o with | .uni n => decide (n.toNat % 2 = 0) | .lit => true | _ => false
  | .uni32 => match o with | .uni _ => true | .lit => true | .imm _ => true | _ => false
  | .recSrc => match o with | .reg n => regOk sl n | .uni n => decide (n.toNat % 2 = 0 ∧ n.toNat ≤ 56) | _ => false
  | .rel => match o with | .imm _ => true | .lit => true | _ => false
  | .relSec => isReg sl o || isUni o || (match o with | .imm _ => true | .lit => true | _ => false)
  | .sec => isReg sl o || isUni o || (match o with | .queue n => popOk sl n | _ => false)
  | .secRU => isReg sl o || isUni o
  | .q12 => decide (o = .queue 12)
  | .code16 => match o with | .imm v => decide (v.toNat < 64) | .lit => true | _ => false
  | .sysIdx => match o with | .imm v => decide (v.toNat < 64) | .lit => true | _ => false
  | .copyDst => if f.dir = 1 then gb o else valOk sl .b32 o
  | .copySrc => if f.dir = 0 then gb o else valOk sl .b32 o
  | .copyBar => if f.bar then valOk sl .b32 o else decide (o = .reg 0)
where
  /-- A global base (R188): an even pair, `q14` or `q15`, or the literal. In the execute slice (`tlbinv`) the pair is one of
  the slice's own `x` registers in place of `y`, and no queue is accepted, since `q14` and `q15` are not its to pop (R47). -/
  gb (o : Operand) : Bool :=
    match o with
    | .reg n => regOk sl n && decide (n.toNat % 2 = 0)
    | .uni n => decide (n.toNat % 2 = 0)
    | .queue n => decide (sl = .access) && popOk sl n
    | .lit => true
    | _ => false

/-- Bits that a position takes of the literal (R91). -/
def litBits (f : Ext) (src : Ty) (k : Kind) : Nat :=
  match k with
  | .val k => tyWidth (k.ty f.ty src)
  | .lane k => tyWidth (k.ty f.ty src)
  | .gbase => 64
  | .base => if f.sp then 32 else 64
  | .q13val => tyWidth f.ty
  | .uni64 => 64
  | .copyDst => if f.dir = 1 then 64 else 32
  | .copySrc => if f.dir = 0 then 64 else 32
  | .code16 => 16
  | _ => 32

/-- The four source positions with their kinds. -/
def srcPositions (g : Sig) (f : Ext) : List (Kind × Operand) := [(g.a, f.a), (g.b, f.b), (g.c, f.c), (g.d, f.d)]

/-- The literal is named exactly when it is there, and its bits above the widest position are zero (R89, R91). -/
def litOk (g : Sig) (f : Ext) (src : Ty) : Bool :=
  let named := (srcPositions g f).filter fun p => decide (p.2 = .lit)
  match f.lit with
  | none => named.isEmpty
  | some v => !named.isEmpty && decide (v.toNat < 2 ^ (named.foldl (fun m p => Nat.max m (litBits f src p.1)) 0))

/-- A guard field: 0b1000 is reserved (R92). -/
def guardOk (g : BitVec 4) : Bool := decide (g ≠ 8)

/-- The conversion action of a pair of types (R73). -/
inductive CvtAct | exact | round | lg | int | bad
deriving DecidableEq, Repr

/-- Rank of the floating-point formats: a conversion to a format of the set below is exact. -/
def cvtAct (s t : Ty) : CvtAct :=
  let isInt : Ty → Bool := fun x => decide (x ∈ [Ty.i8, .i16, .i32, .i64, .n8, .n16, .n32, .n64])
  let isOb : Ty → Bool := fun x => decide (x ∈ [Ty.ob8, .ob4])
  let isF : Ty → Bool := fun x => decide (x ∈ [Ty.f64, .f32, .bf16, .f16, .e5m2, .e4m3, .e2m1])
  if s = t then .bad
  else if isF s then
    if t = .lg6 then .lg
    else if isInt t || isOb t then .int
    else if isF t then
      (match s, t with
        | .f32, .f64 => .exact
        | .bf16, .f64 | .bf16, .f32 => .exact
        | .f16, .f64 | .f16, .f32 => .exact
        | .e5m2, .f64 | .e5m2, .f32 | .e5m2, .bf16 | .e5m2, .f16 => .exact
        | .e4m3, .f64 | .e4m3, .f32 | .e4m3, .bf16 | .e4m3, .f16 => .exact
        | .e2m1, _ => .exact
        | _, _ => .round)
    else .bad
  else if s = .lg6 then
    if t = .f64 ∨ t = .f32 then .exact else if isF t then .round else .bad
  else if isOb s then
    if t ∈ [Ty.f64, .f32, .bf16, .f16] then .exact
    else if isF t then .round
    else if isInt t || isOb t then .int
    else .bad
  else if isInt s then
    if t = .f64 then (if tyWidth s = 64 then .round else .exact)
    else if isF t then .round
    else if isInt t || isOb t then .int
    else .bad
  else .bad

/-- Width of a system register; none when the index is not listed (R333, R393, R407, R427). -/
def sysWidth (idx : Nat) : Option Nat :=
  match idx with
  | 0x000 => some 32 | 0x001 => some 64 | 0x002 => some 32 | 0x003 => some 32 | 0x004 => some 32 | 0x005 => some 64
  | 0x006 => some 32 | 0x007 => some 64 | 0x008 => some 32 | 0x009 => some 32 | 0x00a => some 64 | 0x00b => some 32
  | 0x010 => some 32 | 0x011 => some 64 | 0x012 => some 32 | 0x013 => some 64 | 0x014 => some 32 | 0x015 => some 32
  | 0x018 => some 32 | 0x019 => some 32 | 0x01a => some 32 | 0x01b => some 32
  | 0x01c => some 32 | 0x01d => some 32 | 0x01e => some 32 | 0x01f => some 32
  | 0x020 => some 64 | 0x021 => some 32 | 0x022 => some 64 | 0x023 => some 32 | 0x024 => some 32
  | 0x030 => some 64 | 0x031 => some 32
  | _ => none

/-- The index operand of `sysrd` and `syswr` (R336). -/
def sysIndex (f : Ext) : Nat :=
  match f.a with
  | .imm v => v.toNat
  | _ => (f.lit.getD 0).toNat

/-- TYPE equals the register's width (R336); an index outside the table is judged at run time (R333). -/
def sysTyOk (f : Ext) : Bool :=
  match sysWidth (sysIndex f) with
  | some w => decide (tyWidth f.ty = w)
  | none => true

/-- An even pair of registers (R336: the destination of `ctxsave`). -/
def pairOk (o : Operand) : Bool :=
  match o with
  | .reg n => decide (n.toNat % 2 = 0)
  | .uni n => decide (n.toNat % 2 = 0)
  | _ => false

/-- The rules that an entry adds to its row of the tables. -/
def extraOk (i : Instr) : Bool :=
  match i with
  | .cmp cc f => decide (f.ty = .b32 ∨ f.ty = .b64 → cc = .eq ∨ cc = .ne)
  | .cvt s f =>
    match cvtAct s f.ty with
    | .bad => false
    | .lg => decide (f.rnd = .rne) && !f.sat && (!f.fz || decide (f.ty = .f64 ∨ f.ty = .f32))
    | .round => (!f.sat || decide (f.ty ∈ [Ty.f64, .f32, .bf16, .f16, .e5m2])) && (!f.fz || decide (f.ty = .f64 ∨ f.ty = .f32))
    | _ => !f.sat && (!f.fz || decide (f.ty = .f64 ∨ f.ty = .f32))
  | .dp4 _ => true
  | .atom _ f => !f.nr || decide (f.dst = .reg 0)
  | .atomCas f => !f.nr || decide (f.dst = .reg 0)
  | .fence _ f => !f.nr || decide (f.dst = .reg 0)
  | .barArrive f => !f.nr || decide (f.dst = .reg 0)
  | .barWait f => !f.nr || decide (f.dst = .reg 0)
  | .task f => !f.nr || decide (f.dst = .reg 0)
  | .post f => !f.nr || decide (f.dst = .reg 0)
  | .postCnt f => f.sp && (!f.nr || decide (f.dst = .reg 0))
  | .seal f => !f.nr || decide (f.dst = .reg 0)
  | .copyAsync f => decide (f.dir ≠ 3)
  | .sclSetA f => !f.modBit 0
  | .sclSetB f => f.modBit 0
  | .sysrd f => sysTyOk f
  | .syswr f => sysTyOk f && decide (sysIndex f ≠ 0x015)
  | .sampleWrite f => sysTyOk f && decide (sysIndex f = 0x015)
  | .ctxsave f => !f.modBit 0 && pairOk f.dst
  | .ctxsaveFree f => f.modBit 0 && pairOk f.dst
  | .halt f => !f.modBit 0
  | .haltSafe f => f.modBit 0
  | _ => true

def srcTy : Instr → Ty
  | .cvt s _ => s
  | _ => .none

/-- The checks on an extended form that follow from its row alone. -/
def extOk (sl : Slice) (g : Sig) (f : Ext) (src : Ty) : Bool :=
  (match sl with | .access => g.acc | .execute => g.exe)
  && decide (f.ty ∈ g.tys)
  && kindOk sl f src g.dst f.dst && kindOk sl f src g.a f.a && kindOk sl f src g.b f.b
  && kindOk sl f src g.c f.c && kindOk sl f src g.d f.d
  && litOk g f src
  && guardOk f.g0 && guardOk f.g1
  && (g.modes || decide (f.rnd = .rne)) && (g.sat || !f.sat) && (g.fz || !f.fz)
  && decide (f.mods &&& ~~~g.mods = 0)
  && (g.hint || decide (f.hint = .none)) && (g.ahead || decide (f.ahead = 0))

/-- The checks on a base word (R86, R87). -/
def baseOk (g : BaseSig) (f : Base) : Bool :=
  (g.uns || !f.uns)
  && (match g.srcs with
      | 0 => decide (f.d = 0 ∧ f.a = 0 ∧ f.b = 0) && !f.imm && f.lit.isNone
      | 1 => decide (f.b = 0) && !f.imm && (f.lit.isNone || decide (f.a = 0))
      | _ => f.lit.isNone || (decide (f.b = 0) && !f.imm))
  && (match f.lit with | none => true | some v => decide (v.toNat < 2 ^ 32))

/-- The instruction is a legal encoding in the slice (R97's first check). -/
def legal (sl : Slice) (i : Instr) : Bool :=
  match sig? i with
  | some (g, f) => extOk sl g f (srcTy i) && extraOk i
  | none => match base? i with
    | some (g, f) => baseOk g f
    | none => false

end Sys2Proof.Machine
end

