-- ==== Sys2Proof/Machine/Num.lean ====
section
/-! DEFINITION. The number formats and the one rounding of R61 to R77. Exact values are dyadic rationals; a quotient is
kept as numerator and denominator until it is rounded. -/

namespace Sys2Proof.Machine
open Sys2Proof

/-- A binary floating-point format (R61): mantissa and exponent widths, bias, whether it has infinities, its largest
finite magnitude code and its canonical NaN (R62). -/
structure Fmt where
  m : Nat
  ew : Nat
  bias : Nat
  inf : Bool
  maxCode : Nat
  nan : Nat
deriving DecidableEq, Repr

def fp64 : Fmt := ⟨52, 11, 1023, true, 0x7fefffffffffffff, 0x7ff8000000000000⟩
def fp32 : Fmt := ⟨23, 8, 127, true, 0x7f7fffff, 0x7fc00000⟩
def bf16F : Fmt := ⟨7, 8, 127, true, 0x7f7f, 0x7fc0⟩
def fp16 : Fmt := ⟨10, 5, 15, true, 0x7bff, 0x7e00⟩
def e5m2F : Fmt := ⟨2, 5, 15, true, 0x7b, 0x7e⟩
def e4m3F : Fmt := ⟨3, 4, 7, false, 0x7e, 0x7f⟩
def e2m1F : Fmt := ⟨1, 2, 1, false, 0x7, 0x0⟩

/-- The format of a floating-point type; packed types name the format of their elements. -/
def fmtOf : Ty → Fmt
  | .f64 => fp64 | .bf16 | .bf16x2 => bf16F | .f16 | .f16x2 => fp16 | .e5m2 => e5m2F | .e4m3 => e4m3F | .e2m1 => e2m1F
  | _ => fp32

/-- The smallest normal exponent, 1 − bias (R61). -/
def Fmt.emin (F : Fmt) : Int := 1 - F.bias
/-- The position of the sign bit. -/
def Fmt.signPos (F : Fmt) : Nat := F.m + F.ew
/-- A code of magnitude `mag` with a sign. -/
def Fmt.withSign (F : Fmt) (neg : Bool) (mag : Nat) : Nat := mag + (if neg then 2 ^ F.signPos else 0)
/-- The code of infinity, one above the largest finite code. -/
def Fmt.infCode (F : Fmt) : Nat := F.maxCode + 1

/-- An exact value: `fin neg n e` is ±n × 2^e; zeros keep a sign. -/
inductive Num
  | nan
  | inf (neg : Bool)
  | fin (neg : Bool) (n : Nat) (e : Int)
deriving DecidableEq, Repr

/-- The value of a code (R61, R62). -/
def decodeF (F : Fmt) (c : Nat) : Num :=
  let neg := c.testBit F.signPos
  let mag := c % 2 ^ F.signPos
  if mag ≤ F.maxCode then
    let ef := mag / 2 ^ F.m
    let mf := mag % 2 ^ F.m
    if ef = 0 then .fin neg mf (F.emin - F.m)
    else .fin neg (2 ^ F.m + mf) ((ef : Int) - F.bias - F.m)
  else if F.inf ∧ mag = F.infCode then .inf neg
  else .nan

/-- n × 2^k for any integer k, as numerator and denominator. -/
def scaleUp (n : Nat) (k : Int) : Nat := n * 2 ^ k.toNat

/-- floor(n × 2^k). -/
def floorScale (n : Nat) (k : Int) : Nat := if 0 ≤ k then n * 2 ^ k.toNat else n / 2 ^ (-k).toNat

/-- floor of log2 of num/den, both nonzero. -/
def floorLog2 (num den : Nat) : Int :=
  let l : Int := (Nat.log2 num : Int) - Nat.log2 den
  if scaleUp num (-l) < scaleUp den l then l - 1 else l

/-- The integer that R65's rounding step chooses for the quotient num/den of a value of the given sign. -/
def roundStep (mode : Rnd) (neg : Bool) (num den : Nat) : Nat :=
  let n := num / den
  let r := num % den
  if r = 0 then n
  else match mode with
    | .rne => if 2 * r < den then n else if den < 2 * r then n + 1 else if n % 2 = 0 then n else n + 1
    | .rz => n
    | .ru => if neg then n else n + 1
    | .rd => if neg then n + 1 else n

/-- The code that `round` of R65 gives for the finite value ±(num/den) × 2^e. -/
def roundRat (F : Fmt) (mode : Rnd) (neg : Bool) (num den : Nat) (e : Int) : Nat :=
  if num = 0 then F.withSign neg 0
  else
    let ex := max (floorLog2 num den + e) F.emin
    let k := e - (ex - F.m)
    let n := roundStep mode neg (scaleUp num k) (scaleUp den (-k))
    let mag := (ex - F.emin).toNat * 2 ^ F.m + n
    if mag ≤ F.maxCode then F.withSign neg mag
    else if F.inf ∧ (mode = .rne ∨ (mode = .ru ∧ neg = false) ∨ (mode = .rd ∧ neg = true)) then F.withSign neg F.infCode
    else F.withSign neg F.maxCode

/-- `round(x, F, mode)` of R65, as a code. -/
def round (F : Fmt) (mode : Rnd) (x : Num) : Nat :=
  match x with
  | .nan => F.nan
  | .inf neg => F.withSign neg (if F.inf then F.infCode else F.maxCode)
  | .fin neg n e => roundRat F mode neg n 1 e

/-- `sat` of R65 on a code. -/
def satF (F : Fmt) (c : Nat) : Nat :=
  if F.inf ∧ c % 2 ^ F.signPos = F.infCode then c - 1 else c

def satIf (b : Bool) (F : Fmt) (c : Nat) : Nat := if b then satF F c else c

/-- A code with 0 < |v| < 2^emin becomes a zero of its sign (R64). -/
def flushCode (F : Fmt) (c : Nat) : Nat :=
  if c % 2 ^ F.signPos < 2 ^ F.m then F.withSign (c.testBit F.signPos) 0 else c

def flushIf (b : Bool) (F : Fmt) (c : Nat) : Nat := if b then flushCode F c else c

/-! ### Exact arithmetic (R66, R134) -/

def Num.neg : Num → Num
  | .nan => .nan
  | .inf s => .inf (!s)
  | .fin s n e => .fin (!s) n e

/-- The exact product (R134). -/
def mulNum : Num → Num → Num
  | .nan, _ => .nan
  | _, .nan => .nan
  | .inf s, .inf t => .inf (s != t)
  | .inf s, .fin t n _ => if n = 0 then .nan else .inf (s != t)
  | .fin s n _, .inf t => if n = 0 then .nan else .inf (s != t)
  | .fin s n e, .fin t k f => .fin (s != t) (n * k) (e + f)

/-- A signed multiple of 2^e as a value; a zero takes the given sign. -/
def ofInt (zeroNeg : Bool) (v : Int) (e : Int) : Num :=
  if v = 0 then .fin zeroNeg 0 0 else .fin (decide (v < 0)) v.natAbs e

/-- A finite value as a signed multiple of 2^e, for e at most its own exponent. -/
def signedAt (neg : Bool) (n : Nat) (f e : Int) : Int :=
  let a : Int := (n * 2 ^ (f - e).toNat : Nat)
  if neg then -a else a

/-- The sign of an exact zero sum of operands that are not zeros of one sign (R66). -/
def zeroSign (mode : Rnd) : Bool := decide (mode = .rd)

/-- The exact sum (R66, R134). -/
def addNum (mode : Rnd) : Num → Num → Num
  | .nan, _ => .nan
  | _, .nan => .nan
  | .inf s, .inf t => if s = t then .inf s else .nan
  | .inf s, .fin _ _ _ => .inf s
  | .fin _ _ _, .inf t => .inf t
  | .fin s n e, .fin t k f =>
    if n = 0 ∧ k = 0 ∧ s = t then .fin s 0 0
    else
      let g := min e f
      ofInt (zeroSign mode) (signedAt s n e g + signedAt t k f g) g

/-- A product term is a zero whose sign does not affect a sum (R75). -/
def Num.dropZeroSign : Num → Num
  | .fin s n e => if n = 0 then .fin false 0 0 else .fin s n e
  | x => x

/-- `exact_block` of R75: an exact sum that is zero is +0. -/
def exactBlock (ps : List Num) : Num :=
  if ps.any (· = .nan) then .nan
  else if ps.any (· = .inf false) ∧ ps.any (· = .inf true) then .nan
  else ps.foldl (fun acc p => addNum .rne acc p.dropZeroSign) (.fin false 0 0)

/-- Comparison of two values that are not NaN, zeros equal (R136). -/
def ltNum : Num → Num → Bool
  | .inf s, .inf t => s && !t
  | .inf s, .fin _ _ _ => s
  | .fin _ _ _, .inf t => !t
  | .fin s n e, .fin t k f => let g := min e f; decide (signedAt s n e g < signedAt t k f g)
  | _, _ => false

def Num.isNan : Num → Bool
  | .nan => true
  | _ => false

def Num.isNeg : Num → Bool
  | .nan => false
  | .inf s => s
  | .fin s _ _ => s

def Num.isZero : Num → Bool
  | .fin _ n _ => decide (n = 0)
  | _ => false

/-! ### Division and square root (R140, R66) -/

/-- `div` of two values, rounded (R140). -/
def divCode (F : Fmt) (mode : Rnd) (a b : Num) : Nat :=
  match a, b with
  | .nan, _ => F.nan
  | _, .nan => F.nan
  | .inf _, .inf _ => F.nan
  | .inf s, .fin t _ _ => F.withSign (s != t) F.infCode
  | .fin s _ _, .inf t => F.withSign (s != t) 0
  | .fin s n e, .fin t k f =>
    if k = 0 then (if n = 0 then F.nan else F.withSign (s != t) F.infCode)
    else roundRat F mode (s != t) n k (e - f)

/-- floor of the square root of `n`, found from bit `k − 1` down. -/
def isqrtFrom : Nat → Nat → Nat → Nat
  | 0, _, r => r
  | k + 1, n, r => let c := r + 2 ^ k; isqrtFrom k n (if c * c ≤ n then c else r)

def isqrt (n : Nat) : Nat := isqrtFrom (Nat.log2 n / 2 + 1) n 0

/-- The correctly rounded square root (R66, R139). The root is taken to 128 bits below its leading bit and one more bit
says whether anything is left, which no rounding of R65 can confuse with an exact value. -/
def sqrtCode (F : Fmt) (mode : Rnd) (a : Num) : Nat :=
  match a with
  | .nan => F.nan
  | .inf s => if s then F.nan else F.withSign false F.infCode
  | .fin s n e =>
    if n = 0 then F.withSign s 0
    else if s then F.nan
    else
      let odd := e % 2
      let n' := n * 2 ^ (256 + odd.toNat)
      let r := isqrt n'
      roundRat F mode false (2 * r + (if r * r = n' then 0 else 1)) 1 ((e - odd) / 2 - 128 - 1)

/-! ### LG6 (R68 to R70) -/

/-- T of R68. -/
def lg6T (f : Nat) : Nat :=
  match f with
  | 0 => 0x8000 | 1 => 0x9838 | 2 => 0xb505 | _ => 0xd746

/-- ±T[f] × 2^(i − 15) for e = 4i + f (R68, R69). -/
def lg6Pow (neg : Bool) (e : Int) : Num := .fin neg (lg6T (e % 4).toNat) (e / 4 - 15)

/-- The value of an LG6 code (R68). -/
def lg6Val (c : Nat) : Num :=
  let L := c % 32
  if L = 0 then .fin (c.testBit 5) 0 0 else lg6Pow (c.testBit 5) ((L : Int) - 16)

/-- `lg6_mul` of R69. -/
def lg6Mul (a b : Nat) : Num :=
  if a % 32 = 0 ∨ b % 32 = 0 then .fin false 0 0
  else lg6Pow (a.testBit 5 != b.testBit 5) ((a % 32 : Nat) - 16 + ((b % 32 : Nat) - 16))

/-- |x| > 2^((2k − 31)/8), compared as the eighth power. -/
def aboveLg6 (n : Nat) (e : Int) (k : Nat) : Bool :=
  let d := 8 * e - (2 * (k : Int) - 31)
  decide (scaleUp 1 (-d) < scaleUp (n ^ 8) d)

/-- The conversion into LG6 (R70). -/
def toLg6 (x : Num) : Nat :=
  match x with
  | .nan => 0
  | .inf s => 31 + (if s then 32 else 0)
  | .fin s n e =>
    if n = 0 then 0
    else
      let L := ((List.range 32).filter fun k => aboveLg6 n e k).length
      if L = 0 then 0 else (min L 31) + (if s then 32 else 0)

/-! ### Integer conversion (R74) -/

/-- The range of an integer type or an OB code. -/
def intRange : Ty → Int × Int
  | .i8 => (-2 ^ 7, 2 ^ 7 - 1) | .i16 => (-2 ^ 15, 2 ^ 15 - 1) | .i32 => (-2 ^ 31, 2 ^ 31 - 1) | .i64 => (-2 ^ 63, 2 ^ 63 - 1)
  | .n8 | .ob8 => (0, 255) | .n16 => (0, 2 ^ 16 - 1) | .n32 => (0, 2 ^ 32 - 1) | .n64 => (0, 2 ^ 64 - 1)
  | .ob4 => (0, 15)
  | _ => (0, 2 ^ 32 - 1)

def clampInt (t : Ty) (x : Int) : Int := max (intRange t).1 (min (intRange t).2 x)

def isSigned : Ty → Bool
  | .i8 | .i16 | .i32 | .i64 => true
  | _ => false

/-- The integer that `round` at unbounded precision gives for ±n × 2^e (R74, R138). -/
def roundInt (mode : Rnd) (neg : Bool) (n : Nat) (e : Int) : Int :=
  let v : Int := (roundStep mode neg (scaleUp n e) (scaleUp 1 (-e)) : Nat)
  if neg then -v else v

/-- The integer rule of R74. -/
def toIntRule (t : Ty) (mode : Rnd) (x : Num) : Int :=
  match x with
  | .nan => 0
  | .inf s => if s then (intRange t).1 else (intRange t).2
  | .fin s n e => clampInt t (roundInt mode s n e)

/-- An integer of a type's width, read from bits (R121, R141). -/
def readInt (t : Ty) (w : Nat) (v : Nat) : Int :=
  let u := v % 2 ^ w
  if isSigned t ∧ 2 ^ (w - 1) ≤ u then (u : Int) - 2 ^ w else u

/-- An integer as w bits. -/
def wrap (w : Nat) (x : Int) : Nat := (x % (2 ^ w : Nat)).toNat

def isIntTy (t : Ty) : Bool := decide (t ∈ [Ty.i8, .i16, .i32, .i64, .n8, .n16, .n32, .n64])
def isObTy (t : Ty) : Bool := decide (t = .ob8 ∨ t = .ob4)

/-- The exact value of a source of `cvt` (R73, R141). -/
def cvtRead (fz : Bool) (s : Ty) (v : Nat) : Num :=
  if isIntTy s || isObTy s then ofInt false (readInt s (tyWidth s) v) 0
  else if s = .lg6 then lg6Val (v % 64)
  else decodeF (fmtOf s) (flushIf fz (fmtOf s) (v % 2 ^ tyWidth s))

/-- The result of a conversion as the bits of its 32- or 64-bit value (R141). -/
def cvtVal (s t : Ty) (mode : Rnd) (sat fz : Bool) (v : Nat) : Nat :=
  let x := cvtRead fz s v
  if isIntTy t then wrap (if tyWidth t = 64 then 64 else 32) (toIntRule t mode x)
  else if isObTy t then (toIntRule t mode x).toNat
  else if t = .lg6 then toLg6 x
  else flushIf fz (fmtOf t) (satIf sat (fmtOf t) (round (fmtOf t) mode x))

end Sys2Proof.Machine
end

