-- ==== Sys2Proof/Machine/Flags.lean ====
section
/-! DEFINITION. Outcomes that instructions test or report: comparisons (R131, R136), classes (R137), and the status word of
a fence (R55). -/

namespace Sys2Proof.Machine
open Sys2Proof

/-- A comparison of integers (R131). -/
def cmpInt (cc : Cmp) (a b : Int) : Bool :=
  match cc with
  | .eq => decide (a = b)
  | .ne => decide (a ≠ b)
  | .lt => decide (a < b)
  | .le => decide (a ≤ b)
  | .gt => decide (b < a)
  | .ge => decide (b ≤ a)

/-- a ≤ b for values that are not NaN. -/
def leNum (a b : Num) : Bool := !ltNum b a

/-- A floating-point comparison (R136). -/
def cmpNum (cc : FCmp) (a b : Num) : Bool :=
  let nan := a.isNan || b.isNan
  match cc with
  | .eq => !nan && leNum a b && leNum b a
  | .ne => nan || !(leNum a b && leNum b a)
  | .lt => !nan && ltNum a b
  | .le => !nan && leNum a b
  | .gt => !nan && ltNum b a
  | .ge => !nan && leNum b a
  | .un => nan
  | .num => !nan

/-- The class bit of a code (R137). -/
def classBit (F : Fmt) (code : Nat) : Nat :=
  let neg := code.testBit F.signPos
  let mag := code % 2 ^ F.signPos
  if F.maxCode + 1 < mag then (if code.testBit (F.m - 1) then 8 else 9)
  else if mag = F.maxCode + 1 then (if neg then 0 else 7)
  else if mag = 0 then (if neg then 3 else 4)
  else if mag < 2 ^ F.m then (if neg then 2 else 5)
  else if neg then 1 else 6

/-- The order of `fmin` and `fmax` (R135): as `ltNum`, with −0 below +0. -/
def ltSigned (a b : Num) : Bool :=
  if a.isZero && b.isZero then a.isNeg && !b.isNeg else ltNum a b

/-- `fmin` or `fmax` of two codes (R135). -/
def minMax (F : Fmt) (isMax : Bool) (a b : Nat) : Nat :=
  let x := decodeF F a
  let y := decodeF F b
  if x.isNan && y.isNan then F.nan
  else if x.isNan then b
  else if y.isNan then a
  else if isMax then (if ltSigned x y then b else a)
  else if ltSigned y x then b else a

end Sys2Proof.Machine
end

