-- ==== Sys2Proof/Machine/Atomic.lean ====
section
/-! DEFINITION. The operations on codes that reductions and atomics share (R153, R216), and packed types (R121, R134). -/

namespace Sys2Proof.Machine
open Sys2Proof

def isPacked (t : Ty) : Bool := decide (t = .bf16x2 ∨ t = .f16x2)

/-- A result from codes of the operands: the whole of a scalar type, or each 16-bit half of a packed type (R121, R134). -/
def byElement (t : Ty) (op : List Nat → Nat) (vs : List Nat) : Nat :=
  if isPacked t then op (vs.map fun v => v % 2 ^ 16) + 2 ^ 16 * op (vs.map fun v => v / 2 ^ 16 % 2 ^ 16)
  else op vs

/-- The values of three operands from their codes. -/
def arg (vs : List Nat) (k : Nat) : Nat := vs.getD k 0

def isFloatTy (t : Ty) : Bool := decide (t ∈ [Ty.f64, .f32, .bf16, .f16])

/-- The operation of a row of R153 on codes of the type. -/
def combine (op : RedOp) (t : Ty) (rnd : Rnd) (a b : Nat) : Nat :=
  let w := tyWidth t
  let F := fmtOf t
  match op with
  | .add => if isFloatTy t then round F rnd (addNum rnd (decodeF F a) (decodeF F b)) else (a + b) % 2 ^ w
  | .min => if isFloatTy t then minMax F false a b else if readInt t w a ≤ readInt t w b then a else b
  | .max => if isFloatTy t then minMax F true a b else if readInt t w b ≤ readInt t w a then a else b
  | .and => a &&& b
  | .or => a ||| b
  | .xor => a ^^^ b

/-! ### Atomics (R216) -/

def redOf' : AtomOp → Option RedOp
  | .add => some .add | .min => some .min | .max => some .max | .and => some .and | .or => some .or | .xor => some .xor
  | .exch => none

/-- The new value of an atomic other than `.cas` (R216); every rounding is RNE. -/
def atomNew (op : AtomOp) (ty : Ty) (old v : Nat) : Nat :=
  match redOf' op with
  | none => v
  | some r =>
    if ty = .bf16x2 then byElement ty (fun a => combine r .bf16 .rne (arg a 0) (arg a 1)) [old, v]
    else combine r ty .rne old v

/-- The new value of an atomic; no operation is `.cas` (R216). -/
def atomResult (op : Option AtomOp) (ty : Ty) (old v e : Nat) : Nat :=
  match op with
  | some o => atomNew o ty old v
  | none => if old = v then e else old

end Sys2Proof.Machine
end

