-- ==== Sys2Proof/Config.lean ====
section
/-! DEFINITION. What the spec leaves open: free values without a body, and the named functions it does not give. No
statement rests on a value of any of them. -/

namespace Sys2Proof.Config
open Sys2Proof

/-- An unspecified byte (R5), drawn with the counter of State (DESIGN CHOICE, log 7). -/
opaque freeByte : Nat → Byte

/-- An unspecified 32-bit value (R5), drawn with the counter of State (DESIGN CHOICE, log 7). -/
opaque freeWord : Nat → Word

/-- How far beyond the write time and every lease a write is placed in logical time (R266), beyond the one tick that
"later" needs (DESIGN CHOICE, log 8). -/
opaque writeLag : Nat → Nat

/-- How far a creep tick advances a core's logical time beyond the one tick that R268 asks for (DESIGN CHOICE, log 8). -/
opaque creepExtra : Nat → Nat

/-- The address that a machine check gives for a word of the scratchpad of a place, which has no physical address (R384; DESIGN
CHOICE, log 83). -/
opaque scratchAddr : Nat → Nat → BitVec 64

/-- Which of the sixteen entries of a 64 KiB page translates when they differ (R367; DESIGN CHOICE, log 9). -/
opaque s64Pick : Nat → Fin 16

/-- Which of the contexts that translate under an ASID a walk is made for (R369; DESIGN CHOICE, log 70). -/
opaque walkPick : Nat → Nat

/-- The owner digest in the fuses (R423; DESIGN CHOICE, log 89). -/
opaque ownerDigest : List Byte

/-- Where the Equinox image carries the owner root key and its signature field (R423; DESIGN CHOICE, log 89). -/
opaque ownerKeyAt : Nat
opaque imageSigAt : Nat

/-- The supply of a core (R434; DESIGN CHOICE, log 89). -/
opaque supplyOf : Nat → Nat

/-- The Equinox version that code 0x0000 reports (R426; DESIGN CHOICE, log 11). -/
opaque equinoxVersion : BitVec 8

end Sys2Proof.Config
end

