-- ==== Sys2Proof/Machine/Store.lean ====
section
/-! DEFINITION. Sparse maps as plain data: lists of key and value in one canonical form, keys strictly rising and no
entry equal to the value of an unlisted key. Memory is such a map of bytes. -/

namespace Sys2Proof.Machine
open Sys2Proof

/-- A sparse map from numbers. -/
abbrev SMap (β : Type) := List (Nat × β)

/-- The value at a key; `d` for an unlisted key. -/
def smGet {β : Type} (d : β) (m : SMap β) (k : Nat) : β :=
  match m with
  | [] => d
  | (j, v) :: r => if j = k then v else smGet d r k

/-- The map without a key. -/
def smErase {β : Type} (m : SMap β) (k : Nat) : SMap β :=
  match m with
  | [] => []
  | (j, v) :: r => if j = k then smErase r k else (j, v) :: smErase r k

/-- The map with an entry before the first larger key. -/
def smInsert {β : Type} (m : SMap β) (k : Nat) (v : β) : SMap β :=
  match m with
  | [] => [(k, v)]
  | (j, w) :: r => if k < j then (k, v) :: (j, w) :: r else (j, w) :: smInsert r k v

/-- The map with a key set; setting the value of unlisted keys removes the entry. -/
def smSet {β : Type} [DecidableEq β] (d : β) (m : SMap β) (k : Nat) (v : β) : SMap β :=
  if v = d then smErase m k else smInsert (smErase m k) k v

/-- Keys strictly rise and stay above `lo`; no entry holds the value of unlisted keys. -/
def smWfFrom {β : Type} [DecidableEq β] (d : β) (lo : Nat) (m : SMap β) : Bool :=
  match m with
  | [] => true
  | (j, v) :: r => decide (lo ≤ j) && decide (v ≠ d) && smWfFrom d (j + 1) r

/-- The canonical form. -/
def smWf {β : Type} [DecidableEq β] (d : β) (m : SMap β) : Bool := smWfFrom d 0 m

/-- An optional entry, for maps whose keys may be absent. -/
def smFind {β : Type} (m : SMap β) (k : Nat) : Option β :=
  match m with
  | [] => none
  | (j, v) :: r => if j = k then some v else smFind r k

/-- A present entry for a key, replacing any other. -/
def smPut {β : Type} (m : SMap β) (k : Nat) (v : β) : SMap β := smInsert (smErase m k) k v

/-! ### Bytes -/

/-- What an unlisted byte reads as (R432 step 3 fills device memory with zeros; a new scratchpad is zero, R59). -/
def memDefault : Byte := 0

/-- A sparse byte store: device memory, or the scratchpad of a block. -/
abbrev Memory := List (Nat × BitVec 8)

def Memory.get (m : Memory) (a : Nat) : Byte := smGet memDefault m a
def Memory.set (m : Memory) (a : Nat) (b : Byte) : Memory := smSet memDefault m a b

/-- The canonical form of a byte store. -/
def Memory.wf (m : Memory) : Bool := smWf memDefault m

/-- `n` bytes from an address up. -/
def Memory.read (m : Memory) (a n : Nat) : List Byte := (List.range n).map fun k => m.get (a + k)

/-- Bytes stored from an address up. -/
def Memory.write (m : Memory) (a : Nat) (bs : List Byte) : Memory :=
  match bs with
  | [] => m
  | b :: r => Memory.write (m.set a b) (a + 1) r

/-- Little-endian number of a list of bytes (R2). -/
def leNat (bs : List Byte) : Nat :=
  match bs with
  | [] => 0
  | b :: r => b.toNat + 256 * leNat r

/-- The low `n` bytes of a number, lowest first (R2). -/
def leBytes (n v : Nat) : List Byte :=
  match n with
  | 0 => []
  | k + 1 => BitVec.ofNat 8 v :: leBytes k (v / 256)

/-- A little-endian number at an address. -/
def Memory.readNat (m : Memory) (a n : Nat) : Nat := leNat (m.read a n)

end Sys2Proof.Machine
end

