-- ==== Sys2Proof/Machine/State.lean ====
section
/-! DEFINITION. The state of Ezrak: everything the spec gives the machine, as plain data (INVENTORY.md, State). -/

namespace Sys2Proof.Machine
open Sys2Proof

/-- Reasons to stop. No instruction raises one: every outcome that the spec describes is a next state. -/
inductive Fault
  /-- Raised by no meaning: the spec gives every instruction an effect on ordinary data. Safe. -/
  | none
deriving DecidableEq, Repr

/-- Reasons to give an instruction no meaning. -/
inductive Refusal
  /-- An arm of exec that has no meaning yet; the host's own name for it. Safe: nothing can be proved of the next state. -/
  | notModelled (mnemonic : String)
deriving DecidableEq, Repr

/-! ### Small kinds -/

/-- The states of a lane in a slice (R15). -/
inductive Life | absent | live | exited
deriving DecidableEq, Repr

/-- Modes (R332). -/
inductive Mode | user | supervisor | firmware
deriving DecidableEq, Repr

/-- Progress classes (R39). -/
inductive Cls | weak | parallel | concurrent
deriving DecidableEq, Repr

/-- Security states (R430). -/
inductive Sec | boot | failed | run | frost
deriving DecidableEq, Repr

/-- Where an access lands: a byte of device memory, or a byte of the scratchpad of the block in a place. A place is
core × 16 + slot. -/
inductive Loc
  | glob (pa : Nat)
  | sp (place off : Nat)
deriving DecidableEq, Repr

/-- A lane of a block of a launch, whatever core holds it (R30, R350). -/
structure Owner where
  part : Nat := 0
  serial : Nat := 0
  block : Nat := 0
  group : Nat := 0
  lane : Nat := 0
deriving DecidableEq, Repr

/-! ### Lanes, sets, queues -/

/-- A register that a lookahead window keeps pending (R101). -/
inductive Name
  | r (n : Nat) | s (n : Nat) | p (n : Nat) | z (n : Nat) | j (n : Nat)
deriving DecidableEq, Repr

/-- An open lookahead window of a lane (R101, R102): the pending registers, the instructions left, the outstanding access
whose result is awaited (0 for none) and the offset of the window's instruction. -/
structure Win where
  names : List Name := []
  left : Nat := 0
  out : Nat := 0
  pc : Word := 0
deriving DecidableEq, Repr

/-- Where the result of a waiting instruction goes when it resumes: its destination, whether `.nr` drops the result, the bytes of
the instruction, and the number of its issue, by which a later write of a uniform register is told from it (R43). `left` says that a
watchdog trap has ended a barrier wait, which is tested again on trap return (R292). -/
structure Ret where
  dst : Operand := .reg 0
  nr : Bool := false
  len : Nat := 12
  no : Nat := 0
  left : Bool := false
deriving DecidableEq, Repr

/-- What holds a lane (R172, R282, R340). A lane in `join` or `nap` has its PC after the instruction; every other wait
keeps the PC at the waiting instruction. A lane that a stop at safe points holds (R397) is `held`; one that a rejoin set
released in the present clk, and that is ready in the next (R181), is `released`. -/
inductive Wait
  | none
  | join (set : Nat) (pc : Word)
  | rendezvous
  | barrier (wa : DWord) (loc : Loc) (gen : Nat) (phase : Bool) (k : Ret)
  | copy (ch : Nat) (b : Word) (k : Ret)
  | fwcall (tag : Word) (k : Ret)
  | nap (endAt : Nat)
  | halt (h : Word) (safe : Bool) (k : Ret)
  | entering (len : Nat)
  | held
  | released
deriving DecidableEq, Repr

/-- One lane in one slice (R13, R15, R158, R42, R101, R400). `preds` bit 0 is always set. -/
structure Lane where
  life : Life := .absent
  pc : Word := 0
  depth : BitVec 8 := 0
  preds : BitVec 8 := 1
  wait : Wait := .none
  wins : List Win := []
  pass : Bool := false
  calls : Nat := 0
deriving DecidableEq, Repr

/-- A rejoin-set register (R44). -/
structure JSet where
  members : DWord := 0
  waiters : DWord := 0
  state : BitVec 2 := 0
  depth : BitVec 8 := 0
deriving DecidableEq, Repr

/-- What a queue element waits for (R340): nothing, a local load, `ld.fab` or `ld.mc`. -/
inductive ElemKind | filled | load | fab | mc
deriving DecidableEq, Repr

/-- One element of one lane's sequence (R46, R212). `out` is the access that fills it, `hi` marks the upper half of a
64-bit load, `ty` the type a replay reads, `replay` that the token has been reported, so that the element is read again
when the instruction issues again (R214), and `acq` an `ld.fab` with `.acq`. -/
structure Elem where
  val : Word := 0
  cause : Nat := 0
  kind : ElemKind := .filled
  addr : DWord := 0
  out : Nat := 0
  hi : Bool := false
  ty : Ty := .b32
  replay : Bool := false
  acq : Bool := false
deriving DecidableEq, Repr

/-- An active stream (R203, R204, R438). -/
structure Stream where
  desc : List Word := []
  n0 : Nat := 0
  n1 : Nat := 0
  n2 : Nat := 0
  queue : Nat := 0
  ty : Ty := .b32
  mask : DWord := 0
  hint : Hint := .none
deriving DecidableEq, Repr

/-- A scale register (R248). -/
structure Scale where
  base : DWord := 0
  ctl : Word := 0
deriving DecidableEq, Repr

/-- What the lane's next fence reports (R55); `last` is the port of the latest failure that went through one. -/
structure FenceRec where
  count : Nat := 0
  dead : Bool := false
  refused : Bool := false
  multi : Bool := false
  port : Nat := 15
  last : Nat := 15
deriving DecidableEq, Repr

/-- A reservation of `lr` (R219): location, width in bytes, the logical time its lease ends. -/
structure Resv where
  loc : Loc := .glob 0
  width : Nat := 0
  leaseEnd : Nat := 0
deriving DecidableEq, Repr

/-- A path that the spin detector watches (R289): its backward `bra`, the offset of the target, its lanes, how often
in succession the branch has been executed, and the destinations of its loads. -/
structure Spin where
  bra : Nat := 0
  lo : Nat := 0
  lanes : DWord := 0
  count : Nat := 0
  loads : List Name := []
deriving DecidableEq, Repr

/-- Issue control of a group in one slice (R172 to R175): wait counts by PC, the slots that yielded, serial mode and its
lane, the slots chosen in the present clk and the clk they were chosen in. -/
structure Issue where
  waits : SMap Nat := []
  yielded : List Nat := []
  serial : Bool := false
  serialLane : Option Nat := none
  chosen : List Nat := []
  chosenAt : Option Nat := none
  spins : List Spin := []
deriving DecidableEq, Repr

/-- One slice of a group pair. Registers are keyed by lane × 128 + number. `timer` is the starvation timer and `moved` a progress event
of a barrier or rejoin wait in the present clk (R291); `did`
lists the lanes that issued in the present clk and `waited` those that waited at its start, from which the progress events of
R291 are read. `uniAt` numbers the latest write of each uniform register, so that a load that returns later than a later
issue's write leaves it (R43). -/
structure Half where
  lanes : SMap Lane := []
  regs : SMap Word := []
  uni : SMap Word := []
  uniAt : SMap Nat := []
  sets : SMap JSet := []
  collstat : DWord := 0
  ctl : Issue := {}
  timer : Nat := 0
  moved : Bool := false
  did : DWord := 0
  waited : DWord := 0
deriving DecidableEq, Repr

/-- Why a pair is stopped (R376, R377, R397). -/
inductive Why | trap | halt | debug
deriving DecidableEq, Repr

/-- Whether a pair runs (R377). -/
inductive Run
  | running
  | stopped (w : Why)
deriving DecidableEq, Repr

/-- A stop at safe points in progress (R397 to R400): why it was asked for, the record it is to write, and the clk of the
request. -/
inductive SafeWhy
  | haltSafe
  | breakpoint (n : Nat) (ord : Nat) (sl : Slice) (pc : Word) (lanes : DWord)
  | step
deriving DecidableEq, Repr

structure SafeStop where
  why : SafeWhy := .haltSafe
  since : Nat := 0
deriving DecidableEq, Repr

/-- The counters of a resident pair (R404). -/
structure Counters where
  lodEv : Nat := 0
  lodClk : Nat := 0
  issueA : Nat := 0
  issueX : Nat := 0
  serialClk : Nat := 0
deriving DecidableEq, Repr

/-- A cached translation (R369): the leaf's page, its physical page or remote page, and its rights. -/
structure Tlb where
  core : Nat := 0
  part : Nat := 0
  asid : Nat := 0
  page : Nat := 0
  shift : Nat := 12
  frame : Nat := 0
  r : Bool := false
  w : Bool := false
  u : Bool := false
  remote : Bool := false
  peer : Nat := 0
deriving DecidableEq, Repr

/-- A copy of `copy.async` that has not yet entered its channel (R231), with the elements that its lane pops as it enters. -/
structure CopyReq where
  lane : Nat := 0
  dst : DWord := 0
  src : DWord := 0
  len : Nat := 0
  ch : Nat := 0
  dir : Nat := 0
  bar : Option Word := none
  hint : Hint := .none
  gpage : Option Tlb := none
  pc : Word := 0
  pops : List (Nat × Nat) := []
deriving DecidableEq, Repr

/-- A group pair (R19, R40): the two slices, queues keyed by queue × 64 + lane, and everything its lanes hold. `xslot` and
`xpos` are the execute issue slot and lane offset of R20; `broken` lists the storages (R379) that uncorrectable errors have
reached (R385); `haltAt` is the clk of its stop (R387); `trapSl` is the slice whose trap stopped it in the present clk (R380);
`filled` says that a reserved element was filled in the present clk (R291). -/
structure Pair where
  live : Bool := false
  acc : Half := {}
  exe : Half := {}
  queues : SMap (List Elem) := []
  streams : List Stream := []
  sca : Scale := {}
  scb : Scale := {}
  fencestat : SMap Word := []
  fences : SMap FenceRec := []
  resv : SMap Resv := []
  ordCount : SMap Nat := []
  mcCount : SMap Nat := []
  teamWait : Bool := false
  entering : List CopyReq := []
  run : Run := .running
  broken : List Nat := []
  haltAt : Option Nat := none
  trapSl : Option Slice := none
  safe : Option SafeStop := none
  stepping : Bool := false
  stepped : DWord := 0
  steppedX : DWord := 0
  lodSince : SMap Nat := []
  counters : Counters := {}
  filled : Bool := false
  xslot : Nat := 0
  xpos : Nat := 0
deriving DecidableEq, Repr

/-! ### Kernels, blocks, launches -/

/-- The declarations of a loaded kernel (R113), with the W that R38 chooses. -/
structure Decl where
  width : Nat := 8
  cls : Cls := .weak
  nx : Nat := 8
  ny : Nat := 8
  ureg : Nat := 1
  usp : Nat := 0
  tiles : Nat := 0
  lanes : Nat := 1
  scratch : Nat := 0
  depths : List Nat := []
deriving DecidableEq, Repr

/-- A loaded kernel as its descriptor names it (R119), code sections at physical addresses. -/
structure Kernel where
  kd : Nat := 0
  mode : Mode := .user
  decl : Decl := {}
  abase : Nat := 0
  asize : Nat := 0
  xbase : Nat := 0
  xsize : Nat := 0
  safe : Nat := 0
  nsafe : Nat := 0
deriving DecidableEq, Repr

/-- A region record held by a block (R312, R316): submission, slot index and the eight words delivered. -/
structure HeldRec where
  sub : Nat := 0
  idx : Nat := 0
  words : List Word := []
  completed : Bool := false
deriving DecidableEq, Repr

/-- A resident block (R25). Tile elements are keyed by tile × 16384 + row × 128 + column; `tags` lists the 8-byte words of
the scratchpad that hold a live tag (R228), and `errs` those that an uncorrectable error has reached (R281). -/
structure Block where
  part : Nat := 0
  serial : Nat := 0
  block : Nat := 0
  member : Nat := 0
  start : Nat := 0
  kernel : Kernel := {}
  n : Nat := 1
  t : Nat := 1
  asid : Nat := 0
  root : Nat := 0
  ofa : Bool := false
  wb : Nat := 256
  scratch : Memory := []
  tags : List Nat := []
  errs : List Nat := []
  tiles : SMap Word := []
  wp : SMap Word := []
  chstat : SMap Word := []
  pairs : SMap Pair := []
  own : Option HeldRec := none
  stolen : Option HeldRec := none
  started : Bool := true
  halted : Bool := false
  copied : List Nat := []
  copyStats : List Word := []
deriving DecidableEq, Repr

/-- A buffered ordered add (R274): target, type, operand and key, and what a drop of its write reports (R225). -/
structure OrdAdd where
  pa : Nat := 0
  ty : Ty := .f32
  val : DWord := 0
  b : Nat := 0
  g : Nat := 0
  l : Nat := 0
  n : Nat := 0
  va : DWord := 0
  pc : Word := 0
  handle : Word := 0
deriving DecidableEq, Repr

/-- Where a launch came from (R342, R307, R352). -/
inductive Source
  | packet (queue idx : Nat)
  | region (sub kidx : Nat)
  | firmware (id : Nat)
deriving DecidableEq, Repr

/-- A launch (R29, R350, R364). `startAt` is the clk in which blocks of it last started (R30); `saved` holds what the partition keeps of its saved blocks (R390), as they stood at the save; `spoilt` says that software wrote
the ordered-buffer region while the launch held entries (R275). -/
structure Launch where
  part : Nat := 0
  serial : Nat := 0
  kernel : Kernel := {}
  n : Nat := 1
  t : Nat := 1
  asid : Nat := 0
  root : Nat := 0
  args : DWord := 0
  wb : Nat := 256
  ofa : Bool := false
  prio : Nat := 0
  src : Source := .packet 0 0
  placed : List Nat := []
  starts : Nat := 0
  startAt : Option Nat := none
  ended : Nat := 0
  saved : List Block := []
  adds : List OrdAdd := []
  spoilt : Bool := false
  aborting : Bool := false
deriving DecidableEq, Repr

/-- A taken packet (R343 to R349): `code` is the completion code once it is due, `written` that its word has been written, and
`pend` the remote write that carries it; `ts` is the logical time after which its launch's accesses lie: that of its write index and
of the packet (R345). -/
structure Packet where
  queue : Nat := 0
  idx : Nat := 0
  part : Nat := 0
  ty : Nat := 1
  ofa : Bool := false
  waitPrev : Bool := false
  t : Nat := 1
  n : Nat := 1
  kd : DWord := 0
  args : DWord := 0
  compl : DWord := 0
  wb : Nat := 0
  waitAddr : DWord := 0
  waitVal : DWord := 0
  prio : Nat := 0
  takenAt : Nat := 0
  aged : Bool := false
  waitOk : Bool := false
  serial : Option Nat := none
  sub : Option Nat := none
  code : Option Nat := none
  written : Bool := false
  pend : Option Nat := none
  ts : Nat := 0
deriving DecidableEq, Repr

/-- A record of a submission (R303 to R308). -/
inductive RecState | outside | waiting | ready | dispatched | done
deriving DecidableEq, Repr

structure SubRec where
  words : List Word := []
  refused : Bool := false
  state : RecState := .outside
  deps : List (Nat × Nat) := []
deriving DecidableEq, Repr

/-- A submission of a work list (R315, R358): the snapshot that the region scheduler works from. `packet` is the launch
packet that made it; `launches` gives the serial of each kernel-table entry's launch once one is open; `ts` is the logical time after which
its blocks' accesses lie: that of its seal and of what its records waited for (R306, R315). -/
structure Submission where
  id : Nat := 0
  part : Nat := 0
  header : Nat := 0
  headerVa : DWord := 0
  asid : Nat := 0
  root : Nat := 0
  homeBase : Nat := 0
  homeCnt : Nat := 1
  ktab : List Byte := []
  recs : List SubRec := []
  prio : Nat := 0
  wb : Nat := 0
  ofa : Bool := false
  launches : List (Nat × Nat) := []
  packet : Option (Nat × Nat) := none
  finished : Nat := 0
  aborted : Bool := false
  ts : Nat := 0
deriving DecidableEq, Repr

/-! ### The memory system -/

/-- A byte of a captured read: its value, or byte `k` of a held store that precedes the read (R206, R265). A read that has not yet
taken its place has bytes held by its own number (log 1). -/
inductive RdByte
  | byte (b : Byte)
  | held (id k : Nat)
deriving DecidableEq, Repr

/-- Where the data of an access goes. -/
inductive Dest
  | drop
  | queue (q : Nat)
  | reg (n : Nat)
  | uni (n : Nat)
deriving DecidableEq, Repr

/-- An outstanding local load or atomic result (R196, R197, R217). -/
structure Out where
  id : Nat := 0
  own : Owner := {}
  dst : Dest := .drop
  ty : Ty := .b32
  bytes : List RdByte := []
  addr : DWord := 0
  pc : Word := 0
  mc : Option Nat := none
  bad : Option Nat := none
deriving DecidableEq, Repr

/-- A store that holds its bytes (R206, R265): data is absent until taken from `q13`. A remote store holds no byte of this
device; a store restored from an image is translated when its pair first resumes (`retry`), and one whose translation then
fails is `void`: its data is taken and written nowhere (R371). -/
structure Held where
  id : Nat := 0
  own : Owner := {}
  loc : Loc := .glob 0
  n : Nat := 4
  data : Option (List Byte) := none
  addr : DWord := 0
  pc : Word := 0
  ty : Ty := .b32
  sp : Bool := false
  rel : Bool := false
  hint : Hint := .none
  remote : Bool := false
  peer : Nat := 0
  retry : Bool := false
  void : Bool := false
  clears : Bool := false
deriving DecidableEq, Repr

/-- What a late access does when it takes its place (R266, log 1): a store, a read whose result is outstanding under its number, or an
atomic, whose old value is. `load`, `fab` and `mc` are the reads of `ld.q`, of `ld.fab` into a queue, and of multicast `k` of a lane,
which issue before they are translated (R195, R371). -/
inductive LateOp
  | store (bs : List Byte)
  | read
  | atom (op : Option AtomOp) (v e : DWord)
  | load
  | fab (queue : Nat) (acq : Bool)
  | mc (k : Nat)
deriving DecidableEq, Repr

/-- An access of a lane that has issued and takes its place in the single order later (R266): the model's own (DESIGN CHOICE, log 1).
`issue` numbers the issue, whose lanes take their places in ascending order (R265). -/
structure Late where
  id : Nat := 0
  issue : Nat := 0
  own : Owner := {}
  op : LateOp := .read
  loc : Loc := .glob 0
  n : Nat := 4
  ty : Ty := .b32
  addr : DWord := 0
  pc : Word := 0
  clears : Bool := false
deriving DecidableEq, Repr

/-- Kinds of outbound remote access (R411). -/
inductive ROp
  | read
  | write
  | atom (op : Option AtomOp)
deriving DecidableEq, Repr

/-- What the packet of a remote access carries from its peer entry, as it stood when the packet was first sent (R408, R409): the
endpoint, the job, the context at the remote device, the ports, and under TSS the key and its index. -/
structure Carried where
  fep : Nat := 0
  job : Nat := 0
  rasid : Nat := 0
  rpart : Nat := 0
  ports : BitVec 12 := 0
  tss : Bool := false
  idx : Nat := 0
  key : Option (List Byte) := none
deriving DecidableEq, Repr

/-- An outstanding remote access (R199, R217, R411). -/
structure Remote where
  id : Nat := 0
  own : Owner := {}
  op : ROp := .read
  peer : Nat := 0
  addr : DWord := 0
  raddr : Nat := 0
  ty : Ty := .b32
  val : DWord := 0
  val2 : DWord := 0
  dst : Dest := .drop
  acq : Bool := false
  rel : Bool := false
  pc : Word := 0
  sent : Option Nat := none
  head : Carried := {}
  port : Nat := 15
deriving DecidableEq, Repr

/-- A write of a lane to a live barrier word that was dropped (R225). -/
structure Drop where
  own : Owner := {}
  sl : Slice := .access
  pc : Word := 0
  addr : DWord := 0
  handle : Word := 0
deriving DecidableEq, Repr

/-- A removal of translations that is not yet complete (R373, R374). -/
structure Inval where
  id : Nat := 0
  part : Nat := 0
  asid : Option Nat := none
  va : Option DWord := none
  own : Owner := {}
deriving DecidableEq, Repr

/-- Logical times of a line at its home (R266). -/
structure LineTime where
  wtime : Nat := 0
  leaseEnd : Nat := 0
deriving DecidableEq, Repr

/-- A copy in a channel (R231, R437): `id` rises with the order of entry; `gpage` is the translation of the page of the global
side that the copy has reached, the first made before the issue (R371); `ahead` are source bytes, from `src` on, of the latest line
read that are still to be written (R271). -/
structure Copy where
  id : Nat := 0
  own : Owner := {}
  dst : DWord := 0
  src : DWord := 0
  left : Nat := 0
  ch : Nat := 0
  dir : Nat := 0
  bar : Option (Word × Nat) := none
  hint : Hint := .none
  gpage : Option Tlb := none
  ahead : List Byte := []
  stat : Word := 0
  stopped : Bool := false
deriving DecidableEq, Repr

/-- A collective command (R235 to R237): its fields, the context it translates under, the communicator's participants as
peer and index (R414), its number among its participant's commands on COMM and the collective that it is part of, the bytes of SRC
read so far, the output once every contribution is there and how much of it has been written, the translations of the pages
reached (R371), whether a byte of a live word was dropped, the status once the command has ended, and whether STATUS and BAR have
been given to the block (R238). -/
structure Coll where
  id : Nat := 0
  core : Nat := 0
  own : Owner := {}
  asid : Nat := 0
  root : Nat := 0
  user : Bool := true
  fw : Bool := false
  gather : Bool := false
  src : DWord := 0
  dst : DWord := 0
  count : Nat := 0
  ty : Ty := .f32
  op : Nat := 0
  comm : Nat := 0
  rank : Nat := 0
  peers : List (Nat × Nat) := []
  bar : Word := 0
  stat : Word := 0
  gen : Nat := 0
  accepted : Nat := 0
  seq : Nat := 0
  team : Nat := 0
  got : List Byte := []
  out : Option (List Byte) := none
  put : Nat := 0
  gsrc : Option Tlb := none
  gdst : Option Tlb := none
  store : Bool := false
  result : Option Word := none
  told : Bool := false
deriving DecidableEq, Repr

/-- The operation that a matrix engine performs, with the translations pinned for it (R239, R249). -/
structure Engine where
  place : Nat := 0
  group : Nat := 0
  pins : List Tlb := []
deriving DecidableEq, Repr

/-- A record that waits for its ring (R383, R396): the pair that stays stopped until it is written, and the context and page of an
advance-fault request (R372). -/
structure Rec where
  part : Nat := 0
  debug : Bool := false
  handle : Option Word := none
  adv : Option (Nat × Nat) := none
  bytes : List Byte := []
deriving DecidableEq, Repr

/-- A sample in flight (R403): its record without the measured fields, whether this pair reports them, the numbers of
its accesses, from `lo` up to `hi`, whether no data returns, the deepest level where the addresses settle it, the clk in which
its last access was found complete, and the clk and lane of the last data that returned. -/
structure Sample where
  part : Nat := 0
  bytes : List Byte := []
  full : Bool := true
  lo : Nat := 0
  hi : Nat := 0
  noData : Bool := false
  level : Option Nat := none
  doneAt : Option Nat := none
  last : Option (Nat × Nat) := none
deriving DecidableEq, Repr

/-- The marking of a draining core (R34, R355): the launch it drains for and the split to come. -/
structure Drain where
  src : Source := .packet 0 0
  split : Nat × Nat := (0, 0)
deriving DecidableEq, Repr

/-- The line request of an access (R418): the access, its place, and a transaction tag that no other outstanding request of the core
has. The last of a line is the one that its home has answered last. -/
structure Request where
  id : Nat := 0
  loc : Loc := .glob 0
  tag : Nat := 0
deriving DecidableEq, Repr

/-- One core (R7, R9): pool split, the launch it drains for or is reserved for (R286, R355), what blocks that ended freed in
a clk (R356), logical time, leases with the latest that each home has granted, line requests, the recalls that it holds with the requests whose
replies they name (R418), and the engines' state. -/
structure Core where
  split : Option (Nat × Nat) := none
  drain : Option Drain := none
  reserved : Option Source := none
  freed : List (Nat × Nat × Decl) := []
  ts : Nat := 0
  crept : Nat := 0
  seqs : SMap Nat := []
  leases : SMap Nat := []
  granted : SMap Nat := []
  requests : List Request := []
  recalls : List (Nat × Option Nat) := []
  chans : SMap (List Copy) := []
  engine : Option Engine := none
  recs : List Rec := []
  sampleCount : Nat := 0
  sample : Option Sample := none
deriving DecidableEq, Repr

/-- A `fwcall` that firmware has not answered, or whose answer is held for a saved block (R427); `at_` is the clk of the call. -/
structure Call where
  tag : Word := 0
  part : Nat := 0
  own : Owner := {}
  sl : Slice := .access
  asid : Nat := 0
  root : Nat := 0
  code : Nat := 0
  arg : DWord := 0
  at_ : Nat := 0
  answer : Option Word := none
deriving DecidableEq, Repr

/-- A replaced transport key that is still accepted (R409). -/
structure OldKey where
  part : Nat := 0
  idx : Nat := 0
  key : List Byte := []
  until_ : Nat := 0
deriving DecidableEq, Repr

/-- A firmware-mode launch waiting for placement (R352). -/
structure FwHead where
  id : Nat := 0
  l : FwLaunch
  serial : Option Nat := none
deriving DecidableEq, Repr

/-! ### The device -/

/-- What the spec leaves open about one turn of a half (DESIGN CHOICE, log 1): the PCs of slots that a pipe or port keeps
back in this clk (R359, R360), and the lanes from which on accesses take their places in the single order later (R266). -/
structure Choice where
  busy : List Nat := []
  late : DWord := 0
deriving DecidableEq, Repr

/-- A temperature that a sensor shows and that no step has acted on yet (R436). -/
structure Reading where
  sensor : Sensor
  temp : Int
deriving DecidableEq, Repr

/-- Whose move is next: the model's own field (DESIGN CHOICE, log 1). `place` gives a late access its place; `collective` is one line
of a collective engine's work; `equinox` is a write of firmware in memory that it owns outside every partition (R427); `pins` gives the
levels of PWROK_N and RESET_N (R431), and `sensor` what a temperature sensor shows, with the steps by which the clock is to be stretched
(R436). -/
inductive Turn
  | tick
  | issue (core slot group : Nat) (sl : Slice) (c : Choice)
  | event (i : Instr)
  | evict (n : Nat)
  | place (id : Nat)
  | collective (id : Nat) (cs : List Contribution)
  | equinox (pa : Nat) (bs : List Byte)
  | pins (pwrokN resetN : Bool)
  | sensor (r : Reading) (steps : Nat)
deriving DecidableEq, Repr

/-- The path whose instruction is being executed: the model's own field (DESIGN CHOICE, log 1). `skip` marks lanes of the
path that have issued in this clk already (R173), `late` those from which on accesses are placed later than they issue (R266). -/
structure Cursor where
  place : Nat := 0
  group : Nat := 0
  sl : Slice := .access
  pc : Word := 0
  skip : DWord := 0
  late : DWord := 0
deriving DecidableEq, Repr

/-- The answer that an inbound fabric request receives (R406, R410). -/
inductive InReply
  | done (bytes : List Byte)
  | refused
  | dropped
deriving DecidableEq, Repr

/-- A supply that has fallen below 0.96 of nominal, and the clk for which it has since been back above, if it is (R434). -/
structure Sag where
  supply : Nat := 0
  back : Option Nat := none
deriving DecidableEq, Repr

/-- What a temperature sensor last showed, whether it stretches the clock, and by how many sixteenths (R436). -/
structure Heat where
  sensor : Sensor
  temp : Int := 0
  hot : Bool := false
  steps : Nat := 0
deriving DecidableEq, Repr

/-- The whole machine. Of its fields, `agenda`, `cur`, `late`, `reading` and `fresh` are the model's own (DESIGN CHOICE, logs 1 and 2): the moves still
to be made, the path whose instruction runs, the accesses still to be placed, and the counter that numbers accesses and draws free values.
`clk` is `%clk` (R51); `pwrokN` and `resetN` are the levels of the pins of those names, which are active low (R431); `reading` is what
a sensor shows until the step that acts on it, which comes in the same move. -/
structure State where
  agenda : List Turn := []
  cur : Cursor := {}
  fresh : Nat := 1
  clk : Nat := 0
  sec : Sec := .boot
  mem : Memory := []
  btags : SMap Nat := []
  lines : SMap LineTime := []
  held : List Held := []
  late : List Late := []
  outs : List Out := []
  remotes : List Remote := []
  drops : List Drop := []
  tlb : List Tlb := []
  errs : List Nat := []
  invals : List Inval := []
  cores : SMap Core := []
  blocks : SMap Block := []
  launches : List Launch := []
  packets : List Packet := []
  fwHeads : List FwHead := []
  rrs : SMap Nat := []
  lastIdx : SMap Nat := []
  serials : SMap Nat := []
  subs : List Submission := []
  window : List (Nat × Nat) := []
  ready : List (Nat × Nat × Nat) := []
  colls : List Coll := []
  collSeqs : SMap Nat := []
  parts : SMap PartRec := []
  sys : SMap DWord := []
  qtab : Nat := 0
  mbox : DWord := 0
  mboxn : Word := 0
  calls : List Call := []
  measure : List Byte := List.replicate 64 0
  kkeys : SMap (List Byte) := []
  tkeys : SMap (List Byte) := []
  oldKeys : List OldKey := []
  rod : SMap Nat := []
  idErased : Bool := false
  ports : BitVec 12 := 0
  fep : Option Nat := none
  alarm : Bool := false
  pwrokN : Bool := false
  resetN : Bool := false
  sags : List Sag := []
  heats : List Heat := []
  reading : Option Reading := none
  owner : List Byte := []
  mgmtRead : DWord := 0
  inReply : Option InReply := none
  fwDone : List (Nat × Nat) := []
deriving DecidableEq, Repr

/-- The machine right after reset (R430, R432, R433): the boot state, cores held in reset, nothing resident, memory with
nothing listed, every register at its reset value; see INVENTORY.md for the values the model names. -/
def State.reset : State := {}

end Sys2Proof.Machine
end

