-- ==== Sys2Proof/Machine/Ops.lean ====
section
/-! DEFINITION. Named operations over the state: cores, blocks, pairs, lanes and their registers, queues, records, the
delivery of results, taking a trap (R376 to R382) and resuming from it (R338). -/

namespace Sys2Proof.Machine
open Sys2Proof

/-! ### Places -/

/-- The place of a block slot: core × 16 + slot. -/
def placeOf (core slot : Nat) : Nat := core * 16 + slot
def coreOf (place : Nat) : Nat := place / 16
def slotOf (place : Nat) : Nat := place % 16
/-- The cluster of a core and its rank there (R7). -/
def clusterOf (core : Nat) : Nat := core / 4
def rankOf (core : Nat) : Nat := core % 4

/-- A core that nothing has used yet: only its logical time has advanced, by a tick and whatever more in every 64 clk (R268). -/
def idleCore (clk c : Nat) : Core :=
  if clk < 64 then {} else { ts := clk / 64 + Config.creepExtra c, crept := clk / 64 * 64 }
def State.core (s : State) (c : Nat) : Core := smGet (idleCore s.clk c) s.cores c
def State.setCore (s : State) (c : Nat) (k : Core) : State := { s with cores := smPut s.cores c k }
def State.block? (s : State) (p : Nat) : Option Block := smFind s.blocks p
def State.setBlock (s : State) (p : Nat) (b : Block) : State := { s with blocks := smPut s.blocks p b }
def State.dropBlock (s : State) (p : Nat) : State := { s with blocks := smErase s.blocks p }
def Block.pair (b : Block) (g : Nat) : Pair := smGet {} b.pairs g
def Block.setPair (b : Block) (g : Nat) (p : Pair) : Block := { b with pairs := smSet {} b.pairs g p }
def Pair.half (p : Pair) (sl : Slice) : Half :=
  match sl with
  | .access => p.acc
  | .execute => p.exe
def Pair.setHalf (p : Pair) (sl : Slice) (h : Half) : Pair :=
  match sl with
  | .access => { p with acc := h }
  | .execute => { p with exe := h }
/-- The other slice of a pair. -/
def Slice.other : Slice → Slice
  | .access => .execute
  | .execute => .access
def Half.lane (h : Half) (l : Nat) : Lane := smGet {} h.lanes l
def Half.setLane (h : Half) (l : Nat) (x : Lane) : Half := { h with lanes := smSet {} h.lanes l x }

/-- The pair of a group of the block in a place. -/
def State.pair (s : State) (p g : Nat) : Pair :=
  match s.block? p with
  | some b => b.pair g
  | none => {}

/-- A change of the block in a place. -/
def State.mapBlock (s : State) (p : Nat) (f : Block → Block) : State :=
  match s.block? p with
  | some b => s.setBlock p (f b)
  | none => s

/-- A change of one pair. -/
def State.mapPair (s : State) (p g : Nat) (f : Pair → Pair) : State :=
  s.mapBlock p fun b => b.setPair g (f (b.pair g))

/-- A change of one half. -/
def State.mapHalf (s : State) (p g : Nat) (sl : Slice) (f : Half → Half) : State :=
  s.mapPair p g fun q => q.setHalf sl (f (q.half sl))

/-- A change of one lane. -/
def State.mapLane (s : State) (p g : Nat) (sl : Slice) (l : Nat) (f : Lane → Lane) : State :=
  s.mapHalf p g sl fun h => h.setLane l (f (h.lane l))

def State.mapCore (s : State) (c : Nat) (f : Core → Core) : State := s.setCore c (f (s.core c))

/-- The group width W of a block (R19, R38). -/
def Block.w (b : Block) : Nat := b.kernel.decl.width
/-- The number of group pairs of a block (R19). -/
def Decl.groups (d : Decl) : Nat := (d.lanes + d.width - 1) / d.width
def Block.groups (b : Block) : Nat := b.kernel.decl.groups
def Block.team (b : Block) : Nat := b.block / b.t
def Block.depth (b : Block) (q : Nat) : Nat := b.kernel.decl.depths.getD q 0

/-- Places of resident blocks. -/
def State.places (s : State) : List Nat := s.blocks.map (·.1)

/-- The place of the block of an owner. -/
def State.placeOfOwner (s : State) (o : Owner) : Option Nat :=
  (s.blocks.find? fun e => e.2.part = o.part ∧ e.2.serial = o.serial ∧ e.2.block = o.block).map (·.1)

def Block.owner (b : Block) (g l : Nat) : Owner :=
  { part := b.part, serial := b.serial, block := b.block, group := g, lane := l }

/-- The place of a member of a block's team (R27). -/
def State.memberPlace (s : State) (b : Block) (m : Nat) : Option Nat :=
  (s.blocks.find? fun e => e.2.part = b.part ∧ e.2.serial = b.serial ∧ e.2.team = b.team ∧ e.2.member = m).map (·.1)

/-! ### Lanes -/

def Half.live (h : Half) (l : Nat) : Bool := decide ((h.lane l).life = .live)
def Lane.isLive (x : Lane) : Bool := decide (x.life = .live)

/-- The lanes of the group that are live in the slice, in ascending order. -/
def Half.liveLanes (h : Half) (w : Nat) : List Nat := (List.range w).filter fun l => h.live l

/-- A lane is blocked while it waits in `join.wait`, at a rendezvous or in a nap (R172); the waits of R282 hold it too. -/
def Lane.ready (x : Lane) : Bool := x.isLive && decide (x.wait = .none)

/-- The path of the slot at a PC: its ready lanes (R172). -/
def Half.path (h : Half) (w : Nat) (pc : Word) : List Nat :=
  (List.range w).filter fun l => (h.lane l).ready && decide ((h.lane l).pc = pc)

/-- The lanes of a path that have not issued in this clk: a slot issues the lanes with which it was chosen (R173). -/
def Half.pathBut (h : Half) (w : Nat) (pc : Word) (skip : DWord) : List Nat :=
  (h.path w pc).filter fun l => !skip.getLsbD l

/-- The distinct PCs of the live lanes; blocked lanes count (R172). -/
def Half.pcCount (h : Half) (w : Nat) : Nat := ((h.liveLanes w).map fun l => (h.lane l).pc).eraseDups.length

/-- The issue state of a half that resumes, from its PCs (R176). -/
def Half.recompute (h : Half) (w : Nat) : Half := { h with ctl := { serial := decide (8 < h.pcCount w) } }

/-- Bits of the listed lanes. -/
def laneMask (ls : List Nat) : DWord := ls.foldl (fun m l => m ||| (1#64 <<< l)) 0
def maskLanes (m : DWord) : List Nat := (List.range 64).filter fun l => m.getLsbD l

/-! ### Registers (R40 to R43) -/

def Half.reg (h : Half) (l n : Nat) : Word := smGet 0 h.regs (l * 128 + n)
def Half.setReg (h : Half) (l n : Nat) (v : Word) : Half := { h with regs := smSet 0 h.regs (l * 128 + n) v }
def Half.ureg (h : Half) (n : Nat) : Word := smGet 0 h.uni n
def Half.setUreg (h : Half) (n : Nat) (v : Word) : Half := { h with uni := smSet 0 h.uni n v }
def Half.set (h : Half) (j : Nat) : JSet := smGet {} h.sets j
def Half.setSet (h : Half) (j : Nat) (v : JSet) : Half := { h with sets := smSet {} h.sets j v }

/-- A 64-bit value of an even register and the next (R41). -/
def join64 (lo hi : Word) : DWord := (hi ++ lo : BitVec 64)
def lo32 (v : DWord) : Word := v.extractLsb' 0 32
def hi32 (v : DWord) : Word := v.extractLsb' 32 32

def Half.reg64 (h : Half) (l n : Nat) : DWord := join64 (h.reg l n) (h.reg l (n + 1))
def Half.ureg64 (h : Half) (n : Nat) : DWord := join64 (h.ureg n) (h.ureg (n + 1))

/-- A register write of 32 or 64 bits (R41). -/
def Half.putReg (h : Half) (wide : Bool) (l n : Nat) (v : DWord) : Half :=
  if wide then (h.setReg l n (lo32 v)).setReg l (n + 1) (hi32 v) else h.setReg l n (lo32 v)
def Half.putUreg (h : Half) (wide : Bool) (n : Nat) (v : DWord) : Half :=
  if wide then (h.setUreg n (lo32 v)).setUreg (n + 1) (hi32 v) else h.setUreg n (lo32 v)

/-- A predicate of a lane; `p0` reads true (R42). -/
def Lane.pred (x : Lane) (n : Nat) : Bool := decide (n = 0) || x.preds.getLsbD n
/-- A predicate write; a write to `p0` is discarded (R42). -/
def Lane.setPred (x : Lane) (n : Nat) (v : Bool) : Lane :=
  if n = 0 then x
  else { x with preds := if v then x.preds ||| (1#8 <<< n) else x.preds &&& ~~~(1#8 <<< n) }
def Half.setPred (h : Half) (l n : Nat) (v : Bool) : Half := h.setLane l ((h.lane l).setPred n v)

/-- guard(g, l) of R92. -/
def Lane.guard (x : Lane) (g : BitVec 4) : Bool := x.pred (g.extractLsb' 0 3).toNat != g.getLsbD 3

/-! ### Queues (R46 to R49) -/

def Pair.queue (p : Pair) (q l : Nat) : List Elem := smGet [] p.queues (q * 64 + l)
def Pair.setQueue (p : Pair) (q l : Nat) (es : List Elem) : Pair :=
  { p with queues := smSet [] p.queues (q * 64 + l) es }

/-- An element that a pop can take: its data or its token is there (R196, R214). -/
def Elem.filled (e : Elem) : Bool := decide (e.kind = .filled)
def Elem.token (e : Elem) : Bool := decide (e.kind = .filled ∧ e.cause ≠ 0)

/-- The consumer of a queue (R47). -/
def consumer (q : Nat) : Slice := if q ≤ 12 then .execute else .access

/-- Elements that the stores of a lane still hold waiting for data need (R206): one, or two for `.b64`. -/
def State.heldNeed (s : State) (o : Owner) : Nat :=
  s.held.foldl (fun n h => if h.own = o ∧ h.data = none then n + (if h.n = 8 then 2 else 1) else n) 0

/-- A push of the lane is discarded, its consumer having exited; one to `q13` only when the elements there are enough for the
lane's held stores (R49). -/
def State.discards (s : State) (b : Block) (p : Pair) (g q l : Nat) : Bool :=
  if (p.half (consumer q)).live l then false
  else if q = 13 then decide (s.heldNeed (b.owner g l) ≤ (p.queue q l).length)
  else true

/-- A push of elements into a lane's sequence. -/
def State.push (s : State) (place g q l : Nat) (es : List Elem) : State :=
  match s.block? place with
  | none => s
  | some b =>
    let p := b.pair g
    if s.discards b p g q l then s
    else s.mapPair place g fun p => p.setQueue q l (p.queue q l ++ es)

def elemsOf (wide : Bool) (v : DWord) : List Elem :=
  if wide then [{ val := lo32 v }, { val := hi32 v }] else [{ val := lo32 v }]

/-! ### System registers (R333, R393, R407) -/

/-- Reset values of the system registers of a partition. -/
def sysResetVal (idx : Nat) : DWord :=
  if idx = 0x003 then 16 else if idx = 0x004 then 256 else if idx = 0x009 then 1024
  else if idx = 0x010 then 0x1000 else 0

def State.sysreg (s : State) (part idx : Nat) : DWord := smGet (sysResetVal idx) s.sys (part * 4096 + idx)
def State.setSysreg (s : State) (part idx : Nat) (v : DWord) : State :=
  { s with sys := smSet (sysResetVal idx) s.sys (part * 4096 + idx) v }

def State.partRec (s : State) (p : Nat) : PartRec := smGet {} s.parts p

/-- The cores of a partition are those of its clusters (R420). -/
def partHasCore (r : PartRec) (c : Nat) : Bool := r.clusters.getLsbD (clusterOf c)

/-- The partition that holds a core, if any. -/
def State.partOfCore (s : State) (c : Nat) : Option Nat :=
  (s.parts.find? fun e => e.2.valid && partHasCore e.2 c).map (·.1)

/-- A physical range lies wholly in the partition's memory (R420). -/
def partOwns (r : PartRec) (pa n : Nat) : Bool :=
  decide (0 < n ∧ pa + n ≤ 2 ^ 52) &&
    ((List.range ((pa + n - 1) / 2 ^ 30 - pa / 2 ^ 30 + 1)).all fun k => decide ((pa / 2 ^ 30 + k) ∈ r.memmap))

/-! ### Handles (R335) -/

def handleOf (core slot group level seq : Nat) : Word :=
  BitVec.ofNat 32 (core + slot * 2 ^ 8 + group * 2 ^ 12 + level * 2 ^ 16 + (seq % 4096) * 2 ^ 20)

/-- The group-pair handle of a place and group. -/
def State.pairHandle (s : State) (place g : Nat) : Word :=
  handleOf (coreOf place) (slotOf place) g 0 (smGet 0 (s.core (coreOf place)).seqs (slotOf place))

/-! ### Trap records (R382) -/

/-- What a trap reports. -/
structure TrapInfo where
  code : Nat
  kind : Nat := 2
  lane : Nat := 0xff
  lanes : List Nat := []
  addr : DWord := 0
  aux0 : Nat := 0
  aux1 : Nat := 0
  aux2 : DWord := 0
deriving DecidableEq, Repr

def sliceCode : Slice → Nat
  | .access => 0
  | .execute => 1

/-- The 64 bytes of a record (R382). -/
def recordBytes (t : TrapInfo) (slice : Nat) (handle pc : Word) (serial asid clk : Nat) : List Byte :=
  leBytes 2 t.kind ++ leBytes 1 t.code ++ leBytes 1 slice ++ leBytes 4 handle.toNat ++ leBytes 4 pc.toNat
    ++ leBytes 1 t.lane ++ leBytes 3 0 ++ leBytes 8 t.addr.toNat ++ leBytes 8 (laneMask t.lanes).toNat
    ++ leBytes 4 t.aux0 ++ leBytes 4 t.aux1 ++ leBytes 8 t.aux2.toNat ++ leBytes 3 serial ++ leBytes 1 0
    ++ leBytes 2 asid ++ leBytes 2 0 ++ leBytes 8 clk

/-- A record joins those that wait for the partition's trap ring (R383). -/
def State.addRec (s : State) (core : Nat) (r : Rec) : State := s.mapCore core fun c => { c with recs := c.recs ++ [r] }

/-! ### Delivery of results (R196, R197, R212, R217) -/

/-- The bytes of a captured read, once every one is known. -/
def knownBytes : List RdByte → Option (List Byte)
  | [] => some []
  | .byte b :: r => (knownBytes r).map fun bs => b :: bs
  | .held _ _ :: _ => none

/-- A loaded value, extended as R196 states. -/
def extendLoad (ty : Ty) (bs : List Byte) : DWord :=
  let v := leNat bs
  match ty with
  | .i8 => (BitVec.ofNat 8 v).signExtend 32 |>.zeroExtend 64
  | .i16 => (BitVec.ofNat 16 v).signExtend 32 |>.zeroExtend 64
  | .n8 => BitVec.ofNat 64 (v % 2 ^ 8)
  | .n16 => BitVec.ofNat 64 (v % 2 ^ 16)
  | _ => BitVec.ofNat 64 v

def isWide (ty : Ty) : Bool := decide (tyWidth ty = 64)

/-- Bytes that an access of a type covers (R191). -/
def accBytes (ty : Ty) : Nat := tyWidth ty / 8

/-- The reserved elements of an access become data (R196). -/
def fillElem (id : Nat) (v : DWord) (e : Elem) : Elem :=
  if e.out = id ∧ e.kind ≠ .filled then { e with val := if e.hi then hi32 v else lo32 v, cause := 0, kind := .filled, out := 0 } else e

/-- The reserved elements of an access become fault tokens (R212, R213). -/
def tokenElem (id cause : Nat) (e : Elem) : Elem :=
  if e.out = id ∧ e.kind ≠ .filled then { e with val := 0, cause := cause, kind := .filled, out := 0 } else e

/-- The result of access `id` reaches uniform registers, but for one that a later issue has written (R43). -/
def Half.deliverUni (h : Half) (wide : Bool) (id n : Nat) (v : DWord) : Half :=
  let put (h : Half) (n : Nat) (w : Word) : Half := if smGet 0 h.uniAt n ≤ id then h.setUreg n w else h
  if wide then put (put h n (lo32 v)) (n + 1) (hi32 v) else put h n (lo32 v)

/-- A result reaches its destination in the lane of the owner, if that lane is resident. -/
def State.deliver (s : State) (o : Owner) (dst : Dest) (ty : Ty) (id : Nat) (v : DWord) : State :=
  match s.placeOfOwner o with
  | none => s
  | some p =>
    match dst with
    | .drop => s
    | .queue q => s.mapPair p o.group fun x =>
        { x.setQueue q o.lane ((x.queue q o.lane).map (fillElem id v)) with filled := true }
    | .reg n => s.mapHalf p o.group .access fun h => h.putReg (isWide ty) o.lane n v
    | .uni n => s.mapHalf p o.group .access fun h => h.deliverUni (isWide ty) id n v

/-- A failed result: a token in a queue element; a register stays unwritten (R197, R212). -/
def State.deliverToken (s : State) (o : Owner) (dst : Dest) (id cause : Nat) : State :=
  match s.placeOfOwner o, dst with
  | some p, .queue q => s.mapPair p o.group fun x =>
      { x.setQueue q o.lane ((x.queue q o.lane).map (tokenElem id cause)) with filled := true }
  | _, _ => s

def State.dropOut (s : State) (id : Nat) : State := { s with outs := s.outs.filter fun o => decide (o.id ≠ id) }

/-- The data of an access of the core's sample returns to a lane: the latest, and of those of one clk the lowest, is kept (R403). -/
def Sample.returned (x : Sample) (id lane clk : Nat) : Sample :=
  if x.lo ≤ id ∧ id < x.hi then
    { x with last := match x.last with
        | some (t, l) => if t = clk then some (clk, Nat.min l lane) else some (clk, lane)
        | none => some (clk, lane) }
  else x

def State.noteReturn (s : State) (o : Owner) (id : Nat) : State :=
  match s.placeOfOwner o with
  | none => s
  | some p => match (s.core (coreOf p)).sample with
    | none => s
    | some x => s.mapCore (coreOf p) fun k => { k with sample := some (x.returned id o.lane s.clk) }

/-- An outstanding access whose bytes are known is delivered and leaves the list. -/
def State.finishOut (s : State) (o : Out) : State :=
  match o.bad, knownBytes o.bytes with
  | none, some bs => ((s.deliver o.own o.dst o.ty o.id (extendLoad o.ty bs)).dropOut o.id).noteReturn o.own o.id
  | _, _ => s

/-- Every outstanding local access of a pair whose bytes are known completes (R377, R386). -/
def State.finishPair (s : State) (o : Owner) : State :=
  (s.outs.filter fun x => decide ({ x.own with lane := 0 } = { o with lane := 0 } ∧ x.mc = none)).foldl State.finishOut s

/-! ### Stopping a pair (R377, R378) and taking a trap -/

/-- A nap is cut short and every window closes (R377, R103); an awaited result is still awaited. A lane of a `copy.async`
whose copy has entered has completed it, and the others stay at it (R231). -/
def Lane.halted (x : Lane) : Lane :=
  { x with wait := (match x.wait with
                    | .nap _ => .none
                    | .entering _ => .none
                    | .held => .none
                    | .released => .none
                    | w => w),
           wins := (x.wins.filter fun w => decide (w.out ≠ 0)).map fun w => { w with left := 0, names := [] } }

def Half.halted (h : Half) : Half := { h with lanes := h.lanes.map fun e => (e.1, e.2.halted), ctl := {} }

/-- The stopped pair (R377): neither slice issues, and reservations are cleared (R219). -/
def Pair.stop (p : Pair) (w : Why) : Pair := { p with resv := [], run := .stopped w, entering := [] }

/-- A stopped pair comes to rest: naps are cut short and windows close (R377). -/
def Pair.rest (p : Pair) : Pair := { p with acc := p.acc.halted, exe := p.exe.halted, trapSl := none }

def Run.isStopped : Run → Bool
  | .stopped _ => true
  | _ => false

/-- A trap of a slice can still be raised in the present clk: the pair runs, or it is the other slice's trap that stopped it in this
clk (R380). -/
def Pair.mayTrap (p : Pair) (clk : Nat) (sl : Slice) : Bool :=
  p.live && (decide (p.run = .running) || decide (p.haltAt = some clk ∧ p.trapSl = some (Slice.other sl)))

/-- The pair stops; work already issued completes first (R377). Its lanes come to rest at the end of the clk. -/
def State.stopPair (s : State) (place g : Nat) (w : Why) : State :=
  match s.block? place with
  | none => s
  | some b => (s.finishPair (b.owner g 0)).mapPair place g fun p => if p.run.isStopped then p else { p.stop w with haltAt := some s.clk }

/-- The ordinal of the safe point at an offset of a slice (R116). -/
def State.ordinal (s : State) (k : Kernel) (sl : Slice) (pc : Word) : Option Nat :=
  (List.range k.nsafe).find? fun n =>
    s.mem.readNat (k.safe + 48 * n) 4 = pc.toNat ∧ s.mem.readNat (k.safe + 48 * n + 4) 1 = sliceCode sl

/-- A debugger can be attached to a partition only while its debug ring is there (R396). -/
def State.debugRing (s : State) (part : Nat) : Bool :=
  let base := (s.sysreg part 0x011).toNat
  let n := (s.sysreg part 0x012).toNat % 2 ^ 32
  decide (base ≠ 0 ∧ n ≠ 0 ∧ base % 4096 = 0) && partOwns (s.partRec part) base (64 + 64 * n)

/-- A debugger is attached (R394, R396). -/
def State.attached (s : State) (part : Nat) : Bool := (s.sysreg part 0x010).getLsbD 0 && s.debugRing part

/-- The stop record of a stop at safe points (R396, R399, R400); its CLK is that of the hit, or of the end of the step (R382). -/
def State.stopRecord (s : State) (place g : Nat) (ss : SafeStop) (partial_ : Bool) : State :=
  match s.block? place with
  | none => s
  | some b =>
    let p := b.pair g
    let mk (code : Nat) (sl : Slice) (pc : Word) (ls : List Nat) (aux0 ord clk : Nat) : Rec :=
      { part := b.part, debug := true, handle := some (s.pairHandle place g)
        bytes := recordBytes { code, kind := 0x10, lane := ls.headD 0xff, lanes := ls, aux0,
                               aux1 := if partial_ then 1 else 0, aux2 := BitVec.ofNat 64 ord }
                   (sliceCode sl) (s.pairHandle place g) pc b.serial b.asid clk }
    match ss.why with
    | .haltSafe => s
    | .breakpoint n ord sl pc ls => s.addRec (coreOf place) (mk 1 sl pc (maskLanes ls) n ord ss.since)
    | .step =>
      let sl : Slice := if p.exe.liveLanes b.w = [] then .access else .execute
      let ls := (p.half sl).liveLanes b.w
      let pc := ((p.half sl).lane (ls.headD 0)).pc
      (s.addRec (coreOf place) (mk 3 sl pc ls 0 ((s.ordinal b.kernel sl pc).getD 0xffffffff) s.clk)).setSysreg b.part 0x014 0

/-- A lane that waits in `halt` for its target receives a status and goes on after the instruction, which is three words
or five (R338). -/
def State.answerLane (s : State) (place g : Nat) (sl : Slice) (l : Nat) (f : Half → Half) (len : Nat) : State :=
  s.mapHalf place g sl fun h =>
    let h := f h
    h.setLane l { h.lane l with wait := .none, pc := (h.lane l).pc + BitVec.ofNat 32 len }

/-- A stop at safe points that was under way ends with its own record, PARTIAL = 1 (R398). -/
def State.endSafe (s : State) (place g : Nat) : State :=
  match (s.pair place g).safe with
  | none => s
  | some ss => (s.stopRecord place g ss true).mapPair place g fun p => { p with safe := none, stepping := false }

/-- A record joins its core's, before those that a pair made in the present clk (R380). -/
def putRecFirst (h : Word) (clk : Nat) (r : Rec) (rs : List Rec) : List Rec :=
  let before (x : Rec) : Bool := decide (x.handle ≠ some h) || x.debug || decide (leNat ((x.bytes.drop 56).take 8) ≠ clk)
  rs.takeWhile before ++ r :: rs.dropWhile before

/-- Taking a trap (R376 to R382): the pair stops with each lane's PC as it stands in the given state, and a record waits
for the ring; of two traps of one clk the access slice's record stands first (R380). A stop at safe points that was under way
ends with its own record (R398). -/
def State.raiseTrap (s : State) (place g : Nat) (sl : Slice) (pc : Word) (t : TrapInfo) : State :=
  match s.block? place with
  | none => s
  | some b =>
    let first := decide ((b.pair g).run = .running ∧ (b.pair g).trapSl = none)
    let h := s.pairHandle place g
    let r : Rec := { part := b.part, handle := some h, bytes := recordBytes t (sliceCode sl) h pc b.serial b.asid s.clk }
    let s := (s.stopPair place g .trap).mapPair place g fun p => { p with trapSl := if first then some sl else none }
    let s := if !first && decide (sl = .access ∧ t.kind ≠ 4) then s.mapCore (coreOf place) fun c => { c with recs := putRecFirst h s.clk r c.recs }
      else s.addRec (coreOf place) r
    s.endSafe place g

/-- A record of a pair still waits for its ring (R383). -/
def State.recWaits (s : State) (place g : Nat) : Bool :=
  (s.core (coreOf place)).recs.any fun r => decide (r.handle = some (s.pairHandle place g))

/-- The return from a trap or a halt of one pair (R338): the pair leaves the stopped state and its lanes resume at their
saved PCs, in the issue state that these give (R176). A pair named by STEPH resumes for one step (R400). -/
def State.resumePair (s : State) (place g : Nat) : State :=
  match s.block? place with
  | none => s
  | some b =>
    let p := b.pair g
    let step := decide (p.run.isStopped ∧ lo32 (s.sysreg b.part 0x014) = s.pairHandle place g ∧ s.pairHandle place g ≠ 0)
      && s.attached b.part
    if p.run.isStopped then
      s.mapPair place g fun p =>
        { p with run := .running, haltAt := none, trapSl := none, stepping := step, stepped := 0, steppedX := 0,
                 acc := p.acc.halted.recompute b.w, exe := p.exe.halted.recompute b.w,
                 safe := if step then some { why := .step, since := s.clk } else none }
    else s

end Sys2Proof.Machine
end

