-- ==== Sys2Proof/Machine/Mem.lean ====
section
/-! DEFINITION. Memory: translation (R363 to R375), scratchpad addresses (R190), the single order with held stores and
logical time (R265 to R270), live barrier words (R225, R228), and the accesses built on them. -/

namespace Sys2Proof.Machine
open Sys2Proof

/-! ### Addresses (R189 to R191) -/

/-- Bits [63:56] all equal bit [55] (R189). -/
def canonical (va : DWord) : Bool :=
  decide (va.toNat < 2 ^ 55) || decide (2 ^ 64 - 2 ^ 55 ≤ va.toNat)
/-- The fabric window (R375). -/
def inFabric (va : DWord) : Bool := decide (0xffff000000000000 ≤ va.toNat)
def aligned (a n : Nat) : Bool := decide (a % n = 0)

/-- (base + offset) mod 2^64 with the offset sign-extended (R189). -/
def globalAddr (base off : DWord) : DWord := base + (lo32 off).signExtend 64
/-- (base + offset) mod 2^32 (R190). -/
def spAddr (base off : DWord) : Word := lo32 base + lo32 off

/-! ### Translation (R363 to R370) -/

/-- The context that a launch translates under (R364). -/
structure TCtx where
  core : Nat := 0
  part : Nat := 0
  asid : Nat := 0
  root : Nat := 0
  user : Bool := true
  fw : Bool := false
deriving DecidableEq, Repr

/-- The context of a block's accesses (R364). Firmware-mode code may name memory of any partition and Equinox's own (R332, R427;
DEDUCED, log 87). -/
def Block.tctx (b : Block) (place : Nat) : TCtx :=
  { core := coreOf place, part := b.part, asid := b.asid, root := b.root, user := decide (b.kernel.mode = .user),
    fw := decide (b.kernel.mode = .firmware) }

/-- Bytes of device memory (R9): 768 GiB. -/
def memBytes : Nat := 768 * 2 ^ 30

/-- The outcome of a translation: a leaf, a fault cause of R212, or a table byte still held by a store (R265). -/
inductive Xl
  | ok (t : Tlb)
  | fault (cause : Nat)
  | wait
deriving DecidableEq, Repr

def locAdd (l : Loc) (k : Nat) : Loc :=
  match l with
  | .glob pa => .glob (pa + k)
  | .sp p off => .sp p (off + k)

/-- Byte ranges of two accesses meet. -/
def overlap (a : Loc) (n : Nat) (b : Loc) (m : Nat) : Bool :=
  match a, b with
  | .glob x, .glob y => decide (x < y + m ∧ y < x + n)
  | .sp p x, .sp q y => decide (p = q ∧ x < y + m ∧ y < x + n)
  | _, _ => false

/-- Some byte of the range is held by a store that has not been placed (R206, R265). -/
def State.heldOver (s : State) (l : Loc) (n : Nat) : Bool := s.held.any fun h => !h.remote && overlap h.loc h.n l n

/-- Index of a level of the walk (R365). -/
def walkIndex (va : Nat) (level : Nat) : Nat :=
  if level = 4 then va / 2 ^ 48 % 256 else va / 2 ^ (12 + 9 * level) % 512

/-- Bytes of the page that a leaf of the level maps. -/
def pageShift (level : Nat) (s64 : Bool) : Nat := if level = 0 then (if s64 then 16 else 12) else 12 + 9 * level

/-- A leaf entry breaks R366 at its level. -/
def leafBad (e level : Nat) : Bool :=
  let s64 := e.testBit 5
  let sh := pageShift level s64
  (s64 && decide (level ≠ 0)) || decide (e / 2 ^ 12 % 2 ^ (sh - 12) ≠ 0) || (!e.testBit 6 && decide (e / 2 ^ 52 ≠ 0))

/-- The entry breaks R366: a reserved field, LEAF against its level, or a misaligned PFN. -/
def entryBad (e level : Nat) : Bool :=
  decide (e / 2 ^ 7 % 32 ≠ 0)
    || (if e.testBit 1 then decide (3 ≤ level) || leafBad e level
        else decide (level = 0) || decide (e / 4 % 32 ≠ 0) || decide (e / 2 ^ 52 ≠ 0))

/-- The translation that a leaf entry gives. -/
def leafOf (c : TCtx) (va e level : Nat) : Tlb :=
  let sh := pageShift level (e.testBit 5)
  { core := c.core, part := c.part, asid := c.asid, page := va / 2 ^ sh, shift := sh,
    frame := e / 2 ^ 12 % 2 ^ 40 * 2 ^ 12, r := e.testBit 2, w := e.testBit 3, u := e.testBit 4,
    remote := e.testBit 6, peer := e / 2 ^ 52 }

/-- The checks of R368 on a leaf. -/
def leafCheck (r : PartRec) (c : TCtx) (rd wr : Bool) (va : DWord) (t : Tlb) : Xl :=
  if t.remote ≠ inFabric va then .fault 1
  else if (rd && !t.r) || (wr && !t.w) || (c.user && !t.u) then .fault 2
  else if !t.remote && !(if c.fw then decide (t.frame + 2 ^ t.shift ≤ memBytes) else partOwns r t.frame (2 ^ t.shift)) then .fault 2
  else .ok t

/-- The address that a read of a table entry takes: of a 64 KiB page any of the sixteen (R367). -/
def State.entryAt (s : State) (table level i : Nat) : Nat :=
  let e := s.mem.readNat (table + 8 * i) 8
  if level = 0 ∧ e.testBit 0 ∧ e.testBit 5 then table + 8 * (i / 16 * 16 + (Config.s64Pick s.fresh).val)
  else table + 8 * i

/-- The address that a machine check reports for the first 8-byte word of a range that an uncorrectable error has reached (R281,
R384). A scratchpad has no physical address that the spec gives: a free value (DESIGN CHOICE, log 83). -/
def State.errIn (s : State) (l : Loc) (n : Nat) : Option Nat :=
  match l with
  | .glob pa => s.errs.find? fun a => decide (a < pa + n ∧ pa < a + 8)
  | .sp p off =>
    ((s.block? p).bind fun b => b.errs.find? fun a => decide (a < off + n ∧ off < a + 8)).map fun a =>
      (Config.scratchAddr p a).toNat

/-- The error that the read of a table entry meets: in the entry itself, by which a 64 KiB page is known, or in the one of its sixteen
that translates (R367, R368). -/
def State.entryError (s : State) (table level i : Nat) : Option Nat :=
  (s.errIn (.glob (table + 8 * i)) 8).or (s.errIn (.glob (s.entryAt table level i)) 8)

/-- The walk of R368 from a level down. `kept` says which table words a store or an engine still keeps (R265, R270). -/
def State.walkFrom (s : State) (kept : Nat → Bool) (c : TCtx) (rd wr : Bool) (va : DWord) : Nat → Nat → Xl
  | 0, _ => .fault 1
  | fuel + 1, table =>
    let level := fuel
    let i := walkIndex va.toNat level
    if !partOwns (s.partRec c.part) (table + 8 * i) 8 then .fault 2
    else if kept (table + 8 * i) || kept (s.entryAt table level i) then .wait
    else if (s.entryError table level i).isSome then .fault 4
    else
      let e := s.mem.readNat (s.entryAt table level i) 8
      if !e.testBit 0 then .fault 1
      else if entryBad e level then .fault 1
      else if e.testBit 1 then leafCheck (s.partRec c.part) c rd wr va (leafOf c va.toNat e level)
      else s.walkFrom kept c rd wr va fuel (e / 2 ^ 12 % 2 ^ 40 * 2 ^ 12)

/-- The table word with an uncorrectable error that a walk of the address meets (R368), if any. -/
def State.walkError (s : State) (va : Nat) : Nat → Nat → Option Nat
  | 0, _ => none
  | fuel + 1, table =>
    match s.entryError table fuel (walkIndex va fuel) with
    | some w => some w
    | none =>
      let e := s.mem.readNat (s.entryAt table fuel (walkIndex va fuel)) 8
      if e.testBit 0 && !e.testBit 1 then s.walkError va fuel (e / 2 ^ 12 % 2 ^ 40 * 2 ^ 12) else none

/-- The physical page of a root register's table (R364). -/
def rootTable (root : Nat) : Nat := root / 2 ^ 12 % 2 ^ 40 * 2 ^ 12

/-- A cached translation of the address, if the core holds one (R369). -/
def State.cached (s : State) (c : TCtx) (va : DWord) : Option Tlb :=
  s.tlb.find? fun t => t.core = c.core ∧ t.part = c.part ∧ t.asid = c.asid ∧ t.page = va.toNat / 2 ^ t.shift

/-- An access translates (R368, R371): through a cached translation, or by a walk. -/
def State.translateBy (s : State) (kept : Nat → Bool) (c : TCtx) (rd wr : Bool) (va : DWord) : Xl :=
  if canonical va then
    match s.cached c va with
    | some t => leafCheck (s.partRec c.part) c rd wr va t
    | none => s.walkFrom kept c rd wr va 5 (rootTable c.root)
  else .fault 3

/-- The physical or remote address of a byte under a translation. -/
def Tlb.addr (t : Tlb) (va : DWord) : Nat := t.frame + va.toNat % 2 ^ t.shift

/-! ### Scratchpad addresses (R190) -/

/-- The place whose block a scratchpad address word names, and the offset; none where R190 faults, and for a member of the team
whose block has ended or is saved, which R190 does not say: the model's choice (DESIGN CHOICE, log 63). -/
def State.spTarget (s : State) (place : Nat) (a : Word) (n : Nat) : Option (Nat × Nat) :=
  match s.block? place with
  | none => none
  | some b =>
    let off := (a.extractLsb' 0 21).toNat
    let rank := (a.extractLsb' 21 2).toNat
    let mode := (a.extractLsb' 23 2).toNat
    let mem := (a.extractLsb' 25 4).toNat
    let tgt : Option Nat :=
      if (a.extractLsb' 29 3).toNat ≠ 0 then none
      else if mode = 0 then (if rank = 0 ∧ mem = 0 then some place else none)
      else if mode = 1 then
        (if mem = 0 then
          (s.blocks.find? fun e => e.2.part = b.part ∧ e.2.serial = b.serial ∧ e.2.team = b.team
              ∧ coreOf e.1 = clusterOf (coreOf place) * 4 + rank).map (·.1)
         else none)
      else if mode = 2 then (if rank = 0 ∧ mem < b.t then s.memberPlace b mem else none)
      else none
    match tgt with
    | none => none
    | some p => match s.block? p with
      | some tb => if off + n ≤ tb.kernel.decl.scratch then some (p, off) else none
      | none => none

/-! ### Bytes -/

def State.byteAt (s : State) (l : Loc) : Byte :=
  match l with
  | .glob pa => s.mem.get pa
  | .sp p off => match s.block? p with
    | some b => b.scratch.get off
    | none => 0

def State.putByte (s : State) (l : Loc) (v : Byte) : State :=
  match l with
  | .glob pa => { s with mem := s.mem.set pa v }
  | .sp p off => s.mapBlock p fun b => { b with scratch := b.scratch.set off v }

def State.bytesAt (s : State) (l : Loc) (n : Nat) : List Byte := (List.range n).map fun k => s.byteAt (locAdd l k)

/-- The launch serial of a live barrier word at the byte's 8-byte word (R224, R228). -/
def State.tagAt (s : State) (l : Loc) : Option Nat :=
  match l with
  | .glob pa => smFind s.btags (pa / 8)
  | .sp p off => match s.block? p with
    | some b => if off / 8 ∈ b.tags then some b.serial else none
    | none => none

def State.setTag (s : State) (l : Loc) (serial : Nat) : State :=
  match l with
  | .glob pa => { s with btags := smPut s.btags (pa / 8) serial }
  | .sp p off => s.mapBlock p fun b => { b with tags := if off / 8 ∈ b.tags then b.tags else b.tags ++ [off / 8] }

def State.clearTag (s : State) (l : Loc) : State :=
  match l with
  | .glob pa => { s with btags := smErase s.btags (pa / 8) }
  | .sp p off => s.mapBlock p fun b => { b with tags := b.tags.filter fun w => decide (w ≠ off / 8) }

/-! ### Logical time (R266 to R268) -/

/-- A number for the 128-byte line of a location. -/
def lineKey (l : Loc) : Nat :=
  match l with
  | .glob pa => 2 * (pa / 128)
  | .sp p off => 2 * (p * 16384 + off / 128) + 1

def sameLine (a b : Loc) : Bool := decide (lineKey a = lineKey b)

/-- LEN of the lease that a partition's reads take (R53, R267). -/
def State.leaseLen (s : State) (part : Nat) : Nat := (s.sysreg part 0x003).toNat % 256

def State.lineTime (s : State) (l : Loc) : LineTime := smGet {} s.lines (lineKey l)

/-- A read of a line by a core: from its lease while that lasts and the line is not written, otherwise at the home (R266, R267). -/
def State.touchRead (s : State) (core part : Nat) (l : Loc) : State :=
  let c := s.core core
  match smFind c.leases (lineKey l) with
  | some e =>
    if c.ts ≤ e ∧ (s.lineTime l).wtime ≤ e then s
    else renew s c
  | none => renew s c
where
  renew (s : State) (c : Core) : State :=
    let t := s.lineTime l
    let ts := max c.ts t.wtime
    let e := ts + s.leaseLen part
    { s.setCore core { c with ts, leases := smPut c.leases (lineKey l) e, granted := smPut c.granted (lineKey l) e } with
      lines := smPut s.lines (lineKey l) { t with leaseEnd := max t.leaseEnd e } }

/-- The access of a number is outstanding. -/
def State.outstanding (s : State) (id : Nat) : Bool := s.outs.any fun o => decide (o.id = id)

/-- The latest request of a core for a line, to which its home has sent its latest reply (R418). -/
def Core.latest (k : Core) (line : Nat) : Option Request := (k.requests.filter fun r => decide (lineKey r.loc = line)).getLast?

/-- A line request of the access of a number, with a tag that no outstanding request of the core has (R418). Requests that are over
leave, but for the latest of each line. -/
def State.request (s : State) (core id : Nat) (l : Loc) : State :=
  s.mapCore core fun k =>
    let used := (k.requests.filter fun r => s.outstanding r.id).map (·.tag)
    let tag := ((List.range (used.length + 1)).find? fun t => decide (t ∉ used)).getD 0
    { k with requests := (k.requests.filter fun r => s.outstanding r.id || decide (lineKey r.loc ≠ lineKey l ∧ k.latest (lineKey r.loc) = some r))
                          ++ [{ id, loc := l, tag }] }

/-- A write of a line: placed later than its write time and every lease (R266); the writer's time jumps there. -/
def State.touchWrite (s : State) (core : Option Nat) (l : Loc) : State :=
  let t := s.lineTime l
  let w := max t.wtime t.leaseEnd + 1 + Config.writeLag s.fresh
  match core with
  | some c =>
    let k := s.core c
    let w := max k.ts w
    { s.setCore c { k with ts := w } with
      lines := smPut s.lines (lineKey l) { t with wtime := w }, fresh := s.fresh + 1 }
  | none => { s with lines := smPut s.lines (lineKey l) { t with wtime := w }, fresh := s.fresh + 1 }

/-- The reservations on a line are cleared by a write to it (R219). -/
def State.clearResv (s : State) (l : Loc) : State :=
  { s with blocks := s.blocks.map fun e =>
      (e.1, { e.2 with pairs := e.2.pairs.map fun q =>
        (q.1, { q.2 with resv := q.2.resv.filter fun r => !sameLine r.2.loc l }) }) }

/-! ### Lines that engines own (R270) -/

/-- The address context of an owner's block. -/
def State.ctxOf (s : State) (o : Owner) : Option TCtx :=
  match s.placeOfOwner o with
  | some p => (s.block? p).map fun b => b.tctx p
  | none => none

/-- A translation that an operation keeps of the page it has reached, or one made now (R371, R374). -/
def keptXl (t : Option Tlb) (va : DWord) (xl : Xl) : Xl :=
  match t with
  | some t => if va.toNat / 2 ^ t.shift = t.page then .ok t else xl
  | none => xl

/-- The translation of a byte of the global side of a copy: that of the page which the copy has reached, its first page's made
before the issue, or for a later page one of its own (R371). -/
def State.copyXlateBy (s : State) (kept : Nat → Bool) (k : Copy) (wr : Bool) (va : DWord) : Xl :=
  match s.ctxOf k.own with
  | none => .fault 1
  | some c => keptXl k.gpage va (s.translateBy kept c (!wr) wr va)

/-- A held store keeps a word of a table (R265). -/
def State.tableHeld (s : State) (a : Nat) : Bool := s.heldOver (.glob a) 8

/-- Two byte ranges share a 128-byte line. -/
def linesMeet (a n b m : Nat) : Bool := decide (0 < n ∧ 0 < m ∧ a / 128 ≤ (b + m - 1) / 128 ∧ b / 128 ≤ (a + n - 1) / 128)

/-- A write of `len` bytes at a virtual address will meet the lines of a physical range. -/
def virtMeets (xl : DWord → Xl) (va : DWord) (len pa n : Nat) : Bool :=
  (List.range ((va.toNat % 4096 + len - 1) / 4096 + 1)).any fun j =>
    let lo := if j = 0 then va.toNat else (va.toNat / 4096 + j) * 4096
    let hi := Nat.min (va.toNat + len) ((va.toNat / 4096 + j + 1) * 4096)
    match xl (BitVec.ofNat 64 lo) with
    | .ok t => !t.remote && linesMeet (t.addr (BitVec.ofNat 64 lo)) (hi - lo) pa n
    | _ => false

/-- The block of the owner is halted: its copies stand still and own nothing (R238). -/
def State.frozen (s : State) (o : Owner) : Bool :=
  match s.placeOfOwner o with
  | some p => ((s.block? p).map (·.halted)).getD false
  | none => false

/-- A line of the range is one that the copy has yet to write. -/
def State.copyMeets (s : State) (k : Copy) (l : Loc) (n : Nat) : Bool :=
  if k.stopped || s.frozen k.own then false
  else match l with
    | .glob pa => decide (k.dir = 1) && virtMeets (s.copyXlateBy s.tableHeld k true) k.dst k.left pa n
    | .sp p off =>
      decide (k.dir ≠ 1) &&
        (match s.placeOfOwner k.own with
         | none => false
         | some q => match s.spTarget q (lo32 k.dst) k.left with
           | some (p', o) => decide (p = p') && linesMeet o k.left off n
           | none => false)

/-- Bytes of a collective's DST. -/
def Coll.dstBytes (k : Coll) : Nat := k.count * accBytes k.ty * (if k.gather then k.peers.length else 1)

/-- The context of a collective command, which goes on while its block is saved (R238). -/
def Coll.ctx (k : Coll) : TCtx := { core := k.core, part := k.own.part, asid := k.asid, root := k.root, user := k.user, fw := k.fw }

/-- The translation of a byte of one side of a collective. -/
def State.collXlateBy (s : State) (kept : Nat → Bool) (k : Coll) (wr : Bool) (va : DWord) : Xl :=
  keptXl (if wr then k.gdst else k.gsrc) va (s.translateBy kept k.ctx (!wr) wr va)

/-- A line of the range is one that the command has yet to write. -/
def State.collMeets (s : State) (k : Coll) (l : Loc) (n : Nat) : Bool :=
  match l with
  | .glob pa => k.result.isNone && virtMeets (s.collXlateBy s.tableHeld k true) (k.dst + BitVec.ofNat 64 k.put) (k.dstBytes - k.put) pa n
  | _ => false

/-- The line of a location, as a location and its first byte. -/
def lineOf (l : Loc) : Loc :=
  match l with
  | .glob pa => .glob (pa / 128 * 128)
  | .sp p off => .sp p (off / 128 * 128)

/-- The first bytes of the lines that a range of `n` bytes touches. -/
def linesOf (l : Loc) (n : Nat) : List Loc :=
  match l with
  | .glob pa => (List.range ((pa + n - 1) / 128 - pa / 128 + 1)).map fun k => .glob ((pa / 128 + k) * 128)
  | .sp p off => (List.range ((off + n - 1) / 128 - off / 128 + 1)).map fun k => .sp p ((off / 128 + k) * 128)

/-- A store that was placed before the operation of a number holds bytes of the line: the operation does not own it yet
(R231, R270). -/
def State.keptFrom (s : State) (id : Nat) (l : Loc) : Bool :=
  s.held.any fun h => !h.remote && decide (h.id < id) && overlap h.loc h.n l 128

/-- A line of the range is owned by an engine operation that entered before `before` (R270). -/
def State.ownedOver (s : State) (before : Option Nat) (l : Loc) (n : Nat) : Bool :=
  let first (id : Nat) : Bool := match before with
    | some b => decide (id < b)
    | none => true
  (s.cores.any fun e => e.2.chans.any fun ch => ch.2.any fun k =>
      first k.id && (linesOf l n).any fun x => s.copyMeets k x 128 && !s.keptFrom k.id x)
    || s.colls.any fun k => first k.id && (linesOf l n).any fun x => s.collMeets k x 128 && !s.keptFrom k.id x

/-! ### Table reads take their places too (R265, R368) -/

/-- A word of a table that a held store keeps, or an engine operation that entered before `before` owns (R265, R270). -/
def State.tableKept (s : State) (before : Option Nat) (a : Nat) : Bool := s.tableHeld a || s.ownedOver before (.glob a) 8

/-- A walk of a lane's access (R368). -/
def State.walk (s : State) (c : TCtx) (rd wr : Bool) (va : DWord) : Xl :=
  if canonical va then s.walkFrom (s.tableKept none) c rd wr va 5 (rootTable c.root) else .fault 3

/-- The translation of an access that is not an engine's. -/
def State.translate (s : State) (c : TCtx) (rd wr : Bool) (va : DWord) : Xl := s.translateBy (s.tableKept none) c rd wr va

/-- The translation of a byte of the global side of a copy, as its channel reaches it. -/
def State.copyXlate (s : State) (k : Copy) (wr : Bool) (va : DWord) : Xl := s.copyXlateBy (s.tableKept (some k.id)) k wr va

/-- The translation of a byte of one side of a collective, as its engine reaches it. -/
def State.collXlate (s : State) (k : Coll) (wr : Bool) (va : DWord) : Xl := s.collXlateBy (s.tableKept (some k.id)) k wr va

/-! ### Writes (R225, R228, R266) -/

/-- Bytes stored from a location up, those of live words dropped; whether any was dropped. -/
def State.putBytes (s : State) (l : Loc) (bs : List Byte) : State × Bool :=
  match bs with
  | [] => (s, false)
  | v :: r =>
    match s.tagAt l with
    | some _ => let q := State.putBytes s (locAdd l 1) r; (q.1, true)
    | none => State.putBytes (s.putByte l v) (locAdd l 1) r

/-- The device-memory words of a range lose their tags (R228). -/
def State.clearTags (s : State) (l : Loc) (n : Nat) : State :=
  match l with
  | .glob _ => (List.range n).foldl (fun s k => s.clearTag (locAdd l k)) s
  | .sp _ _ => s

/-- A place in each line of a range. -/
def inLines (l : Loc) (n : Nat) : List Loc :=
  ((List.range n).filter fun k => decide (k = 0) || !sameLine (locAdd l k) (locAdd l (k - 1))).map (locAdd l)

/-- Every line of a range is written at the home. -/
def State.touchLines (s : State) (core : Option Nat) (l : Loc) (n : Nat) : State :=
  (inLines l n).foldl (fun s x => s.touchWrite core x) s

/-- A write clears the reservations on its lines at its place in the order (R219): a held store's is where it was issued. -/
def State.clearLines (s : State) (l : Loc) (n : Nat) : State := (inLines l n).foldl State.clearResv s

/-- A write to a partition's ordered-buffer region spoils what every launch that holds entries then applies, at this time and
later (R275). -/
def State.spoilAdds (s : State) (l : Loc) (n : Nat) : State :=
  match l with
  | .glob pa => if s.launches.all (fun x => decide (x.adds = [])) then s else
    { s with launches := s.launches.map fun x =>
        let base := (s.sysreg x.part 0x005).toNat
        let size := 16 * ((s.sysreg x.part 0x006).toNat % 2 ^ 32)
        if x.adds ≠ [] ∧ pa < base + size ∧ base < pa + n then { x with spoilt := true } else x }
  | .sp _ _ => s

/-- The bytes of a write reach memory (R266): whether a byte of a live word was dropped. -/
def State.putNow (s : State) (core : Option Nat) (l : Loc) (bs : List Byte) (clears : Bool) : State × Bool :=
  let s := (if clears then s.clearTags l bs.length else s).spoilAdds l bs.length
  (s.touchLines core l bs.length).putBytes l bs

/-- A write placed now. -/
def State.placeNow (s : State) (core : Option Nat) (l : Loc) (bs : List Byte) (clears : Bool) : State × Bool :=
  (s.clearLines l bs.length).putNow core l bs clears

/-- A write of an engine or an agent outside the lanes (R225): whether a byte of a live word was dropped. -/
def State.storeEngine (s : State) (core : Option Nat) (l : Loc) (bs : List Byte) : State × Bool := s.placeNow core l bs false

/-- The core of an owner, if its block is resident. -/
def State.coreOfOwner (s : State) (o : Owner) : Option Nat := (s.placeOfOwner o).map coreOf

/-! ### Machine-check events (R281, R383, R384) -/

/-- The trap ring of a partition is there (R381). -/
def State.trapRing (s : State) (part : Nat) : Bool :=
  let base := (s.sysreg part 0x001).toNat
  let n := (s.sysreg part 0x002).toNat % 2 ^ 32
  decide (base ≠ 0 ∧ n ≠ 0 ∧ base % 4096 = 0) && partOwns (s.partRec part) base (64 + 64 * n)

/-- A dropped record adds one to LOST, which saturates. -/
def State.ringLost (s : State) (core : Option Nat) (base : Nat) : State :=
  (s.storeEngine core (.glob (base + 24)) (leBytes 4 (Nat.min (s.mem.readNat (base + 24) 4 + 1) 0xffffffff))).1

/-- The record of an uncorrectable error: an event with no slice. -/
def mcBytes (pa : DWord) (source serial asid clk : Nat) : List Byte :=
  recordBytes { code := 0x40, kind := 5, addr := pa, aux0 := source } 0xff 0 0 serial asid clk

def Rec.isMc (r : Rec) : Bool := !r.debug && decide (leNat (r.bytes.take 2) = 5)

/-- The ASID of an owner's launch, whose block need not be resident. -/
def State.asidOf (s : State) (own : Owner) : Nat :=
  ((s.launches.find? fun la => decide (la.part = own.part ∧ la.serial = own.serial)).map (·.asid)).getD
    (((s.placeOfOwner own).bind s.block?).elim 0 (·.asid))

/-- A machine-check event of an access of a block joins the store of its core; a seventeenth is dropped (R383). -/
def State.addMc (s : State) (core : Nat) (own : Owner) (pa : DWord) (source : Nat) : State :=
  match s.partOfCore core with
  | none => s
  | some part =>
    let asid := s.asidOf own
    if 16 ≤ ((s.core core).recs.filter Rec.isMc).length then
      if s.trapRing part then s.ringLost (some core) (s.sysreg part 0x001).toNat else s
    else s.addRec core { part, bytes := mcBytes pa source own.serial asid s.clk }

/-- An access of a lane that meets an uncorrectable error in a range reports it, each time (R281). -/
def State.meetErr (s : State) (core : Nat) (own : Owner) (l : Loc) (n source : Nat) : State :=
  match s.errIn l n with
  | some pa => s.addMc core own (BitVec.ofNat 64 pa) source
  | none => s

/-- A walk of an access that meets an uncorrectable error reports it (R368). -/
def State.meetWalkErr (s : State) (core : Nat) (own : Owner) (root : Nat) (va : DWord) (cause : Nat) : State :=
  if cause = 4 then
    match s.walkError va.toNat 5 (rootTable root) with
    | some pa => s.addMc core own (BitVec.ofNat 64 pa) 4
    | none => s
  else s

/-! ### The fence interval (R55) -/

/-- A failed store, atomic or remote write of a lane, for its next fence: `port` is 15 for one that went through none, which
makes no second port. -/
def State.fenceFail (s : State) (o : Owner) (dead refused : Bool) (port : Nat) : State :=
  match s.placeOfOwner o with
  | none => s
  | some p => s.mapPair p o.group fun x =>
    let k := smGet {} x.fences o.lane
    let k' : FenceRec :=
      { count := Nat.min (k.count + 1) 0xffff, dead := k.dead || dead, refused := k.refused || refused,
        multi := k.multi || decide (port ≠ 15 ∧ k.last ≠ 15 ∧ k.last ≠ port),
        port := if k.count = 0 then port else k.port, last := if port = 15 then k.last else port }
    { x with fences := smSet {} x.fences o.lane k' }

/-! ### Writes of lanes (R206, R225, R266) -/

/-- A lane's write to a live word was dropped: the barrier-store trap is to come (R225). -/
def State.addDrop (s : State) (o : Owner) (sl : Slice) (pc : Word) (addr : DWord) : State :=
  let h := match s.placeOfOwner o with
    | some p => s.pairHandle p o.group
    | none => 0
  { s with drops := s.drops ++ [{ own := o, sl, pc, addr, handle := h }] }

/-- Offset of the first byte of a range that lies in a live barrier word. -/
def State.liveOffset (s : State) (l : Loc) (n : Nat) : Nat := ((List.range n).find? fun k => (s.tagAt (locAdd l k)).isSome).getD 0

/-- A byte of a captured read that a held store keeps. -/
def RdByte.heldBy (r : RdByte) (id : Nat) : Bool :=
  match r with
  | .held i _ => decide (i = id)
  | .byte _ => false

/-- The held bytes of captured reads become data once the store is placed: such a read lies after the store's write in logical
time (R266, R267). -/
def State.settleReads (s : State) (id : Nat) (l : Loc) : State :=
  let readers := s.outs.filter fun o => o.bytes.any fun r => r.heldBy id
  let s : State := { s with outs := s.outs.map fun o =>
      { o with bytes := o.bytes.map fun r =>
          match r with
          | .held i k => if i = id then .byte (s.byteAt (locAdd l k)) else r
          | r => r } }
  readers.foldl (fun s o => match s.coreOfOwner o.own with
    | some c => s.touchRead c o.own.part l
    | none => s) s

/-- A lane's bytes reach memory: a byte for a live word is dropped with a trap to come, and a write that meets an uncorrectable
error is dropped and fails in the lane's fence status (R55, R225, R281). Bytes that cover several live words make one record, with the
first word's address (DESIGN CHOICE, log 77). -/
def State.putLane (s : State) (o : Owner) (sl : Slice) (pc : Word) (va : DWord) (l : Loc) (bs : List Byte) (clears : Bool) : State :=
  match s.errIn l bs.length with
  | some pa => (s.fenceFail o false false 15).addMc ((s.coreOfOwner o).getD 0) o (BitVec.ofNat 64 pa) 1
  | none =>
    let q := s.putNow (s.coreOfOwner o) l bs clears
    if q.2 then q.1.addDrop o sl pc (va + BitVec.ofNat 64 (s.liveOffset l bs.length)) else q.1

/-- A held store whose data is there is written (R206, R269). -/
def State.placeHeld (s : State) (h : Held) (bs : List Byte) : State :=
  let s := { s with held := s.held.filter fun x => decide (x.id ≠ h.id) }
  (s.putLane h.own .access h.pc h.addr h.loc bs h.clears).settleReads h.id h.loc

/-- The held stores that have their data and follow no overlapping held store are placed, in order. -/
def State.drainHeld (s : State) : Nat → State
  | 0 => s
  | fuel + 1 =>
    match s.held.find? fun h => h.data.isSome && !h.remote && !h.retry &&
        !((s.held.takeWhile fun x => decide (x.id ≠ h.id)).any fun x => !x.remote && overlap x.loc x.n h.loc h.n) with
    | none => s
    | some h => (s.placeHeld h (h.data.getD [])).drainHeld fuel

/-- A lane's write at its program position (R265): placed now, or behind the held stores whose bytes it meets. -/
def State.storeLane (s : State) (o : Owner) (sl : Slice) (pc : Word) (va : DWord) (l : Loc) (bs : List Byte)
    (clears : Bool) : State :=
  let s := s.clearLines l bs.length
  if s.heldOver l bs.length then
    { s with held := s.held ++ [{ id := s.fresh, own := o, loc := l, n := bs.length, data := some bs, addr := va, pc,
                                  clears }], fresh := s.fresh + 1 }
  else s.putLane o sl pc va l bs clears

/-- A write by firmware or the loader, which clears tags (R228). -/
def State.storeFirmware (s : State) (pa : Nat) (bs : List Byte) : State := (s.placeNow none (.glob pa) bs true).1

/-! ### Reads -/

/-- A read at its program position: each byte's value, or the held store that supplies it (R206, R265). -/
def State.capture (s : State) (l : Loc) (n : Nat) : List RdByte :=
  (List.range n).map fun k =>
    let x := locAdd l k
    match (s.held.filter fun h => !h.remote && overlap h.loc h.n x 1).getLast? with
    | some h =>
      let off := match h.loc, x with
        | .glob a, .glob b => b - a
        | .sp _ a, .sp _ b => b - a
        | _, _ => 0
      .held h.id off
    | none => .byte (s.byteAt x)

/-- A number at a location. -/
def State.natAt (s : State) (l : Loc) (n : Nat) : Nat := leNat (s.bytesAt l n)

/-! ### Barrier words (R224 to R227) -/

structure BarWord where
  expect : Nat := 0
  arrived : Nat := 0
  phase : Bool := false
  cls : Nat := 0
  inval : Bool := false
  gen : Nat := 0
  sinit : Nat := 0
deriving DecidableEq, Repr

def barOf (v : Nat) : BarWord :=
  { expect := v % 2 ^ 16, arrived := v / 2 ^ 16 % 2 ^ 16, phase := v.testBit 32, cls := v / 2 ^ 33 % 4, inval := v.testBit 35,
    gen := v / 2 ^ 36 % 16, sinit := v / 2 ^ 40 % 2 ^ 24 }

def BarWord.bits (w : BarWord) : Nat :=
  w.expect % 2 ^ 16 + w.arrived % 2 ^ 16 * 2 ^ 16 + (if w.phase then 2 ^ 32 else 0) + w.cls % 4 * 2 ^ 33 + (if w.inval then 2 ^ 35 else 0)
    + w.gen % 16 * 2 ^ 36 + w.sinit % 2 ^ 24 * 2 ^ 40

/-- The status word of R226. -/
def BarWord.status (w : BarWord) : Word := (if w.phase then 1 else 0) + (if w.inval then 2 else 0)

def State.barAt (s : State) (l : Loc) : BarWord := barOf (s.natAt l 8)

/-- The bytes of a barrier word are written by a barrier operation, which no tag stops. -/
def State.putBar (s : State) (core : Option Nat) (l : Loc) (w : BarWord) : State :=
  ((leBytes 8 w.bits).foldl (fun (q : State × Nat) v => (q.1.putByte (locAdd l q.2) v, q.2 + 1))
    (((s.spoilAdds l 8).touchWrite core l).clearResv l, 0)).1

/-- A lane blocked on a barrier word. -/
structure Waiter where
  place : Nat
  group : Nat
  lane : Nat
  k : Ret

/-- The lanes blocked on a word (R226, R229), but for one that a watchdog trap has taken out of its wait (R292). -/
def State.waiters (s : State) (l : Loc) : List Waiter :=
  s.blocks.flatMap fun e => e.2.pairs.flatMap fun q => q.2.acc.lanes.filterMap fun x =>
    match x.2.wait with
    | .barrier _ loc _ _ k => if loc = l ∧ k.left = false then some ⟨e.1, q.1, x.1, k⟩ else none
    | _ => none

/-- A lane's wait ends: the result goes to its destination and the lane goes on after the instruction (R226, R338). -/
def State.endWait (s : State) (place g : Nat) (sl : Slice) (l : Nat) (k : Ret) (v : Word) : State :=
  let s := match k.nr, k.dst with
    | false, .queue q => s.push place g q.toNat l [{ val := v }]
    | _, _ => s
  s.mapHalf place g sl fun h =>
    let h := match k.nr, k.dst with
      | false, .reg n => h.setReg l n.toNat v
      | false, .uni n => h.deliverUni false k.no n.toNat (v.zeroExtend 64)
      | _, _ => h
    h.setLane l { h.lane l with wait := .none, pc := (h.lane l).pc + BitVec.ofNat 32 k.len }

/-- A progress event of the waits on a word, for the starvation timers of the waiting groups (R291). -/
def State.barProgress (s : State) (l : Loc) : State :=
  (s.waiters l).foldl (fun s w => s.mapHalf w.place w.group .access fun h => { h with moved := true }) s

/-- Every waiter of the word is released with its status (R226). -/
def State.releaseWaiters (s : State) (l : Loc) (v : Word) : State :=
  (s.waiters l).foldl (fun s w => s.endWait w.place w.group .access w.lane w.k v) (s.barProgress l)

/-- `c` arrivals on a word that is not invalidated (R226): the waiters are released at the first completed phase, and see
the word as it is then. -/
def State.arriveAt (s : State) (core : Option Nat) (l : Loc) (c : Nat) : State :=
  let w := s.barAt l
  if w.inval then s
  else
    let a := w.arrived + c
    let n := a / w.expect
    let w' := { w with arrived := if w.expect = 0 then a else a % w.expect, phase := w.phase != decide (n % 2 = 1) }
    let s := (s.putBar core l w').barProgress l
    if n = 0 then s else s.releaseWaiters l { w with phase := !w.phase }.status

/-- An arrival of an engine (R231, R383): counted on a live word that is not invalidated and, where one is given, at that
generation; otherwise dropped. -/
def State.engineArrive (s : State) (core : Option Nat) (l : Loc) (gen : Option Nat) : State × Bool :=
  let w := s.barAt l
  if (s.tagAt l).isSome && !w.inval && gen.all (fun k => decide (k = w.gen)) then (s.arriveAt core l 1, true) else (s, false)

end Sys2Proof.Machine
end

