-- ==== Sys2Proof/Machine/Remote.lean ====
section
/-! DEFINITION. Remote accesses of lanes: the peer table (R408), how an access leaves and how it fails (R199, R217, R411), and
`.rel` (R222). -/

namespace Sys2Proof.Machine
open Sys2Proof

/-! ### Remote accesses (R199, R217, R408, R411) -/

/-- A peer entry (R408): V and no reserved field set. -/
structure Peer where
  fep : Nat
  job : Nat
  ports : BitVec 12
  rod : Bool
  outOk : Bool
  inOk : Bool
  tss : Bool
  rasid : Nat
  rpart : Nat
  key : Nat
deriving DecidableEq, Repr

def State.peerTable (s : State) (part : Nat) : Option (Nat × Nat) :=
  let base := (s.sysreg part 0x020).toNat
  let n := (s.sysreg part 0x021).toNat % 2 ^ 13
  if base % 4096 = 0 ∧ n ≠ 0 ∧ partOwns (s.partRec part) base (32 * n) then some (base, n) else none

/-- Entry `i` of a partition's peer table; none where it counts as V = 0 (R408, R409). -/
def State.peer? (s : State) (part i : Nat) : Option Peer :=
  match s.peerTable part with
  | none => none
  | some (base, n) =>
    let a := base + 32 * i
    let rd (off k : Nat) := s.mem.readNat (a + off) k
    let flags := rd 23 1
    let tss := flags.testBit 3
    let key := rd 28 2
    if i < n ∧ flags.testBit 0 ∧ flags / 16 = 0 ∧ rd 19 1 = 0 ∧ rd 20 2 / 2 ^ 12 = 0 ∧ rd 22 1 ≤ 2 ∧ rd 27 1 = 0
        ∧ key / 2 ^ 9 = 0 ∧ rd 30 2 = 0 ∧ (tss = false → key = 0)
        ∧ (tss = true → (smFind s.tkeys (part * 512 + key)).isSome) then
      some { fep := rd 0 16, job := rd 16 3, ports := BitVec.ofNat 12 (rd 20 2), rod := decide (rd 22 1 = 1), outOk := flags.testBit 1,
             inOk := flags.testBit 2, tss, rasid := rd 24 2, rpart := rd 26 1, key }
    else none

/-- A remote access fails with a cause of R212: a token, a failed result, or the lane's fence status. -/
def State.failRemote (s : State) (r : Remote) (cause : Nat) : State :=
  let s := { s with remotes := s.remotes.filter fun x => decide (x.id ≠ r.id) }
  let s := match r.op with
    | .read => s
    | _ => s.fenceFail r.own (decide (cause = 6)) (decide (cause = 5)) r.port
  match r.dst with
  | .drop => s
  | .queue _ => s.deliverToken r.own r.dst r.id cause
  | _ => { s with outs := s.outs ++ [{ id := r.id, own := r.own, dst := r.dst, ty := r.ty, addr := r.addr, pc := r.pc,
                                       bad := some cause }] }

/-- The lane's earlier accesses are complete (R222): none that is still to be placed, returned or answered. -/
def State.earlierDone (s : State) (o : Owner) (id : Nat) : Bool :=
  (s.late.all fun h => decide (h.own ≠ o ∨ id ≤ h.id)) && (s.held.all fun h => decide (h.own ≠ o ∨ id ≤ h.id))
    && (s.outs.all fun x => decide (x.own ≠ o ∨ id ≤ x.id))
    && (s.remotes.all fun x => decide (x.own ≠ o ∨ id ≤ x.id))

/-- The ports through which a peer may be reached now. -/
def State.portsTo (s : State) (e : Peer) : List Nat := (List.range 12).filter fun k => e.ports.getLsbD k && s.ports.getLsbD k

/-- The one that the engine chooses for an access (R411): a free choice (DESIGN CHOICE, log 23). -/
def State.portFor (s : State) (e : Peer) (id : Nat) : Nat :=
  let ps := s.portsTo e
  ps.getD ((Config.freeByte id).toNat % ps.length) 0

/-- What a packet to the peer carries. -/
def State.headFor (s : State) (part : Nat) (e : Peer) : Carried :=
  { fep := e.fep, job := e.job, rasid := e.rasid, rpart := e.rpart, ports := e.ports, tss := e.tss, idx := e.key,
    key := if e.tss then smFind s.tkeys (part * 512 + e.key) else none }

/-- A transport key is accepted at an index: the one that is installed, or a replaced one in its time (R409). -/
def State.keyTakes (s : State) (part idx : Nat) (key : Option (List Byte)) : Bool :=
  key.any fun k => decide (smFind s.tkeys (part * 512 + idx) = some k)
    || s.oldKeys.any fun o => decide (o.part = part ∧ o.idx = idx ∧ o.key = k ∧ s.clk < o.until_)

/-- A remote access leaves on a port that its peer allows and that is up, or fails (R408, R411). -/
def State.sendRemote (s : State) (r : Remote) : State :=
  match s.peer? r.own.part r.peer with
  | none => s.failRemote r 5
  | some e =>
    if e.outOk then
      if s.portsTo e = [] then s.failRemote r 6
      else
        let port := s.portFor e r.id
        { s with remotes := s.remotes.map fun x => if x.id = r.id then { x with sent := some s.clk, head := s.headFor r.own.part e, port } else x }
    else s.failRemote r 5

/-- A remote access is issued: it leaves at once, or after the lane's earlier accesses under `.rel` (R222). -/
def State.addRemote (s : State) (r : Remote) : State :=
  let s := { s with remotes := s.remotes ++ [r] }
  if r.rel && !s.earlierDone r.own r.id then s else s.sendRemote r

/-- Released accesses whose lane's earlier accesses have completed leave (R222). -/
def State.sendReleased (s : State) : State :=
  (s.remotes.filter fun r => r.sent.isNone && r.rel).foldl
    (fun s r => if s.earlierDone r.own r.id then s.sendRemote r else s) s

end Sys2Proof.Machine
end

