-- ==== Sys2Proof/Machine/Late.lean ====
section
/-! DEFINITION. Late accesses (R265, R266, log 1): accesses of lanes that have issued and take their places in the single order
later. -/

namespace Sys2Proof.Machine
open Sys2Proof

/-! ### Advance-fault requests (R372) -/

/-- The first address of the page that a walk finds to map an address, whatever faults in its leaf, down from a level. -/
def State.leafStart (s : State) (va : Nat) : Nat → Nat → Option Nat
  | 0, _ => none
  | fuel + 1, table =>
    let e := s.mem.readNat (s.entryAt table fuel (walkIndex va fuel)) 8
    if !e.testBit 0 || entryBad e fuel then none
    else if e.testBit 1 then some (va / 2 ^ pageShift fuel (e.testBit 5) * 2 ^ pageShift fuel (e.testBit 5))
    else s.leafStart va fuel (e / 2 ^ 12 % 2 ^ 40 * 2 ^ 12)

/-- The first address of the page that holds an address: of the leaf that maps it, or of 4 KiB where none does. -/
def State.pageStart (s : State) (c : TCtx) (va : DWord) : Nat :=
  ((s.cached c va).map fun t => t.page * 2 ^ t.shift).getD
    ((s.leafStart va.toNat 5 (rootTable c.root)).getD (va.toNat / 4096 * 4096))

/-- A request joins the core's table unless its page is there or 64 wait. -/
def State.adviseFault (s : State) (c : TCtx) (serial : Nat) (va : DWord) (cause access source : Nat) : State :=
  let page := s.pageStart c va
  let key := c.part * 2 ^ 16 + c.asid
  let bs := leBytes 2 1 ++ leBytes 1 cause ++ leBytes 1 access ++ leBytes 2 c.asid ++ leBytes 1 c.core ++ leBytes 1 source
    ++ leBytes 8 va.toNat ++ leBytes 3 serial ++ leBytes 45 0
  if cause = 1 ∨ cause = 2 then
    s.mapCore c.core fun k =>
      if k.recs.any (fun r => decide (r.adv = some (key, page))) ∨ 64 ≤ (k.recs.filter fun r => r.adv.isSome).length then k
      else { k with recs := k.recs ++ [{ part := c.part, adv := some (key, page), bytes := bs }] }
  else s

/-! ### Multicasts (R202) -/

/-- The reserved elements of multicast `k` of a lane of a group, in every member. -/
def mcOf (b : Block) (g l k : Nat) (o : Out) : Bool :=
  decide (o.mc = some k ∧ o.own.part = b.part ∧ o.own.serial = b.serial ∧ o.own.block / b.t = b.team ∧ o.own.group = g
    ∧ o.own.lane = l)

/-- The address of a multicast's element in each member is that of member 0's read. -/
def State.mcAddr (s : State) (o : Out) (addr : DWord) : State :=
  match s.placeOfOwner o.own, o.dst with
  | some p, .queue q => s.mapPair p o.own.group fun x =>
      x.setQueue q o.own.lane ((x.queue q o.own.lane).map fun e =>
        if e.out = o.id ∧ e.kind ≠ .filled then { e with addr := if e.hi then addr + 4 else addr } else e)
  | _, _ => s

/-! ### Late accesses -/

/-- An access of this device: a remote read is not ordered with its lane's other accesses (R278). -/
def Late.isLocal (h : Late) : Bool :=
  match h.op with
  | .fab _ _ => false
  | _ => true

/-- The accesses to place when some are asked for: the earlier ones of their lanes too, and those of the lower lanes of their issues,
which take their places in ascending order (R265). -/
def lateWith (mine : Late → Bool) : List Late → List Late
  | [] => []
  | h :: r =>
    let rest := lateWith mine r
    if mine h || (h.isLocal && rest.any fun x => decide (x.own = h.own ∨ x.issue = h.issue)) then h :: rest else rest

/-- The bytes of a late access reach its outstanding result. -/
def State.fillOut (s : State) (id : Nat) (bytes : List RdByte) : State :=
  { s with outs := s.outs.map fun o => if o.id = id then { o with bytes } else o }

/-- The outstanding result of an access fails: a token of its queue element, or a register's failed result (R197, R212). -/
def State.failResult (s : State) (id cause : Nat) : State :=
  match s.outs.find? fun o => o.id = id with
  | none => s
  | some o => match o.dst with
    | .queue _ => (s.deliverToken o.own o.dst id cause).dropOut id
    | _ => { s with outs := s.outs.map fun x => if x.id = id then { x with bytes := [], bad := some cause } else x }

/-- The access issued before it was translated (R371). -/
def Late.untranslated (h : Late) : Bool :=
  match h.op with
  | .load | .fab _ _ | .mc _ => true
  | .store _ | .read | .atom _ _ _ => false

/-- An access that writes. -/
def Late.writes (h : Late) : Bool :=
  match h.op with
  | .store _ | .atom _ _ _ => true
  | _ => false

/-- A read with `.acq` (R222). -/
def Late.isAcq (h : Late) : Bool :=
  match h.op with
  | .fab _ acq => acq
  | _ => false

/-- Its translation, made as it takes its place. -/
def State.lateXl (s : State) (h : Late) : Xl :=
  match s.ctxOf h.own with
  | some c => s.translate c true false h.addr
  | none => .fault 1

/-- Where a late access lands, as far as that is known; none for a fault. -/
def State.lateLoc (s : State) (h : Late) : Option Loc :=
  if h.untranslated then
    match s.lateXl h with
    | .ok t => if t.remote then none else some (.glob (t.addr h.addr))
    | _ => none
  else some h.loc

/-- A read of the device whose bytes or failure reach the outstanding results of some numbers. -/
def State.readLate (s : State) (h : Late) (ids : List Nat) (x : Loc) : State :=
  let core := (s.coreOfOwner h.own).getD 0
  let s := (s.touchRead core h.own.part x).request core h.id x
  if (s.errIn x h.n).isSome then ids.foldl (fun s id => s.failResult id 4) (s.meetErr core h.own x h.n 0)
  else ids.foldl (fun s id => s.fillOut id (s.capture x h.n)) s

/-- The translation of a late read faults: tokens, a report, and a request for the page (R213, R368, R372). -/
def State.faultLate (s : State) (h : Late) (ids : List Nat) (cause : Nat) (source : Option Nat) : State :=
  match s.ctxOf h.own with
  | none => s
  | some c =>
    let s := (ids.foldl (fun s id => s.failResult id cause) s).meetWalkErr c.core h.own c.root h.addr cause
    source.elim s fun k => s.adviseFault c h.own.serial h.addr cause 0 k

/-- The outstanding results that a late multicast of a lane fills: those of every member (R202). -/
def State.mcIds (s : State) (h : Late) (k : Nat) : List Nat :=
  match (s.placeOfOwner h.own).bind s.block? with
  | some b => (s.outs.filter (mcOf b h.own.group h.own.lane k)).map (·.id)
  | none => []

/-- The read of `ld.fab` leaves, or its element carries the fault of its translation (R199). -/
def State.fabLate (s : State) (h : Late) (q : Nat) (acq : Bool) : State :=
  match s.lateXl h with
  | .ok t => s.addRemote { id := h.id, own := h.own, op := .read, peer := t.peer, addr := h.addr, raddr := t.addr h.addr, ty := h.ty,
                           dst := .queue q, acq, pc := h.pc }
  | .fault k => (s.deliverToken h.own (.queue q) h.id k).faultLate h [] k none
  | .wait => s

/-- A late access takes its place. -/
def State.placeLate (s : State) (h : Late) : State :=
  let core := (s.coreOfOwner h.own).getD 0
  match h.op with
  | .load =>
    match s.lateXl h with
    | .fault k => s.faultLate h [h.id] k (some 0)
    | _ => (s.lateLoc h).elim s (s.readLate h [h.id])
  | .mc k =>
    let ids := s.mcIds h k
    match s.lateXl h with
    | .fault cause => s.faultLate h ids cause (some 1)
    | _ => (s.lateLoc h).elim s (s.readLate h ids)
  | .fab q acq => s.fabLate h q acq
  | .store bs => s.storeLane h.own .access h.pc h.addr h.loc bs h.clears
  | .read => s.readLate h [h.id] h.loc
  | .atom op v e =>
    if (s.errIn h.loc h.n).isSome then
      ((s.fenceFail h.own false false 15).meetErr core h.own h.loc h.n 2).failResult h.id 4
    else
      let old := s.natAt h.loc h.n
      (s.storeLane h.own .access h.pc h.addr h.loc (leBytes h.n (atomResult op h.ty old v.toNat e.toNat)) h.clears).fillOut h.id
        ((leBytes h.n old).map .byte)

/-- Late accesses take their places, in the order in which they issued, with those that must precede them. -/
def State.settleLate (s : State) (mine : Late → Bool) : State :=
  let hs := lateWith mine s.late
  if hs = [] then s else hs.foldl State.placeLate { s with late := s.late.filter fun h => decide (h ∉ hs) }

/-- A late access must wait: for a table entry, for a line that an engine owns (R270), or an atomic for bytes that a store holds
(R206). -/
def State.lateKept (s : State) (h : Late) : Bool :=
  (h.untranslated && decide (s.lateXl h = .wait)) || ((s.lateLoc h).any fun x => s.ownedOver none x h.n) || (match h.op with
    | .atom _ _ _ => s.heldOver h.loc h.n
    | _ => false)

/-- Some of the accesses to be placed must wait. -/
def State.lateWaits (s : State) (mine : Late → Bool) : Bool := (lateWith mine s.late).any s.lateKept

/-- The turn `place`: a late access takes its place. -/
def State.placeTurn (s : State) (id : Nat) : State :=
  let mine (x : Late) : Bool := decide (x.id = id)
  if s.lateWaits mine then s else s.settleLate mine

end Sys2Proof.Machine
end

