-- ==== Sys2Proof/WellFormed.lean ====
section
/-! DEFINITION. A well-formed instruction of a slice: a legal encoding under R83 to R96, R105 and R106. -/

namespace Sys2Proof

/-- The instruction is a legal encoding of the slice. The steps of the table without an encoding are not. -/
def WellFormed (sl : Slice) (i : Instr) : Bool := Machine.legal sl i

end Sys2Proof
end

