-- ==== Sys2Proof/Decode.lean ====
section
/-! DEFINITION. The decoder of R83 to R106, total on any bytes and rejecting by name, and the encoder written from the
same tables. -/

namespace Sys2Proof
open Sys2Proof.Machine

/-- Why bytes are no instruction of a slice; each cause raises the illegal-instruction trap (R106). -/
inductive DecodeError
  /-- fewer bytes than the framing of the first word takes (R83) -/
  | truncated
  /-- the major and minor are unassigned, or the major has no base form (R105, R106) -/
  | unassigned (major minor : Nat)
  /-- an operand specifier outside the table of R89 -/
  | specifier
  /-- a reserved TYPE code (R93) -/
  | typeCode
  /-- a reserved HINT code (R95) -/
  | hintCode
  /-- a reserved bit of the framing that is not zero (R96) -/
  | reserved
  /-- the fields break a rule of the row (R86 to R96, R105, R106) -/
  | illegal
deriving DecidableEq, Repr

/-! ### Bytes and words -/

/-- Little-endian words of a list of bytes (R2); a rest shorter than a word is dropped. -/
def wordsOf : List Byte → List Word
  | b0 :: b1 :: b2 :: b3 :: r => (b3 ++ b2 ++ b1 ++ b0 : BitVec 32) :: wordsOf r
  | _ => []

/-- The bytes of a word, lowest address first (R2). -/
def bytesOfWord (w : Word) : List Byte :=
  [w.extractLsb' 0 8, w.extractLsb' 8 8, w.extractLsb' 16 8, w.extractLsb' 24 8]

def bytesOfWords (ws : List Word) : List Byte := ws.flatMap bytesOfWord

/-! ### Field codes -/

/-- An operand specifier of R89. -/
def decodeOperand (s : BitVec 9) : Option Operand :=
  let cls := s.extractLsb' 7 2
  let idx := s.extractLsb' 0 7
  if cls = 0 then some (.reg idx)
  else if cls = 1 then (if idx.toNat < 64 then some (.uni (s.extractLsb' 0 6)) else none)
  else if cls = 2 then
    (if idx.toNat < 0x10 then some (.queue (s.extractLsb' 0 4))
     else if idx.toNat < 0x20 then some (.set (s.extractLsb' 0 4))
     else if idx.toNat ≤ 0x34 then some (.special idx)
     else if idx.toNat = 0x7f then some .lit
     else none)
  else some (.imm idx)

def encodeOperand : Operand → BitVec 9
  | .reg n => (0b00#2 ++ n : BitVec 9)
  | .uni n => (0b010#3 ++ n : BitVec 9)
  | .queue n => (0b10000#5 ++ n : BitVec 9)
  | .set n => (0b10001#5 ++ n : BitVec 9)
  | .special n => (0b10#2 ++ n : BitVec 9)
  | .lit => (0b10#2 ++ 0x7f#7 : BitVec 9)
  | .imm v => (0b11#2 ++ v : BitVec 9)

/-- HINT codes of R95. -/
def decodeHint (c : BitVec 3) : Option Hint :=
  match c.toNat with
  | 0 => some .none | 1 => some .evict | 2 => some .keep | 3 => some .l2only | 4 => some .noalloc | _ => none

def encodeHint : Hint → BitVec 3
  | .none => 0 | .evict => 1 | .keep => 2 | .l2only => 3 | .noalloc => 4

/-- Rounding codes of R94. -/
def decodeRnd (c : BitVec 2) : Rnd :=
  match c.toNat with
  | 0 => .rne | 1 => .rz | 2 => .ru | _ => .rd

def encodeRnd : Rnd → BitVec 2
  | .rne => 0 | .rz => 1 | .ru => 2 | .rd => 3

def cmpOf : Nat → Option Cmp
  | 0 => some .eq | 1 => some .ne | 2 => some .lt | 3 => some .le | 4 => some .gt | 5 => some .ge | _ => none
def fcmpOf : Nat → Option FCmp
  | 0 => some .eq | 1 => some .ne | 2 => some .lt | 3 => some .le | 4 => some .gt | 5 => some .ge
  | 6 => some .un | 7 => some .num | _ => none
def shflOf : Nat → Option ShflMode
  | 0 => some .idx | 1 => some .up | 2 => some .down | 3 => some .xor | _ => none
def redOf : Nat → Option RedOp
  | 0 => some .add | 1 => some .min | 2 => some .max | 3 => some .and | 4 => some .or | 5 => some .xor | _ => none
def atomOf : Nat → Option AtomOp
  | 0 => some .add | 1 => some .min | 2 => some .max | 3 => some .and | 4 => some .or | 5 => some .xor
  | 6 => some .exch | _ => none
def scopeOf : Nat → Option Scope
  | 0 => some .lane | 1 => some .block | 2 => some .team | 3 => some .device | 4 => some .fabric | _ => none

/-! ### The opcode map (R105) -/

/-- An instruction whose only minor code is 0. -/
def only0 (minor : Nat) (i : Instr) : Option Instr := if minor = 0 then some i else none

/-- The extended-form rows of R105 with majors below 0x50. -/
def ofMajorLow (major minor : Nat) (f : Ext) : Option Instr :=
  match major with
  | 0x00 => only0 minor (.add f) | 0x01 => only0 minor (.sub f) | 0x02 => only0 minor (.mulLo f)
  | 0x03 => only0 minor (.mulHi f) | 0x04 => only0 minor (.mad f) | 0x05 => only0 minor (.min f)
  | 0x06 => only0 minor (.max f) | 0x07 => only0 minor (.abs f) | 0x08 => only0 minor (.neg f)
  | 0x09 => only0 minor (.and f) | 0x0a => only0 minor (.or f) | 0x0b => only0 minor (.xor f)
  | 0x0c => only0 minor (.not f) | 0x0d => only0 minor (.shl f) | 0x0e => only0 minor (.shr f)
  | 0x0f => only0 minor (.sar f) | 0x10 => only0 minor (.bfx f) | 0x11 => only0 minor (.bfi f)
  | 0x12 => only0 minor (.popc f) | 0x13 => only0 minor (.clz f) | 0x14 => only0 minor (.brev f)
  | 0x15 => only0 minor (.sel f)
  | 0x16 => (cmpOf minor).map fun c => .cmp c f
  | 0x17 => only0 minor (.mov f)
  | 0x20 => only0 minor (.fadd f) | 0x21 => only0 minor (.fsub f) | 0x22 => only0 minor (.fmul f)
  | 0x23 => only0 minor (.fma f) | 0x24 => only0 minor (.fmin f) | 0x25 => only0 minor (.fmax f)
  | 0x26 => (fcmpOf minor).map fun c => .fcmp c f
  | 0x27 => only0 minor (.fclass f) | 0x28 => only0 minor (.frint f) | 0x29 => only0 minor (.ex2s f)
  | 0x2a => only0 minor (.lg2 f) | 0x2b => only0 minor (.rcp f) | 0x2c => only0 minor (.rsq f)
  | 0x2d => only0 minor (.sqrt f) | 0x2e => only0 minor (.div f)
  | 0x38 => (tyOfCode minor).map fun s => .cvt s f
  | 0x39 => only0 minor (.pack f) | 0x3a => only0 minor (.unpack f) | 0x3b => only0 minor (.dot2 f)
  | 0x3c => only0 minor (.dp4 f)
  | 0x40 => match minor with
    | 0 => some (.qswapH f) | 1 => some (.qswapV f) | _ => none
  | 0x41 => only0 minor (.qbcast f) | 0x42 => only0 minor (.qsum f)
  | 0x43 => (shflOf minor).map fun m => .shfl m f
  | 0x44 => match minor with
    | 0 => some (.voteAny f) | 1 => some (.voteAll f) | 2 => some (.voteBallot f) | _ => none
  | 0x45 => (redOf minor).map fun o => .red o f
  | 0x46 => if minor < 8 then (redOf minor).map fun o => .scan o false f
            else (redOf (minor - 8)).map fun o => .scan o true f
  | 0x47 => only0 minor (.matchLanes f)
  | _ => none

/-- The extended-form rows of R105 with majors from 0x50 to 0x77. -/
def ofMajorMid (major minor : Nat) (f : Ext) : Option Instr :=
  match major with
  | 0x50 => only0 minor (.pand f) | 0x51 => only0 minor (.por f) | 0x52 => only0 minor (.pxor f)
  | 0x53 => only0 minor (.pnot f) | 0x54 => only0 minor (.ptest f)
  | 0x58 => only0 minor (.bra f) | 0x59 => only0 minor (.brQ f) | 0x5a => only0 minor (.brx f)
  | 0x5b => only0 minor (.call f) | 0x5c => only0 minor (.ret f) | 0x5d => only0 minor (.exit f)
  | 0x5e => match minor with
    | 0 => some (.joinInit f) | 1 => some (.joinEnter f) | 2 => some (.joinQuit f) | 3 => some (.joinWait f)
    | 4 => some (.joinTest f) | 5 => some (.joinSave f) | 6 => some (.joinLoad f) | _ => none
  | 0x5f => only0 minor (.yield f) | 0x60 => only0 minor (.nap f) | 0x61 => only0 minor (.trap f)
  | 0x62 => only0 minor (.brk f) | 0x63 => only0 minor (.nop f)
  | 0x68 => match minor with
    | 0 => some (.ldQ f) | 1 => some (.ldY f) | 2 => some (.ldSp f) | 3 => some (.ldFab f) | 4 => some (.ldMc f)
    | _ => none
  | 0x69 => only0 minor (.stream f)
  | 0x6a => match minor with
    | 0 => some (.st f) | 1 => some (.stY f) | 2 => some (.stSp f) | _ => none
  | 0x6b => only0 minor (.prefetch f) | 0x6c => only0 minor (.qflush f) | 0x6d => only0 minor (.qcount f)
  | 0x6e => if minor = 7 then some (.atomCas f) else (atomOf minor).map fun o => .atom o f
  | 0x6f => only0 minor (.lr f) | 0x70 => only0 minor (.sc f)
  | 0x71 => (scopeOf minor).map fun s => .fence s f
  | 0x72 => only0 minor (.smov f)
  | _ => none

/-- The extended-form rows of R105 with majors from 0x78. -/
def ofMajorHigh (major minor : Nat) (f : Ext) : Option Instr :=
  match major with
  | 0x78 => match minor with
    | 0 => some (.mma f) | 1 => some (.mmaTeam f) | _ => none
  | 0x79 => match minor with
    | 0 => some (.zclr f) | 1 => some (.zld f) | 2 => some (.zst f) | 3 => some (.zcvt f) | 4 => some (.zadd f)
    | _ => none
  | 0x7a => only0 minor (if f.modBit 0 then .sclSetB f else .sclSetA f)
  | 0x7b => only0 minor (.fmtVote f)
  | 0x7c => match minor with
    | 0 => some (.barInit f) | 1 => some (.barArrive f) | 2 => some (.barWait f) | 3 => some (.barInval f)
    | 4 => some (.barTest f) | _ => none
  | 0x7d => match minor with
    | 0x00 => some (.copyAsync f) | 0x01 => some (.copyWait f) | 0x10 => some (.collRs f) | 0x11 => some (.collAg f)
    | 0x20 => some (.task f) | 0x21 => some (if f.sp then .postCnt f else .post f) | 0x22 => some (.seal f)
    | 0x23 => some (.steal f) | _ => none
  | 0x7e => match minor with
    | 0x0 => some (.sysrd f)
    | 0x1 => some (if sysIndex f = 0x015 then .sampleWrite f else .syswr f)
    | 0x2 => some (.eret f) | 0x3 => some (.tret f) | 0x4 => some (.tlbinv f) | 0x5 => some (.tlbinvAll f)
    | 0x6 => some (if f.modBit 0 then .ctxsaveFree f else .ctxsave f)
    | 0x7 => some (.ctxload f)
    | 0x8 => some (if f.modBit 0 then .haltSafe f else .halt f)
    | 0x9 => some (.l1wb f) | 0xa => some (.fwcall f) | 0xb => some (.sysfence f)
    | _ => none
  | _ => none

def ofOpcode (major minor : Nat) (f : Ext) : Option Instr :=
  if major < 0x50 then ofMajorLow major minor f
  else if major < 0x78 then ofMajorMid major minor f
  else ofMajorHigh major minor f

/-- The rows of R105 marked "B". -/
def ofBase (major : Nat) (f : Base) : Option Instr :=
  match major with
  | 0x00 => some (.addBase f) | 0x01 => some (.subBase f) | 0x05 => some (.minBase f) | 0x06 => some (.maxBase f)
  | 0x07 => some (.absBase f) | 0x08 => some (.negBase f) | 0x09 => some (.andBase f) | 0x0a => some (.orBase f)
  | 0x0b => some (.xorBase f) | 0x0c => some (.notBase f) | 0x0d => some (.shlBase f) | 0x0e => some (.shrBase f)
  | 0x0f => some (.sarBase f) | 0x12 => some (.popcBase f) | 0x13 => some (.clzBase f) | 0x14 => some (.brevBase f)
  | 0x17 => some (.movBase f) | 0x63 => some (.nopBase f)
  | _ => none

/-! ### The decoder -/

/-- The fields of the three words of the extended form (R88). -/
def decodeExt (w0 w1 w2 : Word) (lit : Option DWord) : Except DecodeError Ext :=
  match decodeOperand (w0.extractLsb' 19 9), decodeOperand (w1.extractLsb' 0 9), decodeOperand (w1.extractLsb' 9 9),
      decodeOperand (w1.extractLsb' 18 9), decodeOperand (w2.extractLsb' 0 9) with
  | some dst, some a, some b, some c, some d =>
    match tyOfCode (w2.extractLsb' 16 6).toNat with
    | none => .error .typeCode
    | some ty =>
      match decodeHint (w2.extractLsb' 13 3) with
      | none => .error .hintCode
      | some hint =>
        .ok { stop := w0.getLsbD 2, ahead := w0.extractLsb' 28 4, dst, a, b, c, d,
              g0 := w1.extractLsb' 27 4, g1 := w2.extractLsb' 9 4, hint, ty,
              rnd := decodeRnd (w2.extractLsb' 22 2), sat := w2.getLsbD 24, fz := w2.getLsbD 25,
              mods := w2.extractLsb' 26 6, lit }
  | _, _, _, _, _ => .error .specifier

/-- The fields of a base word (R85). -/
def decodeBase (w : Word) (lit : Option DWord) : Base :=
  { stop := w.getLsbD 2, d := w.extractLsb' 10 6, a := w.extractLsb' 16 6, b := w.extractLsb' 22 6,
    imm := w.getLsbD 28, uns := w.getLsbD 29, lit }

/-- The last check of decoding: a test of the instruction. -/
def checked (ok : Instr → Bool) (n : Nat) (i : Option Instr) (major minor : Nat) : Except DecodeError (Instr × Nat) :=
  match i with
  | none => .error (.unassigned major minor)
  | some i => if ok i then .ok (i, n) else .error .illegal

/-- One instruction that passes a test at the head of a list of words, with its length in bytes (R83). -/
def decodeWith (ok : Instr → Bool) (ws : List Word) : Except DecodeError (Instr × Nat) :=
  match ws with
  | [] => .error .truncated
  | w0 :: r =>
    let major := (w0.extractLsb' 3 7).toNat
    let minor := (w0.extractLsb' 10 9).toNat
    if w0.getLsbD 0 then
      match r with
      | w1 :: w2 :: r2 =>
        if w1.getLsbD 31 then .error .reserved
        else if w0.getLsbD 1 then
          (match r2 with
           | l0 :: l1 :: _ =>
             (decodeExt w0 w1 w2 (some (l1 ++ l0 : BitVec 64))).bind fun f =>
               checked ok 20 (ofOpcode major minor f) major minor
           | _ => .error .truncated)
        else (decodeExt w0 w1 w2 none).bind fun f => checked ok 12 (ofOpcode major minor f) major minor
      | _ => .error .truncated
    else if w0.extractLsb' 30 2 ≠ 0 then .error .reserved
    else if w0.getLsbD 1 then
      match r with
      | l0 :: l1 :: _ => checked ok 12 (ofBase major (decodeBase w0 (some (l1 ++ l0 : BitVec 64)))) major 0
      | _ => .error .truncated
    else checked ok 4 (ofBase major (decodeBase w0 none)) major 0

/-- One instruction of the slice: the rules of its row are the test. -/
def decodeWords (sl : Slice) (ws : List Word) : Except DecodeError (Instr × Nat) := decodeWith (WellFormed sl) ws

/-- The instruction at the head of a list of bytes, with its length in bytes. -/
def decode (sl : Slice) (bs : List Byte) : Except DecodeError (Instr × Nat) := decodeWords sl (wordsOf bs)

/-! ### The encoder -/

/-- The literal's two words, bits [31:0] first (R83). -/
def litWords : Option DWord → List Word
  | none => []
  | some v => [v.extractLsb' 0 32, v.extractLsb' 32 32]

def boolBit (b : Bool) : BitVec 1 := BitVec.ofBool b

/-- The words of an extended form (R88). -/
def encodeExt (major minor : Nat) (f : Ext) : List Word :=
  [ (f.ahead ++ encodeOperand f.dst ++ BitVec.ofNat 9 minor ++ BitVec.ofNat 7 major ++ boolBit f.stop
      ++ boolBit f.lit.isSome ++ 1#1 : BitVec 32),
    (0#1 ++ f.g0 ++ encodeOperand f.c ++ encodeOperand f.b ++ encodeOperand f.a : BitVec 32),
    (f.mods ++ boolBit f.fz ++ boolBit f.sat ++ encodeRnd f.rnd ++ BitVec.ofNat 6 (tyCode f.ty) ++ encodeHint f.hint
      ++ f.g1 ++ encodeOperand f.d : BitVec 32) ] ++ litWords f.lit

/-- The words of a base form (R85, R87). -/
def encodeBase (major : Nat) (f : Base) : List Word :=
  (0#2 ++ boolBit f.uns ++ boolBit f.imm ++ f.b ++ f.a ++ f.d ++ BitVec.ofNat 7 major ++ boolBit f.stop
      ++ boolBit f.lit.isSome ++ 0#1 : BitVec 32) :: litWords f.lit

/-- The words of an instruction; a step of the table without an encoding has none. -/
def encode (i : Instr) : List Word :=
  match sig? i with
  | some (g, f) => encodeExt g.major g.minor f
  | none => match base? i with
    | some (g, f) => encodeBase g.major f
    | none => []

/-- The length of an encoded instruction in bytes (R83). -/
def byteLen (i : Instr) : Nat := 4 * (encode i).length

/-! ### The host's table words -/

/-- The words of bits numbered as spec/opcode_table.json numbers them: five words, the bits above `nbits` zero. -/
def tableWords (nbits w : Nat) : List Word :=
  let v := w % 2 ^ nbits
  (List.range 5).map fun k => BitVec.ofNat 32 (v / 2 ^ (32 * k))

/-- The slice in which the bits are an instruction: the access slice where it takes them, else the execute slice. -/
def tableDecode (nbits w : Nat) : Option (Slice × Instr × Nat) :=
  match decode .access (bytesOfWords (tableWords nbits w)) with
  | .ok (i, n) => some (.access, i, n)
  | .error _ => match decode .execute (bytesOfWords (tableWords nbits w)) with
    | .ok (i, n) => some (.execute, i, n)
    | .error _ => none

/-- The instruction that the decoder reads from bits numbered as spec/opcode_table.json numbers them. -/
def decodeTableWord (nbits w : Nat) : Option Instr := (tableDecode nbits w).map fun p => p.2.1

end Sys2Proof
end

