-- ==== Sys2Proof/Machine/Operands.lean ====
section
/-! DEFINITION. Operand forms: what an issue of R97 reads and writes, the queues it pops and pushes (R46 to R49), the
registers it names (R102), special registers (R51 to R56), and the instruction bytes of a slice (R84, R118). -/

namespace Sys2Proof.Machine
open Sys2Proof

/-- The extended form that a base word behaves as (R86); every other instruction is its own. -/
def twin : Instr → Instr
  | .addBase f => .add (baseExt ⟨0x00, .i32, 2, false⟩ f)
  | .subBase f => .sub (baseExt ⟨0x01, .i32, 2, false⟩ f)
  | .minBase f => .min (baseExt ⟨0x05, .i32, 2, true⟩ f)
  | .maxBase f => .max (baseExt ⟨0x06, .i32, 2, true⟩ f)
  | .absBase f => .abs (baseExt ⟨0x07, .i32, 1, false⟩ f)
  | .negBase f => .neg (baseExt ⟨0x08, .i32, 1, false⟩ f)
  | .andBase f => .and (baseExt ⟨0x09, .b32, 2, false⟩ f)
  | .orBase f => .or (baseExt ⟨0x0a, .b32, 2, false⟩ f)
  | .xorBase f => .xor (baseExt ⟨0x0b, .b32, 2, false⟩ f)
  | .notBase f => .not (baseExt ⟨0x0c, .b32, 1, false⟩ f)
  | .shlBase f => .shl (baseExt ⟨0x0d, .b32, 2, false⟩ f)
  | .shrBase f => .shr (baseExt ⟨0x0e, .b32, 2, false⟩ f)
  | .sarBase f => .sar (baseExt ⟨0x0f, .b32, 2, false⟩ f)
  | .popcBase f => .popc (baseExt ⟨0x12, .b32, 1, false⟩ f)
  | .clzBase f => .clz (baseExt ⟨0x13, .b32, 1, false⟩ f)
  | .brevBase f => .brev (baseExt ⟨0x14, .b32, 1, false⟩ f)
  | .movBase f => .mov (baseExt ⟨0x17, .b32, 1, false⟩ f)
  | .nopBase f => .nop (baseExt ⟨0x63, .none, 0, false⟩ f)
  | i => i

/-- The row of the encoding tables of any encoded instruction, base words through their twins. -/
def row? (i : Instr) : Option (Sig × Ext) := sig? (twin i)

/-! ### Instruction bytes (R84, R118) -/

/-- The code section of a slice: physical base and size. -/
def Kernel.section (k : Kernel) (sl : Slice) : Nat × Nat :=
  match sl with
  | .access => (k.abase, k.asize)
  | .execute => (k.xbase, k.xsize)

/-- The instruction at an offset of the slice's section. -/
def State.fetch (s : State) (k : Kernel) (sl : Slice) (pc : Word) : Except DecodeError (Instr × Nat) :=
  let (base, size) := k.section sl
  decode sl (s.mem.read (base + pc.toNat) (Nat.min 20 (size - pc.toNat)))

/-- Bytes that the framing of a first word takes (R83). -/
def frameLen (b : Byte) : Nat :=
  match (b.extractLsb' 0 2).toNat with
  | 0 => 4 | 1 => 12 | 2 => 12 | _ => 20

/-- The offset is an instruction start of a section (R84): the linear decode from `at_` reaches it. -/
def startsFrom (m : Memory) (base size target : Nat) : Nat → Nat → Bool
  | 0, _ => false
  | fuel + 1, at_ =>
    if target < at_ ∨ size ≤ at_ then false
    else if at_ = target then true
    else startsFrom m base size target fuel (at_ + frameLen (m.get (base + at_)))

def State.isStart (s : State) (k : Kernel) (sl : Slice) (target : Word) : Bool :=
  let (base, size) := k.section sl
  startsFrom s.mem base size target.toNat (target.toNat / 4 + 1) 0

/-! ### The issuing path -/

/-- What an instruction issues with (R97): the state, the path and the lanes in which it acts. -/
structure Ctx where
  st : State
  place : Nat
  group : Nat
  sl : Slice
  pc : Word
  blk : Block
  f : Ext
  len : Nat
  path : List Nat
  act : List Nat

def Ctx.pair (c : Ctx) : Pair := c.blk.pair c.group
def Ctx.half (c : Ctx) : Half := c.pair.half c.sl
def Ctx.w (c : Ctx) : Nat := c.blk.w
def Ctx.core (c : Ctx) : Nat := coreOf c.place
def Ctx.own (c : Ctx) (l : Nat) : Owner := c.blk.owner c.group l
def Ctx.tctx (c : Ctx) : TCtx := c.blk.tctx c.place
/-- Stores of the lanes clear device-memory tags in privileged modes (R228). -/
def Ctx.clears (c : Ctx) : Bool := decide (c.blk.kernel.mode ≠ .user)

/-- Both guards hold in the lane (R92). -/
def Half.acts (h : Half) (f : Ext) (l : Nat) : Bool := (h.lane l).guard f.g0 && (h.lane l).guard f.g1

/-- The issue of an instruction by the cursor's path; none when no running pair has a ready lane there. -/
def State.begin? (s : State) (i : Instr) : Option Ctx :=
  match s.block? s.cur.place with
  | none => none
  | some b =>
    let p := b.pair s.cur.group
    let h := p.half s.cur.sl
    let path := h.pathBut b.w s.cur.pc s.cur.skip
    let f := (ext? i).getD {}
    if s.sec = .run ∧ p.live ∧ p.run = .running ∧ path ≠ [] then
      some { st := s, place := s.cur.place, group := s.cur.group, sl := s.cur.sl, pc := s.cur.pc, blk := b, f,
             len := byteLen i, path, act := path.filter (h.acts f) }
    else none

/-! ### Special registers (R51 to R56) -/

/-- The value of a special register read by a lane. -/
def Ctx.special (c : Ctx) (n l : Nat) : DWord :=
  if n = 0x20 then BitVec.ofNat 64 l
  else if n = 0x21 then BitVec.ofNat 64 (l / 4)
  else if n = 0x22 then BitVec.ofNat 64 c.group
  else if n = 0x23 then BitVec.ofNat 64 c.blk.block
  else if n = 0x24 then BitVec.ofNat 64 c.blk.team
  else if n = 0x25 then BitVec.ofNat 64 c.blk.member
  else if n = 0x26 then BitVec.ofNat 64 c.blk.start
  else if n = 0x27 then BitVec.ofNat 64 c.w
  else if 0x28 ≤ n ∧ n ≤ 0x2f then (smGet 0 c.blk.wp (n - 0x28)).zeroExtend 64
  else if n = 0x30 then BitVec.ofNat 64 (c.st.leaseLen c.blk.part)
  else if n = 0x31 then c.half.collstat
  else if n = 0x32 then (smGet 0xf0 c.pair.fencestat l).zeroExtend 64
  else if n = 0x33 then BitVec.ofNat 64 (c.st.core c.core).ts
  else if n = 0x34 then BitVec.ofNat 64 c.st.clk
  else 0

/-! ### Source values (R90, R91, R121) -/

/-- Low `w` bits of a value. -/
def lowBits (w : Nat) (v : DWord) : DWord := BitVec.ofNat 64 (v.toNat % 2 ^ w)

/-- The value of a small immediate in an operand of a type (R91). -/
def immValue (t : Ty) (v : BitVec 7) : DWord :=
  if isFloatTy t then BitVec.ofNat 64 (round (fmtOf t) .rne (ofInt false v.toInt 0))
  else lowBits (Nat.max 32 (tyWidth t)) (v.signExtend 64)

/-- The front of a queue as a 32- or 64-bit value (R48). -/
def queueValue (wide : Bool) (es : List Elem) : DWord :=
  match es with
  | e0 :: e1 :: _ => if wide then join64 e0.val e1.val else e0.val.zeroExtend 64
  | e0 :: [] => e0.val.zeroExtend 64
  | [] => 0

/-- The value that a lane reads from an operand of a type: 64 bits for 64-bit types, otherwise the 32-bit value. -/
def Ctx.src (c : Ctx) (t : Ty) (o : Operand) (l : Nat) : DWord :=
  match o with
  | .reg n => if isWide t then c.half.reg64 l n.toNat else (c.half.reg l n.toNat).zeroExtend 64
  | .uni n => if isWide t then c.half.ureg64 n.toNat else (c.half.ureg n.toNat).zeroExtend 64
  | .queue q => queueValue (isWide t) (c.pair.queue q.toNat l)
  | .special n => c.special n.toNat l
  | .lit => lowBits (tyWidth t) (c.f.lit.getD 0)
  | .imm v => immValue t v
  | .set _ => 0

/-- The predicate that a lane reads from a predicate position. -/
def Ctx.predSrc (c : Ctx) (o : Operand) (l : Nat) : Bool :=
  match o with
  | .reg n => (c.half.lane l).pred n.toNat
  | _ => false

/-! ### Destinations -/

/-- A lane's result reaches its destination (R97): a register of the lane, a uniform register, or a push. -/
def State.writeDst (s : State) (place g : Nat) (sl : Slice) (o : Operand) (wide : Bool) (l : Nat) (v : DWord) : State :=
  match o with
  | .reg n => s.mapHalf place g sl fun h => h.putReg wide l n.toNat v
  | .uni n => s.mapHalf place g sl fun h => h.putUreg wide n.toNat v
  | .queue q => s.push place g q.toNat l (elemsOf wide v)
  | _ => s

/-- The results of an issue are written lane by lane; a uniform register once, from the lowest lane (R43, R97). -/
def Ctx.writeAll (c : Ctx) (wide : Bool) (val : Nat → DWord) (s : State) : State :=
  match c.f.dst with
  | .uni _ => match c.act with
    | [] => s
    | l :: _ => s.writeDst c.place c.group c.sl c.f.dst wide l (val l)
  | _ => c.act.foldl (fun s l => s.writeDst c.place c.group c.sl c.f.dst wide l (val l)) s

/-- A lane waits at the instruction for a result that comes later; the issue has a number of its own (R43). -/
def Ctx.blockLane (c : Ctx) (l : Nat) (nr : Bool) (w : Ret → Wait) (s : State) : State :=
  State.mapLane { s with fresh := s.fresh + 1 } c.place c.group c.sl l fun x =>
    { x with pc := c.pc, wait := w { dst := c.f.dst, nr, len := c.len, no := c.st.fresh } }

/-- A predicate result is written lane by lane. -/
def Ctx.writePred (c : Ctx) (val : Nat → Bool) (s : State) : State :=
  match c.f.dst with
  | .reg n => s.mapHalf c.place c.group c.sl fun h => c.act.foldl (fun h l => h.setPred l n.toNat (val l)) h
  | _ => s

/-! ### Pops and pushes of an instruction (R47, R48) -/

/-- The kinds of positions that pop a queue they name. -/
def popsKind (k : Kind) (o : Operand) : Bool :=
  match k with
  | .val _ | .gbase | .base | .off | .sec | .q12 | .copyDst | .copySrc | .copyBar => true
  | .q13val => decide (o ≠ .queue 13)
  | _ => false

/-- The queues that the positions pop, with the elements each takes: two for a 64-bit operand, once per queue (R48). -/
def popsOf (f : Ext) (src : Ty) : List (Kind × Operand) → List (Nat × Nat)
  | [] => []
  | (k, o) :: r =>
    let rest := popsOf f src r
    match o with
    | .queue q =>
      if popsKind k o then
        let n := if litBits f src k = 64 then 2 else 1
        match rest.find? fun e => e.1 = q.toNat with
        | some e => (q.toNat, Nat.max n e.2) :: rest.filter fun x => decide (x.1 ≠ q.toNat)
        | none => (q.toNat, n) :: rest
      else rest
    | _ => rest

/-- The 64-bit width of a destination. -/
def dstWide (g : Sig) (f : Ext) (src : Ty) : Bool :=
  match g.dst with
  | .dst t | .reg t | .regUni t => isWide (t.ty f.ty src)
  | .fwd12 | .fwd11 | .fwdReg | .regQ11 => isWide f.ty
  | _ => false

/-- The queue that an instruction pushes and the elements it appends; `.nr` pushes nothing, a stream none at issue. -/
def pushOf (g : Sig) (f : Ext) (src : Ty) : Option (Nat × Nat) :=
  match g.dst, f.dst with
  | .fwd11, _ => none
  | .dst _, .queue q | .fwd12, .queue q | .fwdReg, .queue q | .regQ11, .queue q =>
    some (q.toNat, if dstWide g f src then 2 else 1)
  | _, _ => none

/-- The front elements that the instruction would pop in a lane are there. -/
def frontFilled (es : List Elem) (n : Nat) : Bool := decide (n ≤ es.length) && (es.take n).all Elem.filled
def frontToken (es : List Elem) (n : Nat) : Bool := (es.take n).any Elem.token

/-- The room that a push needs in a lane; a discarded push needs none (R49). -/
def Ctx.room (c : Ctx) (q n l : Nat) : Bool :=
  c.st.discards c.blk c.pair c.group q l || decide ((c.pair.queue q l).length + n ≤ c.blk.depth q)

/-- An active stream on a queue holds back every other push of it (R205). -/
def Ctx.streaming (c : Ctx) (q : Nat) : Bool := c.pair.streams.any fun x => decide (x.queue = q)

/-! ### Names (R102) -/

def regRun (mk : Nat → Name) (n k : Nat) : List Name := (List.range k).map fun j => mk (n + j)

/-- The registers that a position names. The constant predicate `p0`, to which no write takes effect (R42), is none of them, as a
destination or a source: the model's choice (DESIGN CHOICE, log 55). -/
def namesAt (k : Kind) (wide : Bool) (o : Operand) : List Name :=
  let two := if wide then 2 else 1
  match k, o with
  | .no, _ => []
  | .pred, .reg n => if n = 0 then [] else [.p n.toNat]
  | .tile, .reg n => [.z n.toNat]
  | .set, .set n => [.j n.toNat]
  | .desc, .uni n => regRun .s n.toNat 8
  | .recSrc, .reg n => regRun .r n.toNat 8
  | .recSrc, .uni n => regRun .s n.toNat 8
  | .record, .uni n => regRun .s n.toNat 2
  | .mmaOp, .uni n => regRun .s n.toNat 2
  | _, .reg n => regRun .r n.toNat two
  | _, .uni n => regRun .s n.toNat two
  | _, _ => []

/-- The registers that an instruction leaves pending (R101). -/
def dstNames (i : Instr) : List Name :=
  match row? i with
  | some (g, f) =>
    (match f.nr && decide (f.dst = .reg 0) && decide (g.mods &&& mNr ≠ 0) with
     | true => []
     | false => namesAt g.dst (dstWide g f (srcTy i)) f.dst)
      ++ (match g.a, f.a, decide (g.major = 0x5e) with
          | .set, .set n, true => [.j n.toNat]
          | _, _, _ => [])
  | none => []

/-- Every register that an instruction names: sources, destination and guards (R102). A guard of `p0`, the unconditional one,
names none: the model's choice (DESIGN CHOICE, log 55). -/
def namesOf (i : Instr) : List Name :=
  match row? i with
  | some (g, f) =>
    dstNames i ++ (srcPositions g f).flatMap (fun p => namesAt p.1 (decide (litBits f (srcTy i) p.1 = 64)) p.2)
      ++ (if f.g0.extractLsb' 0 3 = 0 then [] else [.p (f.g0.extractLsb' 0 3).toNat])
      ++ (if f.g1.extractLsb' 0 3 = 0 then [] else [.p (f.g1.extractLsb' 0 3).toNat])
  | none => []

/-- The lookahead of an instruction. -/
def aheadOf (i : Instr) : Nat := ((row? i).map fun p => p.2.ahead.toNat).getD 0
def stopOf (i : Instr) : Bool := ((row? i).map fun p => p.2.stop).getD false
def majorOf (i : Instr) : Nat := ((row? i).map fun p => p.1.major).getD 0

end Sys2Proof.Machine
end

