-- ==== Sys2Proof/Machine/Issue.lean ====
section
/-! DEFINITION. How an instruction issues (R97 to R104): the order of its checks, the lookahead windows, queue stalls, fault
tokens and their replay, rendezvous (R148), and the commit of an issue. -/

namespace Sys2Proof.Machine
open Sys2Proof

/-- What an instruction's own part of an issue decides: the state after it, a stall, or a trap taken from a state. -/
inductive Act
  | done (s : State)
  | stall (s : State)
  | trap (s : State) (t : TrapInfo)

/-! ### Lookahead (R101 to R103) -/

/-- Instructions before which every window's results are awaited (R103). -/
def closesWindows (i : Instr) : Bool :=
  let m := majorOf i
  decide (0x58 ≤ m ∧ m ≤ 0x67) || decide (m = 0x71) || decide (m = 0x7e) || stopOf i

/-- The access is still outstanding: its result has not been written. -/
def State.awaited (s : State) (id : Nat) : Bool :=
  decide (id ≠ 0) && (s.outs.any (fun o => decide (o.id = id)) || s.remotes.any (fun r => decide (r.id = id)))

/-- The failed access of the number, if its failure has been reported (R197, R217). -/
def State.failed? (s : State) (id : Nat) : Option Out := s.outs.find? fun o => o.id = id ∧ o.bad.isSome

/-- The window that an instruction breaks in a lane (R102). -/
def brokenWin (names : List Name) (x : Lane) : Option Win :=
  x.wins.find? fun w => decide (0 < w.left) && w.names.any fun n => decide (n ∈ names)

/-- The lookahead-violation trap (R102). -/
def Ctx.violation (c : Ctx) (i : Instr) : Option TrapInfo :=
  if closesWindows i then none
  else
    let names := namesOf i
    let bad := c.path.filter fun l => (brokenWin names (c.half.lane l)).isSome
    match bad with
    | [] => none
    | l :: _ => some { code := 0x03, lane := l, lanes := bad,
                       aux0 := ((brokenWin names (c.half.lane l)).map fun w => w.pc.toNat).getD 0 }

/-- The results that the lane waits for before this instruction (R101, R103). -/
def waitsFor (i : Instr) (x : Lane) : List Nat :=
  (x.wins.filter fun w => decide (w.out ≠ 0) && (closesWindows i || decide (w.left = 0))).map fun w => w.out

def Ctx.waitIds (c : Ctx) (i : Instr) : List (Nat × Nat) :=
  c.path.flatMap fun l => (waitsFor i (c.half.lane l)).map fun id => (l, id)

/-- The result-error trap at the first instruction that waits for a failed result (R197); the failed accesses are
settled. -/
def Ctx.resultError (c : Ctx) (i : Instr) : Option (State × TrapInfo) :=
  let bad := (c.waitIds i).filter fun p => (c.st.failed? p.2).isSome
  match bad with
  | [] => none
  | (l, id) :: _ =>
    let o := (c.st.failed? id).getD {}
    some (bad.foldl (fun s p => s.dropOut p.2) c.st,
      { code := 0x14, lane := l, lanes := bad.map (·.1), addr := o.addr, aux0 := o.pc.toNat })

/-- Windows of a lane after an issue: one instruction fewer, and the new instruction's own window. -/
def stepWins (s : State) (i : Instr) (pc : Word) (x : Lane) : List Win :=
  (if closesWindows i then []
   else (x.wins.map fun w => { w with left := w.left - 1 }).filter fun w => decide (0 < w.left) || s.awaited w.out)
    ++ (if aheadOf i = 0 then [] else [{ names := dstNames i, left := aheadOf i, pc }])

/-! ### Queues (R97, R206, R210) -/

def popList (i : Instr) : List (Nat × Nat) :=
  match row? i with
  | some (g, f) => popsOf f (srcTy i) (srcPositions g f)
  | none => []

def pushNeed (i : Instr) : Option (Nat × Nat) :=
  match row? i with
  | some (g, f) => if f.nr && decide (g.mods &&& mNr ≠ 0) then none else pushOf g f (srcTy i)
  | none => none

/-- Some lane of `active` lacks an element to pop, or room to push. -/
def Ctx.lacksPop (c : Ctx) (i : Instr) : Bool :=
  (popList i).any fun p => c.act.any fun l => !frontFilled (c.pair.queue p.1 l) p.2
def Ctx.lacksPush (c : Ctx) (i : Instr) : Bool :=
  match pushNeed i with
  | none => false
  | some (q, n) => c.act.any fun l => (c.streaming q && decide (q ≤ 12)) || !c.room q n l

/-- A pop of `q14` or `q15` that can never be met, the lane having exited the execute slice (R210). -/
def Ctx.deadPop (c : Ctx) (i : Instr) : Option TrapInfo :=
  if c.sl = .execute then none
  else
    let dead (q n l : Nat) : Bool := !c.pair.exe.live l && decide ((c.pair.queue q l).length < n)
    ((popList i).findSome? fun p =>
      match c.act.filter (dead p.1 p.2) with
      | [] => none
      | l :: r => some { code := 0x12, lane := l, lanes := l :: r, aux0 := p.1 })

/-- The fault-token trap (R214): lowest lane, queue, cause and address. -/
def Ctx.tokenTrap (c : Ctx) (i : Instr) : Option TrapInfo :=
  let lanesOf (p : Nat × Nat) := c.act.filter fun l => frontToken (c.pair.queue p.1 l) p.2
  let all := c.act.filter fun l => (popList i).any fun p => frontToken (c.pair.queue p.1 l) p.2
  match all with
  | [] => none
  | l :: _ =>
    match (popList i).find? fun p => decide (l ∈ lanesOf p) with
    | none => none
    | some p =>
      let e := (((c.pair.queue p.1 l).take p.2).find? Elem.token).getD {}
      some { code := 0x20, kind := 3, lane := l, lanes := all, addr := e.addr, aux0 := p.1 + 16 * e.cause }

/-- The front tokens of the popping lanes are marked as reported (R214). -/
def Ctx.markTokens (c : Ctx) (i : Instr) (s : State) : State :=
  s.mapPair c.place c.group fun p =>
    (popList i).foldl (fun p q => c.act.foldl (fun p l =>
      p.setQueue q.1 l (((p.queue q.1 l).take q.2).map (fun e => if e.token then { e with replay := true } else e)
        ++ (p.queue q.1 l).drop q.2)) p) p

/-- A reported token with a replayable cause (R214). -/
def Elem.replays (e : Elem) : Bool := e.token && e.replay && decide (e.cause = 1 ∨ e.cause = 2)

/-- The front elements of some queues that are to be read again before the lanes of `active` take them, by lane, queue and place. -/
def Ctx.toReplay (c : Ctx) (qs : List (Nat × Nat)) : List (Nat × Nat × Nat) :=
  qs.flatMap fun p => c.act.flatMap fun l => (List.range p.2).filterMap fun k =>
    match (c.pair.queue p.1 l)[k]? with
    | some e => if e.replays then some (l, p.1, k) else none
    | none => none

/-- The type of one element's read. -/
def Elem.readTy (e : Elem) : Ty := if isWide e.ty then .b32 else e.ty

/-- The read of an element's replay must wait: for a table entry or for bytes that a store holds, or for a line that an
engine owns (R265, R270). -/
def State.replayWaits (s : State) (c : TCtx) (e : Elem) : Bool :=
  match s.translate c true false e.addr with
  | .wait => true
  | .ok t => !t.remote && (let x := Loc.glob (t.addr e.addr)
      s.heldOver x (accBytes e.readTy) || s.ownedOver none x (accBytes e.readTy))
  | .fault _ => false

/-- One element is read again at its recorded address, with its place in the order now (R214, R267): data, a token again, or
for a remote address an element that waits for the answer. One that fails again sends no further advance-fault request (DESIGN CHOICE,
log 78). -/
def Ctx.replayOne (c : Ctx) (s : State) (x : Nat × Nat × Nat) : State :=
  let (l, q, k) := x
  match ((s.pair c.place c.group).queue q l)[k]? with
  | none => s
  | some e =>
    let put (s : State) (e : Elem) : State := s.mapPair c.place c.group fun p => p.setQueue q l ((p.queue q l).set k e)
    match s.translate c.tctx true false e.addr with
    | .wait => s
    | .fault cause => put (s.meetWalkErr c.core (c.own l) c.blk.root e.addr cause) { e with cause := cause }
    | .ok t =>
      if t.remote then
        let id := s.fresh
        State.addRemote
          { put s { e with cause := 0, kind := .fab, out := id, hi := false, replay := false, ty := e.readTy } with fresh := id + 1 }
          { id, own := c.own l, op := .read, peer := t.peer, addr := e.addr, raddr := t.addr e.addr, ty := e.readTy,
            dst := .queue q, acq := e.acq, pc := c.pc }
      else
        let x := Loc.glob (t.addr e.addr)
        let n := accBytes e.readTy
        let s := s.touchRead c.core c.blk.part x
        if (s.errIn x n).isSome then put (s.meetErr c.core (c.own l) x n 0) { e with cause := 4 }
        else put s { e with val := lo32 (extendLoad e.readTy (s.bytesAt x n)), cause := 0, replay := false }

/-- The front elements that are to be taken are read again where R214 asks for it, once none of those reads must wait. -/
def Ctx.replay (c : Ctx) (qs : List (Nat × Nat)) : State := (c.toReplay qs).foldl c.replayOne c.st

/-- Some read of a replay must wait. -/
def Ctx.replayStalls (c : Ctx) (qs : List (Nat × Nat)) : Bool :=
  (c.toReplay qs).any fun x => match (c.pair.queue x.2.1 x.1)[x.2.2]? with
    | some e => c.st.replayWaits c.tctx e
    | none => false

/-- A stalled pop of `q14` or `q15` is an event of loss of decoupling (R210, R404). -/
def Ctx.noteStall (c : Ctx) (i : Instr) : State :=
  if c.sl = .access ∧ c.lacksPop i ∧ (smFind c.pair.lodSince c.pc.toNat).isNone then
    c.st.mapPair c.place c.group fun p =>
      { p with lodSince := smPut p.lodSince c.pc.toNat c.st.clk,
               counters := { p.counters with lodEv := Nat.min (p.counters.lodEv + 1) 0xffffffff } }
  else c.st

/-! ### Safe points and trace (R116, R402) -/

/-- The launch is selected for debugging (R393). -/
def State.selected (s : State) (b : Block) : Bool :=
  decide ((s.sysreg b.part 0x013).toNat = b.kernel.kd) && decide (b.kernel.kd ≠ 0)

/-- Issue of a safe point writes a trace record (R402). -/
def Ctx.trace (c : Ctx) (i : Instr) (s : State) : State :=
  if stopOf i ∧ (s.sysreg c.blk.part 0x010).getLsbD 1 ∧ s.selected c.blk ∧ s.debugRing c.blk.part then
    s.addRec c.core
      { part := c.blk.part, debug := true
        bytes := recordBytes { code := 0, kind := 0x11, lane := c.path.headD 0xff, lanes := c.path,
                               aux2 := BitVec.ofNat 64 ((s.ordinal c.blk.kernel c.sl c.pc).getD 0xffffffff) }
                   (sliceCode c.sl) (s.pairHandle c.place c.group) c.pc c.blk.serial c.blk.asid s.clk }
  else s

/-! ### The commit of an issue -/

/-- One issue more (R404). -/
def Counters.issued (k : Counters) (sl : Slice) : Counters :=
  match sl with
  | .access => { k with issueA := k.issueA + 1 }
  | .execute => { k with issueX := k.issueX + 1 }

/-- Every popped element leaves its lane's sequence (R97). -/
def Ctx.popAll (c : Ctx) (i : Instr) (p : Pair) : Pair :=
  (popList i).foldl (fun p q => c.act.foldl (fun p l => p.setQueue q.1 l ((p.queue q.1 l).drop q.2)) p) p

/-- The uniform registers that an instruction writes (R43). -/
def uniNames (i : Instr) : List Nat :=
  (dstNames i).filterMap fun n => match n with
    | .s k => some k
    | _ => none

/-- What a half notes of an issue: its lanes have issued in this clk, the slot's wait count starts again (R173), and a uniform
register's latest write is this issue's (R43). -/
def Ctx.noted (c : Ctx) (i : Instr) (h : Half) : Half :=
  { h with did := h.did ||| laneMask c.path
           ctl := { h.ctl with waits := smErase h.ctl.waits c.pc.toNat }
           uniAt := if c.act = [] then h.uniAt else (uniNames i).foldl (fun m n => smSet 0 m n c.st.fresh) h.uniAt }

/-- The path's lanes go on to the next instruction (R97), with their windows (R101). -/
def Ctx.advance (c : Ctx) (i : Instr) (h : Half) : Half :=
  c.path.foldl (fun h l =>
    let x := h.lane l
    h.setLane l { x with pc := x.pc + BitVec.ofNat 32 c.len, wins := stepWins c.st i c.pc x, pass := false }) (c.noted i h)

/-- Counters of the pair at an issue (R210, R404). -/
def Ctx.count (c : Ctx) (p : Pair) : Pair :=
  let since := smFind p.lodSince c.pc.toNat
  let k := p.counters.issued c.sl
  match c.sl, since with
  | .access, some t => { p with lodSince := smErase p.lodSince c.pc.toNat,
                                counters := { k with lodClk := k.lodClk + (c.st.clk - t) } }
  | _, _ => { p with counters := k }

/-- Pops, program counters and windows of an issue; its results are written to the state that this gives. -/
def Ctx.commit (c : Ctx) (i : Instr) : State :=
  c.trace i (c.st.mapPair c.place c.group fun p =>
    let p := c.count (c.popAll i p)
    p.setHalf c.sl (c.advance i (p.half c.sl)))

/-! ### The spin detector (R289) -/

/-- The relative target of a control instruction (R157). -/
def relTarget (f : Ext) (o : Operand) (pc : Word) : Word :=
  match o with
  | .imm v => pc + v.signExtend 32
  | .lit => pc + lo32 (f.lit.getD 0)
  | _ => pc

/-- At most so many instruction starts lead from an offset to a later one. -/
def startsWithin (m : Memory) (base : Nat) : Nat → Nat → Nat → Bool
  | 0, _, _ => false
  | k + 1, at_, goal => decide (at_ = goal) || (decide (at_ < goal) && startsWithin m base k (at_ + frameLen (m.get (base + at_))) goal)

/-- The instructions that end a spin (R289): stores, `atom`, `sc`, barrier instructions, copies, collectives, pushes, loads into
queues and `exit`. -/
def endsSpin (i : Instr) : Bool :=
  (match i with
   | .exit _ | .stream _ | .st _ | .stY _ | .stSp _ | .atom _ _ | .atomCas _ | .sc _ | .copyAsync _ | .collRs _ | .collAg _
   | .barInit _ | .barArrive _ | .barWait _ | .barInval _ | .barTest _ => true
   | _ => false) || (pushNeed i).isSome

/-- The registers that a load of the spin detector's exception writes (R289). -/
def loadNames (i : Instr) : List Name :=
  match i with
  | .ldY _ | .ldSp _ | .lr _ => dstNames i
  | _ => []

/-- The destinations of the loads between two offsets of a section. -/
def State.loopLoads (s : State) (k : Kernel) (sl : Slice) : Nat → Nat → Nat → List Name
  | 0, _, _ => []
  | n + 1, at_, goal =>
    if goal ≤ at_ then []
    else match s.fetch k sl (BitVec.ofNat 32 at_) with
      | .ok (i, len) => loadNames i ++ s.loopLoads k sl n (at_ + len) goal
      | .error _ => []

/-- The registers and predicates of a lane are the same, but for the destinations of loads. -/
def sameValues (loads : List Name) (h h' : Half) (l : Nat) : Bool :=
  decide ((h.lane l).preds = (h'.lane l).preds)
    && (List.range 128).all fun n => (decide (h.ureg n = h'.ureg n) || decide (Name.s n ∈ loads))
      && (decide (h.reg l n = h'.reg l n) || decide (Name.r n ∈ loads))

/-- The watched paths after an issue. A new one starts with the destinations of the loads in its loop, so that a change of one
before its load is none (R289). -/
def Ctx.spins (c : Ctx) (i : Instr) (h' : Half) : List Spin :=
  let h := c.half
  let kept := c.half.ctl.spins.filterMap fun sp =>
    let mine := c.path.filter fun l => sp.lanes.getLsbD l
    if mine.isEmpty then some sp
    else if endsSpin i || mine.any (fun l => !sameValues (sp.loads ++ loadNames i) h h' l) then none
    else
      let left := laneMask (mine.filter fun l => let pc := (h'.lane l).pc.toNat
        !((h'.lane l).isLive && decide (sp.lo ≤ pc ∧ pc ≤ sp.bra)))
      if sp.lanes &&& ~~~left = 0 then none
      else some { sp with lanes := sp.lanes &&& ~~~left, loads := (sp.loads ++ loadNames i).eraseDups }
  match i with
  | .bra f =>
    let t := relTarget f f.a c.pc
    let m := laneMask c.act
    if t.toNat < c.pc.toNat ∧ c.act ≠ [] ∧ startsWithin c.st.mem (c.blk.kernel.section c.sl).1 17 t.toNat c.pc.toNat then
      match kept.find? fun sp => sp.bra = c.pc.toNat ∧ sp.lanes = m with
      | some sp => { sp with count := sp.count + 1 } :: kept.filter fun x => decide (x ≠ sp)
      | none => { bra := c.pc.toNat, lo := t.toNat, lanes := m, count := 1
                  loads := c.st.loopLoads c.blk.kernel c.sl 16 t.toNat c.pc.toNat } :: kept
    else kept
  | _ => kept

/-- The path is lowered (R289). -/
def Half.lowered (h : Half) (path : List Nat) : Bool :=
  h.ctl.spins.any fun sp => decide (4 ≤ sp.count) && path.all fun l => sp.lanes.getLsbD l

def Ctx.watch (c : Ctx) (i : Instr) (s : State) : State :=
  let h' := (s.pair c.place c.group).half c.sl
  if c.spins i h' = h'.ctl.spins then s
  else s.mapHalf c.place c.group c.sl fun x => { x with ctl := { x.ctl with spins := c.spins i h' } }

/-! ### Sampling (R403) -/

/-- The instruction names a scratchpad address. -/
def namesSp (i : Instr) (f : Ext) : Bool :=
  match i with
  | .ldSp _ | .stSp _ => true
  | .ldQ _ | .ldY _ | .ldFab _ | .ldMc _ | .st _ | .stY _ => false
  | _ => f.sp

/-- The address of an access in a lane (R189, R190). -/
def Ctx.accAddr (c : Ctx) (i : Instr) (l : Nat) : DWord :=
  if namesSp i c.f then (spAddr (c.src .b32 c.f.a l) (c.src .b32 c.f.b l)).zeroExtend 64
  else globalAddr (c.src .b64 c.f.a l) (c.src .b32 c.f.b l)

/-- How many blocks of `n` bytes the lanes touch. -/
def Ctx.touched (c : Ctx) (i : Instr) (n : Nat) : Nat := ((c.act.map fun l => (c.accAddr i l).toNat / n).eraseDups).length

/-- The ordinal of the access-slice safe point with the largest offset not above the PC. -/
def State.ordinalBelow (s : State) (k : Kernel) (pc : Word) : Nat :=
  ((List.range k.nsafe).foldl (fun (best : Option (Nat × Nat)) n =>
    let off := s.mem.readNat (k.safe + 48 * n) 4
    if s.mem.readNat (k.safe + 48 * n + 4) 1 = 0 ∧ off ≤ pc.toNat then
      match best with
      | some (o, _) => if o ≤ off then some (off, n) else best
      | none => some (off, n)
    else best) none).elim 0xffffffff (·.2)

/-- The record of a sampled instruction, the measured fields zero. -/
def Ctx.sampleBytes (c : Ctx) (i : Instr) (full : Bool) : List Byte :=
  leBytes 2 0x12 ++ leBytes 1 (majorOf i) ++ leBytes 1 (((row? i).map fun p => p.1.minor).getD 0)
    ++ leBytes 4 (c.st.pairHandle c.place c.group).toNat ++ leBytes 4 c.pc.toNat
    ++ leBytes 4 (c.st.ordinalBelow c.blk.kernel c.pc) ++ leBytes 8 (laneMask c.act).toNat
    ++ leBytes 1 (if full then c.touched i 32 else 0) ++ leBytes 1 (if full then c.touched i 128 else 0)
    ++ leBytes 14 0 ++ leBytes 8 ((c.act.head?.map fun l => (c.accAddr i l).toNat).getD 0)
    ++ leBytes 3 c.blk.serial ++ leBytes 1 0 ++ leBytes 2 c.blk.asid ++ leBytes 2 0 ++ leBytes 8 c.st.clk

/-- The instruction is counted for sampling. -/
def Ctx.counted (c : Ctx) (i : Instr) : Bool :=
  decide (c.sl = .access) && decide (majorOf i ∈ [0x68, 0x6a, 0x6e, 0x6f, 0x70])
    && decide ((c.st.sysreg c.blk.part 0x015).toNat % 2 ^ 16 ≠ 0)
    && ((c.st.sysreg c.blk.part 0x015).getLsbD 16 || c.st.selected c.blk)

/-- The deepest level that the addresses of an instruction reach, where that settles it (R403): 5 a peer's scratchpad, 4 a remote
device, 0 the own scratchpad; the depth of an access to the device's memory is not one of the addresses. -/
def Ctx.sampleLevel (c : Ctx) (i : Instr) : Option Nat :=
  let of (l : Nat) : Option Nat :=
    if namesSp i c.f then
      (c.st.spTarget c.place (lo32 (c.accAddr i l)) 1).map fun p => if p.1 = c.place then 0 else 5
    else if inFabric (c.accAddr i l) then some 4 else none
  if c.act.any fun l => decide (of l = some 5) then some 5
  else if c.act.any fun l => decide (of l = some 4) then some 4
  else if c.act.all fun l => decide (of l = some 0) then some 0
  else none

/-- No data returns to a lane (R403). -/
def Ctx.returnsNone (c : Ctx) (i : Instr) : Bool :=
  decide (c.act = []) || decide (majorOf i = 0x6a) || (decide (majorOf i = 0x6e) && c.f.nr)

/-- The count of memory instructions of the core, and the sample that falls due. -/
def Ctx.sample (c : Ctx) (i : Instr) (s : State) : State :=
  if c.counted i then
    let k := s.core c.core
    if k.sampleCount + 1 < (c.st.sysreg c.blk.part 0x015).toNat % 2 ^ 16 then
      s.setCore c.core { k with sampleCount := k.sampleCount + 1 }
    else
      let full := match i with
        | .ldMc _ => decide (c.blk.member = 0)
        | _ => true
      let smp : Sample := { part := c.blk.part, bytes := c.sampleBytes i full, full, lo := c.st.fresh, hi := s.fresh,
                             noData := c.returnsNone i, level := c.sampleLevel i,
                             last := if majorOf i = 0x70 then c.act.head?.map fun l => (c.st.clk, l) else none }
      s.setCore c.core { k with sampleCount := 0, sample := some (k.sample.getD smp) }
  else s

/-- A memory-access fault of cause 0x4 reports the error that its walk met, or that a scale entry of a matrix instruction holds
(R249, R281, R368). -/
def Ctx.reportWalk (c : Ctx) (t : TrapInfo) (s : State) : State :=
  if t.code = 0x07 then
    match s.translate c.tctx true false t.addr with
    | .ok x => if t.aux0 = 4 then s.meetErr c.core (c.own t.lane) (.glob (x.addr t.addr)) 4 3 else s
    | _ => s.meetWalkErr c.core (c.own t.lane) c.blk.root t.addr t.aux0
  else s

/-- The outcome of an instruction's own part. -/
def Ctx.conclude (c : Ctx) (i : Instr) (a : Act) : Host.Outcome State Fault Refusal :=
  match a with
  | .done s => .next (c.sample i (c.watch i s))
  | .stall s => .next s
  | .trap s t => .next ((c.reportWalk t s).raiseTrap c.place c.group c.sl c.pc t)

/-- No further check before the fault-token trap. -/
def noPre : Ctx → Option TrapInfo := fun _ => none

/-- The checks of R99 after legality and replay, in their order, then the instruction's own part. A stall (R97) comes before every
trap that looks at queue elements; the result-error trap (R197) and the decoupling-deadlock trap of a pop (R210), for which R99
names no place, come before a bad branch target's and the fault token's: the model's choice (DESIGN CHOICE, log 56). -/
def Ctx.run (c : Ctx) (i : Instr) (pre : Ctx → Option TrapInfo) (body : Ctx → State → Act) :
    Host.Outcome State Fault Refusal :=
  match c.violation i with
  | some t => c.conclude i (.trap c.st t)
  | none =>
    match c.resultError i with
    | some (s, t) => c.conclude i (.trap s t)
    | none =>
      if (c.waitIds i).any fun p => c.st.awaited p.2 then .next c.st
      else match c.deadPop i with
        | some t => c.conclude i (.trap c.st t)
        | none =>
          if c.lacksPop i then .next (c.noteStall i)
          else if c.lacksPush i then .next c.st
          else match pre c with
            | some t => c.conclude i (.trap c.st t)
            | none =>
              match c.tokenTrap i with
              | some t => c.conclude i (.trap (c.markTokens i c.st) t)
              | none => c.conclude i (body c (c.commit i))

/-- The illegal-instruction trap of an encoding that is not legal in the slice (R106). -/
def illegalTrap (c : Ctx) : TrapInfo := { code := 0x01, lane := c.act.headD 0xff, lanes := c.act }

/-- The accesses of the instruction's lanes may be late (log 1): loads of this device, stores of local data and atomics. -/
def mayBeLate (i : Instr) : Bool :=
  match i with
  | .ldQ _ | .ldY _ | .ldSp _ | .atom _ _ | .atomCas _ => true
  | .stY f | .stSp f => decide (f.c ≠ .queue 13)
  | _ => false

/-- The instruction comes after its lanes' earlier accesses: it makes accesses of its own (R265), starts or controls an engine, acts
on a rejoin set (R312), ends the lane, or pushes, so that what its other slice or an engine does after the pop comes after them too
(R263). -/
def settles (i : Instr) : Bool :=
  let m := majorOf i
  decide ((0x68 ≤ m ∧ m ≤ 0x72) ∨ m = 0x5d ∨ m = 0x5e ∨ (0x7c ≤ m ∧ m ≤ 0x7e)) || (pushNeed i).isSome

/-- The lane's access is late by this turn: from the lowest lane on that the turn names, or whose earlier access must still wait, since
the lanes of one issue take their places in ascending order (R265). -/
def Ctx.isLate (c : Ctx) (l : Nat) : Bool :=
  c.act.any fun m => decide (m ≤ l) && (c.st.cur.late.getLsbD m
    || c.st.late.any fun h => decide (h.own = c.own m) && h.isLocal && c.st.lateKept h)

/-- A late access that is placed before an issue: one of an active lane, unless the lane's own access is late as well, without
`.rel` (R222). -/
def Ctx.lateBefore (c : Ctx) (i : Instr) (h : Late) : Bool :=
  decide (c.sl = .access) && settles i && h.isLocal && c.act.any fun l => decide (h.own = c.own l) && !(mayBeLate i && c.isLate l && !c.f.rel)

/-- The state in which an issue is made: late accesses of its lanes placed, and elements read again (R214, R266); none while one of
those must wait. -/
def Ctx.prepare (c : Ctx) (i : Instr) : Option State :=
  if c.st.lateWaits (c.lateBefore i) || c.replayStalls (popList i) then none
  else some ((c.replay (popList i)).settleLate (c.lateBefore i))

/-- An issue of R97. With no running path at the cursor nothing issues. -/
def issueWith (i : Instr) (pre : Ctx → Option TrapInfo) (body : Ctx → State → Act) (s : State) :
    Host.Outcome State Fault Refusal :=
  match s.begin? i with
  | none => .next s
  | some c =>
    if legal c.sl i then
      match c.prepare i with
      | none => .next s
      | some t => ({ c with st := t, blk := (t.block? c.place).getD c.blk } : Ctx).run i pre body
    else c.conclude i (.trap c.st (illegalTrap c))

def issue (i : Instr) (body : Ctx → State → Act) (s : State) : Host.Outcome State Fault Refusal := issueWith i noPre body s

/-! ### Rendezvous (R148, R239) -/

/-- The lane is at the instruction: waiting there, or ready and not one that has issued in this clk already, which comes to the
instruction in the next. -/
def atPc (h : Half) (pc : Word) (l : Nat) : Bool :=
  let x := h.lane l
  x.isLive && decide (x.pc = pc) && (decide (x.wait = .none ∧ h.did.getLsbD l = false) || decide (x.wait = .rendezvous))

/-- Every live lane that the scope of a lane needs is at the instruction. -/
def scopeFull (h : Half) (w : Nat) (quad : Bool) (pc : Word) (l : Nat) : Bool :=
  (h.liveLanes w).all fun m => (quad && decide (m / 4 ≠ l / 4)) || atPc h pc m

/-- The lanes of a path reach a rendezvous: those whose scope is complete are ready to issue together, the others wait. A path reaches
the instruction, and is blocked there, when its slot is first chosen: the model's choice (DESIGN CHOICE, log 72). -/
def Ctx.gather (c : Ctx) (quad : Bool) : State × Bool :=
  let h := c.half
  let here := (List.range c.w).filter (atPc h c.pc)
  let full := scopeFull h c.w quad c.pc
  (c.st.mapHalf c.place c.group c.sl fun h =>
      here.foldl (fun h l => h.setLane l { h.lane l with wait := if full l then .none else .rendezvous }) h,
   c.path.any full)

/-- An issue of R97 after a rendezvous of the quad or the group (R148, R239). -/
def issueMeet (quad : Bool) (i : Instr) (body : Ctx → State → Act) (s : State) : Host.Outcome State Fault Refusal :=
  match s.begin? i with
  | none => .next s
  | some c =>
    if legal c.sl i then
      let q := c.gather quad
      if q.2 then issue i body q.1 else .next q.1
    else c.conclude i (.trap c.st (illegalTrap c))

/-- The lanes of a list whose guards hold at the instruction at an offset. -/
def State.guarded (s : State) (b : Block) (h : Half) (sl : Slice) (pc : Word) (ls : List Nat) : List Nat :=
  match s.fetch b.kernel sl pc with
  | .ok (i, _) => ls.filter (h.acts ((ext? i).getD {}))
  | .error _ => ls

/-- The instruction at an offset meets by quads (R148). -/
def State.quadAt (s : State) (b : Block) (sl : Slice) (pc : Word) : Bool :=
  match s.fetch b.kernel sl pc with
  | .ok (i, _) => decide (0x40 ≤ majorOf i ∧ majorOf i ≤ 0x42)
  | .error _ => false

/-- Lanes waiting at a rendezvous whose scope has become complete are ready to issue (R148): a lane that exited is no
longer awaited. -/
def State.wakeMeets (s : State) (place g : Nat) (sl : Slice) : State :=
  match s.block? place with
  | none => s
  | some b =>
    let h := (b.pair g).half sl
    s.mapHalf place g sl fun h' =>
      ((List.range b.w).filter fun l => decide ((h.lane l).wait = .rendezvous)).foldl (fun h' l =>
        if scopeFull h b.w (s.quadAt b sl (h.lane l).pc) (h.lane l).pc l then h'.setLane l { h'.lane l with wait := .none } else h') h'

end Sys2Proof.Machine
end

