-- ==== Sys2Proof/Machine/Integer.lean ====
section
/-! DEFINITION. The integer and logic instructions (R125 to R132) and the predicate instructions (R146). -/

namespace Sys2Proof.Machine
open Sys2Proof

/-- An operand read as an integer of the instruction's type (R125). -/
def Ctx.int (c : Ctx) (o : Operand) (l : Nat) : Int := readInt c.f.ty (tyWidth c.f.ty) (c.src c.f.ty o l).toNat

/-- The operand bits of the instruction's type. -/
def Ctx.bits (c : Ctx) (o : Operand) (l : Nat) : Nat := (c.src c.f.ty o l).toNat % 2 ^ tyWidth c.f.ty

/-- A 32-bit operand whatever the type (R121). -/
def Ctx.word (c : Ctx) (o : Operand) (l : Nat) : Nat := (c.src .b32 o l).toNat

/-- An integer result: clamped under `.sat`, otherwise mod 2^w (R126). -/
def intResult (t : Ty) (sat : Bool) (x : Int) : DWord :=
  BitVec.ofNat 64 (wrap (tyWidth t) (if sat then clampInt t x else x))

/-- An instruction that writes an integer in each active lane. -/
def intBody (x : Ctx → Nat → Int) (c : Ctx) (s : State) : Act :=
  .done (c.writeAll (isWide c.f.ty) (fun l => intResult c.f.ty c.f.sat (x c l)) s)

/-- An instruction that writes bits of the instruction's type in each active lane. -/
def bitsBody (x : Ctx → Nat → Nat) (c : Ctx) (s : State) : Act :=
  .done (c.writeAll (isWide c.f.ty) (fun l => BitVec.ofNat 64 (x c l)) s)

/-- An instruction that writes a 32-bit number in each active lane. -/
def wordBody (x : Ctx → Nat → Nat) (c : Ctx) (s : State) : Act :=
  .done (c.writeAll false (fun l => BitVec.ofNat 64 (x c l)) s)

/-- An instruction that writes a predicate in each active lane. -/
def predBody (x : Ctx → Nat → Bool) (c : Ctx) (s : State) : Act := .done (c.writePred (x c) s)

/-! ### Results in one lane -/

def addVal (c : Ctx) (l : Nat) : Int := c.int c.f.a l + c.int c.f.b l
def subVal (c : Ctx) (l : Nat) : Int := c.int c.f.a l - c.int c.f.b l
def mulVal (c : Ctx) (l : Nat) : Int := c.int c.f.a l * c.int c.f.b l
def mulHiVal (c : Ctx) (l : Nat) : Int := mulVal c l / 2 ^ tyWidth c.f.ty
def madVal (c : Ctx) (l : Nat) : Int := mulVal c l + c.int c.f.c l
def minVal (c : Ctx) (l : Nat) : Int := min (c.int c.f.a l) (c.int c.f.b l)
def maxVal (c : Ctx) (l : Nat) : Int := max (c.int c.f.a l) (c.int c.f.b l)
def absVal (c : Ctx) (l : Nat) : Int := (c.int c.f.a l).natAbs
def negVal (c : Ctx) (l : Nat) : Int := - c.int c.f.a l

def andVal (c : Ctx) (l : Nat) : Nat := c.bits c.f.a l &&& c.bits c.f.b l
def orVal (c : Ctx) (l : Nat) : Nat := c.bits c.f.a l ||| c.bits c.f.b l
def xorVal (c : Ctx) (l : Nat) : Nat := c.bits c.f.a l ^^^ c.bits c.f.b l
def notVal (c : Ctx) (l : Nat) : Nat := 2 ^ tyWidth c.f.ty - 1 - c.bits c.f.a l

/-- Shifts of R127: a count of w or more gives zeros, or the sign for `sar`. -/
def shlVal (c : Ctx) (l : Nat) : Nat :=
  let w := tyWidth c.f.ty
  let n := c.word c.f.b l
  if w ≤ n then 0 else c.bits c.f.a l * 2 ^ n % 2 ^ w
def shrVal (c : Ctx) (l : Nat) : Nat :=
  let n := c.word c.f.b l
  if tyWidth c.f.ty ≤ n then 0 else c.bits c.f.a l / 2 ^ n
def sarVal (c : Ctx) (l : Nat) : Nat :=
  let w := tyWidth c.f.ty
  let n := c.word c.f.b l
  let a := readInt (if w = 64 then .i64 else .i32) w (c.bits c.f.a l)
  wrap w (a / 2 ^ (if w ≤ n then w else n))

/-- `bfx` (R128). -/
def bfxVal (c : Ctx) (l : Nat) : Int :=
  let len := c.word c.f.c l % 256
  let t := c.int c.f.a l / 2 ^ (c.word c.f.b l % 256)
  if len = 0 then 0
  else if tyWidth c.f.ty ≤ len then t
  else
    let f := t % 2 ^ len
    if isSigned c.f.ty ∧ 2 ^ (len - 1) ≤ f then f - 2 ^ len else f

/-- `bfi` (R128). -/
def bfiVal (c : Ctx) (l : Nat) : Nat :=
  let w := tyWidth c.f.ty
  let pos := c.word c.f.c l % 256
  let len := c.word c.f.d l % 256
  let m := (2 ^ len - 1) * 2 ^ pos % 2 ^ w
  (c.bits c.f.b l &&& (2 ^ w - 1 - m)) ||| (c.bits c.f.a l * 2 ^ pos % 2 ^ w &&& m)

/-- Counts and reversal (R129). -/
def popcVal (c : Ctx) (l : Nat) : Nat :=
  ((List.range (tyWidth c.f.ty)).filter fun k => (c.bits c.f.a l).testBit k).length
def clzVal (c : Ctx) (l : Nat) : Nat :=
  let a := c.bits c.f.a l
  if a = 0 then tyWidth c.f.ty else tyWidth c.f.ty - 1 - Nat.log2 a
def brevVal (c : Ctx) (l : Nat) : Nat :=
  (List.range (tyWidth c.f.ty)).foldl (fun r k => 2 * r + (if (c.bits c.f.a l).testBit k then 1 else 0)) 0

def selVal (c : Ctx) (l : Nat) : Nat := if c.predSrc c.f.c l then c.bits c.f.a l else c.bits c.f.b l
def movVal (c : Ctx) (l : Nat) : Nat := c.bits c.f.a l

/-! ### Meanings (R126 to R132) -/

def execAdd (f : Ext) (s : State) : Host.Outcome State Fault Refusal := issue (.add f) (intBody addVal) s
def execAddBase (f : Base) (s : State) : Host.Outcome State Fault Refusal := issue (.addBase f) (intBody addVal) s
def execSub (f : Ext) (s : State) : Host.Outcome State Fault Refusal := issue (.sub f) (intBody subVal) s
def execSubBase (f : Base) (s : State) : Host.Outcome State Fault Refusal := issue (.subBase f) (intBody subVal) s
def execMulLo (f : Ext) (s : State) : Host.Outcome State Fault Refusal := issue (.mulLo f) (intBody mulVal) s
def execMulHi (f : Ext) (s : State) : Host.Outcome State Fault Refusal := issue (.mulHi f) (intBody mulHiVal) s
def execMad (f : Ext) (s : State) : Host.Outcome State Fault Refusal := issue (.mad f) (intBody madVal) s
def execMin (f : Ext) (s : State) : Host.Outcome State Fault Refusal := issue (.min f) (intBody minVal) s
def execMinBase (f : Base) (s : State) : Host.Outcome State Fault Refusal := issue (.minBase f) (intBody minVal) s
def execMax (f : Ext) (s : State) : Host.Outcome State Fault Refusal := issue (.max f) (intBody maxVal) s
def execMaxBase (f : Base) (s : State) : Host.Outcome State Fault Refusal := issue (.maxBase f) (intBody maxVal) s
def execAbs (f : Ext) (s : State) : Host.Outcome State Fault Refusal := issue (.abs f) (intBody absVal) s
def execAbsBase (f : Base) (s : State) : Host.Outcome State Fault Refusal := issue (.absBase f) (intBody absVal) s
def execNeg (f : Ext) (s : State) : Host.Outcome State Fault Refusal := issue (.neg f) (intBody negVal) s
def execNegBase (f : Base) (s : State) : Host.Outcome State Fault Refusal := issue (.negBase f) (intBody negVal) s
def execAnd (f : Ext) (s : State) : Host.Outcome State Fault Refusal := issue (.and f) (bitsBody andVal) s
def execAndBase (f : Base) (s : State) : Host.Outcome State Fault Refusal := issue (.andBase f) (bitsBody andVal) s
def execOr (f : Ext) (s : State) : Host.Outcome State Fault Refusal := issue (.or f) (bitsBody orVal) s
def execOrBase (f : Base) (s : State) : Host.Outcome State Fault Refusal := issue (.orBase f) (bitsBody orVal) s
def execXor (f : Ext) (s : State) : Host.Outcome State Fault Refusal := issue (.xor f) (bitsBody xorVal) s
def execXorBase (f : Base) (s : State) : Host.Outcome State Fault Refusal := issue (.xorBase f) (bitsBody xorVal) s
def execNot (f : Ext) (s : State) : Host.Outcome State Fault Refusal := issue (.not f) (bitsBody notVal) s
def execNotBase (f : Base) (s : State) : Host.Outcome State Fault Refusal := issue (.notBase f) (bitsBody notVal) s
def execShl (f : Ext) (s : State) : Host.Outcome State Fault Refusal := issue (.shl f) (bitsBody shlVal) s
def execShlBase (f : Base) (s : State) : Host.Outcome State Fault Refusal := issue (.shlBase f) (bitsBody shlVal) s
def execShr (f : Ext) (s : State) : Host.Outcome State Fault Refusal := issue (.shr f) (bitsBody shrVal) s
def execShrBase (f : Base) (s : State) : Host.Outcome State Fault Refusal := issue (.shrBase f) (bitsBody shrVal) s
def execSar (f : Ext) (s : State) : Host.Outcome State Fault Refusal := issue (.sar f) (bitsBody sarVal) s
def execSarBase (f : Base) (s : State) : Host.Outcome State Fault Refusal := issue (.sarBase f) (bitsBody sarVal) s
def execBfx (f : Ext) (s : State) : Host.Outcome State Fault Refusal := issue (.bfx f) (intBody bfxVal) s
def execBfi (f : Ext) (s : State) : Host.Outcome State Fault Refusal := issue (.bfi f) (bitsBody bfiVal) s
def execPopc (f : Ext) (s : State) : Host.Outcome State Fault Refusal := issue (.popc f) (wordBody popcVal) s
def execPopcBase (f : Base) (s : State) : Host.Outcome State Fault Refusal := issue (.popcBase f) (wordBody popcVal) s
def execClz (f : Ext) (s : State) : Host.Outcome State Fault Refusal := issue (.clz f) (wordBody clzVal) s
def execClzBase (f : Base) (s : State) : Host.Outcome State Fault Refusal := issue (.clzBase f) (wordBody clzVal) s
def execBrev (f : Ext) (s : State) : Host.Outcome State Fault Refusal := issue (.brev f) (bitsBody brevVal) s
def execBrevBase (f : Base) (s : State) : Host.Outcome State Fault Refusal := issue (.brevBase f) (bitsBody brevVal) s
def execSel (f : Ext) (s : State) : Host.Outcome State Fault Refusal := issue (.sel f) (bitsBody selVal) s
def execCmp (cc : Cmp) (f : Ext) (s : State) : Host.Outcome State Fault Refusal :=
  issue (.cmp cc f) (predBody fun c l => cmpInt cc (c.int c.f.a l) (c.int c.f.b l)) s
def execMov (f : Ext) (s : State) : Host.Outcome State Fault Refusal := issue (.mov f) (bitsBody movVal) s
def execMovBase (f : Base) (s : State) : Host.Outcome State Fault Refusal := issue (.movBase f) (bitsBody movVal) s

/-! ### Predicate instructions (R146) -/

def execPand (f : Ext) (s : State) : Host.Outcome State Fault Refusal :=
  issue (.pand f) (predBody fun c l => c.predSrc c.f.a l && c.predSrc c.f.b l) s
def execPor (f : Ext) (s : State) : Host.Outcome State Fault Refusal :=
  issue (.por f) (predBody fun c l => c.predSrc c.f.a l || c.predSrc c.f.b l) s
def execPxor (f : Ext) (s : State) : Host.Outcome State Fault Refusal :=
  issue (.pxor f) (predBody fun c l => c.predSrc c.f.a l != c.predSrc c.f.b l) s
def execPnot (f : Ext) (s : State) : Host.Outcome State Fault Refusal :=
  issue (.pnot f) (predBody fun c l => !c.predSrc c.f.a l) s
def execPtest (f : Ext) (s : State) : Host.Outcome State Fault Refusal :=
  issue (.ptest f) (predBody fun c l => decide (c.bits c.f.a l ≠ 0)) s

end Sys2Proof.Machine
end

