-- ==== Sys2Proof/Machine/Special.lean ====
section
/-! DEFINITION. The reference procedures of the special functions (R78 to R82), with their tables and constants: the
round-to-nearest integers of the real values that R78 names, worked out from R78's formulas. -/

namespace Sys2Proof.Machine
open Sys2Proof

/-- E2[i] = 2^64 × 2^(i/64) (R78). -/
def tabE2 : List Nat := [
  0x10000000000000000, 0x102c9a3e778060ee7, 0x1059b0d31585743ae, 0x10874518759bc808c,
  0x10b5586cf9890f62a, 0x10e3ec32d3d1a2020, 0x111301d0125b50a4f, 0x11429aaea92ddfb34,
  0x1172b83c7d517adce, 0x11a35beb6fcb753cb, 0x11d4873168b9aa780, 0x12063b88628cd63b9,
  0x12387a6e75623866c, 0x126b4565e27cdd258, 0x129e9df51fdee12c2, 0x12d285a6e4030b401,
  0x1306fe0a31b7152df, 0x133c08b26416ff4ca, 0x1371a7373aa9caa71, 0x13a7db34e59ff6ea2,
  0x13dea64c12342235b, 0x14160a21f72e29f84, 0x144e086061892d031, 0x1486a2b5c13cd013c,
  0x14bfdad5362a271d4, 0x14f9b2769d2ca6ad3, 0x15342b569d4f81df1, 0x156f4736b527da66f,
  0x15ab07dd48542958d, 0x15e76f15ad21486ea, 0x16247eb03a5584b1f, 0x16623882552224912]
  ++ [
  0x16a09e667f3bcc909, 0x16dfb23c651a2ef22, 0x171f75e8ec5f73dd2, 0x175feb564267c8bf7,
  0x17a11473eb0186d7d, 0x17e2f336cf4e62106, 0x182589994cce128ad, 0x1868d99b4492ec80e,
  0x18ace5422aa0db5ba, 0x18f1ae991577362ba, 0x193737b0cdc5e4f45, 0x197d829fde4e4f8ba,
  0x19c49182a3f0901c8, 0x1a0c667b5de564b2a, 0x1a5503b23e255c8b4, 0x1a9e6b5579fdbf43f,
  0x1ae89f995ad3ad5e8, 0x1b33a2b84f15faf6c, 0x1b7f76f2fb5e46eaa, 0x1bcc1e904bc1d2248,
  0x1c199bdd85529c222, 0x1c67f12e57d14b4a2, 0x1cb720dcef9069150, 0x1d072d4a07897b8d1,
  0x1d5818dcfba48725e, 0x1da9e603db3285709, 0x1dfc97337b9b5eb97, 0x1e502ee78b3ff6274,
  0x1ea4afa2a490d9859, 0x1efa1bee615a27772, 0x1f50765b6e4540675, 0x1fa7c1819e90d82e9]

/-- RI[i] = 2^64 × 64 / (64 + i) (R78). -/
def tabRI : List Nat := [
  0x10000000000000000, 0xfc0fc0fc0fc0fc10, 0xf83e0f83e0f83e10, 0xf4898d5f85bb3950,
  0xf0f0f0f0f0f0f0f1, 0xed7303b5cc0ed730, 0xea0ea0ea0ea0ea0f, 0xe6c2b4481cd85689,
  0xe38e38e38e38e38e, 0xe070381c0e070382, 0xdd67c8a60dd67c8a, 0xda740da740da740e,
  0xd79435e50d79435e, 0xd4c77b03531dec0d, 0xd20d20d20d20d20d, 0xcf6474a8819ec8e9,
  0xcccccccccccccccd, 0xca4587e6b74f0329, 0xc7ce0c7ce0c7ce0c, 0xc565c87b5f9d4d1c,
  0xc30c30c30c30c30c, 0xc0c0c0c0c0c0c0c1, 0xbe82fa0be82fa0bf, 0xbc52640bc52640bc,
  0xba2e8ba2e8ba2e8c, 0xb81702e05c0b8170, 0xb60b60b60b60b60b, 0xb40b40b40b40b40b,
  0xb21642c8590b2164, 0xb02c0b02c0b02c0b, 0xae4c415c9882b931, 0xac7691840ac76918]
  ++ [
  0xaaaaaaaaaaaaaaab, 0xa8e83f5717c0a8e8, 0xa72f05397829cbc1, 0xa57eb50295fad40a,
  0xa3d70a3d70a3d70a, 0xa237c32b16cfd772, 0xa0a0a0a0a0a0a0a1, 0x9f1165e7254813e2,
  0x9d89d89d89d89d8a, 0x9c09c09c09c09c0a, 0x9a90e7d95bc609a9, 0x991f1a515885fb37,
  0x97b425ed097b425f, 0x964fda6c0964fda7, 0x94f2094f2094f209, 0x939a85c40939a85c,
  0x9249249249249249, 0x90fdbc090fdbc091, 0x8fb823ee08fb823f, 0x8e78356d1408e783,
  0x8d3dcb08d3dcb08d, 0x8c08c08c08c08c09, 0x8ad8f2fba9386823, 0x89ae4089ae4089ae,
  0x8888888888888889, 0x8767ab5f34e47ef1, 0x864b8a7de6d1d608, 0x8534085340853408,
  0x8421084210842108, 0x83126e978d4fdf3b, 0x8208208208208208, 0x8102040810204081]

/-- LT[i] = 2^64 × log2(1 + i/64) (R78). -/
def tabLT : List Nat := [
  0x0, 0x5b9e5a170b48a63, 0xb5d69bac77ec399, 0x10eb389fa29f9ab4,
  0x1663f6fac913167d, 0x1bc84240adabba64, 0x2118b119b4f3c72c, 0x2655d3c4f15c343f,
  0x2b803473f7ad0f3f, 0x309857a05e0765fc, 0x359ebc5b69d927e0, 0x3a93dc9864b2df92,
  0x3f782d7204d01447, 0x444c1f6b4c2dd72c, 0x49101eac381ce609, 0x4dc4933a9337b366,
  0x5269e12f346e2bf9, 0x570068e7ef5a1e7f, 0x5b8887367433795e, 0x6002958c587150cb,
  0x646eea247c5c22d3, 0x68cdd829fd814276, 0x6d1fafdce20a8290, 0x7164beb4a56d59fa,
  0x759d4f80cba83bf9, 0x79c9aa879d534831, 0x7dea15a32c1b3b38, 0x81fed45cbccbf99d,
  0x86082806b1d532c4, 0x8a064fd50f2a1cf1, 0x8df988f4ae806f1e, 0x91e20ea1393e4040]
  ++ [
  0x95c01a39fbd687a0, 0x9993e355a4e53643, 0x9d5d9fd5010b3666, 0xa11d83f4c3554b38,
  0xa4d3c25e68dc57f2, 0xa8808c384547c6ef, 0xac241134c4e99e1c, 0xafbe7fa0f04d75c6,
  0xb35004723c465e69, 0xb6d8cb53b0ca4ecc, 0xba58feb2703a9e37, 0xbdd0c7c9a817204f,
  0xc1404eadf38396df, 0xc4a7ba58377c5a03, 0xc80730b0001667f2, 0xcb5ed69565afaf7f,
  0xceaecfea80859b33, 0xd1f73f9c70c0f684, 0xd53847ac00a69be7, 0xd8720935e6435ebd,
  0xdba4a47aa996d25a, 0xded038e633f36da9, 0xe1f4e5170d02a99b, 0xe512c6e54998b1b0,
  0xe829fb693044b399, 0xeb3a9f01975077f2, 0xee44cd59ffab62f3, 0xf148a170700a00fe,
  0xf446359b13539551, 0xf73da38d9d4a83eb, 0xfa2f045e7832aa72, 0xfd1a708bbe119b15]

/-- SI[i] = 2^64 × sqrt(64 / (64 + i)) (R78). -/
def tabSI : List Nat := [
  0x10000000000000000, 0xfe05ec45078ec98b, 0xfc176441607cd51b, 0xfa33f940a5865ffa,
  0xf85b42469578e146, 0xf68cdbaf3c4ab96b, 0xf4c866d6aaf69114, 0xf30d89c78c56dc29,
  0xf15beeeff7d330b0, 0xefb344dbf31a7d81, 0xee133df522aa45ec, 0xec7b904735c16a42,
  0xeaebf548a5c9b635, 0xe96429a76b6c313d, 0xe7e3ed1954909706, 0xe66b022fae9abd31,
  0xe4f92e2dff6ec9ab, 0xe38e38e38e38e38e, 0xe229ec8782bd0dff, 0xe0cc15976723d8dd,
  0xdf7482b7dce1c57c, 0xde2304975988c25a, 0xdcd76dd2c41a3a48, 0xdb9192dbced88938,
  0xda5149e0ecaa7db0, 0xd9166ab6c3ebed38, 0xd7e0cec3030b4922, 0xd6b050e87d9c9fb9,
  0xd584cd747a9ccdb6, 0xd45e220d1e8160c2, 0xd33c2da0dd67baa1, 0xd21ed056e344c6cf]
  ++ [
  0xd105eb806161efe0, 0xcff1618ab1bf70ec, 0xcee115f24222bc05, 0xcdd4ed3639ac3ebf,
  0xcccccccccccccccd, 0xcbc89b18345a9f00, 0xcac83f5c3d5a212f, 0xc9cba1b467d185a7,
  0xc8d2ab0a8bb0dc5e, 0xc7dd450dfb7cb1cb, 0xc6eb5a2b1d004aa6, 0xc5fcd58370d79b99,
  0xc511a2e602212de1, 0xc429aec8381e310c, 0xc344e63f03f3e456, 0xc26336f8652610a6,
  0xc1848f353fbf3445, 0xc0a8ddc37f70e8b2, 0xbfd011f8834686ad, 0xbefa1babcdcda528,
  0xbe26eb31f5dc40b2, 0xbd567157d45b92e6, 0xbc889f5debb94ae3, 0xbbbd66f405d74e61,
  0xbaf4ba350584c3c0, 0xba2e8ba2e8ba2e8c, 0xb96ace22f8fe282c, 0xb8a974fa2780f751,
  0xb7ea73c992a3354d, 0xb72dbe8b32bf07bc, 0xb673498eac2c6864, 0xb5bb09764497b337]

/-- K = 2^64 / sqrt(2) (R78). -/
def constK : Nat := 0xb504f333f9de6484

/-- C1 to C3 (R78). -/
def constC1 : Int := 0xb17217f7d1cf79ac
def constC2 : Int := 0x3d7f7bff058b1d51
def constC3 : Int := 0xe35846b82505fc6

/-- L1 to L7, in falling order after L7 as R80 takes them (R78). -/
def constL7 : Int := 0x34c2ec54f5bdb27f
def constL6to1 : List Int := [-0x3d8e13b87407fae9, 0x49ddb143be6ff9e5, -0x5c551d94ae0bf85e, 0x7b1c2770e80ff5d2, -0xb8aa3b295c17f0bc, 0x171547652b82fe177]

/-- mulq of R78. -/
def mulq (a b : Int) : Int := (a * b) / 2 ^ 64

/-- s, e, F of a finite nonzero operand: the value is (−1)^s × 2^e × F × 2^−23 with F in [2^23, 2^24) (R78). Operands
have at most 24 significant bits, so F is exact. -/
def normF (n : Nat) (e : Int) : Int × Nat :=
  let l : Int := Nat.log2 n
  (l + e, floorScale n (23 - l))

/-- i, k and the reduced argument v of F (R78, R80 to R82). -/
def idxI (f : Nat) : Nat := (f - 2 ^ 23) / 2 ^ 17
def remK (f : Nat) : Nat := f - 2 ^ 23 - idxI f * 2 ^ 17
def redV (f : Nat) : Int := ((remK f * tabRI.getD (idxI f) 0 / 2 ^ 23 : Nat) : Int)

/-- An integer times a power of two, rounded once (R78). -/
def finish (F : Fmt) (v : Int) (e : Int) : Nat := round F .rne (ofInt false v e)

/-- `ex2s` (R79). -/
def ex2sCode (F : Fmt) (a b c : Num) : Nat :=
  match addNum .rne (mulNum a b) c.neg with
  | .nan => F.nan
  | .inf s => if s then 0 else F.infCode
  | .fin s n e =>
    if n ≠ 0 ∧ 10 ≤ floorLog2 n 1 + e ∧ (s = false ∨ ¬ (floorLog2 n 1 + e = 10 ∧ n = 2 ^ Nat.log2 n)) then
      (if s then 0 else F.infCode)
    else
      let m : Int := (floorScale n (e + 64) : Nat)
      let exact := decide (0 ≤ e + 64) || decide (n % 2 ^ (-(e + 64)).toNat = 0)
      let t : Int := if s then (if exact then -m else -m - 1) else m
      let i := (t % 2 ^ 64 / 2 ^ 58).toNat
      let v := t % 2 ^ 58
      let h := constC1 + mulq v (constC2 + mulq v constC3)
      let p := 2 ^ 64 + mulq v h
      finish F (mulq (tabE2.getD i 0 : Nat) p) (t / 2 ^ 64 - 64)

/-- `lg2` (R80). -/
def lg2Code (F : Fmt) (x : Num) : Nat :=
  match x with
  | .nan => F.nan
  | .inf s => if s then F.nan else F.infCode
  | .fin s n e =>
    if n = 0 then F.withSign true F.infCode
    else if s then F.nan
    else
      let p := normF n e
      let v := redV p.2
      let h := constL6to1.foldl (fun h l => l + mulq v h) constL7
      finish F (p.1 * 2 ^ 64 + ((tabLT.getD (idxI p.2) 0 : Nat) : Int) + mulq v h) (-64)

/-- `rcp` (R81). -/
def rcpCode (F : Fmt) (x : Num) : Nat :=
  match x with
  | .nan => F.nan
  | .inf s => F.withSign s 0
  | .fin s n e =>
    if n = 0 then F.withSign s F.infCode
    else
      let p := normF n e
      let v := redV p.2
      let step : Int → Int := fun h => 2 ^ 64 - mulq v h
      let m := mulq ((tabRI.getD (idxI p.2) 0 : Nat) : Int) (step (step (step (step (2 ^ 64)))))
      finish F (if s then -m else m) (-p.1 - 64)

/-- m of R82, about 2^64 / sqrt(F × 2^−23). -/
def rootM (f : Nat) : Int :=
  let v := redV f
  let h := [(-5 * 2 ^ 60 : Int), 3 * 2 ^ 61, -2 ^ 63, 2 ^ 64].foldl (fun h c => c + mulq v h) (35 * 2 ^ 57)
  mulq ((tabSI.getD (idxI f) 0 : Nat) : Int) h

/-- `rsq` (R82). -/
def rsqCode (F : Fmt) (x : Num) : Nat :=
  match x with
  | .nan => F.nan
  | .inf s => if s then F.nan else 0
  | .fin s n e =>
    if n = 0 then F.withSign s F.infCode
    else if s then F.nan
    else
      let p := normF n e
      let m := rootM p.2
      if p.1 % 2 = 0 then finish F m (-(p.1 / 2) - 64)
      else finish F (mulq m (constK : Int)) (-((p.1 - 1) / 2) - 64)

/-- `sqrt` of the types other than `.f64` (R82). -/
def sqrtSpecialCode (F : Fmt) (x : Num) : Nat :=
  match x with
  | .nan => F.nan
  | .inf s => if s then F.nan else F.infCode
  | .fin s n e =>
    if n = 0 then F.withSign s 0
    else if s then F.nan
    else
      let p := normF n e
      let w := (p.2 : Int) * rootM p.2
      if p.1 % 2 = 0 then finish F w (p.1 / 2 - 87)
      else finish F (w * (constK : Int) / 2 ^ 63) ((p.1 - 1) / 2 - 87)

end Sys2Proof.Machine
end

