-- ==== Sys2Proof/Machine/Float.lean ====
section
/-! DEFINITION. The floating-point instructions (R133 to R140). -/

namespace Sys2Proof.Machine
open Sys2Proof

/-- A code as `.fz` reads it (R64). -/
def Ctx.num (c : Ctx) (code : Nat) : Num := decodeF (fmtOf c.f.ty) (flushIf c.f.fz (fmtOf c.f.ty) code)

/-- The end of a floating-point result: `sat`, then `.fz` (R64, R66). -/
def Ctx.seal (c : Ctx) (code : Nat) : Nat := flushIf c.f.fz (fmtOf c.f.ty) (satIf c.f.sat (fmtOf c.f.ty) code)

/-- A result rounded once under the instruction's mode (R134). -/
def Ctx.rounded (c : Ctx) (x : Num) : Nat := c.seal (round (fmtOf c.f.ty) c.f.rnd x)

/-- An instruction on one, two or three operands of its type. -/
def fltBody (op : Ctx → List Nat → Nat) (c : Ctx) (s : State) : Act :=
  .done (c.writeAll (isWide c.f.ty)
    (fun l => BitVec.ofNat 64 (byElement c.f.ty (op c) [c.bits c.f.a l, c.bits c.f.b l, c.bits c.f.c l])) s)

def faddOp (c : Ctx) (v : List Nat) : Nat := c.rounded (addNum c.f.rnd (c.num (arg v 0)) (c.num (arg v 1)))
def fsubOp (c : Ctx) (v : List Nat) : Nat := c.rounded (addNum c.f.rnd (c.num (arg v 0)) (c.num (arg v 1)).neg)
def fmulOp (c : Ctx) (v : List Nat) : Nat := c.rounded (mulNum (c.num (arg v 0)) (c.num (arg v 1)))
def fmaOp (c : Ctx) (v : List Nat) : Nat :=
  c.rounded (addNum c.f.rnd (mulNum (c.num (arg v 0)) (c.num (arg v 1))) (c.num (arg v 2)))
def fminOp (isMax : Bool) (c : Ctx) (v : List Nat) : Nat :=
  let F := fmtOf c.f.ty
  minMax F isMax (flushIf c.f.fz F (arg v 0)) (flushIf c.f.fz F (arg v 1))

/-- `frint` (R138). -/
def frintOp (c : Ctx) (v : List Nat) : Nat :=
  let F := fmtOf c.f.ty
  match c.num (arg v 0) with
  | .fin s n e => round F .rne (.fin s (roundInt c.f.rnd s n e).natAbs 0)
  | x => round F .rne x

/-- The special functions (R139): `.fz` applies to the operands and to the final value. -/
def specialOp (g : Fmt → Num → Nat) (c : Ctx) (v : List Nat) : Nat := c.seal (g (fmtOf c.f.ty) (c.num (arg v 0)))
def ex2sOp (c : Ctx) (v : List Nat) : Nat :=
  c.seal (ex2sCode (fmtOf c.f.ty) (c.num (arg v 0)) (c.num (arg v 1)) (c.num (arg v 2)))
def sqrtOp (c : Ctx) (v : List Nat) : Nat :=
  if c.f.ty = .f64 then c.seal (sqrtCode fp64 c.f.rnd (c.num (arg v 0))) else specialOp sqrtSpecialCode c v
def divOp (c : Ctx) (v : List Nat) : Nat :=
  c.seal (divCode (fmtOf c.f.ty) c.f.rnd (c.num (arg v 0)) (c.num (arg v 1)))

def execFadd (f : Ext) (s : State) : Host.Outcome State Fault Refusal := issue (.fadd f) (fltBody faddOp) s
def execFsub (f : Ext) (s : State) : Host.Outcome State Fault Refusal := issue (.fsub f) (fltBody fsubOp) s
def execFmul (f : Ext) (s : State) : Host.Outcome State Fault Refusal := issue (.fmul f) (fltBody fmulOp) s
def execFma (f : Ext) (s : State) : Host.Outcome State Fault Refusal := issue (.fma f) (fltBody fmaOp) s
def execFmin (f : Ext) (s : State) : Host.Outcome State Fault Refusal := issue (.fmin f) (fltBody (fminOp false)) s
def execFmax (f : Ext) (s : State) : Host.Outcome State Fault Refusal := issue (.fmax f) (fltBody (fminOp true)) s
def execFcmp (cc : FCmp) (f : Ext) (s : State) : Host.Outcome State Fault Refusal :=
  issue (.fcmp cc f) (predBody fun c l => cmpNum cc (c.num (c.bits c.f.a l)) (c.num (c.bits c.f.b l))) s
/-- `fclass` (R137): the operand's bits as they stand. -/
def execFclass (f : Ext) (s : State) : Host.Outcome State Fault Refusal :=
  issue (.fclass f) (predBody fun c l => (c.word c.f.b l).testBit (classBit (fmtOf c.f.ty) (c.bits c.f.a l))) s
def execFrint (f : Ext) (s : State) : Host.Outcome State Fault Refusal := issue (.frint f) (fltBody frintOp) s
def execEx2s (f : Ext) (s : State) : Host.Outcome State Fault Refusal := issue (.ex2s f) (fltBody ex2sOp) s
def execLg2 (f : Ext) (s : State) : Host.Outcome State Fault Refusal := issue (.lg2 f) (fltBody (specialOp lg2Code)) s
def execRcp (f : Ext) (s : State) : Host.Outcome State Fault Refusal := issue (.rcp f) (fltBody (specialOp rcpCode)) s
def execRsq (f : Ext) (s : State) : Host.Outcome State Fault Refusal := issue (.rsq f) (fltBody (specialOp rsqCode)) s
def execSqrt (f : Ext) (s : State) : Host.Outcome State Fault Refusal := issue (.sqrt f) (fltBody sqrtOp) s
def execDiv (f : Ext) (s : State) : Host.Outcome State Fault Refusal := issue (.div f) (fltBody divOp) s

end Sys2Proof.Machine
end

