-- ==== Sys2Proof/Machine/CrossLane.lean ====
section
/-! DEFINITION. The cross-lane instructions (R147 to R156), with helper lanes (R16, R17) and `%collstat` (R54). -/

namespace Sys2Proof.Machine
open Sys2Proof

/-! ### What each lane supplies (R149) -/

/-- The value that a helper lane reads (R17): zero for its own registers and per-lane special registers. -/
def Ctx.helperSrc (c : Ctx) (t : Ty) (o : Operand) (l : Nat) : DWord :=
  match o with
  | .reg _ => 0
  | .special n => if n = 0x32 then 0 else c.src t o l
  | _ => c.src t o l

/-- The value of a lane of a quad, live or helper. -/
def Ctx.quadSrc (c : Ctx) (l : Nat) : DWord :=
  if c.half.live l then c.src c.f.ty c.f.a l else c.helperSrc c.f.ty c.f.a l

/-- The guards of a lane of a quad: a helper lane has every predicate false but `p0` (R17). -/
def Ctx.quadActs (c : Ctx) (l : Nat) : Bool :=
  if c.half.live l then c.half.acts c.f l
  else ({} : Lane).guard c.f.g0 && ({} : Lane).guard c.f.g1

/-- A contribution to a quad sum; none is the neutral mark. -/
def Ctx.quadTerm (c : Ctx) (l : Nat) : Option Nat :=
  if c.quadActs l then some ((c.quadSrc l).toNat % 2 ^ tyWidth c.f.ty) else none

/-- A contribution to a group instruction (R149). -/
def Ctx.groupTerm (c : Ctx) (l : Nat) : Option Nat := if l ∈ c.act then some (c.bits c.f.a l) else none

/-- The lanes of the group that are absent or exited. -/
def Ctx.gone (c : Ctx) : DWord := laneMask ((List.range c.w).filter fun l => !c.half.live l)

/-- `%collstat` of the slice (R54). -/
def Ctx.putCollstat (c : Ctx) (m : DWord) (s : State) : State :=
  s.mapHalf c.place c.group c.sl fun h => { h with collstat := m }

/-! ### Combining (R150, R153, R154) -/

/-- Both operands of a step; a neutral operand is skipped. -/
def markOp (op : Nat → Nat → Nat) (x y : Option Nat) : Option Nat :=
  match x, y with
  | some a, some b => some (op a b)
  | some a, none => some a
  | none, y => y

/-- The neutral value of a row of R153. -/
def neutral (op : RedOp) (t : Ty) : Nat :=
  let w := tyWidth t
  let F := fmtOf t
  match op with
  | .add => if isFloatTy t then F.withSign true 0 else 0
  | .min => if isFloatTy t then F.infCode else wrap w (intRange t).2
  | .max => if isFloatTy t then F.withSign true F.infCode else wrap w (intRange t).1
  | .and => 2 ^ w - 1
  | .or | .xor => 0

/-- One level of the pairwise tree. -/
def pairUp (op : Nat → Nat → Nat) : List (Option Nat) → List (Option Nat)
  | x :: y :: r => markOp op x y :: pairUp op r
  | r => r

/-- The root of the tree (R153); a group has at most 6 levels, a collective at most 16. A level of odd length carries its
last element on, as a neutral partner would. -/
def treeRoot (levels : Nat) (op : Nat → Nat → Nat) (v : List (Option Nat)) : Option Nat :=
  ((List.range levels).foldl (fun v _ => pairUp op v) v).headD none

/-- The left fold of the first `n` contributions (R154). -/
def foldMarks (op : Nat → Nat → Nat) (v : List (Option Nat)) (n : Nat) : Option Nat := (v.take n).foldl (markOp op) none

/-! ### Bodies -/

/-- A quad instruction that gives each active lane a value (R150). -/
def quadBody (x : Ctx → Nat → Nat) (c : Ctx) (s : State) : Act :=
  .done (c.writeAll (isWide c.f.ty) (fun l => BitVec.ofNat 64 (x c l)) s)

/-- The value of the lane of the same quad at a position. -/
def Ctx.fromQuad (c : Ctx) (l : Nat) : Nat := (c.quadSrc l).toNat % 2 ^ tyWidth c.f.ty

def qsumVal (c : Ctx) (l : Nat) : Nat :=
  let v (k : Nat) := c.quadTerm (l / 4 * 4 + k)
  let op := combine .add c.f.ty c.f.rnd
  (markOp op (markOp op (v 0) (v 1)) (markOp op (v 2) (v 3))).getD 0

/-- The source lane of a shuffle (R151); none outside the group. -/
def shflFrom (m : ShflMode) (w l b : Nat) : Option Nat :=
  match m with
  | .idx => if b < w then some b else none
  | .up => if b ≤ l then some (l - b) else none
  | .down => if l + b < w then some (l + b) else none
  | .xor => if l ^^^ b < w then some (l ^^^ b) else none

def shflVal (m : ShflMode) (c : Ctx) (l : Nat) : Nat :=
  match shflFrom m c.w l (c.word c.f.b l) with
  | none => c.bits c.f.a l
  | some k => if c.half.live k then c.bits c.f.a k else 0

/-- The absent or exited lanes that a shuffle reads. -/
def shflGone (m : ShflMode) (c : Ctx) : DWord :=
  laneMask ((c.act.filterMap fun l => shflFrom m c.w l (c.word c.f.b l)).filter fun k => !c.half.live k)

/-- A group instruction that gives each active lane a value. -/
def groupBody (wide : Ctx → Bool) (x : Ctx → Nat → Nat) (c : Ctx) (s : State) : Act :=
  .done (c.putCollstat c.gone (c.writeAll (wide c) (fun l => BitVec.ofNat 64 (x c l)) s))

def voteBody (all : Bool) (c : Ctx) (s : State) : Act :=
  let r := if all then c.act.all fun l => c.predSrc c.f.a l else c.act.any fun l => c.predSrc c.f.a l
  .done (c.putCollstat c.gone (c.writePred (fun _ => r) s))

def ballotVal (c : Ctx) (_ : Nat) : Nat := (laneMask (c.act.filter fun l => c.predSrc c.f.a l)).toNat % 2 ^ tyWidth c.f.ty

/-- The contributions of the group, one per lane position. -/
def Ctx.terms (c : Ctx) : List (Option Nat) := (List.range c.w).map c.groupTerm

def redVal (op : RedOp) (c : Ctx) (_ : Nat) : Nat :=
  (treeRoot 6 (combine op c.f.ty c.f.rnd) c.terms).getD (neutral op c.f.ty)

def scanVal (op : RedOp) (excl : Bool) (c : Ctx) (l : Nat) : Nat :=
  (foldMarks (combine op c.f.ty c.f.rnd) c.terms (if excl then l else l + 1)).getD (neutral op c.f.ty)

def matchVal (c : Ctx) (l : Nat) : Nat :=
  (laneMask (c.act.filter fun m => decide (c.bits c.f.a m = c.bits c.f.a l))).toNat

/-! ### Meanings -/

def execQswapH (f : Ext) (s : State) : Host.Outcome State Fault Refusal :=
  issueMeet true (.qswapH f) (quadBody fun c l => c.fromQuad (l ^^^ 1)) s
def execQswapV (f : Ext) (s : State) : Host.Outcome State Fault Refusal :=
  issueMeet true (.qswapV f) (quadBody fun c l => c.fromQuad (l ^^^ 2)) s
def execQbcast (f : Ext) (s : State) : Host.Outcome State Fault Refusal :=
  issueMeet true (.qbcast f) (quadBody fun c l => c.fromQuad (l / 4 * 4 + c.word c.f.b l % 4)) s
def execQsum (f : Ext) (s : State) : Host.Outcome State Fault Refusal := issueMeet true (.qsum f) (quadBody qsumVal) s
def execShfl (m : ShflMode) (f : Ext) (s : State) : Host.Outcome State Fault Refusal :=
  issueMeet false (.shfl m f) (fun c s =>
    .done (c.putCollstat (shflGone m c)
      (c.writeAll (isWide c.f.ty) (fun l => BitVec.ofNat 64 (shflVal m c l)) s))) s
def execVoteAny (f : Ext) (s : State) : Host.Outcome State Fault Refusal := issueMeet false (.voteAny f) (voteBody false) s
def execVoteAll (f : Ext) (s : State) : Host.Outcome State Fault Refusal := issueMeet false (.voteAll f) (voteBody true) s
def execVoteBallot (f : Ext) (s : State) : Host.Outcome State Fault Refusal :=
  issueMeet false (.voteBallot f) (groupBody (fun c => isWide c.f.ty) ballotVal) s
def execRed (op : RedOp) (f : Ext) (s : State) : Host.Outcome State Fault Refusal :=
  issueMeet false (.red op f) (groupBody (fun c => isWide c.f.ty) (redVal op)) s
def execScan (op : RedOp) (excl : Bool) (f : Ext) (s : State) : Host.Outcome State Fault Refusal :=
  issueMeet false (.scan op excl f) (groupBody (fun c => isWide c.f.ty) (scanVal op excl)) s
def execMatchLanes (f : Ext) (s : State) : Host.Outcome State Fault Refusal :=
  issueMeet false (.matchLanes f) (groupBody (fun _ => true) matchVal) s

end Sys2Proof.Machine
end

