-- ==== Sys2Proof/Machine/Control.lean ====
section
/-! DEFINITION. Control flow (R157 to R171): branches, calls, returns, exit with the end of a group pair (R24), yield, nap,
trap, breakpoint and no-operation; and the membership of rejoin sets on which they act (R181). -/

namespace Sys2Proof.Machine
open Sys2Proof

/-! ### Rejoin sets: leaving and release (R180, R181) -/

/-- STATE of a rejoin set (R44). -/
def jEmpty : BitVec 2 := 0
def jArmed : BitVec 2 := 1
def jWaiting : BitVec 2 := 2
def jFaulted : BitVec 2 := 3

/-- The release test (R181): when every member waits, the waiters are ready in the next clk and the set is armed. -/
def Half.releaseTest (h : Half) (n : Nat) : Half :=
  let j := h.set n
  if j.members ≠ 0 ∧ j.waiters = j.members then
    (maskLanes j.waiters).foldl (fun h l => h.setLane l { h.lane l with wait := .released })
      (h.setSet n { j with waiters := 0, state := jArmed })
  else h

/-- Lanes leave a set (R180): a set without members is empty; the release test follows. A member's leaving is progress for
the lanes that wait on the set (R291). A faulted set only loses the lanes (R45, R184). -/
def Half.leaveSet (h : Half) (m : DWord) (n : Nat) : Half :=
  let j := h.set n
  if j.members &&& m = 0 then h
  else
    let left := j.members &&& ~~~m
    let h := if j.waiters = 0 then h else { h with moved := true }
    if j.state = jFaulted then h.setSet n { j with members := left, waiters := j.waiters &&& ~~~m }
    else
      (h.setSet n { j with members := left, waiters := j.waiters &&& ~~~m,
                           state := if left = 0 then jEmpty else j.state }).releaseTest n

/-- Lanes leave every set (R167). -/
def Half.leaveAll (h : Half) (m : DWord) : Half := (List.range 16).foldl (fun h n => h.leaveSet m n) h

/-! ### The end of a group pair (R24) -/

/-- A summary record of a pair (R404), while SUMMARY = 1; the counters are cleared. REASON is 0 at the end, 1 at `ctxsave`. -/
def State.summarise (s : State) (place g reason : Nat) : State :=
  match s.block? place with
  | none => s
  | some b =>
    let k := (b.pair g).counters
    let h := s.pairHandle place g
    let s' := if (s.sysreg b.part 0x010).getLsbD 2 ∧ s.debugRing b.part then
        s.addRec (coreOf place)
          { part := b.part, debug := true
            bytes := leBytes 2 0x13 ++ leBytes 1 reason ++ leBytes 1 0 ++ leBytes 4 h.toNat ++ leBytes 8 k.lodClk
              ++ leBytes 4 k.lodEv ++ leBytes 4 0 ++ leBytes 8 k.issueA ++ leBytes 8 k.issueX ++ leBytes 8 k.serialClk
              ++ leBytes 3 b.serial ++ leBytes 1 0 ++ leBytes 2 b.asid ++ leBytes 2 0 ++ leBytes 8 s.clk }
      else s
    s'.mapPair place g fun p => { p with counters := {} }

/-- Groups of the same number in the team's members that wait at `mma.team` (R256). -/
def State.teamWaiters (s : State) (b : Block) (g : Nat) : List Nat :=
  (s.blocks.filter fun e => decide (e.2.part = b.part ∧ e.2.serial = b.serial ∧ e.2.team = b.team)
    && (e.2.pair g).teamWait).map (·.1)

/-- The team-issue fault of the waiting members (R256), with the lowest failing member rank. -/
def State.teamFault (s : State) (b : Block) (g rank : Nat) : State :=
  (s.teamWaiters b g).foldl (fun s p =>
    match s.block? p with
    | none => s
    | some m =>
      let h := (m.pair g).exe
      let ls := h.liveLanes m.w
      let pc := (h.lane (ls.headD 0)).pc
      let act := s.guarded m h .execute pc ls
      let s := s.mapPair p g fun q =>
        { q with teamWait := false
                 exe := ls.foldl (fun h l => h.setLane l { h.lane l with wait := .none }) q.exe }
      s.raiseTrap p g .execute pc { code := 0x0d, lane := act.headD 0xff, lanes := act, aux0 := rank }) s

/-- A group pair ends once every lane is absent or exited in both slices and no store waits for data (R24): its queue rows
and streams are discarded, a summary is written (R404) and STEPH naming it is cleared (R400). -/
def State.endPair (s : State) (place g : Nat) : State :=
  match s.block? place with
  | none => s
  | some b =>
    let p := b.pair g
    if p.live ∧ p.acc.liveLanes b.w = [] ∧ p.exe.liveLanes b.w = [] ∧
        (List.range b.w).all (fun l => decide (s.heldNeed (b.owner g l) = 0)) then
      let s := s.summarise place g 0
      let s := if lo32 (s.sysreg b.part 0x014) = s.pairHandle place g ∧ s.pairHandle place g ≠ 0 then
          s.setSysreg b.part 0x014 0 else s
      let s := s.mapPair place g fun p =>
        { p with live := false, queues := [], streams := [], resv := [], safe := none, stepping := false }
      s.teamFault b g b.member
    else s

/-- Multicasts that the exiting lanes of member 0 leave unperformed (R202): the reserved elements of every member become
tokens of cause 7. -/
def State.abandonMulticast (s : State) (b : Block) (g : Nat) (lanes : List Nat) : State :=
  if b.member ≠ 0 then s
  else
    (s.outs.filter fun o => o.mc.isSome && o.bytes.isEmpty && o.bad.isNone
      && decide (o.own.part = b.part ∧ o.own.serial = b.serial ∧ o.own.block / b.t = b.team ∧ o.own.group = g
          ∧ o.own.lane ∈ lanes)).foldl
      (fun s o => (s.deliverToken o.own o.dst o.id 7).dropOut o.id) s

/-! ### Moving program counters -/

/-- Each of the lanes takes its own program counter. -/
def Ctx.goto (c : Ctx) (tgt : Nat → Word) (ls : List Nat) (s : State) : State :=
  s.mapHalf c.place c.group c.sl fun h => ls.foldl (fun h l => h.setLane l { h.lane l with pc := tgt l }) h

/-- The target that a lane reads from a relative or section operand (R157). -/
def Ctx.target (c : Ctx) (o : Operand) (l : Nat) : Word :=
  match o with
  | .imm _ => relTarget c.f o c.pc
  | .lit => relTarget c.f o c.pc
  | _ => lo32 (c.src .b32 o l)

/-- The operand is a section target. -/
def isSection (o : Operand) : Bool :=
  match o with
  | .imm _ => false
  | .lit => false
  | _ => true

/-- A section target that is not an instruction start raises the illegal-instruction trap (R84, R164); a lane whose element
carries a token has no target yet. -/
def badTarget (c : Ctx) : Option TrapInfo :=
  if isSection c.f.a then
    let judged := c.act.filter fun l =>
      match c.f.a with
      | .queue q => !frontToken (c.pair.queue q.toNat l) 1
      | _ => true
    match judged.filter fun l => !c.st.isStart c.blk.kernel c.sl (c.target c.f.a l) with
    | [] => none
    | l :: r => some { code := 0x01, lane := l, lanes := l :: r, aux0 := (c.target c.f.a l).toNat }
  else none

/-- A trap of the instruction itself, reporting the lanes of `active` in which the cause held. -/
def Ctx.fail (c : Ctx) (t : TrapInfo) (ls : List Nat) : Act := .trap c.st { t with lane := ls.headD 0xff, lanes := ls }

/-! ### Branches (R162 to R164) -/

def braBody (c : Ctx) (s : State) : Act := .done (c.goto (fun _ => relTarget c.f c.f.a c.pc) c.act s)

def brQBody (c : Ctx) (s : State) : Act :=
  .done (c.goto (fun _ => relTarget c.f c.f.b c.pc) (c.act.filter fun l => (c.src .b32 c.f.a l).getLsbD 0) s)

def brxBody (c : Ctx) (s : State) : Act := .done (c.goto (c.target c.f.a) c.act s)

/-! ### Calls and returns (R165, R166) -/

def callBody (c : Ctx) (s : State) : Act :=
  match c.act.filter fun l => decide ((c.half.lane l).depth = 255) with
  | l :: r => c.fail { code := 0x10 } (l :: r)
  | [] =>
    let s := c.writeAll false (fun _ => (c.pc + BitVec.ofNat 32 c.len).zeroExtend 64) s
    .done ((c.goto (c.target c.f.a) c.act s).mapHalf c.place c.group c.sl fun h =>
      c.act.foldl (fun h l => h.setLane l { h.lane l with depth := (h.lane l).depth + 1 }) h)

/-- Sets of the slice that a returning lane would leave with others waiting (R166). -/
def orphans (h : Half) (l : Nat) : List Nat :=
  (List.range 16).filter fun n =>
    let j := h.set n
    j.members.getLsbD l && decide ((h.lane l).depth.toNat ≤ j.depth.toNat) && decide (j.waiters ≠ 0)

/-- Sets of the slice that a returning lane leaves (R166). -/
def leaves (h : Half) (l : Nat) : List Nat :=
  (List.range 16).filter fun n =>
    let j := h.set n
    j.members.getLsbD l && decide ((h.lane l).depth.toNat ≤ j.depth.toNat) && decide (j.waiters = 0)

def retBody (c : Ctx) (s : State) : Act :=
  let h := c.half
  match c.act.filter fun l => decide ((h.lane l).depth = 0) with
  | l :: r => c.fail { code := 0x10 } (l :: r)
  | [] =>
    match c.act.filter fun l => decide (orphans h l ≠ []) with
    | l :: r =>
      let sets := (List.range 16).filter fun n => (l :: r).any fun l => decide (n ∈ orphans h l)
      .trap (c.st.mapHalf c.place c.group c.sl fun h =>
          sets.foldl (fun h n => h.setSet n { h.set n with state := jFaulted }) h)
        { code := 0x0f, lane := l, lanes := l :: r, aux0 := sets.foldl (fun m n => m + 2 ^ n) 0 }
    | [] =>
      .done ((c.goto (c.target c.f.a) c.act s).mapHalf c.place c.group c.sl fun x =>
        c.act.foldl (fun x l =>
          let x := (leaves h l).foldl (fun x n => x.leaveSet (1#64 <<< l) n) x
          x.setLane l { x.lane l with depth := (x.lane l).depth - 1 }) x)

/-! ### Exit (R167) -/

def exitBody (c : Ctx) (s : State) : Act :=
  if c.act = [] then .done s
  else
    let s := s.mapHalf c.place c.group c.sl fun h =>
      (c.act.foldl (fun h l => h.setLane l { h.lane l with life := .exited, wins := [] }) h).leaveAll (laneMask c.act)
    let s := if c.sl = .access then s.abandonMulticast c.blk c.group c.act else s
    .done ((s.wakeMeets c.place c.group c.sl).endPair c.place c.group)

/-! ### Yield, nap, trap, breakpoint (R168 to R171) -/

/-- The yielded slot is passed over in the next clk; in serial mode the turn is given up (R168, R175). -/
def yieldBody (c : Ctx) (s : State) : Act :=
  if c.act = [] then .done s else .done (s.mapHalf c.place c.group c.sl fun h =>
    { h with ctl := { h.ctl with yielded := (c.pc + BitVec.ofNat 32 c.len).toNat :: h.ctl.yielded, serialLane := none } })

/-- Napping lanes wait until a clk (R169); n = 0 goes on at once. The clk of the issue counts among the n, so that n = 1 is ready
in the next clk as n = 0 is: the model's choice (DESIGN CHOICE, log 58). -/
def napBody (c : Ctx) (s : State) : Act :=
  .done (s.mapHalf c.place c.group c.sl fun h =>
    c.act.foldl (fun h l =>
      let n := Nat.min (c.word c.f.a l) 1048575
      if n = 0 then h else h.setLane l { h.lane l with wait := .nap (s.clk + n) }) h)

/-- The 16-bit code of `trap` and `brk`. -/
def code16 (f : Ext) : Nat :=
  match f.a with
  | .imm v => v.toNat
  | _ => (f.lit.getD 0).toNat % 2 ^ 16

/-- `trap` (R170): the lanes of `active` resume after it. The path's lanes outside `active` have passed it with the issue: the model's
choice (DESIGN CHOICE, log 59). -/
def trapBody (c : Ctx) (s : State) : Act :=
  match c.act with
  | [] => .done s
  | l :: r => .trap s { code := 0x15, lane := l, lanes := l :: r, aux0 := code16 c.f }

/-- A pair that a debugger stops at a `brk` (R170, R396): a stop record of CODE 2, and the stop of a precise trap. -/
def Ctx.brkStop (c : Ctx) (ls : List Nat) (s : State) : State :=
  let p := s.pair c.place c.group
  let first := decide (p.run = .running ∧ p.trapSl = none)
  let s := (s.stopPair c.place c.group .trap).mapPair c.place c.group fun p => { p with trapSl := if first then some c.sl else none }
  let s := s.addRec c.core
    { part := c.blk.part, debug := true, handle := some (s.pairHandle c.place c.group)
      bytes := recordBytes { code := 2, kind := 0x10, lane := ls.headD 0xff, lanes := ls, aux0 := code16 c.f,
                             aux2 := BitVec.ofNat 64 ((s.ordinal c.blk.kernel c.sl c.pc).getD 0xffffffff) }
                 (sliceCode c.sl) (s.pairHandle c.place c.group) c.pc c.blk.serial c.blk.asid s.clk }
  s.endSafe c.place c.group

def brkBody (c : Ctx) (s : State) : Act :=
  match c.act with
  | [] => .done s
  | l :: r =>
    if s.attached c.blk.part then .done (c.brkStop (l :: r) s)
    else .trap s { code := 0x16, lane := l, lanes := l :: r, aux0 := code16 c.f }

def nopBody (_ : Ctx) (s : State) : Act := .done s

/-! ### Meanings -/

def execBra (f : Ext) (s : State) : Host.Outcome State Fault Refusal := issue (.bra f) braBody s
def execBrQ (f : Ext) (s : State) : Host.Outcome State Fault Refusal := issue (.brQ f) brQBody s
def execBrx (f : Ext) (s : State) : Host.Outcome State Fault Refusal := issueWith (.brx f) badTarget brxBody s
def execCall (f : Ext) (s : State) : Host.Outcome State Fault Refusal := issueWith (.call f) badTarget callBody s
def execRet (f : Ext) (s : State) : Host.Outcome State Fault Refusal := issueWith (.ret f) badTarget retBody s
def execExit (f : Ext) (s : State) : Host.Outcome State Fault Refusal := issue (.exit f) exitBody s
def execYield (f : Ext) (s : State) : Host.Outcome State Fault Refusal := issue (.yield f) yieldBody s
def execNap (f : Ext) (s : State) : Host.Outcome State Fault Refusal := issue (.nap f) napBody s
def execTrap (f : Ext) (s : State) : Host.Outcome State Fault Refusal := issue (.trap f) trapBody s
def execBrk (f : Ext) (s : State) : Host.Outcome State Fault Refusal := issue (.brk f) brkBody s
def execNop (f : Ext) (s : State) : Host.Outcome State Fault Refusal := issue (.nop f) nopBody s
def execNopBase (f : Base) (s : State) : Host.Outcome State Fault Refusal := issue (.nopBase f) nopBody s

end Sys2Proof.Machine
end

