-- ==== Sys2Proof/Machine/Access.lean ====
section
/-! DEFINITION. What the memory instructions share: addresses and the checks of R194, waits of a lane for its own earlier
accesses, reserved elements and pending results (R101, R196), advance-fault requests (R372), remote accesses and their
failures (R408, R411), and the fence interval (R55). -/

namespace Sys2Proof.Machine
open Sys2Proof

/-! ### Addresses and checks (R189 to R191, R194, R195) -/

def Ctx.gaddr (c : Ctx) (l : Nat) : DWord := globalAddr (c.src .b64 c.f.a l) (c.src .b32 c.f.b l)
def Ctx.saddr (c : Ctx) (l : Nat) : Word := spAddr (c.src .b32 c.f.a l) (c.src .b32 c.f.b l)

/-- A check: the lanes in which it fails, and the trap for the lowest of them. -/
abbrev Check := List Nat × (Nat → TrapInfo)

/-- The first check that fails in some lane (R194). -/
def firstTrap : List Check → Option TrapInfo
  | [] => none
  | (ls, t) :: r =>
    match ls with
    | [] => firstTrap r
    | l :: _ => some { t l with lane := l, lanes := ls }

/-- The address that an access names: `.sp` or global. -/
def Ctx.addr (c : Ctx) (sp : Bool) (l : Nat) : DWord := if sp then (c.saddr l).zeroExtend 64 else c.gaddr l

def misalignedCheck (c : Ctx) (sp : Bool) (n : Nat) : Check :=
  (c.act.filter fun l => !aligned (c.addr sp l).toNat n, fun l => { code := 0x04, addr := c.addr sp l })

def scratchCheck (c : Ctx) (sp : Bool) (n : Nat) : Check :=
  (c.act.filter fun l => sp && (c.st.spTarget c.place (c.saddr l) n).isNone,
   fun l => { code := 0x05, aux0 := (c.saddr l).toNat })

/-- An operand limit of an entry, with the operand's position (R379). -/
def operandCheck (c : Ctx) (pos : Nat) (bad : Nat → Bool) : Check := (c.act.filter bad, fun _ => { code := 0x06, aux0 := pos })

/-- A fabric-window address where none is accepted, or another address where one is needed (R189, R199). -/
def fabricCheck (c : Ctx) (sp want : Bool) : Check :=
  (c.act.filter fun l => !sp && (inFabric (c.gaddr l) != want), fun l => { code := 0x06, addr := c.gaddr l, aux0 := 1 })

/-- Two checks of one cause, which share its place in the order and its lanes (R194). -/
def bothChecks (a b : Check) : Check :=
  ((List.range 64).filter fun l => decide (l ∈ a.1 ∨ l ∈ b.1), fun l => if l ∈ a.1 then a.2 l else b.2 l)

/-- The fault of a translation made before issue, if any. -/
def xlFault : Xl → Option Nat
  | .fault k => some k
  | _ => none

def Xl.waits : Xl → Bool
  | .wait => true
  | _ => false

def memoryCheck (c : Ctx) (sp : Bool) (xl : Nat → Xl) : Check :=
  (c.act.filter fun l => !sp && (xlFault (xl l)).isSome,
   fun l => { code := 0x07, addr := c.gaddr l, aux0 := (xlFault (xl l)).getD 0 })

/-- The location of an access once its checks have passed; a remote leaf has none. -/
def Ctx.loc (c : Ctx) (sp : Bool) (xl : Nat → Xl) (n l : Nat) : Option Loc :=
  if sp then (c.st.spTarget c.place (c.saddr l) n).map fun p => .sp p.1 p.2
  else match xl l with
    | .ok t => if t.remote then none else some (.glob (t.addr (c.gaddr l)))
    | _ => none

/-! ### Waits for earlier accesses -/

/-- An access with `.acq` of the lane is outstanding: no later access of it issues (R222). -/
def State.acquiring (s : State) (o : Owner) : Bool :=
  (s.remotes.any fun r => decide (r.own = o) && r.acq) || s.late.any fun h => decide (h.own = o) && h.isAcq

/-- The lane is captured by an active stream: its stores, atomics, fences and barriers wait (R205). -/
def Pair.captured (p : Pair) (l : Nat) : Bool := p.streams.any fun x => x.mask.getLsbD l

/-- A read of the lane must wait: an acquire is pending, or an engine owns the line (R222, R270). -/
def Ctx.readWaits (c : Ctx) (loc : Nat → Option Loc) (n : Nat) : Bool :=
  c.act.any fun l => c.st.acquiring (c.own l) ||
    (match loc l with
     | some x => c.st.ownedOver none x n
     | none => false)

/-- A write or a read-modify-write of the lane must wait; a read-modify-write also for held bytes (R206). -/
def Ctx.writeWaits (c : Ctx) (rmw : Bool) (loc : Nat → Option Loc) (n : Nat) : Bool :=
  c.readWaits loc n || c.act.any fun l => c.pair.captured l ||
    (match loc l with
     | some x => rmw && c.st.heldOver x n
     | none => false)

/-! ### Reserved elements and pending results (R101, R196) -/

/-- The elements that an access reserves: two for a 64-bit type. -/
def reserved (kind : ElemKind) (id : Nat) (ty : Ty) (addr : DWord) : List Elem :=
  let e : Elem := { kind, out := id, addr, ty }
  if isWide ty then [e, { e with addr := addr + 4, hi := true }] else [e]

/-- Elements that carry a fault token at once (R212). -/
def tokens (cause : Nat) (ty : Ty) (addr : DWord) : List Elem :=
  let e : Elem := { cause, addr, ty }
  if isWide ty then [e, { e with addr := addr + 4, hi := true }] else [e]

/-- A window awaits the access of a number: the window that this issue opened, or one of no instructions. -/
def awaitIn (ahead id : Nat) (pc : Word) (x : Lane) : Lane :=
  if ahead = 0 then { x with wins := x.wins ++ [{ out := id, pc }] }
  else
    match x.wins.getLast? with
    | some w => { x with wins := x.wins.dropLast ++ [{ w with out := id }] }
    | none => x

def Ctx.await (c : Ctx) (l id : Nat) (s : State) : State :=
  s.mapLane c.place c.group c.sl l (awaitIn c.f.ahead.toNat id c.pc)

/-- Where the data of an access goes, by its destination operand. -/
def destOf : Operand → Dest
  | .queue q => .queue q.toNat
  | .reg n => .reg n.toNat
  | .uni n => .uni n.toNat
  | _ => .drop

/-- An access whose bytes are captured: its element is reserved or its register pending until the data returns. -/
def Ctx.pend (c : Ctx) (l : Nat) (dst : Dest) (ty : Ty) (bytes : List RdByte) (addr : DWord) (kind : ElemKind)
    (s : State) : State :=
  let id := s.fresh
  let s := { s with fresh := id + 1 }
  let o : Out := { id, own := c.own l, dst, ty, bytes, addr, pc := c.pc }
  match dst with
  | .drop => s
  | .queue q => { s.push c.place c.group q l (reserved kind id ty addr) with outs := s.outs ++ [o] }
  | .reg _ => { c.await l id s with outs := s.outs ++ [o] }
  | .uni _ => { c.path.foldl (fun s m => c.await m id s) s with outs := s.outs ++ [o] }

/-- An access of a lane that takes its place later (R266, log 1). -/
def Ctx.deferAt (c : Ctx) (l : Nat) (op : LateOp) (x : Loc) (addr : DWord) (s : State) : State :=
  { s with late := s.late ++ [{ id := s.fresh, issue := c.st.fresh, own := c.own l, op, loc := x, n := accBytes c.f.ty, ty := c.f.ty, addr,
                                pc := c.pc, clears := c.clears }], fresh := s.fresh + 1 }

/-- One with a result: the bytes are known once it has taken its place. -/
def Ctx.pendLate (c : Ctx) (l : Nat) (dst : Dest) (op : LateOp) (x : Loc) (addr : DWord) (s : State) : State :=
  let id := s.fresh
  let s := { c.pend l dst c.f.ty (List.replicate (accBytes c.f.ty) (.held id 0)) addr .load s with fresh := id }
  c.deferAt l op x addr s

/-- An access that meets an uncorrectable error: a token of cause 4, or a result that has failed (R197, R212, R281). -/
def Ctx.pendBad (c : Ctx) (l : Nat) (dst : Dest) (ty : Ty) (addr : DWord) (s : State) : State :=
  let id := s.fresh
  let o : Out := { id, own := c.own l, dst, ty, addr, pc := c.pc, bad := some 4 }
  match dst with
  | .drop => s
  | .queue q => s.push c.place c.group q l (tokens 4 ty addr)
  | .reg _ => { c.await l id { s with fresh := id + 1 } with outs := s.outs ++ [o] }
  | .uni _ => { c.path.foldl (fun s m => c.await m id s) { s with fresh := id + 1 } with outs := s.outs ++ [o] }

/-- The status word of a fence (R55). -/
def fenceWord (k : FenceRec) (scope : Nat) : Word :=
  BitVec.ofNat 32 ((if k.count = 0 then 0 else 1) + (if k.dead then 2 else 0) + (if k.refused then 4 else 0)
    + (if k.multi then 8 else 0) + k.port * 16 + scope * 2 ^ 8 + k.count * 2 ^ 16)

/-! ### Wait words of packets (R349) -/

/-- The owner of the reads of a packet's wait word, which no lane makes (R349). -/
def Packet.waitOwner (p : Packet) : Owner := { part := p.part, serial := 2 ^ 24 + 1, block := p.queue, group := p.idx }

/-- The value of a remote wait word reaches its packet (R349). -/
def State.waitAnswer (s : State) (o : Owner) (v : DWord) : State :=
  { s with packets := s.packets.map fun p =>
      if o = p.waitOwner ∧ p.waitVal.toNat ≤ v.toNat then { p with waitOk := true } else p }

end Sys2Proof.Machine
end

