-- ==== Sys2Proof/Machine/Loads.lean ====
section
/-! DEFINITION. Loads into queues and registers, multicasts, streams and the queue instructions (R196 to R205, R208, R209,
R223), with the steps that return their data (R196, R199, R202, R204). -/

namespace Sys2Proof.Machine
open Sys2Proof

/-- Translations of the lanes for an access, each at its own address. -/
def Ctx.xlates (c : Ctx) (rd wr : Bool) (l : Nat) : Xl := c.st.translate c.tctx rd wr (c.gaddr l)

/-- A table entry that a walk needs is kept by a store or an engine: the access waits (R265, R270). -/
def Ctx.walkWaits (c : Ctx) (xl : Nat → Xl) : Bool := c.act.any fun l => (xl l).waits

/-- The lanes that read: all active ones, or the lowest for a uniform destination (R43). -/
def Ctx.readers (c : Ctx) : List Nat :=
  match c.f.dst with
  | .uni _ => c.act.take 1
  | _ => c.act

/-- One lane's read takes its place in the order and its data is on the way (R265); one that may be late takes it later where the turn
says so. -/
def Ctx.readAt (c : Ctx) (may : Bool) (s : State) (l : Nat) (x : Loc) (addr : DWord) (kind : ElemKind) : State :=
  let n := accBytes c.f.ty
  if may && c.isLate l then c.pendLate l (destOf c.f.dst) .read x addr s
  else if (s.errIn x n).isSome then
    c.pendBad l (destOf c.f.dst) c.f.ty addr ((s.touchRead c.core c.blk.part x).meetErr c.core (c.own l) x n 0)
  else c.pend l (destOf c.f.dst) c.f.ty (s.capture x n) addr kind ((s.touchRead c.core c.blk.part x).request c.core s.fresh x)

/-! ### `ld.q`, `ld.y`, `ld.sp` (R196 to R198) -/

/-- The lane, or a lower one that reads before it (R265), has a translation that must wait. -/
def Ctx.afterWait (c : Ctx) (xl : Nat → Xl) (l : Nat) : Bool := c.act.any fun m => decide (m ≤ l) && (xl m).waits

/-- A lane's element of `ld.q`: reserved, or a fault token (R196, R213). A translation that must wait is made later (R195, R371). -/
def Ctx.queueRead (c : Ctx) (xl : Nat → Xl) (s : State) (l : Nat) : State :=
  if c.afterWait xl l then c.pendLate l (destOf c.f.dst) .load (.glob 0) (c.gaddr l) s
  else match xl l with
  | .ok t => c.readAt true s l (.glob (t.addr (c.gaddr l))) (c.gaddr l) .load
  | .fault k =>
    (match c.f.dst with
     | .queue q => (s.push c.place c.group q.toNat l (tokens k c.f.ty (c.gaddr l))).meetWalkErr c.core (c.own l) c.blk.root (c.gaddr l) k
     | _ => s).adviseFault c.tctx c.blk.serial (c.gaddr l) k 0 0
  | .wait => s

def ldQBody (c : Ctx) (s : State) : Act :=
  let n := accBytes c.f.ty
  match firstTrap [misalignedCheck c false n, fabricCheck c false false] with
  | some t => .trap c.st t
  | none =>
    let xl := c.xlates true false
    if c.readWaits (c.loc false xl n) n then .stall c.st
    else .done (c.act.foldl (c.queueRead xl) s)

/-- `ld.y` and `lr` (R197, R219) share their checks; `ld.sp` and `lr.sp` those of a scratchpad address (R198). -/
def regRead (sp may : Bool) (after : Nat → Loc → State → State) (c : Ctx) (s : State) : Act :=
  let n := accBytes c.f.ty
  let xl := c.xlates true false
  match firstTrap [misalignedCheck c sp n, scratchCheck c sp n, fabricCheck c sp false, memoryCheck c sp xl] with
  | some t => .trap c.st t
  | none =>
    let loc := c.loc sp xl n
    if (!sp && c.walkWaits xl) || c.readWaits loc n then .stall c.st
    else .done (c.readers.foldl (fun s l => match loc l with
      | some x => after l x (c.readAt may s l x (c.addr sp l) .load)
      | none => s) s)

/-! ### `ld.fab` (R199) -/

def ldFabBody (c : Ctx) (s : State) : Act :=
  let n := accBytes c.f.ty
  match firstTrap [misalignedCheck c false n, fabricCheck c false true] with
  | some t => .trap c.st t
  | none =>
    let xl := c.xlates true false
    if c.act.any fun l => c.st.acquiring (c.own l) then .stall c.st
    else
      .done (c.act.foldl (fun s l =>
        match c.f.dst, xl l with
        | .queue q, .wait =>
          c.deferAt l (.fab q.toNat c.f.acq) (.glob 0) (c.gaddr l) (s.push c.place c.group q.toNat l
            ((reserved .fab s.fresh c.f.ty (c.gaddr l)).map fun e => { e with acq := c.f.acq }))
        | .queue q, .ok t =>
          let id := s.fresh
          let s := { s with fresh := id + 1 }
          (s.push c.place c.group q.toNat l
              ((reserved .fab id c.f.ty (c.gaddr l)).map fun e => { e with acq := c.f.acq })).addRemote
            { id, own := c.own l, op := .read, peer := t.peer, addr := c.gaddr l, raddr := t.addr (c.gaddr l), ty := c.f.ty,
              dst := .queue q.toNat, acq := c.f.acq, pc := c.pc }
        | .queue q, .fault k =>
          (s.push c.place c.group q.toNat l (tokens k c.f.ty (c.gaddr l))).meetWalkErr c.core (c.own l) c.blk.root (c.gaddr l) k
        | _, _ => s) s)

/-! ### `ld.mc` (R202) -/

/-- Multicasts that a lane of a group of a member has issued. -/
def Pair.mcIssued (p : Pair) (l : Nat) : Nat := smGet 0 p.mcCount l

/-- A member of the block's team is saved; one that is neither resident nor saved has ended, and its lanes have exited. -/
def State.memberSaved (s : State) (b : Block) (m : Nat) : Bool :=
  s.launches.any fun la => decide (la.part = b.part ∧ la.serial = b.serial)
    && la.saved.any fun x => decide (x.block / b.t = b.team ∧ x.member = m)

/-- Lane `l` of the group has issued more than `k` multicasts, or has exited its access slice, in every other member. -/
def Ctx.othersReady (c : Ctx) (l k : Nat) : Bool :=
  (List.range c.blk.t).all fun m =>
    decide (m = c.blk.member) ||
      (match c.st.memberPlace c.blk m with
       | none => !c.st.memberSaved c.blk m
       | some p => let q := c.st.pair p c.group
         decide (k < q.mcIssued l) || !q.acc.live l)

/-- Lane `l` of member 0 has exited its access slice. -/
def Ctx.leadGone (c : Ctx) (l : Nat) : Bool :=
  match c.st.memberPlace c.blk 0 with
  | none => !c.st.memberSaved c.blk 0
  | some p => !(c.st.pair p c.group).acc.live l

/-- The reserved element of a member's lane. -/
def Ctx.mcReserve (c : Ctx) (s : State) (l : Nat) (addr : DWord) : State :=
  match c.f.dst with
  | .queue q =>
    let k := c.pair.mcIssued l
    let s := s.mapPair c.place c.group fun p => { p with mcCount := smPut p.mcCount l (k + 1) }
    if decide (c.blk.member ≠ 0) && c.leadGone l then s.push c.place c.group q.toNat l (tokens 7 c.f.ty 0)
    else
      let id := s.fresh
      { s.push c.place c.group q.toNat l (reserved .mc id c.f.ty addr) with
        fresh := id + 1
        outs := s.outs ++ [{ id, own := c.own l, dst := .queue q.toNat, ty := c.f.ty, pc := c.pc, addr, mc := some k }] }
  | _ => s

/-- Member 0's read of a lane (R202): its bytes go to the elements of every member, or its fault does. A translation that must wait is
made later (R195). -/
def Ctx.mcRead (c : Ctx) (xl : Nat → Xl) (s : State) (l : Nat) : State :=
  let k := c.pair.mcIssued l
  let a := c.gaddr l
  let id := s.fresh
  let s := c.mcReserve s l a
  let mine := s.outs.filter (mcOf c.blk c.group l k)
  let s := mine.foldl (fun s o => s.mcAddr o a) s
  if c.afterWait xl l then { c.deferAt l (.mc k) (.glob 0) a { s with fresh := id } with fresh := s.fresh }
  else match xl l with
  | .ok t =>
    let x := Loc.glob (t.addr a)
    let bytes := s.capture x (accBytes c.f.ty)
    let s := (s.touchRead c.core c.blk.part x).request c.core id x
    if (s.errIn x (accBytes c.f.ty)).isSome then
      mine.foldl (fun s o => (s.deliverToken o.own o.dst o.id 4).dropOut o.id) (s.meetErr c.core (c.own l) x (accBytes c.f.ty) 0)
    else { s with outs := s.outs.map fun o => if mcOf c.blk c.group l k o then { o with bytes, addr := a } else o }
  | .fault cause =>
    ((mine.foldl (fun s o => (s.deliverToken o.own o.dst o.id cause).dropOut o.id) s).meetWalkErr c.core (c.own l) c.blk.root a
      cause).adviseFault c.tctx c.blk.serial a cause 0 1
  | .wait => s

def ldMcBody (c : Ctx) (s : State) : Act :=
  if c.blk.member ≠ 0 then
    if c.act.any fun l => c.st.acquiring (c.own l) then .stall c.st
    else .done (c.act.foldl (fun s l => c.mcReserve s l 0) s)
  else
    let n := accBytes c.f.ty
    match firstTrap [misalignedCheck c false n, fabricCheck c false false] with
    | some t => .trap c.st t
    | none =>
      let xl := c.xlates true false
      if c.readWaits (c.loc false xl n) n || !(c.act.all fun l => c.othersReady l (c.pair.mcIssued l)) then
        .stall c.st
      else .done (c.act.foldl (c.mcRead xl) s)

/-! ### Streams (R203 to R205) -/

/-- The eight words of a descriptor in uniform registers. -/
def Ctx.descWords (c : Ctx) : List Word :=
  match c.f.a with
  | .uni n => (List.range 8).map fun k => c.half.ureg (n.toNat + k)
  | _ => []

def wordAt (ws : List Word) (k : Nat) : Nat := (ws.getD k 0).toNat
def dwordAt (ws : List Word) (k : Nat) : Nat := wordAt ws k + 2 ^ 32 * wordAt ws (k + 1)

/-- The descriptor breaks R203. -/
def streamBad (ty : Ty) (ws : List Word) : Bool :=
  decide (wordAt ws 7 / 2 ^ 16 ≠ 0) || !aligned (dwordAt ws 0) (accBytes ty)
    || [2, 3, 4, 5].any fun k => !aligned (wordAt ws k) (accBytes ty)

/-- Rows of the three loops. -/
def streamRows (ws : List Word) : Nat := wordAt ws 6 % 2 ^ 16 * (wordAt ws 6 / 2 ^ 16) * (wordAt ws 7 % 2 ^ 16)

def streamBody (c : Ctx) (s : State) : Act :=
  match c.act, c.f.dst with
  | [], _ => .done s
  | _, .queue q =>
    match firstTrap [operandCheck c 1 fun _ => streamBad c.f.ty c.descWords] with
    | some t => .trap c.st t
    | none =>
      if c.streaming q.toNat || (c.act.any fun l => c.st.acquiring (c.own l)) then .stall c.st
      else if streamRows c.descWords = 0 then .done s
      else .done (s.mapPair c.place c.group fun p =>
        { p with streams := p.streams ++ [{ desc := c.descWords, queue := q.toNat, ty := c.f.ty, mask := laneMask c.act,
                                            hint := c.f.hint }] })
  | _, _ => .done s

/-- A signed 32-bit field as a 64-bit number. -/
def sx (w : Word) : DWord := w.signExtend 64

/-- The address of a lane's element in the present row (R204). -/
def Stream.addr (x : Stream) (l : Nat) : DWord :=
  BitVec.ofNat 64 (dwordAt x.desc 0) + BitVec.ofNat 64 l * sx (x.desc.getD 2 0) + BitVec.ofNat 64 x.n0 * sx (x.desc.getD 3 0)
    + BitVec.ofNat 64 x.n1 * sx (x.desc.getD 4 0) + BitVec.ofNat 64 x.n2 * sx (x.desc.getD 5 0)

/-- The next row; none after the last. -/
def Stream.next (x : Stream) : Option Stream :=
  let c0 := wordAt x.desc 6 % 2 ^ 16
  let c1 := wordAt x.desc 6 / 2 ^ 16
  let c2 := wordAt x.desc 7 % 2 ^ 16
  if x.n0 + 1 < c0 then some { x with n0 := x.n0 + 1 }
  else if x.n1 + 1 < c1 then some { x with n0 := 0, n1 := x.n1 + 1 }
  else if x.n2 + 1 < c2 then some { x with n0 := 0, n1 := 0, n2 := x.n2 + 1 }
  else none

/-- One lane's element of a stream row (R204, R212). -/
def State.rowRead (s : State) (place g : Nat) (b : Block) (x : Stream) (l : Nat) : State :=
  let a := x.addr l
  let c := b.tctx place
  let tok (k : Nat) :=
    ((s.push place g x.queue l (tokens k x.ty a)).meetWalkErr c.core (b.owner g l) b.root a k).adviseFault c b.serial a k 0 2
  if inFabric a then tok 8
  else
    match s.translate c true false a with
    | .fault k => tok k
    | .wait => s
    | .ok t =>
      let loc := Loc.glob (t.addr a)
      let id := s.fresh
      let bytes := s.capture loc (accBytes x.ty)
      let s := (s.touchRead c.core b.part loc).request c.core id loc
      if (s.errIn loc (accBytes x.ty)).isSome then
        (s.push place g x.queue l (tokens 4 x.ty a)).meetErr c.core (b.owner g l) loc (accBytes x.ty) 0
      else { s.push place g x.queue l (reserved .load id x.ty a) with
        fresh := id + 1
        outs := s.outs ++ [{ id, own := b.owner g l, dst := .queue x.queue, ty := x.ty, bytes, addr := a }] }

/-- A captured lane holds the row back: no room, or a line or table entry that its read must wait for. -/
def State.rowWaits (s : State) (place g : Nat) (b : Block) (p : Pair) (x : Stream) (l : Nat) : Bool :=
  let n := if isWide x.ty then 2 else 1
  (p.exe.live l && decide (b.depth x.queue < (p.queue x.queue l).length + n))
    || (match s.translate (b.tctx place) true false (x.addr l) with
        | .wait => true
        | .ok t => !inFabric (x.addr l) && s.ownedOver none (.glob (t.addr (x.addr l))) (accBytes x.ty)
        | .fault _ => false)

/-- The step STREAM_ROW (R204): the engine reserves and reads the next row of a stream. A stopped pair's streams reserve no
row (R205). -/
def State.streamStep (s : State) (place g q : Nat) : State :=
  match s.block? place with
  | none => s
  | some b =>
    let p := b.pair g
    match p.streams.find? fun x => x.queue = q with
    | none => s
    | some x =>
      let ls := maskLanes x.mask
      if p.run.isStopped || ls.any (s.rowWaits place g b p x) then s
      else
        (ls.foldl (fun s l => s.rowRead place g b x l) s).mapPair place g fun p =>
          { p with streams := p.streams.filterMap fun y => if y.queue = q then x.next else some y }

/-! ### Queue instructions and `smov` (R200, R208, R209, R223) -/

/-- `qflush` (R208): present and reserved elements, and the rows of a stream not yet reserved. -/
def qflushBody (c : Ctx) (s : State) : Act :=
  match c.f.a with
  | .queue q =>
    .done (s.mapPair c.place c.group fun p =>
      let p := c.act.foldl (fun p l => p.setQueue q.toNat l []) p
      { p with streams := (p.streams.map fun x =>
                 if x.queue = q.toNat then { x with mask := x.mask &&& ~~~laneMask c.act } else x).filter fun x =>
                   decide (x.mask ≠ 0) })
  | _ => .done s

def qcountBody (c : Ctx) (s : State) : Act :=
  match c.f.a with
  | .queue q => .done (c.writeAll false (fun l => BitVec.ofNat 64 (c.pair.queue q.toNat l).length) s)
  | _ => .done s

/-- An operand that is the same in every lane (R43). -/
def uniformSource : Operand → Bool
  | .uni _ => true
  | .lit => true
  | .imm _ => true
  | .special n => specialUniform n.toNat
  | _ => false

/-- `smov` (R223): the special register that the value of a names. To a uniform register it writes what the lowest active lane
reads, also of a per-lane register: the model's choice (DESIGN CHOICE, log 64). -/
def smovBody (c : Ctx) (s : State) : Act :=
  let bad (l : Nat) : Bool :=
    let n := c.word c.f.a l
    !specialListed n || decide (specialWidth n ≠ tyWidth c.f.ty) || !specialSlice n c.sl
      || ((match c.f.dst with
           | .uni _ => true
           | _ => false) && !uniformSource c.f.a)
  match firstTrap [operandCheck c 1 bad] with
  | some t => .trap c.st t
  | none => .done (c.writeAll (isWide c.f.ty) (fun l => c.special (c.word c.f.a l) l) s)

/-! ### Meanings -/

def execLdQ (f : Ext) (s : State) : Host.Outcome State Fault Refusal := issue (.ldQ f) ldQBody s
def execLdY (f : Ext) (s : State) : Host.Outcome State Fault Refusal :=
  issue (.ldY f) (regRead false true fun _ _ s => s) s
def execLdSp (f : Ext) (s : State) : Host.Outcome State Fault Refusal :=
  issue (.ldSp f) (regRead true true fun _ _ s => s) s
def execLdFab (f : Ext) (s : State) : Host.Outcome State Fault Refusal := issue (.ldFab f) ldFabBody s
def execLdMc (f : Ext) (s : State) : Host.Outcome State Fault Refusal := issue (.ldMc f) ldMcBody s
def execStream (f : Ext) (s : State) : Host.Outcome State Fault Refusal := issue (.stream f) streamBody s
/-- `prefetch` (R200): it takes no place in the memory order and never faults. -/
def execPrefetch (f : Ext) (s : State) : Host.Outcome State Fault Refusal := issue (.prefetch f) (fun _ s => .done s) s
def execQflush (f : Ext) (s : State) : Host.Outcome State Fault Refusal := issue (.qflush f) qflushBody s
def execQcount (f : Ext) (s : State) : Host.Outcome State Fault Refusal := issue (.qcount f) qcountBody s
def execSmov (f : Ext) (s : State) : Host.Outcome State Fault Refusal := issue (.smov f) smovBody s

/-- LOAD_DATA_RETURN (R196): the data of an outstanding local access reaches its element or register. -/
def execLoadDataReturn (id : Nat) (s : State) : Host.Outcome State Fault Refusal :=
  match s.outs.find? fun o => o.id = id ∧ o.mc = none with
  | none => .next s
  | some o => .next (s.finishOut o)

/-- MULTICAST_READ (R202): the data of multicasts that member 0 has performed for a lane fills the elements of the members. -/
def execMulticastRead (part serial team group lane : Nat) (s : State) : Host.Outcome State Fault Refusal :=
  .next ((s.outs.filter fun o => o.mc.isSome && !o.bytes.isEmpty
      && decide (o.own.part = part ∧ o.own.serial = serial ∧ o.own.group = group ∧ o.own.lane = lane)
      && (match s.placeOfOwner o.own with
          | some p => match s.block? p with
            | some b => decide (b.team = team)
            | none => false
          | none => false)).foldl State.finishOut s)

/-- STREAM_ROW (R204). -/
def execStreamRow (core slot group queue : Nat) (s : State) : Host.Outcome State Fault Refusal :=
  .next (s.streamStep (placeOf core slot) group queue)

end Sys2Proof.Machine
end

