-- ==== Sys2Proof/Machine/Stores.lean ====
section
/-! DEFINITION. Stores, atomics, reservations and fences (R206, R207, R216 to R222), and the step that takes store data from
`q13`. -/

namespace Sys2Proof.Machine
open Sys2Proof

/-! ### Stores (R206, R207) -/

/-- The store takes its data from `q13`. -/
def fromQ13 (f : Ext) : Bool := decide (f.c = .queue 13)

/-- Elements of `q13` that a store takes. -/
def q13Need (ty : Ty) : Nat := if isWide ty then 2 else 1

/-- Stores of a lane that still wait for data. -/
def State.waitingStores (s : State) (o : Owner) : Nat := (s.held.filter fun h => decide (h.own = o ∧ h.data = none)).length

/-- The lane has exited the execute slice and `q13` holds no element for the store (R206). -/
def Ctx.noData (c : Ctx) (l : Nat) : Bool :=
  !c.pair.exe.live l && decide ((c.pair.queue 13 l).length < c.st.heldNeed (c.own l) + q13Need c.f.ty)

/-- A store of a lane that holds its bytes until its data arrives. -/
def Ctx.holdStore (c : Ctx) (sp : Bool) (xl : Nat → Xl) (s : State) (l : Nat) : State :=
  let n := accBytes c.f.ty
  let h : Held := { id := s.fresh, own := c.own l, n, addr := c.addr sp l, pc := c.pc, ty := c.f.ty, sp, rel := c.f.rel && !sp,
                    hint := c.f.hint, clears := c.clears }
  let add (h : Held) : State :=
    let s := if h.remote then s else s.clearLines h.loc n
    { s with held := s.held ++ [h], fresh := s.fresh + 1 }
  match c.loc sp xl n l, xl l with
  | some x, _ => add { h with loc := x }
  | none, .ok t => add { h with loc := .glob (t.addr (c.gaddr l)), remote := true, peer := t.peer }
  | none, _ => s

/-- A store of a lane whose data is there: placed now, or later in the single order where the turn says so (R266). -/
def Ctx.storeNow (c : Ctx) (sp : Bool) (xl : Nat → Xl) (s : State) (l : Nat) : State :=
  let n := accBytes c.f.ty
  let v := c.src c.f.ty c.f.c l
  match c.loc sp xl n l, xl l with
  | some x, _ =>
    if c.isLate l then c.deferAt l (.store (leBytes n v.toNat)) x (c.addr sp l) s
    else s.storeLane (c.own l) c.sl c.pc (c.addr sp l) x (leBytes n v.toNat) c.clears
  | none, .ok t =>
    State.addRemote { s with fresh := s.fresh + 1 }
      { id := s.fresh, own := c.own l, op := .write, peer := t.peer, addr := c.gaddr l, raddr := t.addr (c.gaddr l),
        ty := c.f.ty, val := v, rel := c.f.rel, pc := c.pc }
  | none, _ => s

/-- A late access meets the bytes of a lane's store from `q13`: it takes its place before the bytes are held. -/
def Ctx.lateUnder (c : Ctx) (loc : Nat → Option Loc) (h : Late) : Bool :=
  c.act.any fun l => (loc l).any fun x => overlap h.loc h.n x (accBytes c.f.ty)

def storeBody (sp : Bool) (c : Ctx) (s : State) : Act :=
  let n := accBytes c.f.ty
  let xl := c.xlates false true
  match firstTrap [misalignedCheck c sp n, scratchCheck c sp n, memoryCheck c sp xl] with
  | some t => .trap c.st t
  | none =>
    if (!sp && c.walkWaits xl) || c.writeWaits false (c.loc sp xl n) n then .stall c.st
    else if fromQ13 c.f then
      if (c.act.any fun l => decide (64 ≤ c.st.waitingStores (c.own l))) || c.st.lateWaits (c.lateUnder (c.loc sp xl n)) then .stall c.st
      else
        match firstTrap [(c.act.filter c.noData, fun l => { code := 0x12, addr := c.addr sp l, aux0 := 0xff })] with
        | some t => .trap c.st t
        | none => .done (c.act.foldl (c.holdStore sp xl) (s.settleLate (c.lateUnder (c.loc sp xl n))))
    else .done (c.act.foldl (c.storeNow sp xl) s)

/-- STORE_DATA_TAKE (R206): the oldest waiting store of a lane takes its elements from `q13`; a store of this device is
placed unless an earlier held store keeps its bytes, a remote store leaves. A pair whose lanes have all exited ends with its
last store's data (R24). -/
def State.takeData (s : State) (place g l : Nat) : State :=
  match s.block? place with
  | none => s
  | some b =>
    let p := b.pair g
    let o := b.owner g l
    match s.held.find? fun h => h.own = o ∧ h.data = none with
    | none => s
    | some h =>
      let n := q13Need h.ty
      let q := p.queue 13 l
      if p.run.isStopped || h.retry || decide (q.length < n) then s
      else
        let v := queueValue (decide (n = 2)) q
        let s := s.mapPair place g fun p => p.setQueue 13 l ((p.queue 13 l).drop n)
        if h.void then State.endPair { s with held := s.held.filter fun x => decide (x.id ≠ h.id) } place g
        else if h.remote then
          (State.addRemote { s with held := s.held.filter fun x => decide (x.id ≠ h.id) }
            { id := h.id, own := o, op := .write, peer := h.peer, addr := h.addr,
              raddr := (match h.loc with
                        | .glob a => a
                        | .sp _ a => a), ty := h.ty, val := v, rel := h.rel, pc := h.pc }).endPair place g
        else
          let filled := s.held.map fun x => if x.id = h.id then { x with data := some (leBytes h.n v.toNat) } else x
          (State.drainHeld { s with held := filled } s.held.length).sendReleased.endPair place g

/-! ### Atomics (R216 to R218) -/

/-- The operation and type of an add that a launch with ordered float atomics buffers (R218). -/
def floatAdd (op : Option AtomOp) (ty : Ty) : Bool :=
  decide (op = some .add ∧ (ty = .f32 ∨ ty = .f64 ∨ ty = .bf16x2))

def Ctx.ordered (c : Ctx) (op : Option AtomOp) (l : Nat) : Bool :=
  c.blk.ofa && floatAdd op c.f.ty && !c.f.sp && !inFabric (c.gaddr l)

/-- Free entries of the partition's ordered-buffer region (R275). -/
def State.orderedFree (s : State) (part : Nat) : Nat :=
  let base := (s.sysreg part 0x005).toNat
  let n := (s.sysreg part 0x006).toNat % 2 ^ 32
  if base % 4096 = 0 ∧ n ≠ 0 ∧ partOwns (s.partRec part) base (16 * n) then
    n - s.launches.foldl (fun k x => if x.part = part then k + x.adds.length else k) 0
  else 0

/-- An add joins the launch's buffer with its key (R274). -/
def Ctx.buffer (c : Ctx) (s : State) (l pa : Nat) : State :=
  let n := smGet 0 (s.pair c.place c.group).ordCount l
  let a : OrdAdd := { pa, ty := c.f.ty, val := c.src c.f.ty c.f.c l, b := c.blk.block, g := c.group, l, n, va := c.gaddr l, pc := c.pc,
                      handle := s.pairHandle c.place c.group }
  { s.mapPair c.place c.group fun p => { p with ordCount := smPut p.ordCount l (n + 1) } with
    launches := s.launches.map fun x =>
      if x.part = c.blk.part ∧ x.serial = c.blk.serial then { x with adds := x.adds ++ [a] } else x }

/-- One lane's atomic (R217). -/
def Ctx.atomAt (c : Ctx) (op : Option AtomOp) (xl : Nat → Xl) (s : State) (l : Nat) : State :=
  let n := accBytes c.f.ty
  let v := c.src c.f.ty c.f.c l
  let e := c.src c.f.ty c.f.d l
  let dst := if c.f.nr then Dest.drop else destOf c.f.dst
  match c.loc c.f.sp xl n l, xl l with
  | some x, _ =>
    if c.ordered op l then
      match x with
      | .glob pa => c.buffer s l pa
      | .sp _ _ => s
    else if c.isLate l then c.pendLate l dst (.atom op v e) x (c.addr c.f.sp l) s
    else if (s.errIn x n).isSome then
      c.pendBad l dst c.f.ty (c.addr c.f.sp l) ((s.fenceFail (c.own l) false false 15).meetErr c.core (c.own l) x n 2)
    else
      let old := s.natAt x n
      let s := s.storeLane (c.own l) c.sl c.pc (c.addr c.f.sp l) x (leBytes n (atomResult op c.f.ty old v.toNat e.toNat)) c.clears
      c.pend l dst c.f.ty ((leBytes n old).map .byte) (c.addr c.f.sp l) .load s
  | none, .ok t =>
    let id := s.fresh
    let s := { s with fresh := id + 1 }
    let s := match dst with
      | .queue q => s.push c.place c.group q l (reserved .load id c.f.ty (c.gaddr l))
      | .reg _ | .uni _ => c.await l id s
      | .drop => s
    s.addRemote { id, own := c.own l, op := .atom op, peer := t.peer, addr := c.gaddr l, raddr := t.addr (c.gaddr l),
                  ty := c.f.ty, val := v, val2 := e, dst, acq := c.f.acq, rel := c.f.rel, pc := c.pc }
  | none, _ => s

def atomBody (op : Option AtomOp) (c : Ctx) (s : State) : Act :=
  let n := accBytes c.f.ty
  let xl := c.xlates true true
  let buffered := c.act.filter (c.ordered op)
  match firstTrap [misalignedCheck c c.f.sp n, scratchCheck c c.f.sp n,
      operandCheck c 0 (fun l => c.ordered op l && !c.f.nr), memoryCheck c c.f.sp xl] with
  | some t => .trap c.st t
  | none =>
    if (!c.f.sp && c.walkWaits xl) || c.writeWaits true (c.loc c.f.sp xl n) n then .stall c.st
    else if c.st.orderedFree c.blk.part < buffered.length then
      c.fail { code := 0x13, addr := c.gaddr (buffered.headD 0) } buffered
    else .done (c.act.foldl (c.atomAt op xl) s)

/-! ### Reservations (R219) -/

/-- `lr` sets the lane's reservation after its read. -/
def reserve (c : Ctx) (l : Nat) (x : Loc) (s : State) : State :=
  let e := (s.core c.core).ts + s.leaseLen c.blk.part
  s.mapPair c.place c.group fun p =>
    { p with resv := smPut p.resv l { loc := x, width := accBytes c.f.ty, leaseEnd := e } }

/-- The lane's reservation names the location and width and is still held. `The same address' of R219 is read as the location to
which the addresses translate: the model's choice (DESIGN CHOICE, log 65). -/
def State.holdsResv (s : State) (c : Ctx) (l : Nat) (x : Loc) : Bool :=
  match smFind (s.pair c.place c.group).resv l with
  | some r => decide (r.loc = x ∧ r.width = accBytes c.f.ty ∧ (s.core c.core).ts ≤ r.leaseEnd)
  | none => false

/-- One lane's `sc`: whether it stores. -/
def Ctx.scAt (c : Ctx) (loc : Nat → Option Loc) (s : State) (l : Nat) : State :=
  let n := accBytes c.f.ty
  let ok := match loc l with
    | some x => s.holdsResv c l x
    | none => false
  let s := match ok, loc l with
    | true, some x =>
      s.storeLane (c.own l) c.sl c.pc (c.addr c.f.sp l) x (leBytes n (c.src c.f.ty c.f.c l).toNat) c.clears
    | _, _ => s
  let s := s.mapPair c.place c.group fun p => { p with resv := smErase p.resv l }
  match c.f.dst with
  | .reg d => s.mapHalf c.place c.group c.sl fun h => h.setPred l d.toNat ok
  | _ => s

def scBody (c : Ctx) (s : State) : Act :=
  let n := accBytes c.f.ty
  let rd := c.xlates true false
  let loc := c.loc c.f.sp rd n
  let wins (l : Nat) : Bool := match loc l with
    | some x => c.st.holdsResv c l x
    | none => false
  let xl (l : Nat) : Xl := if wins l then c.xlates true true l else rd l
  match firstTrap [misalignedCheck c c.f.sp n, scratchCheck c c.f.sp n, fabricCheck c c.f.sp false,
      memoryCheck c c.f.sp xl] with
  | some t => .trap c.st t
  | none =>
    if (!c.f.sp && c.walkWaits rd) || c.writeWaits true loc n then .stall c.st
    else .done (c.act.foldl (c.scAt loc) s)

/-! ### Fences (R220) -/

/-- A store, atomic, remote access or local load of the lane is not complete, or a dropped write not yet reported (R220, R221,
R225, R278). A multicast is an access of member 0 (R202). -/
def State.unfenced (s : State) (o : Owner) : Bool :=
  s.held.any (fun h => decide (h.own = o)) || s.late.any (fun h => decide (h.own = o)) || s.remotes.any (fun r => decide (r.own = o))
    || s.drops.any (fun d => decide (d.own = o))
    || s.outs.any fun x => decide (x.own = o) && (x.mc.isNone || ((s.placeOfOwner o).bind s.block?).any fun b => decide (b.member = 0))

/-- The status of each active lane's interval, which then starts anew (R55). -/
def fenceBody (scope : Nat) (c : Ctx) (s : State) : Act :=
  if c.act.any fun l => c.st.unfenced (c.own l) || c.pair.captured l then .stall c.st
  else
    let word (l : Nat) := fenceWord (smGet {} c.pair.fences l) scope
    let s := s.mapPair c.place c.group fun p =>
      c.act.foldl (fun p l => { p with fencestat := smSet 0xf0 p.fencestat l (word l), fences := smErase p.fences l }) p
    if c.f.nr then .done s else .done (c.writeAll false (fun l => (word l).zeroExtend 64) s)

/-! ### Meanings -/

def execSt (f : Ext) (s : State) : Host.Outcome State Fault Refusal := issue (.st f) (storeBody false) s
def execStY (f : Ext) (s : State) : Host.Outcome State Fault Refusal := issue (.stY f) (storeBody false) s
def execStSp (f : Ext) (s : State) : Host.Outcome State Fault Refusal := issue (.stSp f) (storeBody true) s
def execAtom (op : AtomOp) (f : Ext) (s : State) : Host.Outcome State Fault Refusal := issue (.atom op f) (atomBody (some op)) s
def execAtomCas (f : Ext) (s : State) : Host.Outcome State Fault Refusal := issue (.atomCas f) (atomBody none) s
def execLr (f : Ext) (s : State) : Host.Outcome State Fault Refusal :=
  issue (.lr f) (fun c s => regRead c.f.sp false (reserve c) c s) s
def execSc (f : Ext) (s : State) : Host.Outcome State Fault Refusal := issue (.sc f) scBody s
def execFence (scope : Scope) (f : Ext) (s : State) : Host.Outcome State Fault Refusal :=
  issue (.fence scope f) (fenceBody (scopeCode scope)) s

/-- STORE_DATA_TAKE (R206). -/
def execStoreDataTake (core slot group lane : Nat) (s : State) : Host.Outcome State Fault Refusal :=
  .next (s.takeData (placeOf core slot) group lane)

end Sys2Proof.Machine
end

