-- ==== Sys2Proof/Machine/Barrier.lean ====
section
/-! DEFINITION. The barrier instructions (R224 to R229, R283, R284). -/

namespace Sys2Proof.Machine
open Sys2Proof

/-- CLASS of a progress class (R224). -/
def clsCode : Cls → Nat
  | .weak => 0 | .parallel => 1 | .concurrent => 2

/-- `wait_ok` of R284. -/
def waitOk (b : Block) (w : BarWord) (serial : Option Nat) : Bool :=
  let cls := b.kernel.decl.cls
  let lo : Int := (b.start : Int) - b.member
  let hi : Int := lo + b.t - 1
  if serial ≠ some b.serial then decide (cls ≠ .weak ∧ w.cls ≠ 0)
  else if lo ≤ (w.sinit : Int) ∧ (w.sinit : Int) ≤ hi then true
  else match cls with
    | .concurrent => true
    | .parallel => decide (w.sinit < b.start)
    | .weak => false

/-- What a barrier instruction knows of each active lane: the word's location. -/
abbrev Locs := Nat → Option Loc

def Ctx.barLocs (c : Ctx) : Locs := c.loc c.f.sp (c.xlates true true) 8

def Ctx.wordOf (c : Ctx) (loc : Locs) (l : Nat) : BarWord := ((loc l).map c.st.barAt).getD {}
def Ctx.tagOf (c : Ctx) (loc : Locs) (l : Nat) : Option Nat := (loc l).bind c.st.tagAt

def liveCheck (c : Ctx) (loc : Locs) : Check :=
  (c.act.filter fun l => (c.tagOf loc l).isNone, fun l => { code := 0x08, addr := c.addr c.f.sp l })

def busyBarCheck (c : Ctx) (loc : Locs) : Check :=
  (c.act.filter fun l => (c.tagOf loc l).isSome && (match loc l with
    | some x => !(c.st.waiters x).isEmpty
    | none => false), fun l => { code := 0x09, addr := c.addr c.f.sp l })

def waitCheck (c : Ctx) (loc : Locs) : Check :=
  (c.act.filter fun l => !waitOk c.blk (c.wordOf loc l) (c.tagOf loc l),
   fun l => { code := 0x0a, addr := c.addr c.f.sp l
              aux0 := (c.wordOf loc l).cls + 4 * clsCode c.blk.kernel.decl.cls
                + (if c.tagOf loc l = some c.blk.serial then 16 else 0) + 2 ^ 8 * c.blk.start
              aux2 := BitVec.ofNat 64 (c.wordOf loc l).bits })

/-- A barrier instruction: the checks of R194 in order, the waits of its access, then its act in ascending lane order. -/
def barBody (own : Ctx → Locs → List Check) (range : Nat → Bool) (act : Ctx → Locs → State → Act) (c : Ctx) (s : State) : Act :=
  let xl := c.xlates true true
  match firstTrap [misalignedCheck c c.f.sp 8, scratchCheck c c.f.sp 8,
      bothChecks (fabricCheck c c.f.sp false) (operandCheck c 3 fun l => !range (c.word c.f.c l)), memoryCheck c c.f.sp xl] with
  | some t => .trap c.st t
  | none =>
    let loc := c.barLocs
    if (!c.f.sp && c.walkWaits xl) || c.writeWaits true loc 8 then .stall c.st
    else match firstTrap (own c loc) with
      | some t => .trap c.st t
      | none => act c loc s

/-- A barrier instruction of a lane meets an uncorrectable error in its word: it fails as an atomic does, with nothing done to the word
(R55, R197, R281; DESIGN CHOICE, log 83). -/
def Ctx.badWord (c : Ctx) (s : State) (l : Nat) (x : Loc) : State :=
  c.pendBad l (if c.f.nr then .drop else destOf c.f.dst) .b32 (c.addr c.f.sp l)
    ((s.fenceFail (c.own l) false false 15).meetErr c.core (c.own l) x 8 2)

/-- The act in each lane whose word has a location. -/
def eachWord (c : Ctx) (loc : Locs) (f : State → Nat → Loc → State) (s : State) : State :=
  c.act.foldl (fun s l => match loc l with
    | some x => if (s.errIn x 8).isSome then c.badWord s l x else f s l x
    | none => s) s

/-- A status word goes to the lane's destination, unless `.nr`. -/
def Ctx.giveStatus (c : Ctx) (s : State) (l : Nat) (v : Word) : State :=
  if c.f.nr then s else s.writeDst c.place c.group c.sl c.f.dst false l (v.zeroExtend 64)

def barInitAct (c : Ctx) (loc : Locs) (s : State) : Act :=
  .done (eachWord c loc (fun s l x =>
    let k := c.word c.f.c l
    if k = 0 then s.clearTag x
    else
      (s.putBar (some c.core) x
        { expect := k, cls := clsCode c.blk.kernel.decl.cls, gen := (s.barAt x).gen + 1, sinit := c.blk.start }).setTag x c.blk.serial) s)

def barArriveAct (c : Ctx) (loc : Locs) (s : State) : Act :=
  .done (eachWord c loc (fun s l x =>
    let s := s.arriveAt (some c.core) x (c.word c.f.c l)
    c.giveStatus s l (s.barAt x).status) s)

def barWaitAct (c : Ctx) (loc : Locs) (s : State) : Act :=
  .done (eachWord c loc (fun s l x =>
    let w := s.barAt x
    let ph := (c.word c.f.c l).testBit 0
    let s := s.touchRead c.core c.blk.part x
    if w.inval || w.phase != ph then c.giveStatus s l w.status
    else c.blockLane l c.f.nr (.barrier (c.addr c.f.sp l) x w.gen ph) s) s)

def barInvalAct (c : Ctx) (loc : Locs) (s : State) : Act :=
  .done (eachWord c loc (fun s _ x =>
    let w := s.barAt x
    if w.inval then s
    else
      let w' : BarWord := { w with inval := true, arrived := 0, gen := w.gen + 1 }
      (s.putBar (some c.core) x w').releaseWaiters x w'.status) s)

def barTestAct (c : Ctx) (loc : Locs) (s : State) : Act :=
  let p (l : Nat) : Bool :=
    let w := c.wordOf loc l
    if (loc l).any fun x => (c.st.errIn x 8).isSome then (Config.freeWord (c.st.fresh + l)).getLsbD 0
    else w.inval || w.phase != (c.word c.f.c l).testBit 0
  .done (eachWord c loc (fun s _ x => s.touchRead c.core c.blk.part x) (c.writePred p s))

/-- The test of a waiter that becomes resident again (R229): released with INVAL when the word changed under it, released
by R226, or blocked as before. It is also what the issue of a `bar.wait` after a watchdog trap does (R292; DEDUCED, log 84). -/
def State.retest (s : State) (place g l : Nat) : State :=
  match ((s.pair place g).acc.lane l).wait with
  | .barrier a x gen ph k =>
    let w := s.barAt x
    if (s.tagAt x).isNone ∨ w.gen ≠ gen then s.endWait place g .access l k (w.status ||| 2)
    else if w.inval || w.phase != ph then s.endWait place g .access l k w.status
    else s.mapLane place g .access l fun y => { y with wait := .barrier a x gen ph { k with left := false } }
  | _ => s

def execBarInit (f : Ext) (s : State) : Host.Outcome State Fault Refusal :=
  issue (.barInit f) (barBody (fun c loc => [busyBarCheck c loc]) (fun k => decide (k ≤ 65535)) barInitAct) s
def execBarArrive (f : Ext) (s : State) : Host.Outcome State Fault Refusal :=
  issue (.barArrive f) (barBody (fun c loc => [liveCheck c loc]) (fun k => decide (1 ≤ k ∧ k ≤ 65535)) barArriveAct) s
def execBarWait (f : Ext) (s : State) : Host.Outcome State Fault Refusal :=
  issue (.barWait f) (barBody (fun c loc => [liveCheck c loc, waitCheck c loc]) (fun _ => true) barWaitAct) s
def execBarInval (f : Ext) (s : State) : Host.Outcome State Fault Refusal :=
  issue (.barInval f) (barBody (fun c loc => [liveCheck c loc]) (fun _ => true) barInvalAct) s
def execBarTest (f : Ext) (s : State) : Host.Outcome State Fault Refusal :=
  issue (.barTest f) (barBody (fun c loc => [liveCheck c loc]) (fun _ => true) barTestAct) s

end Sys2Proof.Machine
end

