-- ==== Sys2Proof/Machine/Convert.lean ====
section
/-! DEFINITION. Conversion, packing and the packed dot products (R141 to R145). -/

namespace Sys2Proof.Machine
open Sys2Proof

/-- The element type, the bits each element takes and the number of elements of a packed operand (R67, R142). -/
def packShape (t : Ty) : Ty × Nat × Nat :=
  match t with
  | .bf16x2 => (.bf16, 16, 2)
  | .f16x2 => (.f16, 16, 2)
  | .e2m1 | .ob4 => (t, 4, 4)
  | _ => (t, 8, 4)

/-- Element `k` of a packed value. -/
def packedAt (t : Ty) (v k : Nat) : Nat :=
  let (_, b, _) := packShape t
  v / 2 ^ (b * k) % 2 ^ b

/-- `cvt` (R141): the value of the source type converted by the action of R73. -/
def cvtBody (src : Ty) (c : Ctx) (s : State) : Act :=
  .done (c.writeAll (isWide c.f.ty)
    (fun l => BitVec.ofNat 64 (cvtVal src c.f.ty c.f.rnd c.f.sat c.f.fz (c.src src c.f.a l).toNat)) s)

/-- `pack` (R142): FP32 sources in the order SA, SB, SC, SD. -/
def packVal (c : Ctx) (l : Nat) : Nat :=
  let (e, b, n) := packShape c.f.ty
  (([c.f.a, c.f.b, c.f.c, c.f.d].take n).foldr
    (fun o r => cvtVal .f32 e c.f.rnd c.f.sat false (c.src .f32 o l).toNat + 2 ^ b * r) 0)

/-- `unpack` (R143): element b mod n as FP32. -/
def unpackVal (c : Ctx) (l : Nat) : Nat :=
  let (e, _, n) := packShape c.f.ty
  cvtVal e .f32 .rne false false (packedAt c.f.ty (c.word c.f.a l) (c.word c.f.b l % n))

/-- `dot2` (R144): one rounding of the exact sum of three terms. -/
def dot2Val (c : Ctx) (l : Nat) : Nat :=
  let F := fmtOf c.f.ty
  let p (k : Nat) := mulNum (decodeF F (packedAt c.f.ty (c.word c.f.a l) k)) (decodeF F (packedAt c.f.ty (c.word c.f.b l) k))
  let x := addNum c.f.rnd (addNum c.f.rnd (p 0) (p 1)) (decodeF fp32 (c.src .f32 c.f.c l).toNat)
  satIf c.f.sat fp32 (round fp32 c.f.rnd x)

/-- `dp4` (R145): the exact sum of four integer products and c, or the rounded sum of four exact products and c. -/
def dp4Val (c : Ctx) (l : Nat) : Nat :=
  let a := c.word c.f.a l
  let b := c.word c.f.b l
  if isIntTy c.f.ty then
    let t : Ty := if c.f.ty = .i8 then .i32 else .n32
    let el (v k : Nat) := readInt c.f.ty 8 (packedAt c.f.ty v k)
    let x := (List.range 4).foldl (fun x k => x + el a k * el b k) (readInt t 32 (c.src t c.f.c l).toNat)
    wrap 32 (if c.f.sat then clampInt t x else x)
  else
    let F := fmtOf c.f.ty
    let x := exactBlock ((List.range 4).map fun k => mulNum (decodeF F (packedAt c.f.ty a k)) (decodeF F (packedAt c.f.ty b k)))
    satIf c.f.sat fp32 (round fp32 c.f.rnd (addNum c.f.rnd x (decodeF fp32 (c.src .f32 c.f.c l).toNat)))

def execCvt (src : Ty) (f : Ext) (s : State) : Host.Outcome State Fault Refusal := issue (.cvt src f) (cvtBody src) s
def execPack (f : Ext) (s : State) : Host.Outcome State Fault Refusal := issue (.pack f) (wordBody packVal) s
def execUnpack (f : Ext) (s : State) : Host.Outcome State Fault Refusal := issue (.unpack f) (wordBody unpackVal) s
def execDot2 (f : Ext) (s : State) : Host.Outcome State Fault Refusal := issue (.dot2 f) (wordBody dot2Val) s
def execDp4 (f : Ext) (s : State) : Host.Outcome State Fault Refusal := issue (.dp4 f) (wordBody dp4Val) s

end Sys2Proof.Machine
end

