-- ==== Sys2Proof/Machine/Copy.lean ====
section
/-! DEFINITION. Copy channels (R230 to R234, R271) and collectives (R235 to R237, R272, R414, R415), with the steps of their engines. -/

namespace Sys2Proof.Machine
open Sys2Proof

/-! ### Copies: the checks of an issue (R230) -/

def Ctx.copyLen (c : Ctx) (l : Nat) : Nat := c.word c.f.c l

/-- The destination or source side of a copy is global. -/
def dstGlobal (f : Ext) : Bool := decide (f.dir = 1)
def srcGlobal (f : Ext) : Bool := decide (f.dir = 0)

def Ctx.copyDst (c : Ctx) (l : Nat) : DWord := if dstGlobal c.f then c.src .b64 c.f.a l else c.src .b32 c.f.a l
def Ctx.copySrc (c : Ctx) (l : Nat) : DWord := if srcGlobal c.f then c.src .b64 c.f.b l else c.src .b32 c.f.b l
def Ctx.copyBar (c : Ctx) (l : Nat) : Word := lo32 (c.src .b32 c.f.d l)

/-- The global side of a copy, if it has one. -/
def Ctx.copyGlobal (c : Ctx) (l : Nat) : Option DWord :=
  if dstGlobal c.f then some (c.copyDst l) else if srcGlobal c.f then some (c.copySrc l) else none

def Ctx.copyXl (c : Ctx) (l : Nat) : Xl :=
  match c.copyGlobal l with
  | some a => c.st.translate c.tctx (srcGlobal c.f) (dstGlobal c.f) a
  | none => .ok {}

/-- The first address of a list that satisfies a test. -/
def firstAddr (as : List DWord) (bad : DWord → Bool) : DWord := (as.find? bad).getD 0

def copyMisaligned (c : Ctx) : Check :=
  let bad (l : Nat) : Option DWord :=
    if !aligned (c.copyDst l).toNat 4 then some (c.copyDst l)
    else if !aligned (c.copySrc l).toNat 4 then some (c.copySrc l)
    else if c.f.bar && !aligned (c.copyBar l).toNat 8 then some ((c.copyBar l).zeroExtend 64)
    else none
  (c.act.filter fun l => (bad l).isSome, fun l => { code := 0x04, addr := (bad l).getD 0 })

def copyScratch (c : Ctx) : Check :=
  let bad (l : Nat) : Option Word :=
    if !dstGlobal c.f && (c.st.spTarget c.place (lo32 (c.copyDst l)) (c.copyLen l)).isNone then some (lo32 (c.copyDst l))
    else if !srcGlobal c.f && (c.st.spTarget c.place (lo32 (c.copySrc l)) (c.copyLen l)).isNone then some (lo32 (c.copySrc l))
    else if c.f.bar && (c.st.spTarget c.place (c.copyBar l) 8).isNone then some (c.copyBar l)
    else none
  (c.act.filter fun l => (bad l).isSome, fun l => { code := 0x05, aux0 := ((bad l).getD 0).toNat })

def lenBad (n : Nat) : Bool := decide (n % 4 ≠ 0 ∨ n < 4 ∨ 16777216 < n)

def copyOperand (c : Ctx) : Check :=
  let fab (l : Nat) : Bool := ((c.copyGlobal l).map inFabric).getD false
  (c.act.filter fun l => lenBad (c.copyLen l) || fab l,
   fun l => if lenBad (c.copyLen l) then { code := 0x06, aux0 := 3 }
     else { code := 0x06, addr := (c.copyGlobal l).getD 0, aux0 := if dstGlobal c.f then 1 else 2 })

def copyMemory (c : Ctx) : Check :=
  (c.act.filter fun l => (xlFault (c.copyXl l)).isSome,
   fun l => { code := 0x07, addr := (c.copyGlobal l).getD 0, aux0 := (xlFault (c.copyXl l)).getD 0 })

/-- The location of the copy's barrier word. -/
def Ctx.copyBarLoc (c : Ctx) (l : Nat) : Option Loc := (c.st.spTarget c.place (c.copyBar l) 8).map fun p => .sp p.1 p.2

def copyBarrier (c : Ctx) : Check :=
  (c.act.filter fun l => c.f.bar && ((c.copyBarLoc l).bind c.st.tagAt).isNone,
   fun l => { code := 0x08, addr := (c.copyBar l).zeroExtend 64 })

/-! ### Entry into a channel (R231) -/

/-- The copy that a lane asks for, as the issue has checked it. -/
def Ctx.copyReq (c : Ctx) (l : Nat) : CopyReq :=
  { lane := l, dst := c.copyDst l, src := c.copySrc l, len := c.copyLen l, ch := c.f.ch, dir := c.f.dir
    bar := if c.f.bar then some (c.copyBar l) else none
    hint := c.f.hint
    gpage := match c.copyGlobal l, c.copyXl l with
      | some _, .ok t => some t
      | _, _ => none
    pc := c.pc, pops := popList (.copyAsync c.f) }

def Core.chan (k : Core) (ch : Nat) : List Copy := smGet [] k.chans ch
def Core.setChan (k : Core) (ch : Nat) (l : List Copy) : Core := { k with chans := smSet [] k.chans ch l }

/-- How many more copies a channel of a core has room for (R231): those of halted blocks keep none (R238). -/
def State.chanFree (s : State) (core ch : Nat) : Nat := 32 - (((s.core core).chan ch).filter fun k => !s.frozen k.own).length
def State.chanRoom (s : State) (core ch : Nat) : Bool := decide (0 < s.chanFree core ch)

/-- GEN of the word at a scratchpad address of a block (R224). -/
def State.genAt (s : State) (place : Nat) (a : Word) : Nat :=
  ((s.spTarget place a 8).map fun p => (s.barAt (.sp p.1 p.2)).gen).getD 0

/-- A copy enters its channel: it counts as issued now, with its barrier's GEN as it is now (R231, R298). -/
def State.enterCopy (s : State) (place : Nat) (o : Owner) (r : CopyReq) : State :=
  let k : Copy := { id := s.fresh, own := o, dst := r.dst, src := r.src, left := r.len, ch := r.ch, dir := r.dir,
                    bar := r.bar.map fun a => (a, s.genAt place a), hint := r.hint, gpage := r.gpage }
  { s.mapCore (coreOf place) fun x => x.setChan r.ch (x.chan r.ch ++ [k]) with fresh := s.fresh + 1 }

/-- The elements that a late copy's lane pops. -/
def Pair.popLate (p : Pair) (r : CopyReq) : Pair := r.pops.foldl (fun p q => p.setQueue q.1 r.lane ((p.queue q.1 r.lane).drop q.2)) p

/-- The waiting copies of a pair that entered before a request that must wait; the lanes of a `copy.async` whose last copy
has entered go on. -/
def State.enterNext (s : State) (place g : Nat) : State :=
  match s.block? place with
  | none => s
  | some b =>
    let p := b.pair g
    match p.entering.find? fun r => s.chanRoom (coreOf place) r.ch with
    | none => s
    | some r =>
      let len := match (p.acc.lane r.lane).wait with
        | .entering n => n
        | _ => 0
      let s := s.enterCopy place (b.owner g r.lane) r
      let s := s.mapPair place g fun p => { p.popLate r with entering := p.entering.erase r }
      let s := s.mapLane place g .access r.lane fun x => { x with pc := x.pc + BitVec.ofNat 32 len }
      if (s.pair place g).entering.any fun x => decide (x.pc = r.pc) then s
      else
        s.mapHalf place g .access fun h => (List.range b.w).foldl (fun h l =>
          if (h.lane l).wait = .entering len ∧ (h.lane l).pc = r.pc + BitVec.ofNat 32 len then
            h.setLane l { h.lane l with wait := .none }
          else h) h

/-- How many copies of an issue may enter at once: none while earlier copies of the pair wait for the channel. -/
def Ctx.enterFree (c : Ctx) (s : State) : Nat :=
  if (s.pair c.place c.group).entering.any fun r => decide (r.ch = c.f.ch) then 0 else s.chanFree c.core c.f.ch

/-- The lanes of an issue enter one by one while the channel has room; the issuing path waits until the last has entered. A lane
whose copy is still to enter has yet to complete the instruction, its pops included (R231). -/
def Ctx.enterAll (c : Ctx) (s : State) : State :=
  let reqs := c.act.map c.copyReq
  let free := c.enterFree s
  let s := (reqs.take free).foldl (fun s r => s.enterCopy c.place (c.own r.lane) r) s
  match reqs.drop free with
  | [] => s
  | late =>
    let unpop (p : Pair) (r : CopyReq) : Pair := r.pops.foldl (fun p q => p.setQueue q.1 r.lane (c.pair.queue q.1 r.lane)) p
    (s.mapPair c.place c.group fun p => { late.foldl unpop p with entering := p.entering ++ late }).mapHalf c.place c.group c.sl fun h =>
      let h := c.path.foldl (fun h l => h.setLane l { h.lane l with wait := .entering c.len }) h
      late.foldl (fun h r => h.setLane r.lane { h.lane r.lane with pc := c.pc }) h

/-- A lane of the issue holds a store that waits for data, or an acquire (R222, R296). -/
def Ctx.engineWaits (c : Ctx) : Bool :=
  c.act.any fun l => decide (c.st.waitingStores (c.own l) ≠ 0) || c.st.acquiring (c.own l)

def copyBody (c : Ctx) (s : State) : Act :=
  match firstTrap [copyMisaligned c, copyScratch c, copyOperand c, copyMemory c, copyBarrier c] with
  | some t => .trap c.st t
  | none =>
    if c.engineWaits || (c.act.any fun l => (c.copyXl l).waits) || (decide (c.act ≠ []) && decide (c.enterFree c.st = 0)) then .stall c.st
    else .done (c.enterAll s)

/-! ### The channel's work (R231 to R233) -/

/-- FAULT, MCHK, BARDROP, BARSTORE of a channel's status (R233). -/
def stFault : Word := 1
def stMchk : Word := 2
def stBarDrop : Word := 4
def stBarStore : Word := 8

/-- `%wpN` advances (R52), and the lanes whose `copy.wait` it satisfies go on (R234). -/
def Block.wpAt (b : Block) (ch : Nat) : Word := smGet 0 b.wp ch

/-- The wait of `copy.wait` is over (R234). -/
def reached (wp v : Word) : Bool := decide (0 ≤ (wp - v).toInt)

def State.wakeCopies (s : State) (place ch : Nat) : State :=
  match s.block? place with
  | none => s
  | some b =>
    let st := smGet 0 b.chstat ch
    (b.pairs.flatMap fun q => q.2.acc.lanes.filterMap fun x =>
      match x.2.wait with
      | .copy n v k => if n = ch ∧ reached (b.wpAt ch) v ∧ q.2.run.isStopped = false then some (q.1, x.1, k) else none
      | _ => none).foldl (fun s w => s.endWait place w.1 .access w.2.1 w.2.2 st) s

def State.advanceWp (s : State) (place ch n : Nat) : State :=
  (s.mapBlock place fun b => { b with wp := smSet 0 b.wp ch (b.wpAt ch + BitVec.ofNat 32 n) }).wakeCopies place ch

/-! #### One line of an engine's operation -/

/-- Bytes from an address to the end of its 128-byte line. -/
def toLineEnd (a : Nat) : Nat := 128 - a % 128

/-- What an engine finds at an address: a location to read or write, with the translation of its page, a wait, or the end of the
operation, with the cause of R212 and the word of an uncorrectable error. -/
inductive Reach
  | at_ (l : Loc) (t : Option Tlb)
  | wait
  | stop (cause : Nat) (err : Option Nat)

/-- `n` bytes of a line under an operation's number: they wait for a held store and for an earlier operation that owns the line; a
write also for a store held on its line from before (R231, R270, R296). `rest` bytes, those left of the operation in the page, are
free of uncorrectable errors (R232). -/
def State.lineReach (s : State) (id : Nat) (wr : Bool) (l : Loc) (n rest : Nat) (t : Option Tlb) : Reach :=
  match s.errIn l rest with
  | some pa => .stop 4 (some pa)
  | none =>
    if s.heldOver l n || (wr && s.keptFrom id (lineOf l)) || s.ownedOver (some id) l n then .wait else .at_ l t

/-- `n` bytes at a global address, under the translation that the operation has of the page. A range that runs into the fabric
window after its first page ends the operation, as a fault does: the spec checks the window at issue only (DESIGN CHOICE, log 79). -/
def State.globReach (s : State) (id : Nat) (wr : Bool) (va : DWord) (n rest : Nat) (xl : Xl) : Reach :=
  match xl with
  | .fault f => .stop f none
  | .wait => .wait
  | .ok t =>
    if t.remote then .stop 8 none
    else s.lineReach id wr (.glob (t.addr va)) n (Nat.min rest (2 ^ t.shift - va.toNat % 2 ^ t.shift)) (some t)

/-- An engine that has met an uncorrectable error reports it, be it of data or of a walk (R281, R384). -/
def State.engineErr (s : State) (core : Nat) (own : Owner) (root : Nat) (va : DWord) (cause : Nat) (err : Option Nat) : State :=
  match err with
  | some pa => s.addMc core own (BitVec.ofNat 64 pa) 3
  | none => s.meetWalkErr core own root va cause

/-! #### The copy that a channel performs -/

/-- The copy that a channel performs: the first whose block is not halted (R231, R238). -/
def State.chanHead (s : State) (core ch : Nat) : Option Copy := ((s.core core).chan ch).find? fun k => !s.frozen k.own

/-- A copy in a channel is changed. -/
def State.setCopy (s : State) (core : Nat) (k : Copy) : State :=
  s.mapCore core fun x => x.setChan k.ch ((x.chan k.ch).map fun y => if y.id = k.id then k else y)

/-- `n` bytes of a line on one side of a copy. A peer whose block has ended stops the copy: the model's choice (DESIGN CHOICE,
log 63). -/
def State.copyReach (s : State) (k : Copy) (place : Nat) (wr : Bool) (a : DWord) (n rest : Nat) : Reach :=
  if decide (k.dir = (if wr then 1 else 0)) then s.globReach k.id wr a n rest (s.copyXlate k wr a)
  else match s.spTarget place (lo32 a) n with
    | some p => s.lineReach k.id wr (.sp p.1 p.2) n n k.gpage
    | none => .stop 0 none

/-- The status word of a channel once a copy has set bits (R233): COUNT rises with the first bit that a copy sets. -/
def chanStatus (old add : Word) (first : Bool) : Word :=
  let n := if first then Nat.min (old.toNat / 2 ^ 16 + 1) 0xffff else old.toNat / 2 ^ 16
  BitVec.ofNat 32 ((old ||| add).toNat % 2 ^ 16 + n * 2 ^ 16)

/-- A copy sets bits of its channel's status at once (R233). -/
def State.markCopy (s : State) (core : Nat) (k : Copy) (add : Word) : State :=
  let s := s.setCopy core { k with stat := k.stat ||| add }
  match s.placeOfOwner k.own with
  | none => s
  | some place => s.mapBlock place fun b =>
      { b with chstat := smSet 0 b.chstat k.ch (chanStatus (smGet 0 b.chstat k.ch) add (decide (k.stat = 0))) }

/-- A copy stops at a page (R232): the page is requested, and the status takes MCHK for an uncorrectable error, otherwise FAULT. -/
def State.stopCopy (s : State) (core : Nat) (k : Copy) (wr : Bool) (va : DWord) (cause : Nat) (err : Option Nat) : State :=
  let s := match s.ctxOf k.own with
    | some c => (s.adviseFault c k.own.serial va cause (if wr then 1 else 0) 3).engineErr core k.own c.root va cause err
    | none => s
  s.markCopy core { k with stopped := true } (if cause = 4 then stMchk else stFault)

/-- How a reading of source lines ends. -/
inductive Got
  | full
  | wait
  | stop (a : DWord) (cause : Nat) (err : Option Nat)

/-- Source lines are read, each at one instant, until `n` bytes are ahead of the write; two lines are enough (R231, R271). -/
def State.copyRead (s : State) (core place n : Nat) : Nat → Copy → State × Copy × Got
  | 0, k => (s, k, .full)
  | fuel + 1, k =>
    if n ≤ k.ahead.length then (s, k, .full)
    else
      let a := k.src + BitVec.ofNat 64 k.ahead.length
      let rest := k.left - k.ahead.length
      let m := Nat.min rest (toLineEnd a.toNat)
      match s.copyReach k place false a m rest with
      | .stop f e => (s, k, .stop a f e)
      | .wait => (s, k, .wait)
      | .at_ l t =>
        (s.touchRead core k.own.part l).copyRead core place n fuel { k with ahead := k.ahead ++ s.bytesAt l m, gpage := t }

/-- Bytes of a copy are delivered: one write, the rest of the copy, and the write pointer (R52, R231). -/
def State.copyPut (s : State) (core place : Nat) (k : Copy) (l : Loc) (bs : List Byte) : State × Copy :=
  let n := bs.length
  let q := s.storeEngine (some core) l bs
  let k' : Copy := { k with dst := k.dst + BitVec.ofNat 64 n, src := k.src + BitVec.ofNat 64 n, left := k.left - n, ahead := k.ahead.drop n }
  let s := if q.2 then q.1.markCopy core k' stBarStore else q.1.setCopy core k'
  ((s.mapBlock place fun b => { b with copied := k.ch :: b.copied }).advanceWp place k.ch n,
   if q.2 then { k' with stat := k'.stat ||| stBarStore } else k')

/-- COPY_LINE_WRITE (R231, R271): the copy that a channel performs writes what it has of one destination line, once, from source
lines read as it goes. It waits for held stores and for lines that an earlier operation owns (R270, R296). At a page that faults it
stops, what comes before that page delivered (R232). -/
def State.copyLine (s : State) (core ch : Nat) : State :=
  match s.chanHead core ch with
  | none => s
  | some k =>
    match s.placeOfOwner k.own with
    | none => s
    | some place =>
      if k.stopped || decide (k.left = 0) then s
      else
        let n := Nat.min k.left (toLineEnd k.dst.toNat)
        match s.copyReach k place true k.dst n k.left with
        | .stop f e => s.stopCopy core k true k.dst f e
        | .wait => s
        | .at_ l t =>
          let r := s.copyRead core place n 2 { k with gpage := t }
          match r.2.2 with
          | .wait => s
          | .full => (r.1.copyPut core place r.2.1 l (r.2.1.ahead.take n)).1
          | .stop a f e =>
            if r.2.1.ahead = [] then r.1.stopCopy core r.2.1 false a f e
            else
              let q := r.1.copyPut core place r.2.1 l r.2.1.ahead
              q.1.stopCopy core q.2 false a f e

/-- The barrier word of a copy's arrival is held by a store, or on a line that an earlier operation owns (R270, R296). -/
def State.arrivalWaits (s : State) (k : Copy) (place : Nat) : Bool :=
  match k.bar with
  | none => false
  | some (a, _) => match s.spTarget place a 8 with
    | some p => s.heldOver (.sp p.1 p.2) 8 || s.ownedOver (some k.id) (.sp p.1 p.2) 8
    | none => false

/-- The held stores that a line of an engine's operation waits for (R296). -/
def State.heldFor (s : State) (id : Nat) (wr : Bool) (l : Loc) (n : Nat) : List Held :=
  s.held.filter fun h => !h.remote && (overlap h.loc h.n l n || (wr && decide (h.id < id) && overlap h.loc h.n (lineOf l) 128))

/-- The held stores over bytes of a line on one side of a copy. -/
def State.sideHeld (s : State) (k : Copy) (place : Nat) (wr : Bool) (a : DWord) (n : Nat) : List Held :=
  if decide (k.dir = (if wr then 1 else 0)) then match s.copyXlate k wr a with
    | .ok t => if t.remote then [] else s.heldFor k.id wr (.glob (t.addr a)) n
    | _ => []
  else match s.spTarget place (lo32 a) n with
    | some p => s.heldFor k.id wr (.sp p.1 p.2) n
    | none => []

/-- The held stores that the copy of a channel waits for (R296): over the destination line that it has come to and the source bytes
that it still needs for it, or over the word of its arrival. -/
def State.copyHeld (s : State) (core ch : Nat) : List Held :=
  match s.chanHead core ch with
  | none => []
  | some k => match s.placeOfOwner k.own with
    | none => []
    | some place =>
      if k.stopped || decide (k.left = 0) then
        match k.bar.bind fun b => s.spTarget place b.1 8 with
        | some p => s.heldFor k.id false (.sp p.1 p.2) 8
        | none => []
      else
        let n := Nat.min k.left (toLineEnd k.dst.toNat)
        let at_ (off : Nat) : DWord := k.src + BitVec.ofNat 64 off
        let m (off : Nat) : Nat := Nat.min (k.left - off) (toLineEnd (at_ off).toNat)
        let read (off : Nat) : List Held := if off < n then s.sideHeld k place false (at_ off) (m off) else []
        let a := k.ahead.length
        s.sideHeld k place true k.dst n ++ read a ++ read (a + m a)

/-- COPY_COMPLETE (R231 to R233): a finished or stopped copy makes its arrival, leaves its status, advances the write pointer
by what it did not write, and leaves the channel. -/
def State.copyEnd (s : State) (core ch : Nat) : State :=
  match s.chanHead core ch with
  | none => s
  | some k =>
    match s.placeOfOwner k.own with
    | none => s
    | some place =>
      if (!k.stopped && decide (k.left ≠ 0)) || s.arrivalWaits k place then s
      else
        let q := match k.bar with
          | none => (s, true)
          | some (a, gen) => match s.spTarget place a 8 with
            | some p =>
              if (s.errIn (.sp p.1 p.2) 8).isSome then (s.meetErr core k.own (.sp p.1 p.2) 8 3, false)
              else s.engineArrive (some core) (.sp p.1 p.2) (some gen)
            | none => (s, false)
        let s := if q.2 then q.1 else q.1.markCopy core k stBarDrop
        (s.mapCore core fun x => x.setChan ch ((x.chan ch).filter fun y => decide (y.id ≠ k.id))).advanceWp place ch k.left

/-! ### `copy.wait` (R234) -/

def copyWaitBody (c : Ctx) (s : State) : Act :=
  match firstTrap [operandCheck c 1 fun l => decide (7 < c.word c.f.a l)] with
  | some t => .trap c.st t
  | none =>
    .done (c.act.foldl (fun s l =>
      let ch := c.word c.f.a l
      let v := lo32 (c.src .b32 c.f.b l)
      if reached (c.blk.wpAt ch) v then
        s.writeDst c.place c.group c.sl c.f.dst false l ((smGet 0 c.blk.chstat ch).zeroExtend 64)
      else c.blockLane l false (.copy ch v) s) s)

/-! ### Collectives: the checks of an issue (R235, R414) -/

def collTypes : List Ty := [.f64, .f32, .bf16, .f16, .i32, .n32, .i64, .n64]

/-- No BAR or STATUS. -/
def noAddr (w : Nat) : Bool := decide (w = 0xffffffff)

/-- Where a partition's communicator entry lies; none where the table does not reach it, V = 0 (R414), or a reserved field is set
(R4; DEDUCED, log 71). -/
def State.commEntry (s : State) (part c : Nat) : Option Nat :=
  let base := (s.sysreg part 0x022).toNat
  let n := (s.sysreg part 0x023).toNat % 2 ^ 13
  if base % 4096 = 0 ∧ c < n ∧ partOwns (s.partRec part) base (32 * n) ∧ s.mem.readNat (base + 32 * c) 2 = 1
      ∧ s.mem.readNat (base + 32 * c + 12) 4 = 0 ∧ s.mem.readNat (base + 32 * c + 24) 8 = 0 then some (base + 32 * c)
  else none

/-- Bytes of device memory that a store holds, or on a line that an engine owns: a read of them waits (R265, R270). -/
def State.keptAt (s : State) (pa n : Nat) : Bool := s.heldOver (.glob pa) n || s.ownedOver none (.glob pa) n

/-- An entry of the participant list, at its virtual address in the issuing block's context; none where its page faults or an
uncorrectable error has reached it, so that the communicator is not configured: the model's choice (DESIGN CHOICE, log 81). -/
def State.virtNat (s : State) (c : TCtx) (va : DWord) (n : Nat) : Option Nat :=
  match s.translate c true false va with
  | .ok t => if t.remote ∨ (s.errIn (.glob (t.addr va)) n).isSome then none else some (s.mem.readNat (t.addr va) n)
  | _ => none

/-- The read of an entry of the list must wait: for a table entry or for its own bytes. -/
def State.virtWaits (s : State) (c : TCtx) (va : DWord) (n : Nat) : Bool :=
  match s.translate c true false va with
  | .ok t => !t.remote && s.keptAt (t.addr va) n
  | .wait => true
  | .fault _ => false

/-- RANK and the participants of a communicator that this block belongs to; none where R414 refuses it. -/
def Ctx.comm (c : Ctx) (i : Nat) : Option (Nat × List (Nat × Nat)) :=
  match c.st.commEntry c.blk.part i with
  | none => none
  | some a =>
    let rd (off k : Nat) := c.st.mem.readNat (a + off) k
    let p := rd 2 2
    let rank := rd 4 2
    let list := BitVec.ofNat 64 (rd 16 8)
    if rd 6 3 = c.blk.serial ∧ rd 9 3 = c.blk.block ∧ rank < p ∧ aligned list.toNat 8 then
      let entries := (List.range p).map fun q =>
        (c.st.virtNat c.tctx (list + BitVec.ofNat 64 (8 * q)) 8).bind fun v =>
          if v / 2 ^ 12 % 2 ^ 4 = 0 ∧ v / 2 ^ 28 = 0 then some (v % 2 ^ 12, v / 2 ^ 16 % 2 ^ 12) else none
      if entries.all Option.isSome then
        let es := entries.map fun e => e.getD (0, 0)
        if es.getD rank (0, 0) = (0xfff, i) then some (rank, es) else none
      else none
    else none

/-- The addresses of the entries of a communicator's list. -/
def State.commList (s : State) (a : Nat) : List DWord :=
  (List.range (s.mem.readNat (a + 2) 2)).map fun q => BitVec.ofNat 64 (s.mem.readNat (a + 16) 8) + BitVec.ofNat 64 (8 * q)

/-- The communicator's entry, or its list, cannot be read yet. -/
def Ctx.commWaits (c : Ctx) (i : Nat) : Bool :=
  let base := (c.st.sysreg c.blk.part 0x022).toNat
  decide (i < (c.st.sysreg c.blk.part 0x023).toNat % 2 ^ 13) && (c.st.keptAt (base + 32 * i) 32
    || (c.st.commEntry c.blk.part i).any fun a => (c.st.commList a).any fun va => c.st.virtWaits c.tctx va 8)

/-- The command that eight words describe. -/
def Ctx.collOf (c : Ctx) (gather : Bool) : Coll :=
  let w := c.descWords
  let ty := (tyOfCode (wordAt w 5 % 2 ^ 6)).getD .none
  let cm := c.comm (wordAt w 5 / 2 ^ 16)
  { core := c.core, own := c.own (c.act.headD 0), asid := c.blk.asid, root := c.blk.root,
    user := decide (c.blk.kernel.mode = .user), fw := decide (c.blk.kernel.mode = .firmware), gather, src := BitVec.ofNat 64 (dwordAt w 0),
    dst := BitVec.ofNat 64 (dwordAt w 2), count := wordAt w 4, ty, op := wordAt w 5 / 2 ^ 6 % 2 ^ 3,
    comm := wordAt w 5 / 2 ^ 16, rank := (cm.map (·.1)).getD 0, peers := (cm.map (·.2)).getD [],
    bar := w.getD 6 0, stat := w.getD 7 0, accepted := c.st.clk }

/-- The words of the command break R235. -/
def Ctx.collForm (c : Ctx) (gather : Bool) : Bool :=
  let w := c.descWords
  let k := c.collOf gather
  decide (wordAt w 5 / 2 ^ 9 % 2 ^ 7 ≠ 0) || decide (k.ty ∉ collTypes) || decide ((if gather then 0 else 2) < k.op)
    || decide (k.count < 1 ∨ 2 ^ 28 < k.count)
    || !aligned k.src.toNat (accBytes k.ty) || !aligned k.dst.toNat (accBytes k.ty)
    || (!noAddr k.bar.toNat && !aligned k.bar.toNat 8) || (!noAddr k.stat.toNat && !aligned k.stat.toNat 4)
    || inFabric k.src || inFabric k.dst

/-- The command breaks R235, or its communicator is not configured for the launch (R414). -/
def Ctx.collBad (c : Ctx) (gather : Bool) : Bool := c.collForm gather || (c.comm (c.collOf gather).comm).isNone

def collScratch (c : Ctx) : Check :=
  let w := c.descWords
  let out (k n : Nat) : Bool := !noAddr (wordAt w k) && (c.st.spTarget c.place (w.getD k 0) n).isNone
  (c.act.filter fun _ => out 6 8 || out 7 4,
   fun _ => { code := 0x05, aux0 := if out 6 8 then wordAt w 6 else wordAt w 7 })

/-- Key of a participant's count of commands on a communicator: the participant is a block, and the count begins with it (R236). -/
def Block.collKey (b : Block) (comm : Nat) : Nat := ((b.part * 2 ^ 24 + b.serial) * 2 ^ 24 + b.block) * 2 ^ 16 + comm

/-- The collective on this device that a command joins: one of its number and communicator that has no command of its rank yet. -/
def State.collTeam (s : State) (k : Coll) : Option Nat :=
  (s.colls.find? fun x => decide (x.own.part = k.own.part ∧ x.seq = k.seq ∧ x.rank ≠ k.rank
      ∧ x.peers.getD k.rank (0, 0) = (0xfff, k.comm) ∧ k.peers.getD x.rank (0, 0) = (0xfff, x.comm))
    && s.colls.all fun y => decide (y.team ≠ x.team ∨ y.rank ≠ k.rank)).map (·.team)

/-- A command enters the engine: the next of its participant on COMM (R236), with its barrier's GEN (R237). -/
def Ctx.collEnter (c : Ctx) (k : Coll) (s : State) : State :=
  let key := c.blk.collKey k.comm
  let k := { k with id := s.fresh, seq := smGet 0 s.collSeqs key,
                    gen := if noAddr k.bar.toNat then 0 else c.st.genAt c.place k.bar }
  { s with colls := s.colls ++ [{ k with team := (s.collTeam k).getD s.fresh }]
           collSeqs := smPut s.collSeqs key (k.seq + 1), fresh := s.fresh + 1 }

/-- The engine of the core holds 16 commands that have not ended (R235). -/
def State.collFull (s : State) (core : Nat) : Bool :=
  decide (16 ≤ (s.colls.filter fun k => decide (k.core = core ∧ k.result = none)).length)

/-- `coll.rs` and `coll.ag` (R235): one command per issue with active lanes. -/
def collBody (gather : Bool) (c : Ctx) (s : State) : Act :=
  match c.act with
  | [] => .done s
  | _ =>
    if !c.collForm gather && (collScratch c).1 = [] && c.commWaits (wordAt c.descWords 5 / 2 ^ 16) then .stall c.st
    else match firstTrap [collScratch c, operandCheck c 1 fun _ => c.collBad gather] with
    | some t => .trap c.st t
    | none =>
      if c.engineWaits || c.st.collFull c.core then .stall c.st
      else
        .done (c.collEnter (c.collOf gather) s)

/-! ### The collective engine (R236, R237, R415) -/

/-- Elements of a participant's SRC. -/
def Coll.srcBytes (k : Coll) : Nat := k.count * accBytes k.ty * (if k.gather then 1 else k.peers.length)

/-- What a participant contributes, from this device or from outside; one that refuses, with the port of its link. -/
structure Part where
  gather : Bool
  count : Nat
  ty : Nat
  op : Nat
  data : List Byte
  refused : Option Nat

/-- The local command of a rank of the same collective. -/
def State.localColl (s : State) (k : Coll) (q : Nat) : Option Coll := s.colls.find? fun x => x.team = k.team ∧ x.rank = q

def State.contribution (s : State) (k : Coll) (cs : List Contribution) (q : Nat) : Option Part :=
  if (k.peers.getD q (0, 0)).1 = 0xfff then
    (s.localColl k q).bind fun x =>
      if x.got.length = x.srcBytes then
        some { gather := x.gather, count := x.count, ty := tyCode x.ty, op := x.op, data := x.got, refused := none }
      else none
  else (cs.find? fun x => x.rank = q).map fun x =>
    { gather := x.gather, count := x.count, ty := x.ty, op := x.op, data := x.data, refused := if x.refused then some x.port else none }

/-- An element of a contribution. -/
def elemAt (w : Nat) (bs : List Byte) (i : Nat) : Nat := leNat ((bs.drop (i * w)).take w)

/-- The output of a collective for its rank (R236). -/
def collResult (k : Coll) (ps : List Part) : List Byte :=
  let w := accBytes k.ty
  if k.gather then ps.flatMap fun p => (p.data ++ List.replicate (k.count * w) 0).take (k.count * w)
  else
    let op : RedOp := if k.op = 0 then .add else if k.op = 1 then .min else .max
    (List.range k.count).flatMap fun i =>
      leBytes w ((treeRoot 16 (combine op k.ty .rne) (ps.map fun p => some (elemAt w p.data (k.rank * k.count + i)))).getD 0)

/-- How a command ends (R237): `port` is that of the first failure, 15 for none. -/
structure CollEnd where
  dead : Bool := false
  refused : Bool := false
  fault : Bool := false
  mismatch : Bool := false
  port : Nat := 15

/-- The status word of R237. -/
def collStatus (e : CollEnd) (barstore : Bool) : Word :=
  BitVec.ofNat 32 (1 + (if e.dead then 2 else 0) + (if e.refused then 4 else 0) + (if e.fault then 8 else 0)
    + (if e.mismatch then 16 else 0) + (if barstore then 32 else 0) + e.port % 16 * 2 ^ 8)

def State.setColl (s : State) (k : Coll) : State := { s with colls := s.colls.map fun x => if x.id = k.id then k else x }

/-- A scratchpad word that a command names, if it names one. -/
def State.collWord (s : State) (place : Nat) (a : Word) (n : Nat) : Option Loc :=
  if noAddr a.toNat then none else (s.spTarget place a n).map fun p => .sp p.1 p.2

/-- Bytes that an agent other than an engine in turn must wait for: held, or on a line that an engine owns (R270). -/
def State.keptBytes (s : State) (l : Option Loc) (n : Nat) : Bool := l.any fun x => s.heldOver x n || s.ownedOver none x n

/-- STATUS and then the arrival of a command that has ended, once its block is there to take them (R237, R238). -/
def State.tellColl (s : State) (k : Coll) : State :=
  match k.result, s.placeOfOwner k.own with
  | some st, some place =>
    let stat := s.collWord place k.stat 4
    let bar := s.collWord place k.bar 8
    if k.told || s.frozen k.own || s.keptBytes stat 4 || s.keptBytes bar 8 then s
    else
      let s := s.setColl { k with told := true }
      let s := match stat with
        | some x => if (s.errIn x 4).isSome then s.meetErr (coreOf place) k.own x 4 3
          else (s.storeEngine (some (coreOf place)) x (leBytes 4 st.toNat)).1
        | none => s
      match bar with
      | some x => if (s.errIn x 8).isSome then s.meetErr (coreOf place) k.own x 8 3 else (s.engineArrive (some (coreOf place)) x (some k.gen)).1
      | none => s
  | _, _ => s

/-- Commands all of whose local participants have ended and been told leave the list. -/
def State.pruneColls (s : State) : State :=
  { s with colls := s.colls.filter fun k => !(k.told &&
      (List.range k.peers.length).all fun q => decide ((k.peers.getD q (0, 0)).1 ≠ 0xfff) ||
        (match s.localColl k q with
         | some x => x.result.isSome
         | none => true)) }

/-- Every command that has ended and whose block can take STATUS and the arrival is told. -/
def State.tellColls (s : State) : State :=
  if s.colls.any (fun k => k.result.isSome && !k.told) then (s.colls.foldl State.tellColl s).pruneColls else s

def State.endColl (s : State) (k : Coll) (e : CollEnd) : State :=
  let k' := { k with result := some (collStatus e k.store) }
  ((s.setColl k').tellColl k').pruneColls

/-- A command that meets a fault or an uncorrectable error ends with FAULT (R237). -/
def State.failColl (s : State) (k : Coll) (wr : Bool) (va : DWord) (cause : Nat) (err : Option Nat) : State :=
  ((s.adviseFault k.ctx k.own.serial va cause (if wr then 1 else 0) 4).engineErr k.core k.own k.root va cause err).endColl k { fault := true }

/-- The next line of SRC, or of DST, that the engine reaches for a command. -/
def State.collReach (s : State) (k : Coll) (wr : Bool) : DWord × Nat × Reach :=
  let at_ := if wr then k.put else k.got.length
  let va := (if wr then k.dst else k.src) + BitVec.ofNat 64 at_
  let rest := (if wr then k.dstBytes else k.srcBytes) - at_
  let n := Nat.min rest (toLineEnd va.toNat)
  (va, n, s.globReach k.id wr va n rest (s.collXlate k wr va))

/-- What a command does next: nothing while it waits for contributions or has ended, the next line of SRC, or of its output. -/
inductive CollWork
  | none
  | read
  | write (bs : List Byte)

def Coll.work (k : Coll) : CollWork :=
  if k.result.isSome then .none
  else if k.got.length < k.srcBytes then .read
  else match k.out with
    | some bs => .write bs
    | none => .none

/-- The held stores that a command waits for at the bytes it has reached, or over the words that it is to write once it has ended
(R296). -/
def State.collHeld (s : State) (k : Coll) : List Held :=
  let heldAt (wr : Bool) : List Held :=
    let at_ := if wr then k.put else k.got.length
    let va := (if wr then k.dst else k.src) + BitVec.ofNat 64 at_
    match s.collXlate k wr va with
    | .ok t => s.heldFor k.id wr (.glob (t.addr va)) (Nat.min ((if wr then k.dstBytes else k.srcBytes) - at_) (toLineEnd va.toNat))
    | _ => []
  match k.work with
  | .none =>
    if k.result.isNone || k.told then []
    else match s.placeOfOwner k.own with
      | none => []
      | some place => [(k.stat, 4), (k.bar, 8)].flatMap fun w => (s.collWord place w.1 w.2).elim [] fun l => s.heldFor k.id false l w.2
  | .read => heldAt false
  | .write _ => heldAt true

/-- The time for the contributions to a command is over (R415). -/
def State.collLate (s : State) (k : Coll) : Bool := decide (k.accepted + 2 ^ 27 ≤ s.clk)

/-- The output of a command once every contribution is there, or its end without one (R236, R237, R415): one that comes later than
2^27 clk after the command was accepted comes too late, and a refusal ends the command as soon as it is known. -/
def State.collResolve (s : State) (k : Coll) (cs : List Contribution) : State :=
  let all := (List.range k.peers.length).map (s.contribution k (if s.collLate k then [] else cs))
  let ps := all.filterMap fun x => x
  match ps.findSome? (·.refused) with
  | some port => s.endColl k { refused := true, port }
  | none =>
    if !all.all Option.isSome then (if s.collLate k then s.endColl k { dead := true } else s)
    else
      if ps.any fun p => decide (p.gather ≠ k.gather ∨ p.count ≠ k.count ∨ p.ty ≠ tyCode k.ty ∨ p.op ≠ k.op) then s.endColl k { mismatch := true }
      else s.setColl { k with out := some (collResult k ps) }

/-- One line of a command's work (R237, R272), read or written once; a command whose DST is written ends. While a command of its
engine waits for a held store, no other makes an access (R296). -/
def State.collStep (s : State) (k : Coll) (cs : List Contribution) : State :=
  if s.colls.any fun x => decide (x.core = k.core ∧ x.id ≠ k.id ∧ s.collHeld x ≠ []) then s
  else match k.work with
    | .none => if k.result.isSome then s.tellColls else s.collResolve k cs
    | .read =>
      match s.collReach k false with
      | (va, _, .stop f e) => s.failColl k false va f e
      | (_, _, .wait) => s
      | (_, n, .at_ l t) => (s.touchRead k.core k.own.part l).setColl { k with got := k.got ++ s.bytesAt l n, gsrc := t }
    | .write bs =>
      if k.dstBytes ≤ k.put then s.endColl k {}
      else match s.collReach k true with
        | (va, _, .stop f e) => s.failColl k true va f e
        | (_, _, .wait) => s
        | (_, n, .at_ l t) =>
          let q := s.storeEngine (some k.core) l ((bs.drop k.put).take n)
          q.1.setColl { k with put := k.put + n, gdst := t, store := k.store || q.2 }

/-- The command's time is over: it ends, unless every contribution had come (R415). -/
def State.collTimeout (s : State) (k : Coll) : State :=
  if k.result = none ∧ k.out = none ∧ s.collLate k then s.collResolve k [] else s

/-- The commands whose time is over at the end of a clk end. -/
def State.collTimeouts (s : State) : State := s.colls.foldl State.collTimeout s

/-- A turn of a collective engine. -/
def State.collTurn (s : State) (id : Nat) (cs : List Contribution) : State :=
  match s.colls.find? fun k => k.id = id with
  | none => s
  | some k => s.collStep k cs

def State.collTurns (s : State) (id : Nat) (cs : List Contribution) : Nat → State
  | 0 => s
  | fuel + 1 => (s.collTurn id cs).collTurns id cs fuel

/-- Turns that are enough for a command. -/
def Coll.turns (k : Coll) : Nat := k.srcBytes / 128 + k.dstBytes / 128 + 6

/-- COLLECTIVE_COMPLETE (R236, R237): the commands of the collective on this device read what is left of SRC, and with every rank's
contribution there the DST of the command is written and it ends. -/
def State.collComplete (s : State) (id : Nat) (cs : List Contribution) : State :=
  match s.colls.find? fun k => k.id = id with
  | none => s
  | some k =>
    let s := (s.colls.filter fun x => decide (x.team = k.team ∧ x.id ≠ id)).foldl
      (fun s x => (List.range (x.srcBytes / 128 + 2)).foldl (fun s _ =>
        match s.colls.find? fun y => y.id = x.id with
        | some y => if y.got.length < y.srcBytes then s.collStep y [] else s
        | none => s) s) s
    s.collTurns id cs k.turns

/-! ### Meanings -/

def execCopyAsync (f : Ext) (s : State) : Host.Outcome State Fault Refusal := issue (.copyAsync f) copyBody s
def execCopyWait (f : Ext) (s : State) : Host.Outcome State Fault Refusal := issue (.copyWait f) copyWaitBody s
def execCollRs (f : Ext) (s : State) : Host.Outcome State Fault Refusal := issue (.collRs f) (collBody false) s
def execCollAg (f : Ext) (s : State) : Host.Outcome State Fault Refusal := issue (.collAg f) (collBody true) s

/-- COPY_ENTER (R231): the next waiting copy of a pair enters its channel. -/
def execCopyEnter (core slot group : Nat) (s : State) : Host.Outcome State Fault Refusal :=
  .next (s.enterNext (placeOf core slot) group)
def execCopyLineWrite (core channel : Nat) (s : State) : Host.Outcome State Fault Refusal := .next (s.copyLine core channel)
def execCopyComplete (core channel : Nat) (s : State) : Host.Outcome State Fault Refusal := .next (s.copyEnd core channel)
def execCollectiveComplete (id : Nat) (cs : List Contribution) (s : State) : Host.Outcome State Fault Refusal :=
  .next (s.collComplete id cs)
/-- COLLECTIVE_TIMEOUT (R415): 2^27 clk after its acceptance a command ends with DEADLINK. -/
def execCollectiveTimeout (id : Nat) (s : State) : Host.Outcome State Fault Refusal :=
  match s.colls.find? fun k => k.id = id with
  | none => .next s
  | some k => .next (s.collTimeout k)

end Sys2Proof.Machine
end

