-- ==== Sys2Proof/Machine/Crypto.lean ====
section
/-! DEFINITION. The digest and the signature that R423 names: SHAKE256 with an output of at most one block (FIPS 202), and Ed448 in pure
mode (RFC 8032). Both are given by their standards, outside the spec (PRESUMED, log 10). -/

namespace Sys2Proof.Machine
open Sys2Proof

/-! ### SHAKE256 -/

/-- Rotation offsets of the 25 lanes, by column and then row. -/
def keccakRot : List Nat :=
  [0, 1, 62, 28, 27, 36, 44, 6, 55, 20, 3, 10, 43, 25, 39, 41, 45, 15, 21, 8, 18, 2, 61, 56, 14]

/-- Round constants. -/
def keccakRc : List DWord :=
  [0x0000000000000001, 0x0000000000008082, 0x800000000000808a, 0x8000000080008000, 0x000000000000808b, 0x0000000080000001,
   0x8000000080008081, 0x8000000000008009, 0x000000000000008a, 0x0000000000000088, 0x0000000080008009, 0x000000008000000a,
   0x000000008000808b, 0x800000000000008b, 0x8000000000008089, 0x8000000000008003, 0x8000000000008002, 0x8000000000000080,
   0x000000000000800a, 0x800000008000000a, 0x8000000080008081, 0x8000000000008080, 0x0000000080000001, 0x8000000080008008]

def keccakLane (a : List DWord) (x y : Nat) : DWord := a.getD (x % 5 + 5 * (y % 5)) 0

/-- One round on the 25 lanes: theta, rho with pi, chi, iota. -/
def keccakRound (a : List DWord) (rc : DWord) : List DWord :=
  let c := (List.range 5).map fun x => (List.range 5).foldl (fun v y => v ^^^ keccakLane a x y) 0
  let t := a.mapIdx fun i v => v ^^^ c.getD ((i + 4) % 5) 0 ^^^ (c.getD ((i + 1) % 5) 0).rotateLeft 1
  let b := (List.range 25).map fun i =>
    let x := (i % 5 + 3 * (i / 5)) % 5
    (keccakLane t x (i % 5)).rotateLeft (keccakRot.getD (x + 5 * (i % 5)) 0)
  (List.range 25).map fun i =>
    let v := keccakLane b (i % 5) (i / 5) ^^^ (~~~keccakLane b (i % 5 + 1) (i / 5) &&& keccakLane b (i % 5 + 2) (i / 5))
    if i = 0 then v ^^^ rc else v

def keccak (a : List DWord) : List DWord := keccakRc.foldl keccakRound a

/-- A message padded to whole blocks of 136 bytes. -/
def shakePad (bs : List Byte) : List Byte :=
  let n := 136 - bs.length % 136
  bs ++ if n = 1 then [0x9f] else 0x1f :: List.replicate (n - 2) 0 ++ [0x80]

/-- Blocks are absorbed one after another. -/
def shakeAbsorb : Nat → List Byte → List DWord → List DWord
  | 0, _, a => a
  | n + 1, bs, a =>
    shakeAbsorb n (bs.drop 136) (keccak (a.mapIdx fun i v => if i < 17 then v ^^^ BitVec.ofNat 64 (leNat ((bs.drop (8 * i)).take 8)) else v))

/-- The first `n` bytes of the output, of the 136 that the first block holds. -/
def shake (n : Nat) (bs : List Byte) : List Byte :=
  let p := shakePad bs
  ((shakeAbsorb (p.length / 136) p (List.replicate 25 0)).flatMap fun v => leBytes 8 v.toNat).take n

/-- The 64-byte digest of R423. -/
def shake256 (bs : List Byte) : List Byte := shake 64 bs

/-! ### Ed448 -/

def edP : Nat := 2 ^ 448 - 2 ^ 224 - 1

/-- The order of the base point. -/
def edL : Nat := 2 ^ 446 - 13818066809895115352007386748515426880336692474882178609894547503885

def edSub (a b : Nat) : Nat := (a + (edP - b % edP)) % edP

/-- The curve's constant, -39081. -/
def edD : Nat := edP - 39081

/-- A power modulo the field's prime, over the bits of the exponent from the lowest. -/
def edPow : Nat → Nat → Nat → Nat → Nat
  | 0, _, _, r => r
  | k + 1, b, e, r => edPow k (b * b % edP) (e / 2) (if e % 2 = 1 then r * b % edP else r)

/-- A point in projective coordinates. -/
structure EdPoint where
  x : Nat
  y : Nat
  z : Nat
deriving DecidableEq, Repr

def edZero : EdPoint := ⟨0, 1, 1⟩

def edBase : EdPoint :=
  ⟨224580040295924300187604334099896036246789641632564134246125461686950415467406032909029192869357953282578032075146446173674602635247710,
   298819210078481492676017930443930673437544040154080242095928241372331506189835876003536878655418784733982303233503462500531545062832660, 1⟩

def edAdd (p q : EdPoint) : EdPoint :=
  let a := p.z * q.z % edP
  let b := a * a % edP
  let c := p.x * q.x % edP
  let d := p.y * q.y % edP
  let e := edD * (c * d % edP) % edP
  let f := edSub b e
  let g := (b + e) % edP
  let h := (p.x + p.y) * (q.x + q.y) % edP
  ⟨a * f % edP * edSub (edSub h c) d % edP, a * g % edP * edSub d c % edP, f * g % edP⟩

/-- A multiple of a point, over the bits of the scalar from the lowest. -/
def edMul : Nat → Nat → EdPoint → EdPoint → EdPoint
  | 0, _, _, r => r
  | k + 1, n, p, r => edMul k (n / 2) (edAdd p p) (if n % 2 = 1 then edAdd r p else r)

def edEq (p q : EdPoint) : Bool := decide (p.x * q.z % edP = q.x * p.z % edP ∧ p.y * q.z % edP = q.y * p.z % edP)

/-- The point that 57 bytes encode, if they encode one (RFC 8032, 5.2.3). -/
def edDecode (bs : List Byte) : Option EdPoint :=
  let y := leNat bs % 2 ^ 455
  let sign := leNat bs / 2 ^ 455 % 2
  let u := edSub (y * y % edP) 1
  let v := edSub (edD * (y * y % edP) % edP) 1
  let uv := u * v % edP
  let u2 := u * u % edP
  let x := u2 * uv % edP * edPow 448 (u2 * u % edP * (u2 * (v * v % edP * v % edP) % edP) % edP) ((edP - 3) / 4) 1 % edP
  if bs.length ≠ 57 ∨ edP ≤ y ∨ v * (x * x % edP) % edP ≠ u ∨ (x = 0 ∧ sign = 1) then none
  else some ⟨if x % 2 = sign then x else edP - x, y, 1⟩

/-- Whether a 114-byte signature of a message verifies under a public key, with no context (RFC 8032, 5.2.7). -/
def ed448Verify (key msg sig : List Byte) : Bool :=
  let s := leNat ((sig.drop 57).take 57)
  match edDecode key, edDecode (sig.take 57) with
  | some a, some r =>
    let dom : List Byte := [0x53, 0x69, 0x67, 0x45, 0x64, 0x34, 0x34, 0x38, 0, 0]
    let k := leNat (shake 114 (dom ++ sig.take 57 ++ key ++ msg)) % edL
    decide (sig.length = 114 ∧ s < edL)
      && edEq (edMul 448 (4 * s) edBase edZero) (edAdd (edMul 448 (4 * k) a edZero) (edMul 3 4 r edZero))
  | _, _ => false

end Sys2Proof.Machine
end

