-- ==== Sys2Proof/Machine/Descriptor.lean ====
section
/-! DEFINITION. What the schedulers and the loader read from memory: kernel descriptors (R113, R119), work lists, records
and kernel tables (R299 to R302), and the bounds on residency (R33, R35). -/

namespace Sys2Proof.Machine
open Sys2Proof

/-! ### Fields of byte lists -/

/-- A little-endian field of a byte list. -/
def field (bs : List Byte) (off n : Nat) : Nat := leNat ((bs.drop off).take n)

/-! ### Kernel declarations (R38, R113) -/

/-- W of a kernel: as declared, or as the loader chooses it (R38). -/
def chooseW (declared lanes : Nat) : Nat :=
  if declared ≠ 0 then declared
  else if 64 ≤ lanes then 64 else if lanes ≤ 8 then 8 else if lanes ≤ 16 then 16 else if lanes ≤ 32 then 32 else 64

def clsOf (c : Nat) : Cls := if c = 2 then .concurrent else if c = 1 then .parallel else .weak

/-- The declarations of an image header. -/
def declOf (h : List Byte) : Decl :=
  let lanes := field h 16 4
  { width := chooseW (field h 6 1) lanes, cls := clsOf (field h 7 1), nx := field h 8 1, ny := field h 9 1, ureg := field h 10 1,
    usp := field h 11 1, tiles := field h 12 1, lanes, scratch := field h 20 4,
    depths := (List.range 16).map fun q => field h (24 + 2 * q) 2 }

/-- The pool split that a kernel declares (R32). -/
def Decl.split (d : Decl) : Nat × Nat := (d.ureg, d.usp)

/-! ### Bounds on residency (R33, R35) -/

def Decl.queueSum (d : Decl) : Nat := d.depths.foldl (· + ·) 0
/-- Register bytes of a block (R33). -/
def Decl.regBytes (d : Decl) : Nat := d.groups * (4 * d.width * (d.nx + d.ny) + 512)
/-- Queue bytes of a block (R47). -/
def Decl.queueBytes (d : Decl) : Nat := d.groups * (4 * d.width * d.queueSum)

/-- Blocks with these declarations fit together on a core carved to the split (R35). -/
def fitsCore (split : Nat × Nat) (ds : List Decl) : Bool :=
  let sum (f : Decl → Nat) : Nat := ds.foldl (fun n d => n + f d) 0
  decide (sum Decl.regBytes ≤ split.1 * 65536 ∧ sum (·.scratch) ≤ split.2 * 65536 ∧ sum Decl.queueBytes ≤ 262144
    ∧ sum (·.tiles) ≤ 8 ∧ ds.length ≤ 16 ∧ sum Decl.groups ≤ 64)

/-! ### Kernel descriptors (R119, R420) -/

/-- Base and bytes of a partition's code area. -/
def codeArea (r : PartRec) : Nat × Nat := (r.codefirst * 2 ^ 30, r.codecnt * 2 ^ 30)

/-- The address lies within the partition's code area. -/
def State.inCode (s : State) (part kd : Nat) : Bool :=
  let a := codeArea (s.partRec part)
  decide (a.1 ≤ kd ∧ kd < a.1 + a.2)

/-- The address is that of a descriptor of the partition. -/
def State.isDesc (s : State) (part kd : Nat) : Bool :=
  let a := codeArea (s.partRec part)
  s.inCode part kd && decide ((kd - a.1) % 128 = 0 ∧ (kd - a.1) / 128 < 65536)
    && decide (s.mem.readNat kd 4 = 0x4353444b ∧ s.mem.readNat (kd + 6) 1 = part)

def State.descStatus (s : State) (kd : Nat) : Nat := s.mem.readNat (kd + 4) 1
def modeOf (m : Nat) : Mode := if m = 2 then .firmware else if m = 1 then .supervisor else .user
def modeCode : Mode → Nat
  | .user => 0 | .supervisor => 1 | .firmware => 2

/-- The kernel that a descriptor names. -/
def State.kernelAt (s : State) (part kd : Nat) : Kernel :=
  let base := (codeArea (s.partRec part)).1
  let rd (off : Nat) : Nat := s.mem.readNat (kd + off) 4
  { kd, mode := modeOf (s.mem.readNat (kd + 5) 1), decl := declOf (s.mem.read (kd + 8) 64), abase := base + rd 84,
    asize := rd 96, xbase := base + rd 88, xsize := rd 100, safe := base + rd 92, nsafe := rd 104 }

/-- The clusters of a partition. -/
def clustersOf (r : PartRec) : List Nat := (List.range 48).filter fun c => r.clusters.getLsbD c

/-- A team of T blocks could be held by a partition whose cores are all empty (R27, R308). -/
def teamPossible (r : PartRec) (t : Nat) : Bool := decide (t ≤ 4 * Nat.min 4 (clustersOf r).length)

/-! ### Work lists (R299 to R301) -/

/-- The header of a work list. -/
structure ListHeader where
  ktab : Nat
  cap : Nat
  count : Nat
  sealed_ : Bool
  homeBase : Nat
  homeCnt : Nat
  wave : Nat
  reserved : Bool
deriving DecidableEq, Repr

def headerOf (h : List Byte) : ListHeader :=
  { ktab := field h 0 8, cap := field h 16 4 % 2 ^ 20, count := field h 20 4 % 2 ^ 20, sealed_ := (field h 20 4).testBit 20,
    homeBase := field h 28 1, homeCnt := field h 29 1, wave := field h 30 1,
    reserved := decide (field h 16 4 / 2 ^ 20 ≠ 0 ∨ field h 20 4 / 2 ^ 24 ≠ 0 ∨ field h 24 4 / 2 ^ 21 ≠ 0 ∨ field h 31 33 ≠ 0) }

/-- CAP = 0 or a nonzero reserved field (R313, R315). -/
def ListHeader.broken (h : ListHeader) : Bool := h.reserved || decide (h.cap = 0)

/-- The header gives a cause for which `seal` answers 3, by its own fields (R315). -/
def ListHeader.bad (r : PartRec) (h : ListHeader) : Bool :=
  h.broken || decide (h.ktab % 128 ≠ 0 ∨ 47 < h.homeBase ∨ h.homeCnt = 0 ∨ 48 < h.homeBase + h.homeCnt)
    || (List.range h.homeCnt).any fun k => !r.clusters.getLsbD (h.homeBase + k)

/-! Fields of a record (R300). -/

def recKidx (w : List Word) : Nat := wordAt w 0 % 16
def recRmask (w : List Word) : Nat := wordAt w 0 / 16 % 16
def recDepc (w : List Word) : Nat := wordAt w 0 / 256 % 16
def recExpert (w : List Word) : Nat := wordAt w 0 / 65536
def recBase (w : List Word) : Nat := wordAt w 1 % 2 ^ 20
def recRows (w : List Word) : Nat := wordAt w 1 / 2 ^ 20 % 64

/-- A nonzero reserved field in words 0 to 5, or ROWS above 32 (R313). -/
def recordBad (w : List Word) : Bool :=
  decide (wordAt w 0 / 2 ^ 12 % 16 ≠ 0 ∨ wordAt w 1 / 2 ^ 26 ≠ 0 ∨ wordAt w 2 / 2 ^ 21 ≠ 0 ∨ 32 < recRows w)

/-- The same over the whole record of a submission (R308). -/
def slotBad (w : List Word) : Bool :=
  recordBad w || decide (wordAt w 6 / 2 ^ 20 % 16 ≠ 0 ∨ wordAt w 7 / 8 % 32 ≠ 0 ∨ wordAt w 7 / 2 ^ 14 ≠ 0)

/-- The eight words of 32 bytes. -/
def wordsOfBytes (bs : List Byte) : List Word := (List.range 8).map fun k => BitVec.ofNat 32 (field bs (4 * k) 4)

/-! Entries of a kernel table (R301). -/

/-- The 128 bytes of an entry of a captured table. -/
def tabEntry (tab : List Byte) (k : Nat) : List Byte := (tab.drop (128 * k)).take 128
def entImage (e : List Byte) : Nat := field e 0 8
def entArgs (e : List Byte) : DWord := BitVec.ofNat 64 (field e 8 8)
def entTeam (e : List Byte) : Nat := field e 16 1

/-- The entry itself fails R308. -/
def State.entryFails (s : State) (part : Nat) (e : List Byte) : Bool :=
  decide (entImage e = 0) || !s.isDesc part (entImage e) || decide (s.descStatus (entImage e) ≠ 0)
    || decide ((s.kernelAt part (entImage e)).mode ≠ .user) || decide (field e 17 15 ≠ 0 ∨ entTeam e < 1 ∨ 16 < entTeam e)
    || !teamPossible (s.partRec part) (entTeam e)

/-- A template that a record uses has a nonzero reserved field (R308). -/
def templateFails (e : List Byte) (w : List Word) : Bool :=
  (List.range 4).any fun k => (recRmask w).testBit k && decide (field e (32 + 24 * k + 20) 1 / 4 ≠ 0 ∨ field e (32 + 24 * k + 21) 3 ≠ 0)

/-- The regions of a record: first byte, length, and whether it is written (R302). -/
def regionsOf (e : List Byte) (w : List Word) : List (Nat × Nat × Bool) :=
  (List.range 4).filterMap fun k =>
    if (recRmask w).testBit k then
      let rd (off n : Nat) : Nat := field e (32 + 24 * k + off) n
      let flags := rd 20 1
      let rowmode := flags.testBit 1
      let lo := rd 0 8 + recExpert w * rd 8 4 + (if rowmode then recBase w * rd 12 4 else 0)
      let len := if rowmode then recRows w * rd 12 4 else rd 16 4
      if len = 0 ∨ 2 ^ 64 < lo + len then none else some (lo, len, flags.testBit 0)
    else none

/-- Regions of which one is written share a byte (R304). -/
def regionsClash (a b : List (Nat × Nat × Bool)) : Bool :=
  a.any fun x => b.any fun y => (x.2.2 || y.2.2) && decide (x.1 < y.1 + y.2.1 ∧ y.1 < x.1 + x.2.1)

/-- The reads of some ranges take their places at their home (R266, R267). -/
def State.touchRanges (s : State) (core part : Nat) (rs : List (Loc × Nat)) : State :=
  rs.foldl (fun s r => (inLines r.1 r.2).foldl (fun s x => s.touchRead core part x) s) s

/-- The physical ranges of a virtual range that an agent reads, page by page: a fault or an uncorrectable error with its address, or
none while a held store or an engine operation that entered before `before` keeps a byte. -/
def State.virtRanges (s : State) (c : TCtx) (before : Nat) (va : DWord) : Nat → Nat → Except (Nat × DWord) (Option (List (Loc × Nat)))
  | 0, _ => .ok (some [])
  | fuel + 1, n =>
    if n = 0 then .ok (some [])
    else
      let k := Nat.min n (4096 - va.toNat % 4096)
      match s.translate c true false va with
      | .fault f => .error (f, va)
      | .wait => .ok none
      | .ok t =>
        let l := Loc.glob (t.addr va)
        if t.remote then .error (8, va)
        else if (s.errIn l k).isSome then .error (4, va)
        else if s.heldOver l k || s.ownedOver (some before) l k then .ok none
        else (s.virtRanges c before (va + BitVec.ofNat 64 k) fuel (n - k)).map fun r => r.map fun rs => (l, k) :: rs

def pagesOf (n : Nat) : Nat := n / 4096 + 2

/-- The bytes of a virtual range, all at one instant. -/
def State.readVirt (s : State) (c : TCtx) (before : Nat) (va : DWord) (fuel n : Nat) : Except (Nat × DWord) (Option (List Byte)) :=
  (s.virtRanges c before va fuel n).map fun r => r.map fun rs => rs.flatMap fun x => s.bytesAt x.1 x.2

/-- The uncorrectable error that an agent meets in a virtual range, in a walk or in a word that it reads, is reported (R281, R368). -/
def State.rangeErr (s : State) (c : TCtx) (own : Owner) (wr : Bool) (va : DWord) : Nat → Nat → State
  | 0, _ => s
  | fuel + 1, n =>
    if n = 0 then s
    else
      let k := Nat.min n (4096 - va.toNat % 4096)
      match s.translate c (!wr) wr va with
      | .fault f => s.meetWalkErr c.core own c.root va f
      | .wait => s
      | .ok t =>
        if t.remote then s
        else if !wr && (s.errIn (.glob (t.addr va)) k).isSome then s.meetErr c.core own (.glob (t.addr va)) k 3
        else s.rangeErr c own wr (va + BitVec.ofNat 64 k) fuel (n - k)

/-- Bytes written to a virtual range by an engine: whether a byte of a live word was dropped, and a fault, if any. -/
def State.writeVirt (s : State) (c : TCtx) (va : DWord) (bs : List Byte) : Nat → State × Bool × Option (Nat × DWord)
  | 0 => (s, false, none)
  | fuel + 1 =>
    if bs = [] then (s, false, none)
    else
      let k := 4096 - va.toNat % 4096
      match s.translate c false true va with
      | .fault f => (s, false, some (f, va))
      | .wait => (s, false, some (1, va))
      | .ok t =>
        if t.remote then (s, false, some (8, va))
        else
          let q := s.storeEngine (some c.core) (.glob (t.addr va)) (bs.take k)
          let r := q.1.writeVirt c (va + BitVec.ofNat 64 k) (bs.drop k) fuel
          (r.1, q.2 || r.2.1, r.2.2)

/-- Bytes at a virtual address that an agent other than a lane reads: a fault, or none while a held or owned line keeps one
of them. An address of the fabric window is no device memory. -/
def State.readAgent (s : State) (c : TCtx) (va : DWord) (n : Nat) : Except Nat (Option (List Byte)) :=
  if inFabric va then .error 8
  else match s.readVirt c s.fresh va (pagesOf n) n with
    | .ok r => .ok r
    | .error (f, _) => .error f

end Sys2Proof.Machine
end

