-- ==== Sys2Proof/Machine/Join.lean ====
section
/-! DEFINITION. The rejoin-set instructions (R178 to R186). -/

namespace Sys2Proof.Machine
open Sys2Proof

/-- Causes of the rejoin-state fault (R178). -/
inductive JCause | busy | notMember | empty | divergent | faulted | image | range
deriving DecidableEq, Repr

def JCause.num : JCause → Nat
  | .busy => 1 | .notMember => 2 | .empty => 3 | .divergent => 4 | .faulted => 5 | .image => 6 | .range => 7

/-- The set that a join instruction names. -/
def Ctx.jset (c : Ctx) : Nat :=
  match c.f.a with
  | .set n => n.toNat
  | _ => 0

/-- `vote` of R98 over the active lanes: none when they differ. -/
def vote {α : Type} [DecidableEq α] (ls : List Nat) (v : Nat → α) : Option α :=
  match ls with
  | [] => none
  | l :: r => if r.all fun m => decide (v m = v l) then some (v l) else none

/-- A join instruction (R178): without active lanes nothing; the first cause that applies; otherwise its effect. -/
def joinBody (checks : Ctx → List (JCause × List Nat)) (act : Ctx → State → Act) (c : Ctx) (s : State) : Act :=
  if c.act = [] then .done s
  else
    match (checks c).find? fun p => decide (p.2 ≠ []) with
    | some (cause, ls) => c.fail { code := 0x0e, aux0 := c.jset + 16 * cause.num } ls
    | none => act c s

/-- A cause that concerns the set alone holds in every active lane. -/
def Ctx.whenAll (c : Ctx) (b : Bool) : List Nat := if b then c.act else []

def Ctx.theSet (c : Ctx) : JSet := c.half.set c.jset

def busyCheck (c : Ctx) : JCause × List Nat := (.busy, c.whenAll (decide (c.theSet.state = jWaiting)))
def faultedCheck (c : Ctx) : JCause × List Nat := (.faulted, c.whenAll (decide (c.theSet.state = jFaulted)))
def emptyCheck (c : Ctx) : JCause × List Nat := (.empty, c.whenAll (decide (c.theSet.state = jEmpty)))
def memberCheck (c : Ctx) : JCause × List Nat := (.notMember, c.act.filter fun l => !c.theSet.members.getLsbD l)

def Ctx.putSet (c : Ctx) (j : JSet) (s : State) : State :=
  s.mapHalf c.place c.group c.sl fun h => h.setSet c.jset j

/-! ### `join.init` (R179) -/

def Ctx.maskVote (c : Ctx) : Option DWord := vote c.act fun l => c.src .b64 c.f.b l
def Ctx.depthVote (c : Ctx) : Option (BitVec 8) := vote c.act fun l => (c.half.lane l).depth

def joinInitAct (c : Ctx) (s : State) : Act :=
  let m := (c.maskVote.getD 0) &&& laneMask (c.half.liveLanes c.w)
  .done (c.putSet { members := m, waiters := 0, depth := c.depthVote.getD 0, state := if m = 0 then jEmpty else jArmed } s)

/-! ### `join.enter`, `join.quit`, `join.wait`, `join.test` (R180 to R182) -/

def joinEnterAct (c : Ctx) (s : State) : Act :=
  .done (c.putSet { c.theSet with members := c.theSet.members ||| laneMask c.act } s)

def joinQuitAct (c : Ctx) (s : State) : Act :=
  .done (s.mapHalf c.place c.group c.sl fun h => h.leaveSet (laneMask c.act) c.jset)

def joinWaitAct (c : Ctx) (s : State) : Act :=
  .done (s.mapHalf c.place c.group c.sl fun h =>
    let h := c.act.foldl (fun h l => h.setLane l { h.lane l with wait := .join c.jset c.pc }) h
    (h.setSet c.jset { c.theSet with waiters := c.theSet.waiters ||| laneMask c.act, state := jWaiting }).releaseTest c.jset)

def joinTestAct (c : Ctx) (s : State) : Act := .done (c.writePred (fun l => c.theSet.members.getLsbD l) s)

/-! ### Images (R44, R183) -/

/-- The 32-byte image of a set. -/
def JSet.image (j : JSet) : List Byte :=
  leBytes 32 (j.members.toNat + j.waiters.toNat * 2 ^ 64 + j.state.toNat * 2 ^ 128 + j.depth.toNat * 2 ^ 130)

/-- A set from the number of its image. -/
def jsetOf (v : Nat) : JSet :=
  { members := BitVec.ofNat 64 v, waiters := BitVec.ofNat 64 (v / 2 ^ 64), state := BitVec.ofNat 2 (v / 2 ^ 128),
    depth := BitVec.ofNat 8 (v / 2 ^ 130) }

/-- Images that `join.load` refuses (R183). -/
def imageBad (w v : Nat) : Bool :=
  let j := jsetOf v
  decide (v / 2 ^ 138 ≠ 0) || decide (j.state = jFaulted ∨ j.state = jWaiting) || decide (j.waiters ≠ 0)
    || decide (j.members.toNat / 2 ^ w ≠ 0) || decide ((j.state = jEmpty) ≠ (j.members = 0))

def Ctx.offVote (c : Ctx) : Option Nat := vote c.act fun l => c.word c.f.b l

def offBad (c : Ctx) : Bool :=
  match c.offVote with
  | some off => decide (off % 32 ≠ 0 ∨ c.blk.kernel.decl.scratch < off + 32)
  | none => false

/-- The image that a `join.load` reads. -/
def Ctx.imageAt (c : Ctx) : Nat := c.st.natAt (.sp c.place (c.offVote.getD 0)) 32

/-- The access of a `join.save` or `join.load` must wait: a store holds its bytes, an engine owns its line, or an acquire of the
lanes is pending (R183, R206, R270, R278). -/
def Ctx.imageWaits (c : Ctx) : Bool :=
  let loc := Loc.sp c.place (c.offVote.getD 0)
  c.st.heldOver loc 32 || c.st.ownedOver none loc 32 || c.act.any fun l => c.st.acquiring (c.own l)

def joinSaveAct (c : Ctx) (s : State) : Act :=
  let loc := Loc.sp c.place (c.offVote.getD 0)
  if c.imageWaits then .stall c.st
  else .done (s.storeLane (c.own (c.act.headD 0)) c.sl c.pc (BitVec.ofNat 64 (c.offVote.getD 0)) loc c.theSet.image c.clears)

/-- A `join.load` takes its image; one that meets an uncorrectable error fails as a load into a register does, and leaves the set
(R197, R281; DESIGN CHOICE, log 83). -/
def joinLoadAct (c : Ctx) (s : State) : Act :=
  let loc := Loc.sp c.place (c.offVote.getD 0)
  let l := c.act.headD 0
  if (c.st.errIn loc 32).isSome then .done (c.pendBad l (.reg 0) .b32 (BitVec.ofNat 64 (c.offVote.getD 0)) (s.meetErr c.core (c.own l) loc 32 0))
  else
  let j := jsetOf c.imageAt
  let m := j.members &&& ~~~laneMask ((List.range c.w).filter fun l => decide ((c.half.lane l).life = .exited))
  .done (c.putSet { j with members := m, state := if m = 0 then jEmpty else j.state }
    (s.touchRead c.core c.blk.part loc))

/-- The checks of a `join.load` that need no image. -/
def joinLoadChecks (c : Ctx) : List (JCause × List Nat) :=
  [busyCheck c, (.divergent, c.whenAll c.offVote.isNone), faultedCheck c]

/-- A `join.load` (R178, R183): its image is read, and judged, once nothing keeps it. At a bad offset there is no image to judge, so
that an offset inside the scratchpad that is no multiple of 32 gives the cause range: the model's choice (DESIGN CHOICE, log 76). An
image that an uncorrectable error has reached is not judged. -/
def joinLoadBody (c : Ctx) (s : State) : Act :=
  if (joinLoadChecks c).all (fun p => decide (p.2 = [])) && !offBad c && c.imageWaits && decide (c.act ≠ []) then .stall c.st
  else joinBody (fun c => joinLoadChecks c ++
    [(.image, c.whenAll (!offBad c && (c.st.errIn (.sp c.place (c.offVote.getD 0)) 32).isNone && imageBad c.w c.imageAt)), (.range, c.whenAll (offBad c))]) joinLoadAct c s

/-! ### Meanings -/

def execJoinInit (f : Ext) (s : State) : Host.Outcome State Fault Refusal :=
  issue (.joinInit f) (joinBody (fun c =>
    [busyCheck c, (.divergent, c.whenAll (c.maskVote.isNone || c.depthVote.isNone)), faultedCheck c]) joinInitAct) s
def execJoinEnter (f : Ext) (s : State) : Host.Outcome State Fault Refusal :=
  issue (.joinEnter f) (joinBody (fun c => [emptyCheck c, faultedCheck c]) joinEnterAct) s
def execJoinQuit (f : Ext) (s : State) : Host.Outcome State Fault Refusal :=
  issue (.joinQuit f) (joinBody (fun c => [faultedCheck c]) joinQuitAct) s
def execJoinWait (f : Ext) (s : State) : Host.Outcome State Fault Refusal :=
  issue (.joinWait f) (joinBody (fun c => [memberCheck c, emptyCheck c, faultedCheck c]) joinWaitAct) s
def execJoinTest (f : Ext) (s : State) : Host.Outcome State Fault Refusal :=
  issue (.joinTest f) (joinBody (fun c => [faultedCheck c]) joinTestAct) s
def execJoinSave (f : Ext) (s : State) : Host.Outcome State Fault Refusal :=
  issue (.joinSave f) (joinBody (fun c =>
    [busyCheck c, (.divergent, c.whenAll c.offVote.isNone), faultedCheck c, (.range, c.whenAll (offBad c))]) joinSaveAct) s
def execJoinLoad (f : Ext) (s : State) : Host.Outcome State Fault Refusal := issue (.joinLoad f) joinLoadBody s

end Sys2Proof.Machine
end

