-- ==== Sys2Proof/Machine/Region.lean ====
section
/-! DEFINITION. Completion of packets (R347) and of region records (R306), submissions (R308, R315), the window (R303 to
R305), and the instructions `task`, `post`, `post.cnt`, `seal` and `steal` (R311 to R316). -/

namespace Sys2Proof.Machine
open Sys2Proof

/-! ### Completion words (R347) -/

/-- Where the descriptor of a work queue lies (R342). -/
def State.queueAt (s : State) (q : Nat) : Nat := s.qtab + 64 * q

/-- A number written by a scheduler. -/
def State.putNat (s : State) (pa n v : Nat) : State := (s.storeEngine none (.glob pa) (leBytes n v)).1

/-- The context of a scheduler's own translations. -/
def schedCtx (part asid root : Nat) : TCtx := { core := 1024, part, asid, root, user := false }

/-- The ASID that a work queue has now (R342). -/
def State.queueAsid (s : State) (q : Nat) : Nat := s.mem.readNat (s.queueAt q + 12) 2

/-- The context of a packet's addresses when one of them is used: the queue's ASID and TTROOT as they are then (R344, R349, R364). -/
def State.queueCtx (s : State) (p : Packet) : TCtx := schedCtx p.part (s.queueAsid p.queue) (s.sysreg p.part 0x00a).toNat

def State.mapPacket (s : State) (q i : Nat) (f : Packet → Packet) : State :=
  { s with packets := s.packets.map fun p => if p.queue = q ∧ p.idx = i then f p else p }

/-- The completion word of a packet has been written, or counts as written (R347). -/
def State.isWritten (s : State) (p : Packet) : Bool :=
  p.written || (match p.pend with
    | some id => !s.remotes.any fun r => decide (r.id = id)
    | none => false)

/-- DONEIDX advances over every leading packet whose word has been written, once nothing keeps it (R270). -/
def State.advanceDone (s : State) (q : Nat) : Nat → State
  | 0 => s
  | fuel + 1 =>
    let i := s.mem.readNat (s.queueAt q + 32) 8
    match s.packets.find? fun p => p.queue = q ∧ p.idx = i with
    | none => s
    | some p =>
      if s.isWritten p && !s.keptAt (s.queueAt q + 32) 8 then
        (State.putNat { s with packets := s.packets.filter fun x => decide (¬ (x.queue = q ∧ x.idx = i)) }
          (s.queueAt q + 32) 8 (i + 1)).advanceDone q fuel
      else s

/-- The completion word of a packet that is due is written, unless a store or an engine keeps its bytes (R270, R347). -/
def State.writeWord (s : State) (p : Packet) : State :=
  match p.code with
  | none => s
  | some code =>
    let done (s : State) : State := (s.mapPacket p.queue p.idx fun x => { x with written := true }).advanceDone p.queue 65536
    if p.written ∨ p.pend.isSome then s
    else if p.compl = 0 then done s
    else
      let v := code + p.idx % 2 ^ 32 * 2 ^ 32
      match s.translate (s.queueCtx p) false true p.compl with
      | .fault _ => done s
      | .wait => s
      | .ok t =>
        if t.remote then
          let s' := s.mapPacket p.queue p.idx fun x => { x with pend := some s.fresh }
          State.addRemote { s' with fresh := s.fresh + 1 }
            { id := s.fresh, own := { part := p.part, serial := 2 ^ 24 }, op := .write, peer := t.peer, addr := p.compl,
              raddr := t.addr p.compl, ty := .b64, val := BitVec.ofNat 64 v, rel := true }
        else if s.keptAt (t.addr p.compl) 8 then s
        else done (s.putNat (t.addr p.compl) 8 v)

/-- COMPLETION_WORD_WRITE: a packet completes with a code (R346, R347). -/
def State.completePacket (s : State) (q i code : Nat) : State :=
  let s := s.mapPacket q i fun p => { p with code := some (p.code.getD code) }
  match s.packets.find? fun p => p.queue = q ∧ p.idx = i with
  | some p => s.writeWord p
  | none => s

/-- Every word that is due is tried again, and DONEIDX follows. -/
def State.settlePackets (s : State) : State :=
  let s := s.packets.foldl (fun s p => s.writeWord p) s
  ((s.packets.map (·.queue)).eraseDups).foldl (fun s q => s.advanceDone q 65536) s

/-! ### Submissions -/

def State.sub? (s : State) (id : Nat) : Option Submission := s.subs.find? fun b => b.id = id
def State.mapSub (s : State) (id : Nat) (f : Submission → Submission) : State :=
  { s with subs := s.subs.map fun b => if b.id = id then f b else b }
def Submission.slot (b : Submission) (i : Nat) : SubRec := b.recs.getD i {}
def Submission.mapRec (b : Submission) (i : Nat) (f : SubRec → SubRec) : Submission :=
  { b with recs := b.recs.mapIdx fun j r => if j = i then f r else r }

def Submission.kidx (b : Submission) (i : Nat) : Nat := recKidx (b.slot i).words
def Submission.entry (b : Submission) (k : Nat) : List Byte := tabEntry b.ktab k
/-- The records of one kernel-table entry, in ascending INDEX (R308). -/
def Submission.ofKidx (b : Submission) (k : Nat) : List Nat := (List.range b.recs.length).filter fun i => decide (b.kidx i = k)
/-- The ordinal of a record among those of its entry, which is its block number (R308). -/
def Submission.ordinal (b : Submission) (i : Nat) : Nat := ((List.range i).filter fun j => decide (b.kidx j = b.kidx i)).length
def Submission.teamSize (b : Submission) (k : Nat) : Nat := Nat.max 1 (entTeam (b.entry k))
def Submission.teamNo (b : Submission) (i : Nat) : Nat := b.ordinal i / b.teamSize (b.kidx i)
/-- The records of a team (R307). -/
def Submission.teamRecs (b : Submission) (k team : Nat) : List Nat :=
  ((b.ofKidx k).drop (team * b.teamSize k)).take (b.teamSize k)
/-- The home cluster of a record (R307). -/
def Submission.home (b : Submission) (i : Nat) : Nat := b.homeBase + recExpert (b.slot i).words % Nat.max 1 b.homeCnt
/-- The home cluster of a team, that of its first record. -/
def Submission.teamHome (b : Submission) (k team : Nat) : Nat := b.home ((b.teamRecs k team).headD 0)
/-- The team of a record holds a record that is not empty (R305). -/
def Submission.teamRuns (b : Submission) (i : Nat) : Bool :=
  (b.teamRecs (b.kidx i) (b.teamNo i)).any fun j => decide (recRows (b.slot j).words ≠ 0)

/-- Regions that a record is matched by: none for an empty or refused record (R305). -/
def Submission.regions (b : Submission) (i : Nat) : List (Nat × Nat × Bool) :=
  let r := b.slot i
  if r.refused ∨ recRows r.words = 0 then [] else regionsOf (b.entry (b.kidx i)) r.words

/-- Every record has completed and every launch has ended (R315). -/
def State.subOver (s : State) (b : Submission) : Bool :=
  (b.recs.all fun r => decide (r.state = .done))
    && b.launches.all fun l => !s.launches.any fun x => decide (x.part = b.part ∧ x.serial = l.2)

/-- The submission is the latest of its list (R306). -/
def State.isLatest (s : State) (b : Submission) : Bool :=
  s.subs.all fun x => decide (x.part ≠ b.part ∨ x.header ≠ b.header ∨ x.id ≤ b.id)

/-- A submission that is over completes its packet (R308, R310) and leaves, unless it is the latest of its list, which
`steal` still names (R316). -/
def State.settleSub (s : State) (id : Nat) : State :=
  match s.sub? id with
  | none => s
  | some b =>
    if s.subOver b then
      let s := match b.packet with
        | some (q, i) => s.completePacket q i (if b.aborted then 6 else 0)
        | none => s
      if s.isLatest b then s else { s with subs := s.subs.filter fun x => decide (x.id ≠ id) }
    else s

/-! ### The window (R303 to R305) and record completion (R306) -/

/-- A store or an engine keeps the STATE and DONE words of a header. -/
def State.headerBusy (s : State) (header : Nat) : Bool := s.keptAt (header + 20) 8

/-- A change of one word of a header by the region scheduler. -/
def State.headerWord (s : State) (pa : Nat) (f : Nat → Nat) : State := s.putNat pa 4 (f (s.mem.readNat pa 4))

/-- ERR is set in the header (R305, R317). -/
def State.headerErr (s : State) (header : Nat) : State := s.headerWord (header + 20) fun v => v ||| 2 ^ 23

/-- DONE takes one more record, and ALLDONE with the last (R306). -/
def doneWord (n v : Nat) : Nat :=
  let d := v % 2 ^ 20 + 1
  (v &&& (2 ^ 32 - 2 ^ 21)) ||| (if d = n then 2 ^ 20 else 0) ||| d % 2 ^ 20

/-- The key of the team of a windowed record, when all its records are ready and it stands in no list. -/
def State.readyKey (s : State) (e : Nat × Nat) : Option (Nat × Nat × Nat) :=
  match s.sub? e.1 with
  | none => none
  | some b =>
    let k := b.kidx e.2
    let key := (e.1, k, b.teamNo e.2)
    if (b.teamRecs k key.2.2).all (fun j => decide ((b.slot j).state = .ready)) ∧ key ∉ s.ready then some key else none

/-- Records whose dependences have completed become ready, and teams of ready records join the ready lists in window
order (R307). -/
def State.promote (s : State) : State :=
  let wake (r : SubRec) : SubRec := if r.state = .waiting ∧ r.deps = [] then { r with state := .ready } else r
  let s : State := { s with subs := s.subs.map fun b => { b with recs := b.recs.map wake } }
  { s with ready := s.ready ++ (s.window.filterMap s.readyKey).eraseDups }

/-- RECORD_COMPLETION (R306): the record leaves the window, DONE advances, and the records that depended on it go on, their blocks'
accesses placed after the completion, which lies at logical time `ts` or later. -/
def State.completeRec (s : State) (id i : Nat) (err : Bool) (ts : Nat) : State :=
  match s.sub? id with
  | none => s
  | some b =>
    if (b.slot i).state = .done then s
    else
      let s := s.mapSub id fun b => { b.mapRec i fun r => { r with state := .done } with finished := b.finished + 1 }
      let s := if err then s.headerErr b.header else s
      let s := if s.isLatest b then s.headerWord (b.header + 24) (doneWord b.recs.length) else s
      let free (r : SubRec) : SubRec := { r with deps := r.deps.filter fun e => decide (e ≠ (id, i)) }
      let t := Nat.max ts (s.lineTime (.glob (b.header + 24))).wtime
      let later (x : Submission) : Nat := if x.recs.any fun r => decide ((id, i) ∈ r.deps) then Nat.max x.ts t else x.ts
      let s : State := { s with window := s.window.filter fun e => decide (e ≠ (id, i))
                                subs := s.subs.map fun b => { b with recs := b.recs.map free, ts := later b } }
      s.promote.settleSub id

/-- The records of the window on which a record depends (R304). -/
def State.depsOf (s : State) (b : Submission) (i : Nat) : List (Nat × Nat) :=
  s.window.filter fun e =>
    match s.sub? e.1 with
    | none => false
    | some x => decide (x.part = b.part) &&
        (regionsClash (x.regions e.2) (b.regions i)
          || decide (e.1 = b.id ∧ i ≤ e.2 + recDepc (b.slot i).words ∧ e.2 < i))

/-- The next record of a partition to enter: submissions in order, and within one in ascending INDEX (R303). -/
def State.nextEntry (s : State) (part : Nat) : Option (Submission × Nat) :=
  (s.subs.filter fun b => decide (b.part = part)).findSome? fun b =>
    ((List.range b.recs.length).find? fun i => decide ((b.slot i).state = .outside)).map fun i => (b, i)

/-- WINDOW_ENTRY (R303 to R305): the next record of a partition enters while its share has room. -/
def State.enterWindow (s : State) (part : Nat) : State :=
  let used := (s.window.filter fun e => ((s.sub? e.1).map (·.part)).getD 8 = part).length
  if (s.sysreg part 0x009).toNat % 2 ^ 11 ≤ used ∨ 8192 ≤ s.window.length then s
  else
    match s.nextEntry part with
    | none => s
    | some (b, i) =>
      let r := b.slot i
      if r.refused ∨ (recRows r.words = 0 ∧ b.teamRuns i = false) then
        if s.headerBusy b.header then s
        else (s.mapSub b.id fun b => b.mapRec i fun r => { r with state := .ready }).completeRec b.id i r.refused 0
      else
        let deps := if recRows r.words = 0 then [] else s.depsOf b i
        let s := s.mapSub b.id fun b => b.mapRec i fun r => { r with state := .waiting, deps }
        State.promote { s with window := s.window ++ [(b.id, i)] }

/-! ### Submission (R308, R315) -/

/-- Units of the snapshot area that C records take (R315). -/
def snapUnits (c : Nat) : Nat := (64 + 32 * c + 4095) / 4096

/-- Free units of a partition's snapshot area. -/
def State.snapFree (s : State) (part : Nat) : Nat :=
  let base := (s.sysreg part 0x007).toNat
  let n := (s.sysreg part 0x008).toNat % 2 ^ 32
  if base % 4096 = 0 ∧ n ≠ 0 ∧ partOwns (s.partRec part) base (4096 * n) then
    n - s.subs.foldl (fun k b => if b.part = part ∧ s.subOver b = false then k + snapUnits b.recs.length else k) 0
  else 0

/-- What a submission finds of a list (R315, R346). -/
inductive ListCheck
  | wait
  | fault
  | bad
  | team
  | room
  | ok (h : ListHeader) (tab : List Byte) (recs : List (List Word))

/-- The kernel-table entries that the records use. -/
def usedKidx (recs : List (List Word)) : List Nat := (recs.map recKidx).eraseDups

/-- A used entry's image is of the concurrent class (R315). -/
def State.usesConcurrent (s : State) (part : Nat) (tab : List Byte) (recs : List (List Word)) : Bool :=
  (usedKidx recs).any fun k =>
    let kd := entImage (tabEntry tab k)
    s.isDesc part kd && decide ((s.kernelAt part kd).decl.cls = .concurrent)

/-- The records of some entry are no multiple of its TEAM (R315); of a TEAM of 0 no number above 0 is one. -/
def teamsBroken (tab : List Byte) (recs : List (List Word)) : Bool :=
  (usedKidx recs).any fun k => decide ((recs.filter fun w => decide (recKidx w = k)).length % entTeam (tabEntry tab k) ≠ 0)

/-- The checks of a submission of the list at an address. -/
def State.checkList (s : State) (c : TCtx) (va : DWord) (pa : Nat) : ListCheck :=
  let h := headerOf (s.bytesAt (.glob pa) 64)
  match s.readAgent c (BitVec.ofNat 64 h.ktab) 2048, s.readAgent c (va + 64) (32 * h.count) with
  | .error _, _ => .fault
  | _, .error _ => .fault
  | .ok (some tab), .ok (some bs) =>
    let recs := (List.range h.count).map fun i => wordsOfBytes ((bs.drop (32 * i)).take 32)
    if h.bad (s.partRec c.part) || s.usesConcurrent c.part tab recs then .bad
    else if teamsBroken tab recs then .team
    else if s.snapFree c.part < snapUnits h.count then .room
    else .ok h tab recs
  | _, _ => .wait

/-- The records of a submission that are refused (R305, R308). -/
def State.markRefused (s : State) (b : Submission) : Submission :=
  let fails (i : Nat) : Bool :=
    let w := (b.slot i).words
    slotBad w || s.entryFails b.part (b.entry (recKidx w)) || templateFails (b.entry (recKidx w)) w
  { b with recs := b.recs.mapIdx fun i r =>
      { r with refused := fails i || (!s.entryFails b.part (b.entry (b.kidx i))
                 && (b.teamRecs (b.kidx i) (b.teamNo i)).any fails) } }

/-- STATE with SEALED and LAUNCHED (R315). -/
def sealedState (v : Nat) : Nat := v ||| 2 ^ 20 ||| 2 ^ 22

/-- The DONE word of a list as a submission of `n` records leaves it (R315). -/
def doneStart (n : Nat) : Nat := if n = 0 then 2 ^ 20 else 0

/-- A submission is made (R315), the DONE word of its list written: the scheduler works from the copy. -/
def State.submit (s : State) (b : Submission) : State :=
  ({ s with subs := s.subs ++ [s.markRefused { b with id := s.fresh }], fresh := s.fresh + 1 } : State).settleSub s.fresh

/-! ### Addresses and checks of the instructions (R311) -/

/-- The address that `post`, `seal` and `steal` name. -/
def Ctx.listAddr (c : Ctx) (l : Nat) : DWord := c.src .b64 c.f.a l

def alignCheck (c : Ctx) (ad : Nat → DWord) (n : Nat) : Check :=
  (c.act.filter fun l => !aligned (ad l).toNat n, fun l => { code := 0x04, addr := ad l })
def windowCheck (c : Ctx) (ad : Nat → DWord) : Check :=
  (c.act.filter fun l => inFabric (ad l), fun l => { code := 0x06, addr := ad l, aux0 := 1 })
def faultCheck (c : Ctx) (ad : Nat → DWord) (xl : Nat → Xl) : Check :=
  (c.act.filter fun l => (xlFault (xl l)).isSome, fun l => { code := 0x07, addr := ad l, aux0 := (xlFault (xl l)).getD 0 })

def Ctx.listXl (c : Ctx) (wr : Bool) (l : Nat) : Xl := c.st.translate c.tctx true wr (c.listAddr l)
/-- The physical address of a lane's header. -/
def Ctx.listPa (c : Ctx) (l : Nat) : Nat :=
  match c.listXl false l with
  | .ok t => t.addr (c.listAddr l)
  | _ => 0

/-- An access of a physical range by the lanes must wait. -/
def Ctx.busy (c : Ctx) (l pa n : Nat) : Bool :=
  c.st.acquiring (c.own l) || c.pair.captured l || c.st.keptAt pa n

/-- A result word goes to the lane's destination, unless `.nr`. -/
def Ctx.giveWord (c : Ctx) (s : State) (l : Nat) (v : Word) : State := c.giveStatus s l v

/-! ### `task` (R312) -/

/-- Every earlier access of the lanes is performed, and every engine operation of the block is complete. -/
def State.engineBusy (s : State) (place : Nat) (b : Block) : Bool :=
  let mine (o : Owner) : Bool := decide (o.part = b.part ∧ o.serial = b.serial ∧ o.block = b.block)
  (s.cores.any fun e => e.2.chans.any fun ch => ch.2.any fun k => mine k.own)
    || s.colls.any (fun k => mine k.own && !k.told) || b.pairs.any (fun q => decide (q.2.entering ≠ []))
    || (s.cores.any fun e => match e.2.engine with
        | some x => decide (x.place = place)
        | none => false)

def Ctx.taskWaits (c : Ctx) : Bool :=
  (c.act.any fun l => c.st.held.any (fun h => decide (h.own = c.own l)) || c.st.remotes.any (fun r => decide (r.own = c.own l))
      || (c.st.outs.any fun o => decide (o.own = c.own l) && (knownBytes o.bytes).isNone) || c.pair.captured l)
    || c.st.engineBusy c.place c.blk

/-- The record that the next `task` completes: the one taken by `steal`, or the block's own (R316). -/
def Block.toComplete (b : Block) : Option HeldRec :=
  match b.stolen with
  | some r => if r.completed then b.own.bind fun r => if r.completed then none else some r else some r
  | none => b.own.bind fun r => if r.completed then none else some r

/-- The record is marked as completed in its block. -/
def Block.marked (b : Block) (h : HeldRec) : Block :=
  let done (o : Option HeldRec) : Option HeldRec :=
    o.map fun r => if r.sub = h.sub ∧ r.idx = h.idx then { r with completed := true } else r
  { b with own := done b.own, stolen := done b.stolen }

/-- A held record of a block completes (R306). -/
def State.completeHeld (s : State) (place : Nat) (h : HeldRec) : State :=
  (s.mapBlock place fun b => b.marked h).completeRec h.sub h.idx false (s.core (coreOf place)).ts

/-- The header of a held record's list is kept by held bytes. -/
def State.recBusy (s : State) (h : HeldRec) : Bool := ((s.sub? h.sub).map fun b => s.headerBusy b.header).getD false

def taskBody (c : Ctx) (s : State) : Act :=
  match c.act, c.blk.toComplete with
  | [], _ => .done s
  | _, none => .done (c.act.foldl (fun s l => c.giveWord s l 0) s)
  | _, some h =>
    if c.taskWaits || c.st.recBusy h then .stall c.st
    else .done (c.act.foldl (fun s l => c.giveWord s l 1) (s.completeHeld c.place h))

/-! ### `post` (R313) -/

/-- The record source of a lane. -/
def Ctx.recWords (c : Ctx) (l : Nat) : List Word :=
  match c.f.b with
  | .reg n => (List.range 8).map fun k => c.half.reg l (n.toNat + k)
  | .uni n => (List.range 8).map fun k => c.half.ureg (n.toNat + k)
  | _ => []

/-- What a lane's append comes to: its code and INDEX, the slot's address, and the header's STATE after it. -/
structure Append where
  lane : Nat
  pa : Nat
  code : Nat
  idx : Nat
  wave : Nat
  state : Nat
deriving DecidableEq, Repr

/-- What a lane's append comes to from the header as it stands. -/
def Ctx.appendOf (c : Ctx) (s : State) (l : Nat) : Append :=
  let pa := c.listPa l
  let h := headerOf (s.bytesAt (.glob pa) 64)
  let st := s.natAt (.glob (pa + 20)) 4
  let n := st % 2 ^ 20
  if h.broken then { lane := l, pa, code := 3, idx := 0, wave := h.wave, state := st }
  else if st.testBit 20 then { lane := l, pa, code := 1, idx := 0, wave := h.wave, state := st }
  else if h.cap ≤ n then { lane := l, pa, code := 2, idx := 0, wave := h.wave, state := st ||| 2 ^ 21 }
  else { lane := l, pa, code := 0, idx := n, wave := h.wave, state := st + 1 }

def Ctx.slotAddr (c : Ctx) (a : Append) : DWord := c.listAddr a.lane + BitVec.ofNat 64 (64 + 32 * a.idx)
def Ctx.slotXl (c : Ctx) (a : Append) : Xl := c.st.translate c.tctx false true (c.slotAddr a)

/-- One append: the slot and the STATE word together (R266). -/
def Ctx.append (c : Ctx) (s : State) (a : Append) : State :=
  let store (s : State) (va : DWord) (pa : Nat) (bs : List Byte) : State :=
    s.storeLane (c.own a.lane) c.sl c.pc va (.glob pa) bs c.clears
  let s := match a.code, c.slotXl a with
    | 0, .ok t =>
      store s (c.slotAddr a) (t.addr (c.slotAddr a))
        ((c.recWords a.lane).take 6 |>.flatMap (fun w => leBytes 4 w.toNat) |>.append
          (leBytes 4 (a.idx + a.wave * 2 ^ 24) ++ leBytes 4 0))
    | _, _ => s
  let s := if a.code = 0 ∨ a.code = 2 then store s (c.listAddr a.lane + 20) (a.pa + 20) (leBytes 4 a.state) else s
  c.giveWord s a.lane (BitVec.ofNat 32 (a.code + (if a.code = 0 then a.idx * 2 ^ 12 else 0)))

/-- A lane's append to the header as the lanes before it leave it. -/
def Ctx.appendLane (c : Ctx) (s : State) (l : Nat) : State := c.append s (c.appendOf s l)

/-- The appends of some lanes, one after another (R313). -/
def Ctx.appendsFrom (c : Ctx) (s : State) : List Nat → List Append
  | [] => []
  | l :: r => c.appendOf s l :: c.appendsFrom (c.appendLane s l) r

/-- The appends that the issue will make, of the lanes whose headers translate. -/
def Ctx.appends (c : Ctx) : List Append :=
  c.appendsFrom c.st (c.act.filter fun l => match c.listXl true l with
    | .ok _ => !inFabric (c.listAddr l)
    | _ => false)

/-- Slots of the successful appends that fail a test, with the trap of the one at a lane. -/
def slotsWith (c : Ctx) (bad : Append → Bool) (t : Append → TrapInfo) : Check :=
  let as := c.appends.filter fun a => decide (a.code = 0) && bad a
  (as.map (·.lane), fun l => t ((as.find? fun a => a.lane = l).getD ⟨0, 0, 0, 0, 0, 0⟩))

/-- Slots that lie in the fabric window (R311). -/
def slotWindow (c : Ctx) : Check :=
  slotsWith c (fun a => inFabric (c.slotAddr a)) fun a => { code := 0x06, addr := c.slotAddr a, aux0 := 1 }

/-- Slots whose translation faults. -/
def slotCheck (c : Ctx) : Check :=
  slotsWith c (fun a => (xlFault (c.slotXl a)).isSome) fun a =>
    { code := 0x07, addr := c.slotAddr a, aux0 := (xlFault (c.slotXl a)).getD 0 }

/-- Lanes that meet an uncorrectable error in the words they name report it (R281). -/
def Ctx.meetAll (c : Ctx) (pa : Nat → Nat) (n : Nat) (s : State) : State :=
  c.act.foldl (fun s l => s.meetErr c.core (c.own l) (.glob (pa l)) n 2) s

/-- A lane's header cannot be read yet. -/
def Ctx.headerWaits (c : Ctx) (l : Nat) : Bool :=
  match c.listXl true l with
  | .wait => true
  | .ok t => !inFabric (c.listAddr l) && c.busy l (t.addr (c.listAddr l)) 64
  | .fault _ => false

/-- The lanes' own operands break R311 or R313. -/
def postOperands (c : Ctx) : Check := bothChecks (windowCheck c c.listAddr) (operandCheck c 2 fun l => recordBad (c.recWords l))

/-- `post` (R311, R313). Its operands and the slots that it will fill share a cause, of which the lowest lane is reported, so a header
below the first lane at fault is read first. -/
def postBody (c : Ctx) (s : State) : Act :=
  match firstTrap [alignCheck c c.listAddr 64] with
  | some t => .trap c.st t
  | none =>
    let first := (postOperands c).1.headD 64
    if c.act.any fun l => decide (l < first) && c.headerWaits l then .stall c.st
    else match firstTrap [bothChecks (postOperands c) (slotWindow c), bothChecks (faultCheck c c.listAddr (c.listXl true)) (slotCheck c)] with
      | some t => .trap c.st t
      | none =>
        if c.appends.any fun a => decide (a.code = 0) && (match c.slotXl a with
            | .ok t => c.busy a.lane (t.addr (c.slotAddr a)) 32
            | _ => true) then .stall c.st
        else .done (c.act.foldl c.appendLane (c.meetAll c.listPa 64 s))

/-! ### `post.cnt` (R314) -/

/-- The counter after an add: COUNT clamps and SAT sticks. -/
def histo (word c : Nat) : Nat :=
  let n := word % 2 ^ 20 + c
  Nat.min n 0xfffff + (if word.testBit 20 ∨ 0xfffff < n then 2 ^ 20 else 0)

/-- One lane's add to its counter, which behaves as an atomic (R217, R281). -/
def Ctx.countAt (c : Ctx) (pa : Nat → Nat) (s : State) (l : Nat) : State :=
  let x := Loc.glob (pa l)
  let dst := if c.f.nr then Dest.drop else destOf c.f.dst
  if (s.errIn x 4).isSome then c.pendBad l dst .b32 (c.gaddr l) ((s.fenceFail (c.own l) false false 15).meetErr c.core (c.own l) x 4 2)
  else
    let old := s.natAt x 4
    let s := s.storeLane (c.own l) c.sl c.pc (c.gaddr l) x (leBytes 4 (histo old (c.word c.f.c l))) c.clears
    c.pend l dst .b32 ((leBytes 4 old).map .byte) (c.gaddr l) .load s

def postCntBody (c : Ctx) (s : State) : Act :=
  let xl := c.xlates true true
  let pa (l : Nat) : Nat := match xl l with
    | .ok t => t.addr (c.gaddr l)
    | _ => 0
  match firstTrap [alignCheck c c.gaddr 4, windowCheck c c.gaddr, faultCheck c c.gaddr xl] with
  | some t => .trap c.st t
  | none =>
    if c.walkWaits xl || c.act.any fun l => c.busy l (pa l) 4 then .stall c.st
    else
      .done (c.act.foldl (c.countAt pa) s)

/-! ### `seal` (R315) -/

/-- The address is not uniform over the active lanes. -/
def Ctx.addrDiffers (c : Ctx) : Bool := (vote c.act c.listAddr).isNone

/-- The reads of a virtual range that a seal makes are placed right after it, in its core's logical time (R267, R315). -/
def Ctx.touchAgent (c : Ctx) (va : DWord) (n : Nat) (s : State) : State :=
  match c.st.virtRanges c.tctx c.st.fresh va (pagesOf n) n with
  | .ok (some rs) => s.touchRanges c.core c.blk.part rs
  | _ => s

/-- The word that `seal` returns, and the state after it: STATE and DONE are written as the lane's own writes (R228), and an error met in
the list or its kernel table is reported (R368). -/
def Ctx.sealAt (c : Ctx) (s : State) (l : Nat) : Option (State × Nat) :=
  let pa := c.listPa l
  let h := headerOf (c.st.bytesAt (.glob pa) 64)
  if h.sealed_ then some (s, 1)
  else match c.st.checkList c.tctx (c.listAddr l) pa with
    | .wait => none
    | .fault =>
      let s := s.rangeErr c.tctx (c.own l) false (BitVec.ofNat 64 h.ktab) (pagesOf 2048) 2048
      some (s.rangeErr c.tctx (c.own l) false (c.listAddr l + 64) (pagesOf (32 * h.count)) (32 * h.count), 3)
    | .bad | .room => some (s, 3)
    | .team => some (s, 2)
    | .ok h tab recs =>
      let la := (c.st.launches.find? fun x => x.part = c.blk.part ∧ x.serial = c.blk.serial).getD {}
      let va := c.listAddr l + 20
      let s := s.storeLane (c.own l) c.sl c.pc va (.glob (pa + 20)) (leBytes 4 (sealedState (c.st.natAt (.glob (pa + 20)) 4))) c.clears
      let s := s.storeLane (c.own l) c.sl c.pc (va + 4) (.glob (pa + 24)) (leBytes 4 (doneStart recs.length)) c.clears
      let s := c.touchAgent (BitVec.ofNat 64 h.ktab) 2048 (c.touchAgent (c.listAddr l + 64) (32 * h.count) s)
      some (s.submit { part := c.blk.part, header := pa, headerVa := c.listAddr l, asid := c.blk.asid, root := c.blk.root,
                       homeBase := h.homeBase, homeCnt := h.homeCnt, ktab := tab, recs := recs.map fun w => { words := w },
                       prio := la.prio, wb := c.blk.wb, ofa := c.blk.ofa, ts := (s.core c.core).ts }, 0)

def sealBody (c : Ctx) (s : State) : Act :=
  match c.act with
  | [] => .done s
  | l :: _ =>
    let xl := c.listXl true
    match firstTrap [alignCheck c c.listAddr 64, bothChecks (windowCheck c c.listAddr) (operandCheck c 1 fun _ => c.addrDiffers),
        faultCheck c c.listAddr xl] with
    | some t => .trap c.st t
    | none =>
      if c.walkWaits xl || c.busy l (c.listPa l) 64 then .stall c.st
      else match c.sealAt (s.meetErr c.core (c.own l) (.glob (c.listPa l)) 64 2) l with
        | none => .stall c.st
        | some (s, code) => .done (c.act.foldl (fun s l => c.giveWord s l (BitVec.ofNat 32 code)) s)

/-! ### `steal` (R316) -/

/-- Word 7 of a delivered record (R300). -/
def word7 (status : Nat) (stolen : Bool) (home : Nat) : Word := BitVec.ofNat 32 (status + (if stolen then 4 else 0) + home * 2 ^ 8)

/-- The oldest ready record of a submission that the block may take. -/
def State.stealable (s : State) (b : Submission) (kd : Nat) : Option (Nat × Nat × Nat) :=
  s.ready.find? fun e => e.1 = b.id ∧ b.teamSize e.2.1 = 1 ∧ entImage (b.entry e.2.1) = kd

/-- The block takes a record, or learns why it takes none: the eight words delivered. -/
def Ctx.stealAt (c : Ctx) (s : State) (pa : Nat) : State × List Word :=
  let none_ (k : Nat) : List Word := List.replicate 7 0 ++ [BitVec.ofNat 32 k]
  match (s.subs.filter fun b => decide (b.part = c.blk.part ∧ b.header = pa)).getLast? with
  | none => (s, none_ 3)
  | some b =>
    match s.stealable b c.blk.kernel.kd with
    | none => (s, none_ (if b.recs.all fun r => decide (r.state = .dispatched ∨ r.state = .done) then 2 else 1))
    | some e =>
      let i := (b.teamRecs e.2.1 e.2.2).headD 0
      let ws := (b.slot i).words.take 7 ++ [word7 0 (decide (clusterOf c.core ≠ b.home i)) (b.home i)]
      let s := { s with ready := s.ready.filter fun x => decide (x ≠ e) }
      let s := s.mapSub b.id fun b => b.mapRec i fun r => { r with state := .dispatched }
      (s.mapBlock c.place fun x => { x with stolen := some { sub := b.id, idx := i, words := ws } }, ws)

/-- A record taken by an earlier `steal` and not yet completed. -/
def Block.openStolen (b : Block) : Option HeldRec := b.stolen.bind fun r => if r.completed then none else some r

def stealBody (c : Ctx) (s : State) : Act :=
  match c.act, c.f.dst with
  | l :: _, .uni n =>
    let xl := c.listXl false
    match firstTrap [alignCheck c c.listAddr 64, bothChecks (windowCheck c c.listAddr) (operandCheck c 1 fun _ => c.addrDiffers),
        faultCheck c c.listAddr xl] with
    | some t => .trap c.st t
    | none =>
      if c.walkWaits xl || (match c.blk.openStolen with
          | some h => c.taskWaits || c.st.recBusy h
          | none => false) then .stall c.st
      else
        let s := match c.blk.openStolen with
          | some h => s.completeHeld c.place h
          | none => s
        let q := c.stealAt s (c.listPa l)
        .done (q.1.mapHalf c.place c.group c.sl fun h =>
          (List.range 8).foldl (fun h k => h.setUreg (n.toNat + k) (q.2.getD k 0)) h)
  | _, _ => .done s

/-! ### Meanings -/

def execTask (f : Ext) (s : State) : Host.Outcome State Fault Refusal := issue (.task f) taskBody s
def execPost (f : Ext) (s : State) : Host.Outcome State Fault Refusal := issue (.post f) postBody s
def execPostCnt (f : Ext) (s : State) : Host.Outcome State Fault Refusal := issue (.postCnt f) postCntBody s
def execSeal (f : Ext) (s : State) : Host.Outcome State Fault Refusal := issue (.seal f) sealBody s
def execSteal (f : Ext) (s : State) : Host.Outcome State Fault Refusal := issue (.steal f) stealBody s
/-- WINDOW_ENTRY (R303). -/
def execWindowEntry (part : Nat) (s : State) : Host.Outcome State Fault Refusal := .next (s.enterWindow part)

end Sys2Proof.Machine
end

