-- ==== Sys2Proof/Machine/Safepoint.lean ====
section
/-! DEFINITION. Safe points (R104): where lanes are held by a stop at safe points (R397, R400) and by breakpoints (R399). -/

namespace Sys2Proof.Machine
open Sys2Proof

/-- Lanes are held at the instruction they are about to issue; those of a hit or a step carry a pass mark (R400). -/
def State.hold (s : State) (place g : Nat) (sl : Slice) (ls : List Nat) : State :=
  let mark : Bool := match (s.pair place g).safe with
    | some ss => decide (ss.why ≠ .haltSafe)
    | none => false
  s.mapHalf place g sl fun h => ls.foldl (fun h l => h.setLane l { h.lane l with wait := .held, pass := (h.lane l).pass || mark }) h

/-- The enabled breakpoints that name the safe point of a path (R395, R399). -/
def State.bpsAt (s : State) (b : Block) (sl : Slice) (pc : Word) : List Nat :=
  if s.attached b.part ∧ s.selected b then
    match s.ordinal b.kernel sl pc with
    | none => []
    | some ord => (List.range 8).filter fun n =>
        let v := (s.sysreg b.part (0x018 + n)).toNat
        decide (v % 2 ^ 20 = ord) && v.testBit 20
  else []

/-- The instruction at an offset carries STOP (R104). -/
def State.stopAt (s : State) (b : Block) (sl : Slice) (pc : Word) : Bool :=
  match s.fetch b.kernel sl pc with
  | .ok (i, _) => stopOf i
  | .error _ => false

/-- BREAKPOINT_HIT (R399): the unmarked lanes of a path that is about to issue the safe point of an enabled breakpoint are
held, and the rest of the pair stops at safe points; none where nothing hits. -/
def State.breakHit (s : State) (place g : Nat) (sl : Slice) (pc : Word) (path : List Nat) : Option State :=
  match s.block? place with
  | none => none
  | some b =>
    let p := b.pair g
    let h := p.half sl
    let ls := path.filter fun l => !(h.lane l).pass
    if p.live = false ∨ p.run ≠ .running ∨ p.safe.isSome ∨ ls = [] ∨ s.stopAt b sl pc = false then none
    else match s.bpsAt b sl pc with
      | [] => none
      | n :: r =>
        let once (s : State) (k : Nat) : State :=
          let v := s.sysreg b.part (0x018 + k)
          if v.getLsbD 21 then s.setSysreg b.part (0x018 + k) (v &&& ~~~(1#64 <<< 20)) else s
        let s := (n :: r).foldl once s
        let ss : SafeStop := { why := .breakpoint n ((s.ordinal b.kernel sl pc).getD 0xffffffff) sl pc (laneMask ls), since := s.clk }
        some ((s.mapPair place g fun p => { p with safe := some ss }).hold place g sl ls)

/-- The lanes of a path that a stop at safe points holds before the instruction that they are about to issue: all of them at an
instruction with STOP, but in a step those that have not issued yet (R104, R397, R400; DEDUCED, log 66). -/
def State.toHold (s : State) (b : Block) (g : Nat) (sl : Slice) (pc : Word) (path : List Nat) : List Nat :=
  let p := b.pair g
  if p.safe.isNone || !s.stopAt b sl pc then []
  else
    let gone := match sl with
      | .access => p.stepped
      | .execute => p.steppedX
    path.filter fun l => !p.stepping || gone.getLsbD l

/-- Some lanes of a path may not issue the instruction that it is about to issue. -/
def State.barred (s : State) (place g : Nat) (sl : Slice) (pc : Word) (path : List Nat) : Bool :=
  (s.breakHit place g sl pc path).isSome || (s.block? place).any fun b => decide (s.toHold b g sl pc path ≠ [])

/-- A path is about to issue: a breakpoint is tested first (R399), then a stop at safe points. Whether lanes of it still issue. -/
def State.gate (s : State) (place g : Nat) (sl : Slice) (pc : Word) (path : List Nat) : State × Bool :=
  match s.breakHit place g sl pc path with
  | some t => (t, false)
  | none =>
    match s.block? place with
    | none => (s, false)
    | some b =>
      let ls := s.toHold b g sl pc path
      if ls = [] then (s, true) else (s.hold place g sl ls, decide (ls ≠ path))

end Sys2Proof.Machine
end

