-- ==== Sys2Proof/Machine/Matrix.lean ====
section
/-! DEFINITION. The matrix engine (R57, R58, R239 to R264): format and shape words, operand records and lane-fed operands,
block scales, the multiply, team multiplies, tile instructions, scale registers and `fmt.vote`. -/

namespace Sys2Proof.Machine
open Sys2Proof

/-! ### Format words (R57, R58) -/

/-- Formats of A and B by code (R57). -/
def matTy (k : Nat) : Ty := [Ty.f64, .f32, .bf16, .f16, .e4m3, .e5m2, .e2m1, .lg6, .ob8, .ob4].getD k .none
/-- Container width of an element (R244). -/
def matBits (t : Ty) : Nat := if t = .lg6 then 8 else tyWidth t
/-- 16 × the rate c of a format (R240). -/
def rate16 (t : Ty) : Nat :=
  match t with
  | .f64 => 1 | .f32 => 4 | .bf16 | .f16 => 16 | .e4m3 | .e5m2 | .ob8 => 32 | _ => 64

structure FmtWord where
  a : Ty
  b : Ty
  acc64 : Bool
  asc : Bool
  bsc : Bool
  azp : Bool
  bzp : Bool
  blk : Nat
  rnd : Rnd
  dsat : Bool
deriving DecidableEq, Repr

def fmtWord (w : Word) : FmtWord :=
  let n := w.toNat
  { a := matTy (n % 16), b := matTy (n / 16 % 16), acc64 := n.testBit 8, asc := n.testBit 10, bsc := n.testBit 11,
    azp := n.testBit 12, bzp := n.testBit 13, blk := [32, 16, 64].getD (n / 2 ^ 14 % 4) 0,
    rnd := [Rnd.rne, .rz, .ru, .rd].getD (n / 2 ^ 16 % 4) .rne, dsat := n.testBit 18 }

/-- The combinations of R58. -/
def fmtLegal (w : Word) : Bool :=
  let f := fmtWord w
  let plain := !f.asc && !f.bsc && !f.azp && !f.bzp && decide (f.blk = 32)
  let both (ts : List Ty) : Bool := decide (f.a ∈ ts ∧ f.b ∈ ts)
  decide (w.toNat / 2 ^ 19 = 0 ∧ w.getLsbD 9 = false ∧ f.blk ≠ 0) &&
    ((both [.f64] && f.acc64 && plain) || (both [.f32] && !f.acc64 && plain)
      || (!f.acc64 && !f.azp && !f.bzp && (both [.bf16, .f16] || both [.e4m3, .e5m2] || both [.e2m1] || both [.lg6]))
      || (!f.acc64 && (both [.ob8] || both [.ob4]) && (!f.azp || f.asc) && (!f.bzp || f.bsc)))

/-! ### Shape words (R240, R242, R255) -/

structure Shape where
  m : Nat
  n : Nat
  k : Nat
deriving DecidableEq, Repr

def shapeOf (w : Word) : Shape :=
  { m := 16 * (w.toNat % 64 + 1), n := 16 * (w.toNat / 64 % 64 + 1), k := w.toNat / 2 ^ 12 % 2 ^ 17 }

def ceilDiv (a b : Nat) : Nat := (a + b - 1) / b

/-- The work of R240 is within its bound. -/
def workOk (s : Shape) (t : Ty) : Bool := decide (ceilDiv s.m 64 * ceilDiv s.n 64 * s.k * 16 ≤ 16384 * rate16 t)

/-- The shape is legal on one core (R242, R240). -/
def shapeOk (w : Word) (f : FmtWord) : Bool :=
  let s := shapeOf w
  decide (w.toNat / 2 ^ 29 = 0 ∧ 0 < s.k ∧ s.k ≤ 65536 ∧ s.k % f.blk = 0 ∧ s.m ≤ 256 ∧ s.n ≤ 256) && workOk s f.a

/-- The shape that each computing member of a team multiplies, and the grid (R255). -/
def subShape (s : Shape) : Shape := { s with m := Nat.min s.m 256, n := Nat.min s.n 256 }
def gridM (s : Shape) : Nat := s.m / (subShape s).m
def gridN (s : Shape) : Nat := s.n / (subShape s).n

def teamShapeOk (w : Word) (f : FmtWord) (t : Nat) : Bool :=
  let s := shapeOf w
  decide (w.toNat / 2 ^ 29 = 0 ∧ 0 < s.k ∧ s.k ≤ 65536 ∧ s.k % f.blk = 0 ∧ (s.m ≤ 256 ∨ s.m % 256 = 0)
    ∧ (s.n ≤ 256 ∨ s.n % 256 = 0) ∧ gridM s * gridN s ≤ t) && workOk (subShape s) f.a

/-! ### Tiles (R50, R252) -/

def tileKey (t p : Nat) : Nat := t * 16384 + p

/-- An accumulator element: one tile, or the two of an FP64 pair. -/
def tileAt (b : Block) (acc64 : Bool) (t p : Nat) : Nat :=
  let w (t : Nat) : Nat := (smGet 0 b.tiles (tileKey t p)).toNat
  if acc64 then w t + w (t + 1) * 2 ^ 32 else w t

def putTile (m : SMap Word) (acc64 : Bool) (t p v : Nat) : SMap Word :=
  let m := smSet 0 m (tileKey t p) (BitVec.ofNat 32 v)
  if acc64 then smSet 0 m (tileKey (t + 1) p) (BitVec.ofNat 32 (v / 2 ^ 32)) else m

def tileStep (acc64 : Bool) : Nat := if acc64 then 2 else 1
def accFmt (acc64 : Bool) : Fmt := if acc64 then fp64 else fp32

/-- The tiles from one on that an instruction uses: the lowest offending one, if any (R50, R252, R258). -/
def tileBad (declared : Nat) (acc64 : Bool) (t n : Nat) : Option Nat :=
  if acc64 ∧ t % 2 = 1 then some t
  else if declared < t + n then some (Nat.max t declared)
  else none

/-- Tiles of an M × N result (R252). -/
def tilesUsed (acc64 : Bool) (s : Shape) : Nat := tileStep acc64 * ceilDiv s.m 128 * ceilDiv s.n 128

/-- Tile and position of a result element (R252). -/
def resultAt (acc64 : Bool) (dst : Nat) (s : Shape) (i j : Nat) : Nat × Nat :=
  (dst + tileStep acc64 * (i / 128 * ceilDiv s.n 128 + j / 128), i % 128 * 128 + j % 128)

/-! ### Operand records (R245 to R247) -/

structure Record where
  base : Nat
  rank : Nat
  peer : Bool
  rowq : Nat
  tileq : Nat
  rot : Nat
  reserved : Bool
deriving DecidableEq, Repr

def recordOf (v : DWord) : Record :=
  let n := v.toNat
  { base := n % 2 ^ 21, rank := n / 2 ^ 21 % 4, peer := n.testBit 23, rowq := n / 2 ^ 32 % 2 ^ 16, tileq := n / 2 ^ 48 % 2 ^ 13,
    rot := n / 2 ^ 61 % 4, reserved := decide (n / 2 ^ 24 % 256 ≠ 0) || n.testBit 63 || (!n.testBit 23 && decide (n / 2 ^ 21 % 4 ≠ 0)) }

def lineLen (k e : Nat) : Nat := ceilDiv (k * e) 8

/-- The record breaks a limit of R247. -/
def Record.bad (r : Record) (len : Nat) : Bool :=
  r.reserved || decide (r.base % 16 ≠ 0 ∨ r.rowq = 0 ∨ r.rowq * 16 < len ∨ (r.rot ≠ 0 ∧ r.rowq % 2 ^ r.rot ≠ 0))

/-- The pieces of a line as offset and length, in the order of its elements (R246). -/
def Record.pieces (r : Record) (len i : Nat) : List (Nat × Nat) :=
  let start := r.base + i / 64 * r.tileq * 256 + i % 64 * r.rowq * 16
  let x := i % 64 % 2 ^ r.rot
  if x = 0 then [(start, len)]
  else (List.range (ceilDiv len 16)).map fun c => (start + 16 * (c ^^^ x), Nat.min 16 (len - 16 * c))

/-- The place whose block a record reads; none where the named core holds no block of the team. -/
def State.recordPlace (s : State) (place : Nat) (r : Record) : Option Nat :=
  if r.peer then
    match s.block? place with
    | none => none
    | some b => (s.blocks.find? fun e => e.2.part = b.part ∧ e.2.serial = b.serial ∧ e.2.team = b.team
        ∧ coreOf e.1 = clusterOf (coreOf place) * 4 + r.rank).map (·.1)
  else some place

/-! ### Operands A and B (R243, R244) -/

inductive MSrc
  | record (v : DWord)
  | regs (b : Nat)
  | queue (q : Nat)
deriving DecidableEq, Repr

def Ctx.msrc (c : Ctx) (o : Operand) : MSrc :=
  match o with
  | .uni n => .record (c.half.ureg64 n.toNat)
  | .queue q => .queue q.toNat
  | .reg n => .regs n.toNat
  | _ => .regs 0

/-- An operand of a multiply: its position, its source, its lines and elements, its format, and its scales where the
format word asks for them. -/
structure MOp where
  pos : Nat
  src : MSrc
  lines : Nat
  k : Nat
  ty : Ty
  blk : Nat
  sc : Option Scale
  zp : Bool
deriving DecidableEq, Repr

def MOp.e (o : MOp) : Nat := matBits o.ty
def MOp.len (o : MOp) : Nat := lineLen o.k o.e
/-- Words that a lane supplies (R244). -/
def MOp.words (o : MOp) : Nat := o.k * o.e / 32

/-- Address of a scale entry (R249). -/
def entryAddr (sc : Scale) (i kb : Nat) : DWord :=
  sc.base + BitVec.ofNat 64 (4 * (i * 2 ^ (sc.ctl.toNat % 32) + sc.ctl.toNat / 32 % 2 ^ 21 + kb))

/-- Every scale entry that the operand reads, line by line. -/
def MOp.entries (o : MOp) : List DWord :=
  match o.sc with
  | none => []
  | some sc => (List.range o.lines).flatMap fun i => (List.range (o.k / o.blk)).map (entryAddr sc i)

/-- One address for each run of a page: the first of the run, then those of the rest. -/
def pageRunsFrom (a : DWord) : List DWord → List DWord
  | [] => [a]
  | b :: r => if a.toNat / 4096 = b.toNat / 4096 then pageRunsFrom a r else a :: pageRunsFrom b r

def pageRuns : List DWord → List DWord
  | [] => []
  | a :: r => pageRunsFrom a r

/-- Lane-fed limits, and those of a record and of the scales (items 2 of R253). -/
def MOp.illegal (o : MOp) (c : Ctx) : Bool :=
  (match o.src with
   | .record v => (recordOf v).bad o.len
   | .regs b => decide (o.lines ≠ c.w ∨ c.w < 16 ∨ c.blk.kernel.decl.nx < b + o.words ∨ (o.e = 64 ∧ b % 2 = 1))
   | .queue q => decide (o.lines ≠ c.w ∨ c.w < 16 ∨ c.blk.depth q < o.words))
    || (match o.sc with
        | none => false
        | some sc => decide (2 ^ (sc.ctl.toNat % 32) < sc.ctl.toNat / 32 % 2 ^ 21 + o.k / o.blk) || o.entries.any inFabric)

/-- The first scale entry that an uncorrectable error has reached; it faults with cause 0x4, as a walk's does: the model's choice
(DESIGN CHOICE, log 68). -/
def MOp.entryErr (o : MOp) (s : State) (t : TCtx) : Option DWord :=
  if s.errs = [] then none
  else o.entries.find? fun va => match s.translate t true false va with
    | .ok x => (s.errIn (.glob (x.addr va)) 4).isSome
    | _ => false

/-- Bytes of scratchpad that the operand reads; none where R247 faults. -/
def MOp.ranges (o : MOp) (s : State) (place : Nat) : Option (List (Loc × Nat)) :=
  match o.src with
  | .record v =>
    match s.recordPlace place (recordOf v) with
    | none => none
    | some p =>
      match s.block? p with
      | none => none
      | some b =>
        let ps := (List.range o.lines).flatMap ((recordOf v).pieces o.len)
        if ps.all fun x => decide (x.1 + x.2 ≤ b.kernel.decl.scratch) then some (ps.map fun x => (.sp p x.1, x.2)) else none
  | _ => some []

/-- Translations of the pages of the operand's scale entries. -/
def MOp.xls (o : MOp) (s : State) (t : TCtx) : List (DWord × Xl) := (pageRuns o.entries).map fun va => (va, s.translate t true false va)

/-- The 32-bit entries of a line, in ascending block (R72). -/
def MOp.entriesOf (o : MOp) (s : State) (t : TCtx) (i : Nat) : List Nat :=
  match o.sc with
  | none => []
  | some sc => (List.range (o.k / o.blk)).map fun kb =>
      match s.translate t true false (entryAddr sc i kb) with
      | .ok x => s.mem.readNat (x.addr (entryAddr sc i kb)) 4
      | _ => 0

/-- Bytes that the engine reads from scratchpad: those of a word that an uncorrectable error has reached are free values, the spec
giving such a read no result (R281, R384; DESIGN CHOICE, log 83). -/
def State.engineBytes (s : State) (l : Loc) (n : Nat) : List Byte :=
  if (s.errIn l n).isNone then s.bytesAt l n
  else (List.range n).map fun k =>
    if (s.errIn (locAdd l k) 1).isSome then (Config.freeWord (s.fresh + k)).setWidth 8 else s.byteAt (locAdd l k)

/-- Bytes of a line in element order; a lane outside `active` supplies zeros (R244). -/
def MOp.line (o : MOp) (s : State) (c : Ctx) (i : Nat) : List Byte :=
  match o.src with
  | .record v =>
    match s.recordPlace c.place (recordOf v) with
    | none => []
    | some p => ((recordOf v).pieces o.len i).flatMap fun x => s.engineBytes (.sp p x.1) x.2
  | .regs b => if i ∈ c.act then (List.range o.words).flatMap fun w => leBytes 4 (c.half.reg i (b + w)).toNat else List.replicate o.len 0
  | .queue q =>
    if i ∈ c.act then ((c.pair.queue q i).take o.words).flatMap fun e => leBytes 4 e.val.toNat else List.replicate o.len 0

/-- Element k of packed bytes (R67). -/
def elementAt (e : Nat) (bs : List Byte) (k : Nat) : Nat :=
  if e = 4 then (bs.getD (k / 2) 0).toNat / 16 ^ (k % 2) % 16 else leNat ((bs.drop (k * (e / 8))).take (e / 8))

/-- An element at operand fetch: a code, and the zero point that an OB code loses (R71). -/
structure MElem where
  code : Nat
  z : Nat
deriving DecidableEq, Repr

def MOp.elems (o : MOp) (s : State) (c : Ctx) (t : TCtx) (i : Nat) : List MElem :=
  let bs := o.line s c i
  let es := if o.zp then o.entriesOf s t i else []
  (List.range o.k).map fun k =>
    { code := elementAt o.e bs k,
      z := (es.getD (k / o.blk) 0) / 2 ^ 16 % (if o.ty = .ob8 then 256 else 16) }

/-! ### The multiply (R69, R71, R75 to R77, R251) -/

/-- The exact product of two elements (R75). -/
def product (ta tb : Ty) (a b : MElem) : Num :=
  if ta = .lg6 then lg6Mul a.code b.code
  else if isObTy ta then ofInt false (((a.code : Int) - a.z) * ((b.code : Int) - b.z)) 0
  else mulNum (decodeF (fmtOf ta) a.code) (decodeF (fmtOf tb) b.code)

/-- One block of products (R75). -/
def blockSum (f : FmtWord) (as bs : List MElem) : Num := exactBlock (List.zipWith (product f.a f.b) as bs)

/-- One block's step of R76; `ps` are the BF16 codes of the scales where the format word asks for any. -/
def blockStep (f : FmtWord) (acc : Nat) (as bs : List MElem) (ps : Option (Num × Num)) : Nat :=
  let d := blockSum f as bs
  let x := match ps with
    | none => d
    | some (sa, sb) => mulNum d (decodeF fp32 (round fp32 .rne (mulNum sa sb)))
  round fp32 f.rnd (addNum f.rnd (decodeF fp32 acc) x)

/-- R76 over the blocks of two lines, in ascending K. -/
def blocksFrom (f : FmtWord) : Nat → Nat → Nat → List MElem → List MElem → List Nat → List Nat → Nat
  | 0, _, acc, _, _, _, _ => acc
  | n + 1, blk, acc, as, bs, sas, sbs =>
    let one : Num := .fin false 1 0
    let sc (on : Bool) (e : List Nat) : Num := if on then decodeF bf16F (e.headD 0 % 2 ^ 16) else one
    let ps := if f.asc || f.bsc then some (sc f.asc sas, sc f.bsc sbs) else none
    blocksFrom f n blk (blockStep f acc (as.take blk) (bs.take blk) ps) (as.drop blk) (bs.drop blk) sas.tail sbs.tail

/-- R77: one fused multiply-add per product, in ascending K. -/
def fmaFrom (f : FmtWord) (acc : Nat) (as bs : List MElem) : Nat :=
  let F := accFmt f.acc64
  (List.zipWith (fun a b => (a, b)) as bs).foldl
    (fun acc p => round F f.rnd (addNum f.rnd (decodeF F acc) (product f.a f.b p.1 p.2))) acc

/-- The new value of one accumulator element. -/
def accumulate (f : FmtWord) (acc : Nat) (as bs : List MElem) (sas sbs : List Nat) : Nat :=
  if f.a = .f64 ∨ f.a = .f32 then fmaFrom f acc as bs else blocksFrom f (as.length / f.blk) f.blk acc as bs sas sbs

/-- What the lines of an operand supply. -/
structure MData where
  rows : List (List MElem)
  scales : List (List Nat)

def MOp.data (o : MOp) (s : State) (c : Ctx) : MData :=
  { rows := (List.range o.lines).map (o.elems s c c.tctx)
    scales := if o.sc.isSome then (List.range o.lines).map (o.entriesOf s c.tctx) else [] }

/-- The tiles of a block after a multiply of a shape (R251, R252). -/
def multiply (b : Block) (f : FmtWord) (ovw : Bool) (dst : Nat) (s : Shape) (x y : MData) : SMap Word :=
  (List.range s.m).foldl (fun m i => (List.range s.n).foldl (fun m j =>
    let at_ := resultAt f.acc64 dst s i j
    let acc := if ovw then 0 else tileAt b f.acc64 at_.1 at_.2
    putTile m f.acc64 at_.1 at_.2
      (accumulate f acc (x.rows.getD i []) (y.rows.getD j []) (x.scales.getD i []) (y.scales.getD j []))) m) b.tiles

/-! ### Reads and drains in memory (R263) -/

/-- A byte of the ranges is held, or an engine owns a line of them. -/
def State.rangesWait (s : State) (rs : List (Loc × Nat)) : Bool :=
  rs.any fun r => s.heldOver r.1 r.2 || s.ownedOver none r.1 r.2

/-- The scale entries of an operand as device-memory ranges. -/
def MOp.entryRanges (o : MOp) (s : State) (t : TCtx) : List (Loc × Nat) :=
  o.entries.filterMap fun va => match s.translate t true false va with
    | .ok x => some (.glob (x.addr va), 4)
    | _ => none

/-- The errors that the engine meets as it reads ranges are reported (R281, R384), and free values of later reads are new ones. -/
def State.readErrs (s : State) (core : Nat) (own : Owner) (rs : List (Loc × Nat)) : State :=
  rs.foldl (fun s r => if (s.errIn r.1 r.2).isSome then { s.meetErr core own r.1 r.2 3 with fresh := s.fresh + r.2 } else s) s

/-- The translations pinned for an operand, each of a whole page (R249). -/
def MOp.pins (o : MOp) (s : State) (t : TCtx) : List Tlb :=
  (pageRuns o.entries).filterMap fun va => match s.translate t true false va with
    | .ok x => some x
    | _ => none

def State.engineIdle (s : State) (core : Nat) : Bool := (s.core core).engine.isNone
def State.useEngine (s : State) (place g : Nat) (pins : List Tlb) : State :=
  s.mapCore (coreOf place) fun k => { k with engine := some { place, group := g, pins } }

/-! ### Checks (R253) -/

/-- The tiles that an instruction writes stay pending in the window that it opened (R101). -/
def Ctx.pendTiles (c : Ctx) (t n : Nat) (s : State) : State :=
  if c.f.ahead = 0 then s
  else s.mapHalf c.place c.group c.sl fun h => c.path.foldl (fun h l =>
    let x := h.lane l
    match x.wins.getLast? with
    | some w => h.setLane l { x with wins := x.wins.dropLast ++ [{ w with names := regRun .z t n }] }
    | none => h) h

/-- A lookahead violation by a register that only the format or shape word makes the instruction name (R102). -/
def Ctx.lateViolation (c : Ctx) (names : List Name) : Option TrapInfo :=
  if c.f.stop then none
  else
    match c.path.filter fun l => (brokenWin names (c.half.lane l)).isSome with
    | [] => none
    | l :: r => some { code := 0x03, lane := l, lanes := l :: r,
                       aux0 := ((brokenWin names (c.half.lane l)).map fun w => w.pc.toNat).getD 0 }

/-- The voted format word: a trap where it diverges or is illegal. -/
def Ctx.voteFmt (c : Ctx) (o : Operand) : Except TrapInfo FmtWord :=
  match vote c.act (fun l => lo32 (c.src .b32 o l)) with
  | none => .error { code := 0x0b, lane := c.act.headD 0xff, lanes := c.act }
  | some w => if fmtLegal w then .ok (fmtWord w) else .error { code := 0x06, lane := c.act.headD 0xff, lanes := c.act, aux0 := 5 }

/-- A trap of the whole issue. -/
def Ctx.whole (c : Ctx) (code : Nat) (aux0 : Nat := 0) (addr : DWord := 0) : TrapInfo :=
  { code, lane := c.act.headD 0xff, lanes := c.act, aux0, addr }

/-- Items 2 to 5 of R253 for operands and destination: the first that applies. A destination of no tiles is not checked. -/
def checkOps (c : Ctx) (ops : List MOp) (acc64 : Bool) (dst tiles : Nat) : Option TrapInfo :=
  match ops.find? fun o => o.illegal c with
  | some o => some (c.whole 0x06 o.pos)
  | none =>
    match (if tiles = 0 then none else tileBad c.blk.kernel.decl.tiles acc64 dst tiles) with
    | some t => some (c.whole 0x0c t)
    | none =>
      match ops.find? fun o => (o.ranges c.st c.place).isNone with
      | some o => some (c.whole 0x05 (match o.src with
          | .record v => (lo32 v).toNat
          | _ => 0))
      | none =>
        match (ops.flatMap fun o => o.xls c.st c.tctx).find? fun x => (xlFault x.2).isSome with
        | some x => some (c.whole 0x07 ((xlFault x.2).getD 0) x.1)
        | none => (ops.findSome? fun o => o.entryErr c.st c.tctx).map fun va => c.whole 0x07 4 va

/-- The operands' reads must wait: a translation, a held byte, or a line that an engine still owns (R249, R263). -/
def opsWait (c : Ctx) (ops : List MOp) : Bool :=
  ops.any fun o => (o.xls c.st c.tctx).any (fun x => x.2.waits) || c.st.rangesWait ((o.ranges c.st c.place).getD [])
    || c.st.rangesWait (o.entryRanges c.st c.tctx)

/-- The reads of the operands are placed. -/
def placeReads (c : Ctx) (ops : List MOp) (s : State) : State :=
  ops.foldl (fun s o =>
    let rs := (o.ranges c.st c.place).getD []
    (s.touchRanges c.core c.blk.part (rs ++ o.entryRanges c.st c.tctx)).readErrs c.core (c.own (c.act.headD 0)) rs) s

/-- An instruction of major 0x78 or 0x79 with an empty active has no effect, once the engine is idle (R239). -/
def Ctx.noneActive (c : Ctx) (s : State) : Act := if c.st.engineIdle c.core then .done s else .stall c.st

/-! ### `mma` (R243 to R253) -/

/-- The operands A and B of an issue of a shape (R243, R249). -/
def Ctx.opA (c : Ctx) (f : FmtWord) (s : Shape) : MOp :=
  { pos := 1, src := c.msrc c.f.a, lines := s.m, k := s.k, ty := f.a, blk := f.blk, sc := if f.asc then some c.pair.sca else none, zp := f.azp }
def Ctx.opB (c : Ctx) (f : FmtWord) (s : Shape) : MOp :=
  { pos := 2, src := c.msrc c.f.b, lines := s.n, k := s.k, ty := f.b, blk := f.blk, sc := if f.bsc then some c.pair.scb else none, zp := f.bzp }

/-- Queues that the operands take from, with the elements of each lane. -/
def queuesOf (ops : List MOp) : List (Nat × Nat) :=
  ops.foldl (fun qs o => match o.src with
    | .queue q =>
      (match qs.find? fun e => e.1 = q with
       | some e => (q, Nat.max e.2 o.words) :: qs.filter fun x => decide (x.1 ≠ q)
       | none => (q, o.words) :: qs)
    | _ => qs) []

/-- The registers that lane-fed operands name (R102). -/
def laneNames (ops : List MOp) : List Name :=
  ops.flatMap fun o => match o.src with
    | .regs b => regRun .r b o.words
    | _ => []

/-- The deferred trap of a token among the elements that the queue transfer would take, which are marked as reported
(R214, R244). -/
def Ctx.transferToken (c : Ctx) (qs : List (Nat × Nat)) : Option (State × TrapInfo) :=
  match c.act.filter fun l => qs.any fun q => frontToken (c.pair.queue q.1 l) q.2 with
  | [] => none
  | l :: r =>
    let q := (qs.find? fun q => frontToken (c.pair.queue q.1 l) q.2).getD (0, 0)
    let e := (((c.pair.queue q.1 l).take q.2).find? Elem.token).getD {}
    let mark (e : Elem) : Elem := if e.token then { e with replay := true } else e
    some (c.st.mapPair c.place c.group fun p => qs.foldl (fun p q => c.act.foldl (fun p l =>
        p.setQueue q.1 l (((p.queue q.1 l).take q.2).map mark ++ (p.queue q.1 l).drop q.2)) p) p,
      { code := 0x20, kind := 3, lane := l, lanes := l :: r, addr := e.addr, aux0 := q.1 + 16 * e.cause })

/-- The elements of the queue transfer are read again where R214 asks for it; none while such a read must wait. -/
def Ctx.transferReplay (c : Ctx) (qs : List (Nat × Nat)) : Option Ctx :=
  if c.replayStalls qs then none
  else if (c.toReplay qs).isEmpty then some c
  else
    let s := c.replay qs
    some { c with st := s, blk := (s.block? c.place).getD c.blk }

/-- The elements of the queue transfer leave the lanes' sequences (R244). -/
def Ctx.transfer (c : Ctx) (qs : List (Nat × Nat)) (s : State) : State :=
  s.mapPair c.place c.group fun p => qs.foldl (fun p q => c.act.foldl (fun p l => p.setQueue q.1 l ((p.queue q.1 l).drop q.2)) p) p

/-- The tile that a tile position names. -/
def tileNo (o : Operand) : Nat :=
  match o with
  | .reg n => n.toNat
  | _ => 0

def Ctx.ovw (c : Ctx) : Bool := c.f.mods.getLsbD 0

/-- The voted shape word. -/
def Ctx.voteShape (c : Ctx) : Except TrapInfo Word :=
  match vote c.act (fun l => lo32 (c.src .b32 c.f.d l)) with
  | none => .error (c.whole 0x0b)
  | some w => .ok w

/-- A divergence of either word comes before an illegal one (R58, R253). -/
def Ctx.words2 (c : Ctx) : Except TrapInfo (FmtWord × Word) :=
  match c.voteFmt c.f.c, c.voteShape with
  | .ok f, .ok w => .ok (f, w)
  | .error t, .ok _ => .error t
  | _, .error t => .error t

/-- The lane-fed queues of an `mma` whose words hold, with the elements that each lane supplies (R244). -/
def Ctx.transferQueues (c : Ctx) : List (Nat × Nat) :=
  if c.act = [] then []
  else match c.words2 with
    | .error _ => []
    | .ok (f, w) =>
      if !shapeOk w f then []
      else
        let sh := shapeOf w
        let ops := [c.opA f sh, c.opB f sh]
        match c.lateViolation (laneNames ops ++ regRun .z (tileNo c.f.dst) (tilesUsed f.acc64 sh)) with
        | some _ => []
        | none => (queuesOf ops).filter fun q => decide (q.2 ≤ c.blk.depth q.1)

def mmaBody (c : Ctx) (s : State) : Act :=
  if c.act = [] then c.noneActive s
  else match c.words2 with
    | .error t => .trap c.st t
    | .ok (f, w) =>
      if !shapeOk w f then .trap c.st (c.whole 0x06 4)
      else
        let sh := shapeOf w
        let ops := [c.opA f sh, c.opB f sh]
        let dst := tileNo c.f.dst
        let qs := (queuesOf ops).filter fun q => decide (q.2 ≤ c.blk.depth q.1)
        match c.lateViolation (laneNames ops ++ regRun .z dst (tilesUsed f.acc64 sh)) with
        | some t => .trap c.st t
        | none =>
          match c.transferReplay qs with
          | none => .stall c.st
          | some c' =>
            if qs.any fun q => c'.act.any fun l => !frontFilled (c'.pair.queue q.1 l) q.2 then .stall c'.st
            else match c'.transferToken qs with
              | some (s, t) => .trap s t
              | none =>
                if !c.st.engineIdle c.core then .stall c'.st
                else match checkOps c' ops f.acc64 dst (tilesUsed f.acc64 sh) with
                  | some t => .trap c'.st t
                  | none =>
                    if opsWait c' ops then .stall c'.st
                    else
                      let tiles := multiply c.blk f c.ovw dst sh ((c.opA f sh).data c'.st c') ((c.opB f sh).data c'.st c')
                      let s := (c.transfer qs s).mapBlock c.place fun b => { b with tiles }
                      let s := placeReads c' ops s
                      .done (c.pendTiles dst (tilesUsed f.acc64 sh)
                        (s.useEngine c.place c.group (ops.flatMap fun o => o.pins c.st c.tctx)))

/-! ### `mma.team` (R255, R256) -/

/-- The group is at the collective, and waits there. -/
def Ctx.atTeam (c : Ctx) : State :=
  c.st.mapPair c.place c.group fun p =>
    { p with teamWait := true
             exe := (p.exe.liveLanes c.w).foldl (fun h l => h.setLane l { h.lane l with wait := .rendezvous }) p.exe }

/-- A member at its collective: the instruction and its issue. -/
def State.memberCtx (s : State) (place g : Nat) : Option (Instr × Ctx) :=
  match s.block? place with
  | none => none
  | some b =>
    let h := (b.pair g).exe
    let pc := (h.lane ((h.liveLanes b.w).headD 0)).pc
    match s.fetch b.kernel .execute pc with
    | .ok (.mmaTeam f, _) =>
      ({ s with cur := { place, group := g, sl := .execute, pc } } : State).begin? (.mmaTeam f) |>.map fun c => (.mmaTeam f, c)
    | _ => none

/-- The lanes of a waiting member are ready to issue. -/
def State.wakeTeam (s : State) (place g : Nat) : State :=
  s.mapPair place g fun p =>
    { p with teamWait := false
             exe := { p.exe with lanes := p.exe.lanes.map fun e =>
               (e.1, if e.2.wait = .rendezvous then { e.2 with wait := .none } else e.2) } }

/-- The operands that a member supplies (R255): A for the first member of a grid row, B for the first row. -/
def Ctx.suppliesA (c : Ctx) (s : Shape) : Bool := decide (c.blk.member < gridM s * gridN s ∧ c.blk.member % gridN s = 0)
def Ctx.suppliesB (c : Ctx) (s : Shape) : Bool := decide (c.blk.member < gridN s)
def Ctx.computes (c : Ctx) (s : Shape) : Bool := decide (c.blk.member < gridM s * gridN s)

def Ctx.teamOps (c : Ctx) (f : FmtWord) (s : Shape) : List MOp :=
  (if c.suppliesA s then [c.opA f (subShape s)] else []) ++ (if c.suppliesB s then [c.opB f (subShape s)] else [])

/-- A member's own checks. -/
def Ctx.teamCheck (c : Ctx) (f : FmtWord) (w : Word) : Option TrapInfo :=
  let s := shapeOf w
  if !teamShapeOk w f c.blk.t then some (c.whole 0x06 4)
  else
    let n := if c.computes s then tilesUsed f.acc64 (subShape s) else 0
    match c.lateViolation (regRun .z (tileNo c.f.dst) n) with
    | some t => some t
    | none => checkOps c (c.teamOps f s) f.acc64 (tileNo c.f.dst) n

/-- Every member of a list takes a trap, or the team-issue fault naming the lowest that failed. A walk that met an uncorrectable
error is reported (R368). -/
def State.teamTraps (s : State) (ms : List (Ctx × Option TrapInfo)) : State :=
  let rank := ((ms.filter fun m => m.2.isSome).map fun m => m.1.blk.member).foldl Nat.min 16
  ms.foldl (fun s m =>
    let t := m.2.getD (m.1.whole 0x0d rank)
    (m.1.reportWalk t s).raiseTrap m.1.place m.1.group .execute m.1.pc t) s

/-- The members issue together: each commits, and each that computes multiplies its sub-tile (R255). -/
def State.teamIssue (s : State) (ms : List (Instr × Ctx)) (f : FmtWord) (sh : Shape) : State :=
  let strip (r : Nat) (a : Bool) : MData :=
    match ms.find? fun m => m.2.blk.member = r with
    | some m => (if a then m.2.opA f (subShape sh) else m.2.opB f (subShape sh)).data s m.2
    | none => ⟨[], []⟩
  ms.foldl (fun s' m =>
    let c := m.2
    let r := c.blk.member
    let s' := ({ c with st := s' } : Ctx).commit m.1
    let s' := if c.computes sh then
        let tiles := multiply c.blk f c.ovw (tileNo c.f.dst) (subShape sh) (strip (r / gridN sh * gridN sh) true) (strip (r % gridN sh) false)
        c.pendTiles (tileNo c.f.dst) (tilesUsed f.acc64 (subShape sh)) (s'.mapBlock c.place fun b => { b with tiles })
      else s'
    let ops := c.teamOps f sh
    (placeReads c ops s').useEngine c.place c.group (ops.flatMap fun o => o.pins c.st c.tctx)) s

/-- A member that is about to issue its collective and may not, at a stop at safe points or a breakpoint, is held and no longer at
the collective (R397, R399). -/
def State.teamHeld (s : State) (g : Nat) (m : Instr × Ctx) : Option State :=
  let path := (m.2.half.liveLanes m.2.w)
  if s.barred m.2.place g .execute m.2.pc path then
    some ((s.gate m.2.place g .execute m.2.pc path).1.mapPair m.2.place g fun p => { p with teamWait := false })
  else none

/-- TEAM_RENDEZVOUS (R256): with every member at the collective, all issue together, or all trap. A member that reaches it after a
group of the same number has ended waits for its watchdog, R256 naming a fault only for the members that wait as the group ends:
the model's choice (DESIGN CHOICE, log 67). -/
def State.teamMeet (s : State) (part serial team g : Nat) : State :=
  let places := (s.blocks.filter fun e => decide (e.2.part = part ∧ e.2.serial = serial ∧ e.2.team = team)).map (·.1)
  let t := ((places.head?.bind s.block?).map (·.t)).getD 0
  if places.length ≠ t ∨ t = 0 ∨ (places.any fun p => !(s.pair p g).teamWait || decide ((s.pair p g).run ≠ .running))
      ∨ (places.any fun p => !s.engineIdle (coreOf p)) then s
  else
    let up := places.foldl (fun s p => s.wakeTeam p g) s
    let ms := places.filterMap fun p => up.memberCtx p g
    if ms.length ≠ t then s
    else match ms.findSome? (s.teamHeld g) with
    | some held => held
    | none =>
      let votes : List (Except TrapInfo (FmtWord × Word)) := ms.map fun m => m.2.words2
      let words (m : Instr × Ctx) : Option Word × Option Word :=
        (vote m.2.act (fun l => lo32 (m.2.src .b32 m.2.f.c l)), vote m.2.act (fun l => lo32 (m.2.src .b32 m.2.f.d l)))
      if ms.any fun m => decide (words m ≠ words (ms.headD m)) || decide (words m).1.isNone || decide (words m).2.isNone then
        up.teamTraps (ms.map fun m => (m.2, some (m.2.whole 0x0b)))
      else match votes with
        | .ok (f, w) :: _ =>
          let checks := ms.map fun m => (m.2, m.2.teamCheck f w)
          if checks.any fun m => m.2.isSome then up.teamTraps checks
          else if ms.any fun m => opsWait m.2 (m.2.teamOps f (shapeOf w)) then s
          else up.teamIssue ms f (shapeOf w)
        | _ => up.teamTraps (ms.map fun m => (m.2, some (m.2.whole 0x06 5)))

/-- The group waits until group g of every member has reached the collective; with the last one all issue, where every engine is idle.
One with an empty active has no effect (R239). -/
def mmaTeamBody (c : Ctx) (s : State) : Act :=
  if c.act = [] then c.noneActive s else .stall (c.atTeam.teamMeet c.blk.part c.blk.serial c.blk.team c.group)

/-! ### Windows of tiles (R257) -/

structure TileWin where
  rows : Nat
  cols : Nat
  pitch : Nat
  reserved : Bool
deriving DecidableEq, Repr

def tileWin (w : Word) : TileWin :=
  { rows := w.toNat % 128 + 1, cols := w.toNat / 128 % 128 + 1, pitch := w.toNat / 2 ^ 16, reserved := decide (w.toNat / 2 ^ 14 % 4 ≠ 0) }

/-- Bytes of a window's row. -/
def TileWin.rowLen (w : TileWin) (e : Nat) : Nat := ceilDiv (w.cols * e) 8

/-- The window breaks a limit of R257. -/
def TileWin.bad (w : TileWin) (e : Nat) : Bool :=
  w.reserved || decide (w.pitch = 0 ∨ 16 * w.pitch < w.rowLen e ∨ (e = 4 ∧ w.cols % 2 = 1))

/-- The rows of the window as locations; none where R190 faults. -/
def Ctx.winRows (c : Ctx) (a : Word) (w : TileWin) (e : Nat) : Option (List (Loc × Nat)) :=
  (c.st.spTarget c.place a (16 * w.pitch * (w.rows - 1) + w.rowLen e)).map fun p =>
    (List.range w.rows).map fun x => (.sp p.1 (p.2 + 16 * w.pitch * x), w.rowLen e)

/-- Address and window of `zld` and `zst`, voted, with the position of the window operand. -/
def Ctx.window (c : Ctx) (wo : Operand) (pos e : Nat) : Except TrapInfo (Word × TileWin) :=
  match vote c.act (fun l => lo32 (c.src .b32 c.f.a l)), vote c.act (fun l => lo32 (c.src .b32 wo l)) with
  | none, _ => .error (c.whole 0x06 1)
  | _, none => .error (c.whole 0x06 pos)
  | some a, some w =>
    if a.toNat % 16 ≠ 0 then .error (c.whole 0x06 1)
    else if (tileWin w).bad e then .error (c.whole 0x06 pos)
    else .ok (a, tileWin w)

/-! ### Tile instructions (R258 to R261) -/

/-- The tile instruction waits for the engine, or its lanes act on the engine at once. -/
def Ctx.onEngine (c : Ctx) (t n : Nat) (s : State) : State := c.pendTiles t n (s.useEngine c.place c.group [])

def dropTiles (m : SMap Word) (t : Nat) : SMap Word := m.filter fun e => decide (e.1 / 16384 ≠ t)

def zclrBody (c : Ctx) (s : State) : Act :=
  let t := tileNo c.f.dst
  if c.act = [] then c.noneActive s
  else if !c.st.engineIdle c.core then .stall c.st
  else match tileBad c.blk.kernel.decl.tiles false t 1 with
    | some z => .trap c.st (c.whole 0x0c z)
    | none => .done (c.onEngine t 1 (s.mapBlock c.place fun b => { b with tiles := dropTiles b.tiles t }))

/-- The value that `zld` writes for an element: a narrow code converted exactly to FP32 (R258). -/
def zldValue (t : Ty) (v : Nat) : Nat := if t = .bf16 ∨ t = .f16 then round fp32 .rne (decodeF (fmtOf t) v) else v

def zldBody (c : Ctx) (s : State) : Act :=
  let t := tileNo c.f.dst
  let wide := decide (c.f.ty = .f64)
  let e := matBits c.f.ty
  if c.act = [] then c.noneActive s
  else match c.lateViolation (regRun .z t (tileStep wide)) with
    | some v => .trap c.st v
    | none =>
      if !c.st.engineIdle c.core then .stall c.st
      else match c.window c.f.b 2 e with
        | .error v => .trap c.st v
        | .ok (a, w) =>
          match tileBad c.blk.kernel.decl.tiles wide t (tileStep wide), c.winRows a w e with
          | some z, _ => .trap c.st (c.whole 0x0c z)
          | none, none => .trap c.st (c.whole 0x05 a.toNat)
          | none, some rows =>
            if c.st.rangesWait rows then .stall c.st
            else
              let tiles := (rows.mapIdx fun x r => (x, c.st.engineBytes r.1 r.2)).foldl (fun m r =>
                (List.range w.cols).foldl (fun m y =>
                  putTile m wide t (r.1 * 128 + y) (zldValue c.f.ty (elementAt e r.2 y))) m) c.blk.tiles
              .done (c.onEngine t (tileStep wide)
                (((s.touchRanges c.core c.blk.part rows).readErrs c.core (c.own (c.act.headD 0)) rows).mapBlock c.place fun b => { b with tiles }))

/-- The targets of a drain (R259): those that the accumulate format allows. -/
def drainOk (acc64 : Bool) (t : Ty) : Bool :=
  if acc64 then decide (t ∈ [Ty.f64, .f32, .bf16, .f16]) else decide (t ∈ [Ty.f32, .bf16, .f16, .e5m2, .e4m3, .e2m1])

/-- An accumulator value rounded to a target; its own format moves the bits (R259). -/
def drainCode (f : FmtWord) (t : Ty) (rnd : Rnd) (v : Nat) : Nat :=
  if t = (if f.acc64 then .f64 else .f32) then v
  else satIf f.dsat (fmtOf t) (round (fmtOf t) rnd (decodeF (accFmt f.acc64) v))

/-- Codes packed as bytes (R67). -/
def packCodes (e : Nat) (cs : List Nat) : List Byte :=
  if e = 4 then (List.range (ceilDiv cs.length 2)).map fun k => BitVec.ofNat 8 (cs.getD (2 * k) 0 + 16 * cs.getD (2 * k + 1) 0)
  else cs.flatMap (leBytes (e / 8))

/-- One row of a drain: an engine write whose dropped bytes are reported once (R225). One that meets an uncorrectable error is
reported and dropped (R384, log 83). -/
def Ctx.drainRow (c : Ctx) (a : Word) (base : Nat) (q : State × Bool) (r : Loc × List Byte) : State × Bool :=
  if (q.1.errIn r.1 r.2.length).isSome then (q.1.meetErr c.core (c.own (c.act.headD 0)) r.1 r.2.length 3, q.2) else
  let w := q.1.storeEngine (some c.core) r.1 r.2
  if w.2 ∧ q.2 = false then
    let off := match r.1 with
      | .sp _ o => o - base
      | .glob _ => 0
    (w.1.addDrop (c.own (c.act.headD 0)) c.sl c.pc ((a + BitVec.ofNat 32 (off + q.1.liveOffset r.1 r.2.length)).zeroExtend 64), true)
  else (w.1, q.2)

def zstBody (c : Ctx) (s : State) : Act :=
  let t := tileNo c.f.b
  let e := matBits c.f.ty
  if c.act = [] then c.noneActive s
  else match c.voteFmt c.f.d with
    | .error v => .trap c.st v
    | .ok f =>
      match c.lateViolation (regRun .z t (tileStep f.acc64)) with
      | some v => .trap c.st v
      | none =>
        if !c.st.engineIdle c.core then .stall c.st
        else if !drainOk f.acc64 c.f.ty then .trap c.st (c.whole 0x06 5)
        else match c.window c.f.c 3 e with
          | .error v => .trap c.st v
          | .ok (a, w) =>
            match tileBad c.blk.kernel.decl.tiles f.acc64 t (tileStep f.acc64), c.winRows a w e with
            | some z, _ => .trap c.st (c.whole 0x0c z)
            | none, none => .trap c.st (c.whole 0x05 a.toNat)
            | none, some rows =>
              if c.st.rangesWait rows then .stall c.st
              else
                let base := match rows.head? with
                  | some (.sp _ o, _) => o
                  | _ => 0
                let bytes := rows.mapIdx fun x r => (r.1, packCodes e ((List.range w.cols).map fun y =>
                  drainCode f c.f.ty c.f.rnd (tileAt c.blk f.acc64 t (x * 128 + y))))
                .done (c.onEngine t 0 (bytes.foldl (c.drainRow a base) (s, false)).1)

/-- Positions at which some tile of a list is not +0.0; every other position holds +0.0 in each of them. -/
def livePositions (m : SMap Word) (ts : List Nat) : List Nat :=
  ((m.filter fun e => decide (e.1 / 16384 ∈ ts)).map fun e => e.1 % 16384).eraseDups

/-- The value of `zcvt` at a position, as a value of the destination's format (R260). -/
def zcvtCode (f : FmtWord) (t : Ty) (rnd : Rnd) (v : Nat) : Nat :=
  round (accFmt (decide (t = .f64))) .rne (decodeF (fmtOf t) (drainCode f t rnd v))

/-- A conversion to its own format keeps the bits; every other is written as its exact value. -/
def zcvtValue (f : FmtWord) (t : Ty) (rnd : Rnd) (v : Nat) : Nat :=
  if t = (if f.acc64 then .f64 else .f32) then v else zcvtCode f t rnd v

def zcvtBody (c : Ctx) (s : State) : Act :=
  let zd := tileNo c.f.dst
  let zs := tileNo c.f.a
  let wide := decide (c.f.ty = .f64)
  if c.act = [] then c.noneActive s
  else match c.voteFmt c.f.b with
    | .error v => .trap c.st v
    | .ok f =>
      let n := tileStep f.acc64
      let k := tileStep wide
      match c.lateViolation (regRun .z zd k ++ regRun .z zs n) with
      | some v => .trap c.st v
      | none =>
        if !c.st.engineIdle c.core then .stall c.st
        else if (decide (zd ≠ zs) || decide (k ≠ n)) && decide (zd < zs + n ∧ zs < zd + k) then .trap c.st (c.whole 0x06 0)
        else match tileBad c.blk.kernel.decl.tiles wide zd k, tileBad c.blk.kernel.decl.tiles f.acc64 zs n with
          | some z, some y => .trap c.st (c.whole 0x0c (Nat.min z y))
          | some z, none => .trap c.st (c.whole 0x0c z)
          | none, some y => .trap c.st (c.whole 0x0c y)
          | none, none =>
            let ps := livePositions c.blk.tiles (List.range' zs n)
            let clear := (List.range k).foldl (fun m j => dropTiles m (zd + j)) c.blk.tiles
            let tiles := ps.foldl (fun m p => putTile m wide zd p (zcvtValue f c.f.ty c.f.rnd (tileAt c.blk f.acc64 zs p))) clear
            .done (c.onEngine zd k (s.mapBlock c.place fun b => { b with tiles }))

def zaddBody (c : Ctx) (s : State) : Act :=
  let zd := tileNo c.f.dst
  let zs := tileNo c.f.a
  if c.act = [] then c.noneActive s
  else match c.voteFmt c.f.b with
    | .error v => .trap c.st v
    | .ok f =>
      let n := tileStep f.acc64
      let F := accFmt f.acc64
      match c.lateViolation (regRun .z zd n ++ regRun .z zs n) with
      | some v => .trap c.st v
      | none =>
        if !c.st.engineIdle c.core then .stall c.st
        else match tileBad c.blk.kernel.decl.tiles f.acc64 zd n, tileBad c.blk.kernel.decl.tiles f.acc64 zs n with
          | some z, some y => .trap c.st (c.whole 0x0c (Nat.min z y))
          | some z, none => .trap c.st (c.whole 0x0c z)
          | none, some y => .trap c.st (c.whole 0x0c y)
          | none, none =>
            let ps := livePositions c.blk.tiles (List.range' zd n ++ List.range' zs n)
            let sum (p : Nat) : Nat :=
              round F f.rnd (addNum f.rnd (decodeF F (tileAt c.blk f.acc64 zd p)) (decodeF F (tileAt c.blk f.acc64 zs p)))
            let tiles := ps.foldl (fun m p => putTile m f.acc64 zd p (sum p)) c.blk.tiles
            .done (c.onEngine zd n (s.mapBlock c.place fun b => { b with tiles }))

/-! ### Scale registers and `fmt.vote` (R248, R254) -/

def sclBody (isA : Bool) (c : Ctx) (s : State) : Act :=
  match c.act with
  | [] => .done s
  | l :: _ =>
    let base := c.src .b64 c.f.a l
    let ctl := lo32 (c.src .b32 c.f.b l)
    if base.toNat % 4 ≠ 0 then .trap c.st (c.whole 0x06 1)
    else if ctl.toNat / 2 ^ 26 ≠ 0 ∨ 20 < ctl.toNat % 32 then .trap c.st (c.whole 0x06 2)
    else
      let r : Scale := { base, ctl }
      .done (s.mapPair c.place c.group fun p => if isA then { p with sca := r } else { p with scb := r })

def fmtVoteBody (c : Ctx) (s : State) : Act :=
  if c.act = [] then .done s
  else match c.voteFmt c.f.a with
    | .error t => .trap c.st t
    | .ok _ => .done (c.writeAll false (c.src .b32 c.f.a) s)

/-! ### Meanings -/

def execMma (f : Ext) (s : State) : Host.Outcome State Fault Refusal := issueMeet false (.mma f) mmaBody s
def execMmaTeam (f : Ext) (s : State) : Host.Outcome State Fault Refusal := issueMeet false (.mmaTeam f) mmaTeamBody s
def execZclr (f : Ext) (s : State) : Host.Outcome State Fault Refusal := issueMeet false (.zclr f) zclrBody s
def execZld (f : Ext) (s : State) : Host.Outcome State Fault Refusal := issueMeet false (.zld f) zldBody s
def execZst (f : Ext) (s : State) : Host.Outcome State Fault Refusal := issueMeet false (.zst f) zstBody s
def execZcvt (f : Ext) (s : State) : Host.Outcome State Fault Refusal := issueMeet false (.zcvt f) zcvtBody s
def execZadd (f : Ext) (s : State) : Host.Outcome State Fault Refusal := issueMeet false (.zadd f) zaddBody s
def execSclSetA (f : Ext) (s : State) : Host.Outcome State Fault Refusal := issueMeet false (.sclSetA f) (sclBody true) s
def execSclSetB (f : Ext) (s : State) : Host.Outcome State Fault Refusal := issueMeet false (.sclSetB f) (sclBody false) s
def execFmtVote (f : Ext) (s : State) : Host.Outcome State Fault Refusal := issueMeet false (.fmtVote f) fmtVoteBody s

/-- A matrix instruction of majors 0x78 and 0x79 is issued. -/
def issueMatrix (i : Instr) (s : State) : Host.Outcome State Fault Refusal :=
  match i with
  | .mma f => execMma f s
  | .mmaTeam f => execMmaTeam f s
  | .zclr f => execZclr f s
  | .zld f => execZld f s
  | .zst f => execZst f s
  | .zcvt f => execZcvt f s
  | .zadd f => execZadd f s
  | _ => .next s

/-- The matrix instruction at which every live execute lane of a running group stands, ready. -/
def State.matrixAt (s : State) (place g : Nat) : Option (Cursor × Instr) :=
  match s.block? place with
  | none => none
  | some b =>
    let p := b.pair g
    let ls := p.exe.liveLanes b.w
    let pc := (p.exe.lane (ls.headD 0)).pc
    if p.live ∧ p.run = .running ∧ ls ≠ [] ∧ p.teamWait = false ∧ ls.all (atPc p.exe pc) then
      match s.fetch b.kernel .execute pc with
      | .ok (i, _) => if majorOf i = 0x78 ∨ majorOf i = 0x79 then some ({ place, group := g, sl := .execute, pc }, i) else none
      | .error _ => none
    else none

/-- The groups of a core in the order in which its engine accepts (R239): issue slot, then lane offset. -/
def State.engineOrder (s : State) (core : Nat) : List (Nat × Nat) :=
  ([0, 1].flatMap fun slot => (List.range 64).flatMap fun off =>
    (s.blocks.filter fun e => decide (coreOf e.1 = core)).flatMap fun e =>
      (e.2.pairs.filter fun q => decide (q.2.xslot = slot ∧ q.2.xpos = off)).map fun q => (e.1, q.1))

/-- The issue is that of a team's rendezvous, which tests it for stops itself (R256): not of a collective with an empty active. -/
def State.ofTeam (s : State) (i : Instr) : Bool :=
  match i with
  | .mmaTeam _ => (s.begin? i).any fun c => decide (c.act ≠ [])
  | _ => false

/-- MATRIX_ACCEPT (R239): the idle engine takes the first waiting group's instruction, which issues. -/
def execMatrixAccept (core : Nat) (s : State) : Host.Outcome State Fault Refusal :=
  if s.engineIdle core = false then .next s
  else match (s.engineOrder core).findSome? fun e => s.matrixAt e.1 e.2 with
    | none => .next s
    | some (cur, i) =>
      let path := ((s.pair cur.place cur.group).exe.liveLanes (((s.block? cur.place).map Block.w).getD 0))
      let q := if ({ s with cur } : State).ofTeam i then (s, true) else s.gate cur.place cur.group .execute cur.pc path
      if q.2 then issueMatrix i { q.1 with cur } else .next q.1

/-- MATRIX_COMPLETE (R240, R249): the engine is idle again and its pinned translations are released. -/
def execMatrixComplete (core : Nat) (s : State) : Host.Outcome State Fault Refusal :=
  .next (s.mapCore core fun k => { k with engine := none })

def execTeamRendezvous (part serial team group : Nat) (s : State) : Host.Outcome State Fault Refusal :=
  .next (s.teamMeet part serial team group)

end Sys2Proof.Machine
end

