-- ==== Sys2Proof/Machine/Schedule.lean ====
section
/-! DEFINITION. The scheduler: taking packets (R342 to R347), heads and their order (R348 to R352), placement (R353 to
R358), the start and the end of blocks (R24 to R27, R59), the end and the abort of launches (R274, R347, R392). -/

namespace Sys2Proof.Machine
open Sys2Proof

/-! ### Taking packets (R343 to R346) -/

/-- The partition that a work queue is assigned to (R342, R420). -/
def State.queuePart (s : State) (q : Nat) : Option Nat :=
  if q < 4096 then (s.parts.find? fun e => e.2.valid ∧ e.2.qfirst ≤ q ∧ q < e.2.qfirst + e.2.qcount).map (·.1) else none

/-- The descriptor of a queue breaks R343: `d` its 64 bytes, `last` the largest WIDX read so far. -/
def queueBroken (r : PartRec) (d : List Byte) (last : Nat) : Bool :=
  let ring := field d 0 8
  let logn := field d 8 1
  let widx := field d 16 8
  decide (2 ^ logn < widx - field d 24 8 ∨ widx < last ∨ widx < field d 24 8)
    || decide (field d 9 1 / 4 ≠ 0 ∨ field d 10 1 / 4 ≠ 0 ∨ field d 11 1 ≠ 0 ∨ field d 14 2 ≠ 0 ∨ field d 40 24 ≠ 0 ∨ 16 < logn)
    || decide (ring % 4096 ≠ 0) || !partOwns r ring (64 * 2 ^ logn)

/-- The packet that 64 bytes of a ring give (R344). -/
def packetOf (p : List Byte) (queue idx part prio clk : Nat) : Packet :=
  let dw (off : Nat) : DWord := BitVec.ofNat 64 (field p off 8)
  { queue, idx, part, ty := field p 0 2, ofa := (field p 2 1).testBit 0, waitPrev := (field p 2 1).testBit 1, t := field p 3 1,
    n := field p 4 3, kd := dw 8, args := dw 16, compl := dw 24, wb := field p 32 2, waitAddr := dw 40, waitVal := dw 48,
    prio, takenAt := clk }

/-- R344 is broken, or N is not a multiple of T (R29, R346 code 1). -/
def packetBroken (p : List Byte) (k : Packet) : Bool :=
  decide (k.ty ≠ 1 ∧ k.ty ≠ 2) || decide (field p 2 1 / 4 ≠ 0 ∨ field p 7 1 ≠ 0 ∨ field p 34 6 ≠ 0 ∨ field p 56 8 ≠ 0)
    || decide (k.compl.toNat % 8 ≠ 0 ∨ k.waitAddr.toNat % 8 ≠ 0)
    || (if k.ty = 1 then decide (k.t < 1 ∨ 16 < k.t ∨ k.n = 0 ∨ k.n % k.t ≠ 0)
        else decide (k.t ≠ 0 ∨ k.n ≠ 0 ∨ k.args ≠ 0 ∨ k.kd.toNat % 64 ≠ 0))

/-- A translation needed at take: it fails, or it is kept waiting by a held byte of a table. -/
def State.takeXl (s : State) (p : Packet) (rd wr : Bool) (va : DWord) : Xl :=
  if va = 0 then .ok {} else s.translate (s.queueCtx p) rd wr va

/-- The physical address of a work-list header under a packet's context. -/
def State.headerPa (s : State) (p : Packet) : Option Nat :=
  match s.translate (s.queueCtx p) true false p.kd with
  | .ok t => if t.remote then none else some (t.addr p.kd)
  | _ => none

/-- What the list of a TYPE 2 packet comes to at a check (R346). -/
def State.packetList (s : State) (p : Packet) : ListCheck :=
  match s.translate (s.queueCtx p) true false p.kd with
  | .fault _ => .fault
  | .wait => .wait
  | .ok t =>
    if t.remote then .fault
    else if s.keptAt (t.addr p.kd) 64 then .wait
    else
      let c := s.checkList (s.queueCtx p) p.kd (t.addr p.kd)
      match c with
      | .ok h _ _ => if h.sealed_ then c else .bad
      | .room => if (headerOf (s.bytesAt (.glob (t.addr p.kd)) 64)).sealed_ then c else .bad
      | _ => c

/-! ### Placing teams: candidates and their order (R353, R354) -/

def insertBy {α : Type} (le : α → α → Bool) (x : α) : List α → List α
  | [] => [x]
  | y :: r => if le x y then x :: y :: r else y :: insertBy le x r
def sortBy {α : Type} (le : α → α → Bool) (xs : List α) : List α := xs.foldr (insertBy le) []

/-- A candidate core: 0 for a core carved to the split or 1 for an empty one, and its resident blocks. -/
structure Cand where
  core : Nat
  kind : Nat
  count : Nat
deriving DecidableEq, Repr

/-- The order of preference of R353. -/
def Cand.before (a b : Cand) : Bool :=
  decide (a.kind < b.kind ∨ (a.kind = b.kind ∧ (a.count < b.count ∨ (a.count = b.count ∧ a.core ≤ b.core))))

/-- Sets of `k` clusters in ascending order of their numbers. -/
def choose : Nat → List Nat → List (List Nat)
  | 0, _ => [[]]
  | _ + 1, [] => []
  | k + 1, c :: r => (choose k r).map (fun xs => c :: xs) ++ choose (k + 1) r

/-- Cores taken cluster by cluster, as many from each as it offers and the team still needs. -/
def takeCores (cands : List Cand) : List Nat → Nat → List Nat
  | [], _ => []
  | c :: r, t =>
    let here := ((cands.filter fun x => decide (clusterOf x.core = c)).take t).map (·.core)
    here ++ takeCores cands r (t - here.length)

/-- The member cores of a team, in ascending order (R353, R354): over all clusters, or in the fewest that include one, or
in one alone (R358). `cands` is in R353's order. -/
def teamCores (clusters : List Nat) (cands : List Cand) (t : Nat) (must : Option Nat) (only : Bool) : Option (List Nat) :=
  let room (c : Nat) : Nat := (cands.filter fun x => decide (clusterOf x.core = c)).length
  let done (cs : List Nat) : Option (List Nat) :=
    let got := takeCores cands cs t
    if got.length = t then some (sortBy (fun a b => decide (a ≤ b)) got) else none
  match must with
  | some c =>
    if only then done [c]
    else (List.range 4).findSome? fun k =>
      ((choose k (clusters.filter fun x => decide (x ≠ c))).find? fun cs => decide (t ≤ (c :: cs).foldl (fun n x => n + room x) 0)).bind
        fun cs => done (c :: cs)
  | none =>
    if t = 1 then (cands.head?).map fun x => [x.core]
    else (List.range 4).findSome? fun k =>
      ((choose (k + 1) (clusters.filter fun x => decide (room x ≠ 0))).find? fun cs =>
        decide (t ≤ cs.foldl (fun n x => n + room x) 0)).bind done

/-- Declarations of the blocks in a core's slots. -/
def State.declsOn (s : State) (core : Nat) : List Decl :=
  (s.blocks.filter fun e => decide (coreOf e.1 = core)).map fun e => e.2.kernel.decl

/-- Declarations whose resources are not yet free in this clk, resident blocks included (R356). -/
def State.busyDecls (s : State) (core : Nat) : List Decl :=
  s.declsOn core ++ ((s.core core).freed.filter fun e => decide (e.1 = s.clk)).map (·.2.2)

def coresOf (r : PartRec) : List Nat := (clustersOf r).flatMap fun c => (List.range 4).map fun k => 4 * c + k

/-- The candidates for one more block of a launch, in order (R353). -/
def State.cands (s : State) (la : Launch) : List Cand :=
  let d := la.kernel.decl
  sortBy Cand.before ((coresOf (s.partRec la.part)).filterMap fun c =>
    let k := s.core c
    let busy := s.busyDecls c
    if k.drain.isSome || (match k.reserved with
        | some x => decide (x ≠ la.src)
        | none => false) then none
    else if k.split = some d.split then
      (if fitsCore d.split (d :: busy) then some { core := c, kind := 0, count := (s.declsOn c).length } else none)
    else if busy = [] ∧ fitsCore d.split [d] then some { core := c, kind := 1, count := 0 }
    else none)

/-- The cores of every team of a concurrent launch, as though the partition were empty and carved to its split (R357). -/
def planTeams (r : PartRec) (d : Decl) (t : Nat) : Nat → Option (List (List Nat))
  | 0 => some []
  | k + 1 =>
    match planTeams r d t k with
    | none => none
    | some plan =>
      let on (c : Nat) : Nat := (plan.flatMap fun x => x.filter fun y => decide (y = c)).length
      let cands := sortBy Cand.before ((coresOf r).filterMap fun c =>
        if fitsCore d.split (List.replicate (on c + 1) d) then some { core := c, kind := 0, count := on c } else none)
      (teamCores (clustersOf r) cands t none false).map fun x => plan ++ [x]

/-- Every block of a concurrent launch could be resident at once, a bound that R35 puts on N. -/
def State.plan (s : State) (la : Launch) : Option (List (List Nat)) :=
  if 3072 < la.n then none else planTeams (s.partRec la.part) la.kernel.decl la.t (la.n / la.t)

/-! ### The check of a packet (R346) -/

/-- The launch that a TYPE 1 packet asks for, before it has a serial, under the context of the present (R364). -/
def State.packetLaunch (s : State) (p : Packet) : Launch :=
  { part := p.part, kernel := s.kernelAt p.part p.kd.toNat, n := p.n, t := p.t, asid := s.queueAsid p.queue,
    root := (s.sysreg p.part 0x00a).toNat, args := p.args,
    wb := p.wb, ofa := p.ofa, prio := p.prio, src := .packet p.queue p.idx }

/-- A translation of the take fails, or waits. -/
def State.takeFaults (s : State) (p : Packet) : Option Bool :=
  let xs := [s.takeXl p false true p.compl, s.takeXl p true false p.waitAddr]
  if xs.any (fun x => decide (x = .wait)) then none else some (xs.any fun x => match x with
    | .fault _ => true
    | _ => false)

/-- Codes 1 to 9 of a TYPE 1 packet whose KDESC lies in the code area; none where every check passes. -/
def State.launchCode (s : State) (p : Packet) (first supq : Nat) : Option Nat :=
  let kd := p.kd.toNat
  let st := s.descStatus kd
  let la := s.packetLaunch p
  if !s.isDesc p.part kd ∨ st = 1 then some 1
  else if st ≠ 0 then some st
  else if !teamPossible (s.partRec p.part) p.t ∨ (la.kernel.decl.cls = .concurrent ∧ (s.plan la).isNone) then some 5
  else match la.kernel.mode with
    | .user => none
    | .supervisor => if p.queue < first + supq then none else some 9
    | .firmware => some 9

/-- PACKET_CHECK: a completion code, 0 where the packet goes on; none while a held byte keeps a check from being made. -/
def State.packetCode (s : State) (p : Packet) (bytes : List Byte) : Option Nat :=
  let r := s.partRec p.part
  match s.takeFaults p with
  | none => none
  | some bad =>
    if p.ty = 1 then
      if bad ∨ !s.inCode p.part p.kd.toNat then some 7
      else if packetBroken bytes p then some 1
      else some ((s.launchCode p r.qfirst r.supq).getD 0)
    else if p.ty = 2 then
      match s.packetList p with
      | .wait => none
      | .fault => some 7
      | c =>
        if bad then some 7
        else if packetBroken bytes p then some 1
        else match c with
          | .ok _ _ _ => some 0
          | .room => some 8
          | _ => some 1
    else some (if bad then 7 else 1)

/-- PACKET_TAKE (R343, R345): the next packet of an enabled queue is taken and checked, or the queue is set in error; it waits for
bytes that a store or an engine keeps (R270). -/
def State.takePacket (s : State) (q : Nat) : State :=
  match s.queuePart q with
  | none => s
  | some part =>
    let a := s.queueAt q
    if s.keptAt a 64 then s
    else
      let d := s.mem.read a 64
      let flags := field d 10 1
      let ridx := field d 24 8
      let widx := field d 16 8
      if flags % 4 ≠ 1 then s
      else if queueBroken (s.partRec part) d (smGet 0 s.lastIdx q) then
        { s.putNat (a + 10) 1 (flags ||| 2) with lastIdx := smErase s.lastIdx q }
      else
        let s : State := { s with lastIdx := smPut s.lastIdx q widx }
        if widx ≤ ridx then s
        else
          let pa := field d 0 8 + 64 * (ridx % 2 ^ (field d 8 1))
          if s.keptAt pa 64 then s
          else
            let bs := s.mem.read pa 64
            let p := { packetOf bs q ridx part (field d 9 1 % 4) s.clk with
              ts := Nat.max (s.lineTime (.glob a)).wtime (s.lineTime (.glob pa)).wtime }
            match s.packetCode p bs with
            | none => s
            | some code =>
              let s := s.putNat (a + 24) 8 (ridx + 1)
              let s : State := { s with packets := s.packets ++ [p] }
              if code = 0 then s else s.completePacket q ridx code

/-! ### Heads and their order (R348, R349, R352) -/

def State.launch? (s : State) (part serial : Nat) : Option Launch := s.launches.find? fun l => l.part = part ∧ l.serial = serial
def State.mapLaunch (s : State) (part serial : Nat) (f : Launch → Launch) : State :=
  { s with launches := s.launches.map fun l => if l.part = part ∧ l.serial = serial then f l else l }

/-- Blocks of the packet are not all placed. -/
def State.unplaced (s : State) (p : Packet) : Bool :=
  p.code.isNone &&
    (if p.ty = 1 then
      match p.serial with
      | none => true
      | some n => ((s.launch? p.part n).map fun l => decide (l.placed.length * l.t < l.n)).getD false
    else
      match p.sub with
      | none => true
      | some id => ((s.sub? id).map fun b => b.recs.any fun r => decide (r.state ≠ .dispatched ∧ r.state ≠ .done)).getD false)

/-- The head of a queue (R348). -/
def State.headOf (s : State) (q : Nat) : Option Packet := s.packets.find? fun p => p.queue = q && s.unplaced p

/-- WAITPREV and the wait word let the packet be placed (R349). -/
def State.released (s : State) (p : Packet) : Bool :=
  (!p.waitPrev || s.packets.all fun x => decide (¬ (x.queue = p.queue ∧ x.idx + 1 = p.idx)) || s.isWritten x)
    && (decide (p.waitAddr = 0) || p.waitOk)

/-- The next team of a launch to be placed. -/
def Launch.nextTeam (la : Launch) : Nat :=
  ((List.range (la.placed.length + 1)).find? fun k => decide (k ∉ la.placed)).getD la.placed.length

/-- A head that placement considers: its class and place in the order, its launch (with its serial once one is open), and the logical
time after which its blocks' accesses lie (R345). -/
structure Head where
  cls : Nat
  turn : Nat
  queue : Option Nat
  la : Launch
  opened : Bool
  sub : Option Packet
  ts : Nat := 0

def State.rr (s : State) (part cls : Nat) : Nat := smGet 0 s.rrs (4 * part + cls)

/-- A packet's head: of class 0 once it has placed no block for 2^24 clk (R348). -/
def State.packetHead (s : State) (p : Packet) : Head :=
  let cls := if p.aged ∨ p.takenAt + 2 ^ 24 ≤ s.clk then 0 else p.prio
  let la := match p.serial.bind (s.launch? p.part) with
    | some l => l
    | none => s.packetLaunch p
  { cls, turn := (p.queue + 4096 - s.rr p.part cls) % 4096, queue := some p.queue, la, opened := p.serial.isSome,
    sub := if p.ty = 2 then some p else none, ts := p.ts }

/-- A firmware-mode launch that waits (R352): before the queues of class 0. -/
def State.fwHead (s : State) (h : FwHead) : Head :=
  let part := h.l.part
  let la := match h.serial.bind (s.launch? part) with
    | some l => l
    | none =>
      { part, kernel := s.kernelAt part h.l.kdesc.toNat, n := h.l.nblk, t := h.l.team, asid := (s.sysreg part 0x00b).toNat % 2 ^ 16,
        root := (s.sysreg part 0x00a).toNat, args := h.l.args, wb := h.l.wb, ofa := h.l.ofa, src := .firmware h.id }
  { cls := 0, turn := 0, queue := none, la, opened := h.serial.isSome, sub := none }

def Head.before (a b : Head) : Bool :=
  decide (a.cls < b.cls) || (decide (a.cls = b.cls) && (a.queue.isNone || (b.queue.isSome && decide (a.turn ≤ b.turn))))

/-- The heads of a partition that may be placed, in R348's order. -/
def State.heads (s : State) (part : Nat) : List Head :=
  let ps := s.packets.filter fun p => decide (p.part = part) && s.released p
    && ((s.headOf p.queue).map fun h => decide (h.idx = p.idx)).getD false
  let fs := s.fwHeads.filter fun h => decide (h.l.part = part)
    && ((h.serial.bind (s.launch? part)).map fun l => decide (l.placed.length * l.t < l.n)).getD true
  sortBy Head.before (fs.map s.fwHead ++ ps.map s.packetHead)

/-! ### Placing (R350, R356) -/

/-- The next launch serial of a partition (R350). -/
def State.nextSerial (s : State) (part : Nat) : Nat :=
  let next := smGet 0 s.serials part
  ((List.range (s.launches.length + 1)).map fun k => (next + k) % 2 ^ 24).find? (fun n => (s.launch? part n).isNone) |>.getD 0

/-- A launch is opened: it receives its serial. -/
def State.openLaunch (s : State) (la : Launch) : State × Nat :=
  let n := s.nextSerial la.part
  ({ s with launches := s.launches ++ [{ la with serial := n }], serials := smPut s.serials la.part ((n + 1) % 2 ^ 24) }, n)

/-- The lowest slot of a core that is free in this clk. -/
def State.freeSlot (s : State) (core : Nat) : Nat :=
  ((List.range 16).find? fun k => (s.block? (placeOf core k)).isNone
    && (s.core core).freed.all fun e => decide (¬ (e.1 = s.clk ∧ e.2.1 = k))).getD 0

/-- A block takes a slot, with a new SEQ (R335, R356); a core that changes its split loses its L1 (R34). -/
def State.occupy (s : State) (core slot : Nat) (b : Block) : State :=
  let k := s.core core
  let split := b.kernel.decl.split
  let k := if k.split = some split then k else { k with split := some split, leases := [], recalls := [] }
  (s.setCore core { k with seqs := smPut k.seqs slot ((smGet 0 k.seqs slot + 1) % 4096) }).setBlock (placeOf core slot) b

/-- The blocks of a team are placed in one step on their cores, member ranks in ascending core number (R354); their accesses lie after
the logical time `ts` of what their launch waited for (R306, R315). -/
def State.placeTeam (s : State) (la : Launch) (team : Nat) (cores : List Nat) (ts : Nat) (own : Nat → Option HeldRec) : State :=
  let s := (List.range la.t).foldl (fun s m =>
    let core := cores.getD m 0
    let s := s.mapCore core fun k => { k with ts := Nat.max k.ts ts }
    s.occupy core (s.freeSlot core)
      { part := la.part, serial := la.serial, block := team * la.t + m, member := m, kernel := la.kernel, n := la.n, t := la.t,
        asid := la.asid, root := la.root, ofa := la.ofa, wb := la.wb, own := own m, started := false }) s
  s.mapLaunch la.part la.serial fun l => { l with placed := l.placed ++ [team] }

/-- A launch whose unstarted blocks are held back while a started block is saved (R288). -/
def Launch.heldBack (la : Launch) : Bool := decide (la.kernel.decl.cls = .parallel) && !la.saved.isEmpty

/-- The cores for a head's next team, none of them one that is taken already. -/
def State.headCoresBut (s : State) (taken : List Nat) (h : Head) : Option (List Nat) :=
  let la := h.la
  if la.heldBack ∨ la.aborting then none
  else if la.kernel.decl.cls = .concurrent then
    match (s.plan la).bind fun p => p[la.nextTeam]? with
    | none => none
    | some cores =>
      let cs := s.cands la
      if cores.all fun c => decide ((s.core c).reserved = some la.src ∧ c ∉ taken) && cs.any fun x => decide (x.core = c) then some cores
      else none
  else teamCores (clustersOf (s.partRec la.part)) ((s.cands la).filter fun x => decide (x.core ∉ taken)) la.t none false

/-- The cores for a head's next team. -/
def State.headCores (s : State) (h : Head) : Option (List Nat) := s.headCoresBut [] h

/-- The latest write time of the lines of a virtual range. -/
def State.virtTime (s : State) (c : TCtx) (va : DWord) (n : Nat) : Nat :=
  match s.virtRanges c s.fresh va (pagesOf n) n with
  | .ok (some rs) => (rs.flatMap fun r => inLines r.1 r.2).foldl (fun t x => Nat.max t (s.lineTime x).wtime) 0
  | _ => 0

/-- The logical time of the reads that copy a packet's list: after its packet, and after what they read (R326, R345). -/
def State.listTime (s : State) (p : Packet) (h : ListHeader) : Nat :=
  let c := s.queueCtx p
  Nat.max p.ts (Nat.max (s.virtTime c p.kd (64 + 32 * h.count)) (s.virtTime c (BitVec.ofNat 64 h.ktab) 2048))

/-- The list of a TYPE 2 packet can be copied, or refused, now. -/
def State.canSubmit (s : State) (p : Packet) : Bool :=
  match s.packetList p, s.headerPa p with
  | .wait, _ => false
  | .ok _ _ _, some pa => !s.headerBusy pa
  | _, _ => true

/-- A TYPE 2 packet is submitted in its turn (R315, R346): the list is checked again as it is copied. -/
def State.submitPacket (s : State) (p : Packet) : State :=
  match s.packetList p, s.headerPa p with
  | .ok h tab recs, some pa =>
    if s.headerBusy pa then s
    else
      let id := s.fresh
      let ts := s.listTime p h
      let s := (s.headerWord (pa + 24) fun _ => doneStart recs.length).mapPacket p.queue p.idx fun x => { x with sub := some id }
      s.submit
        { part := p.part, header := pa, headerVa := p.kd, asid := s.queueAsid p.queue, root := (s.sysreg p.part 0x00a).toNat,
          homeBase := h.homeBase, homeCnt := h.homeCnt, ktab := tab, recs := recs.map fun w => { words := w }, prio := p.prio, wb := p.wb, ofa := p.ofa,
          packet := some (p.queue, p.idx), ts }
  | .wait, _ => s
  | .fault, _ => s.completePacket p.queue p.idx 7
  | .room, _ => s.completePacket p.queue p.idx 8
  | _, _ => s.completePacket p.queue p.idx 1

/-- Serving a head moves the pointer of the class it is served in (R348). -/
def State.served (s : State) (h : Head) : State :=
  match h.queue with
  | none => s
  | some q =>
    let s : State := { s with rrs := smPut s.rrs (4 * h.la.part + h.cls) (q + 1) }
    match s.headOf q with
    | some p => s.mapPacket q p.idx fun x => { x with takenAt := s.clk, aged := false }
    | none => s

/-- The head's launch has its serial. -/
def State.opened (s : State) (h : Head) : State × Nat :=
  if h.opened then (s, h.la.serial)
  else
    let r := s.openLaunch h.la
    match h.la.src with
    | .packet q i => (r.1.mapPacket q i fun p => { p with serial := some r.2 }, r.2)
    | .firmware id =>
      ({ r.1 with fwHeads := r.1.fwHeads.map fun x => if x.id = id then { x with serial := some r.2 } else x }, r.2)
    | .region _ _ => r

/-- A head is served: its next team is placed, or its list submitted. -/
def State.serve (s : State) (h : Head) (cores : List Nat) : State :=
  match h.sub with
  | some p => (s.served h).submitPacket p
  | none =>
    let s := s.served h
    let r := s.opened h
    r.1.placeTeam { h.la with serial := r.2 } h.la.nextTeam cores h.ts fun _ => none

/-! #### Ready teams (R307, R358) -/

/-- The cluster in whose ready list a team stands. -/
def State.listOf (s : State) (e : Nat × Nat × Nat) : Option (Nat × Nat) :=
  (s.sub? e.1).map fun b => (b.part, b.teamHome e.2.1 e.2.2)

/-- The launch of a kernel-table entry of a submission, with its serial once one is open; before that under the context of the
present, a sealed list's ASID being that of its seal (R308, R310, R364). -/
def State.subLaunch (s : State) (b : Submission) (k : Nat) : Launch × Bool :=
  match (b.launches.find? fun e => e.1 = k).bind fun e => s.launch? b.part e.2 with
  | some l => (l, true)
  | none =>
    ({ part := b.part, kernel := s.kernelAt b.part (entImage (b.entry k)), n := (b.ofKidx k).length, t := b.teamSize k,
       asid := match b.packet with
         | some (q, _) => s.queueAsid q
         | none => b.asid
       root := (s.sysreg b.part 0x00a).toNat, args := entArgs (b.entry k), wb := b.wb, ofa := b.ofa, prio := b.prio,
       src := .region b.id k }, false)

/-- The cores of a ready team that a cluster places (R358), none of them taken already: its own, or, of more than four blocks, those of
the fewest clusters that include it. -/
def State.readyCores (s : State) (taken : List Nat) (e : Nat × Nat × Nat) (cluster : Nat) : Option (List Nat) :=
  match s.sub? e.1 with
  | none => none
  | some b =>
    let la := (s.subLaunch b e.2.1).1
    if la.heldBack ∨ la.aborting then none
    else teamCores (clustersOf (s.partRec b.part)) ((s.cands la).filter fun x => decide (x.core ∉ taken)) la.t (some cluster) (decide (la.t ≤ 4))

/-- The oldest team of a cluster's own list. -/
def State.ownReady (s : State) (part cluster : Nat) : Option (Nat × Nat × Nat) := s.ready.find? fun e => s.listOf e = some (part, cluster)

/-- The cores that heads and ready teams of the classes above one take before it (R348, R356, R358): each class leaves the next what it
does not take. -/
def State.claims (s : State) (part : Nat) : Nat → List Nat
  | 0 => []
  | cls + 1 =>
    let taken := s.claims part cls
    let heads := (s.heads part).filter fun h => h.sub.isNone && decide (h.cls = cls)
    let teams := (clustersOf (s.partRec part)).filterMap fun cl => (s.ownReady part cl).bind fun e =>
      if (s.sub? e.1).any fun b => decide (b.prio = cls) then some (e, cl) else none
    taken ++ (heads.filterMap (s.headCoresBut taken)).flatten ++ (teams.filterMap fun e => s.readyCores taken e.1 e.2).flatten

/-- PLACEMENT (R348 to R354): the first head in order that can be placed, on cores that no earlier class takes. -/
def State.place (s : State) (part team : Nat) : State :=
  match (s.heads part).findSome? fun h =>
      match h.sub with
      | some p => if p.sub.isNone && s.canSubmit p then some (h, []) else none
      | none => (s.headCoresBut (s.claims part h.cls) h).map fun cs => (h, cs) with
  | none => s
  | some (h, cores) => if h.sub.isSome ∨ team = h.la.nextTeam then s.serve h cores else s

/-- HEAD_AGING (R348). -/
def State.ageHead (s : State) (q : Nat) : State :=
  match s.headOf q with
  | none => s
  | some p => if p.takenAt + 2 ^ 24 ≤ s.clk then s.mapPacket q p.idx fun x => { x with aged := true } else s

/-- WAIT_WORD_READ (R349): an ordinary read under the queue's ASID. A word in the fabric window is read remotely. -/
def State.readWaitWord (s : State) (q : Nat) : State :=
  match s.headOf q with
  | none => s
  | some p =>
    if p.waitAddr = 0 then s
    else match s.translate (s.queueCtx p) true false p.waitAddr with
      | .ok t =>
        if t.remote then
          State.addRemote { s with fresh := s.fresh + 1 }
            { id := s.fresh, own := p.waitOwner, op := .read, peer := t.peer, addr := p.waitAddr, raddr := t.addr p.waitAddr, ty := .b64 }
        else if s.keptAt (t.addr p.waitAddr) 8 then s
        else if p.waitVal.toNat ≤ s.mem.readNat (t.addr p.waitAddr) 8 then s.mapPacket q p.idx fun x => { x with waitOk := true }
        else s
      | _ => s

/-- A core is marked draining towards a split; an empty core takes it at once (R34). -/
def State.markDrain (s : State) (core : Nat) (src : Source) (split : Nat × Nat) : State :=
  if s.declsOn core = [] then s.mapCore core fun k => { k with split := some split, drain := none, leases := [], recalls := [] }
  else s.mapCore core fun k => { k with drain := some { src, split } }

/-- A core of a partition is draining for another launch (R355). -/
def State.drainsFor (s : State) (part : Nat) (src : Source) : Bool :=
  (coresOf (s.partRec part)).any fun c => (s.core c).drain.any fun d => decide (d.src ≠ src)

/-- CONCURRENT_ADMISSION (R286, R357): the first concurrent head of a partition without a reservation has its cores
reserved; those of another split drain. A core that is draining stays so until it is empty, and no admission is made while cores drain
for another launch (R34, R355). -/
def State.admitHead (s : State) (part : Nat) : State :=
  let cores := coresOf (s.partRec part)
  if cores.any fun c => (s.core c).reserved.isSome then s
  else
    match (s.heads part).find? fun h => h.sub.isNone && decide (h.la.kernel.decl.cls = .concurrent ∧ h.la.placed = []) with
    | none => s
    | some h =>
      match s.plan h.la with
      | none => s
      | some plan =>
        if s.drainsFor part h.la.src then s
        else (plan.flatMap fun x => x).eraseDups.foldl (fun s c =>
          let s := s.mapCore c fun k => { k with reserved := some h.la.src }
          if (s.core c).split = some h.la.kernel.decl.split ∨ (s.core c).drain.isSome then s
          else s.markDrain c h.la.src h.la.kernel.decl.split) s

/-- DRAIN_MARK (R355): one more core drains for the head of the highest waiting class that cannot place its next team. -/
def State.drainOne (s : State) (part : Nat) : State :=
  match (s.heads part).find? fun h => h.sub.isNone && !h.la.heldBack && !h.la.aborting && (s.headCores h).isNone with
  | none => s
  | some h =>
    let split := h.la.kernel.decl.split
    let cores := coresOf (s.partRec part)
    let open_ := cores.filter fun c => (s.core c).drain.isNone && (s.core c).reserved.isNone && decide (s.busyDecls c ≠ [])
    let draining := cores.filter fun c => (s.core c).drain.isSome && (s.core c).reserved.isNone
    if decide (h.la.kernel.decl.cls = .concurrent) || open_.any (fun c => decide ((s.core c).split = some split))
        || decide (h.la.t ≤ draining.length) || s.drainsFor part h.la.src then s
    else
      match sortBy Cand.before ((open_.filter fun c => decide (s.declsOn c ≠ [])).map fun c => { core := c, kind := 0, count := (s.declsOn c).length }) with
      | [] => s
      | c :: _ => s.markDrain c.core h.la.src split

/-! ### Placing ready teams (R307, R358) -/

/-- A ready team is placed for a cluster; STOLEN says of each member whether it runs outside its record's home (R300). -/
def State.placeReady (s : State) (e : Nat × Nat × Nat) (cluster : Nat) : State :=
  match s.sub? e.1 with
  | none => s
  | some b => match s.readyCores (s.claims b.part b.prio) e cluster with
    | none => s
    | some cores =>
      let k := e.2.1
      let r := s.subLaunch b k
      let o := if r.2 then (s, r.1.serial) else s.openLaunch r.1
      let s := o.1
      let idxs := b.teamRecs k e.2.2
      let s := s.mapSub b.id fun b =>
        { idxs.foldl (fun b i => b.mapRec i fun x => { x with state := .dispatched }) b with
          launches := if r.2 then b.launches else b.launches ++ [(k, o.2)] }
      let s : State := { s with ready := s.ready.filter fun x => decide (x ≠ e) }
      s.placeTeam { r.1 with serial := o.2 } e.2.2 cores b.ts fun m =>
        let i := idxs.getD m 0
        let away := decide (clusterOf (cores.getD m 0) ≠ b.home i)
        some { sub := b.id, idx := i, words := (b.slot i).words.take 7 ++ [word7 0 away (b.home i)] }

/-- TEAM_READY_PLACE: the oldest team of a cluster's own list. -/
def State.placeOwn (s : State) (part cluster : Nat) : State :=
  match s.ownReady part cluster with
  | none => s
  | some e => s.placeReady e cluster

/-- CLUSTER_STEAL: with its own list empty, a cluster takes the oldest team of the list that holds the most. -/
def State.clusterTakes (s : State) (part cluster : Nat) : State :=
  let size (c : Nat) : Nat := (s.ready.filter fun e => decide (s.listOf e = some (part, c))).length
  let cs := clustersOf (s.partRec part)
  if size cluster ≠ 0 ∨ cluster ∉ cs then s
  else
    let best := cs.foldl (fun m c => Nat.max m (size c)) 0
    match cs.find? fun c => size c = best ∧ best ≠ 0 with
    | none => s
    | some c => match s.ownReady part c with
      | none => s
      | some e => s.placeReady e cluster

/-! ### The start of blocks (R20, R26, R30, R59) -/

/-- Groups of a core in an execute slot whose position meets an interval of lanes. -/
def State.groupsAt (s : State) (core slot lo n : Nat) : Nat :=
  ((s.blocks.filter fun e => decide (coreOf e.1 = core)).flatMap fun e =>
    e.2.pairs.filter fun q => q.2.live && decide (q.2.xslot = slot ∧ q.2.xpos < lo + n ∧ lo < q.2.xpos + e.2.w)).length

/-- The execute slot and position of a starting group (R20). -/
def State.position (s : State) (core w : Nat) : Nat × Nat :=
  let slot := if s.groupsAt core 1 0 64 < s.groupsAt core 0 0 64 then 1 else 0
  let at_ (k : Nat) : Nat := s.groupsAt core slot (k * w) w
  let n := 64 / w
  let best := (List.range n).foldl (fun (b : Nat) k => if at_ k < at_ b then k else b) 0
  (slot, best * w)

/-- The initial `s` file of both slices (R59). -/
def startUni (la : Launch) (own : Option HeldRec) : SMap Word :=
  let vals := [lo32 la.args, hi32 la.args, BitVec.ofNat 32 la.n, BitVec.ofNat 32 la.t] ++ ((own.map (·.words)).getD [])
  (vals.mapIdx fun i v => (i, v)).filter fun e => decide (e.2 ≠ 0)

/-- A half whose lanes below a count are live at their first instruction (R15, R40). -/
def startHalf (lanes : Nat) (uni : SMap Word) : Half :=
  { lanes := (List.range lanes).map fun l => (l, { life := .live }), uni }

/-- A group pair starts; one that was halted before its block started stays stopped, and one that `halt.safe` named stops before its next
safe point (R338). -/
def State.startPair (s : State) (place : Nat) (la : Launch) (g : Nat) : State :=
  match s.block? place with
  | none => s
  | some b =>
    let d := b.kernel.decl
    let h := startHalf (Nat.min d.width (d.lanes - g * d.width)) (startUni la b.own)
    let x := s.position (coreOf place) d.width
    s.mapPair place g fun p => { live := true, acc := h, exe := h, xslot := x.1, xpos := x.2, run := p.run, haltAt := p.haltAt,
                                   safe := p.safe }

/-- A block starts with its start order (R26, R30). -/
def State.startBlock (s : State) (la : Launch) (place start : Nat) : State :=
  match s.block? place with
  | none => s
  | some b =>
    let wb := if la.wb = 0 then (s.sysreg la.part 0x004).toNat % 2 ^ 16 else la.wb
    (List.range b.groups).foldl (fun s g => s.startPair place la g)
      (s.setBlock place { b with start, wb, started := true })

/-- A team of a launch may start: for a parallel launch that no submission made, once every team before it has started or starts with
it, so that start order is block number (R351). -/
def State.inOrder (s : State) (la : Launch) (team : Nat) : Bool :=
  decide (la.kernel.decl.cls ≠ .parallel) || (match la.src with
    | .region _ _ => true
    | _ => (List.range team).all fun k => decide (k ∈ la.placed) && s.blocks.all fun e =>
        decide (¬ (e.2.part = la.part ∧ e.2.serial = la.serial ∧ e.2.team = k ∧ e.2.started = false ∧ e.2.halted = true)))

/-- BLOCK_START: the placed blocks of a launch that have not started and are not halted do so together, in ascending block number, at
most once in a clk, so that start order follows block number within it (R30); those of a concurrent launch once all N are placed
(R286). -/
def State.startBlocks (s : State) (part serial : Nat) : State :=
  match s.launch? part serial with
  | none => s
  | some la =>
    let waiting := s.blocks.filter fun e => decide (e.2.part = part ∧ e.2.serial = serial ∧ e.2.started = false)
    let whole (b : Block) : Bool := waiting.all fun e => decide (e.2.team ≠ b.team ∨ e.2.halted = false)
    if la.aborting ∨ la.startAt = some s.clk
        ∨ (la.kernel.decl.cls = .concurrent ∧ (la.placed.length * la.t ≠ la.n ∨ waiting.any fun e => e.2.halted)) then s
    else
      let todo := sortBy (fun a b => decide (a.2 ≤ b.2)) ((waiting.filter fun e => whole e.2 && s.inOrder la e.2.team).map fun e => (e.1, e.2.block))
      let s := (todo.mapIdx fun i e => (i, e)).foldl (fun s x => s.startBlock la x.2.1 (la.starts + x.1)) s
      let s := s.mapLaunch part serial fun l =>
        { l with starts := l.starts + todo.length, startAt := if todo = [] then l.startAt else some s.clk }
      { s with cores := s.cores.map fun e => (e.1, if e.2.reserved = some la.src ∧ todo ≠ [] then { e.2 with reserved := none } else e.2) }

/-! ### The end of blocks and launches (R24, R274, R306, R347) -/

/-- A block's resources are released (R24, R228, R356): its slot and amounts serve placement from the next clk, and a
draining core that has emptied takes its new split (R34). -/
def State.release (s : State) (place : Nat) : State :=
  match s.block? place with
  | none => s
  | some b =>
    let core := coreOf place
    let s := (s.dropBlock place).mapCore core fun k => { k with freed := k.freed ++ [(s.clk, slotOf place, b.kernel.decl)] }
    if s.declsOn core = [] then
      s.mapCore core fun k => match k.drain with
        | some d => { k with split := some d.split, drain := none, leases := [], recalls := [] }
        | none => k
    else s

/-- The blocks of a team that has not started leave their places: a ready team is ready again, and any other is its launch's next
team to place (R317). -/
def State.unplace (s : State) (b : Block) : State :=
  let mates := (s.blocks.filter fun e => decide (e.2.part = b.part ∧ e.2.serial = b.serial ∧ e.2.team = b.team)).map (·.1)
  let s := (mates.foldl State.release s).mapLaunch b.part b.serial fun l => { l with placed := l.placed.filter fun k => decide (k ≠ b.team) }
  match (s.launch? b.part b.serial).elim (Source.packet 0 0) (·.src) with
  | .region id k =>
    let s := s.mapSub id fun x => (x.teamRecs k b.team).foldl (fun x i => x.mapRec i fun r => { r with state := .ready }) x
    { s with ready := (id, k, b.team) :: s.ready }
  | _ => s

/-- Every group pair of the block has ended, its stores are placed, and every engine operation it issued is complete. -/
def State.blockOver (s : State) (place : Nat) (b : Block) : Bool :=
  let mine (o : Owner) : Bool := decide (o.part = b.part ∧ o.serial = b.serial ∧ o.block = b.block)
  b.started && b.pairs.all (fun q => !q.2.live) && !s.engineBusy place b && s.late.all fun h => !mine h.own

/-- An access of the block is still to be performed: a record that it holds completes after it (R306). -/
def State.accessing (s : State) (b : Block) : Bool :=
  let mine (o : Owner) : Bool := decide (o.part = b.part ∧ o.serial = b.serial ∧ o.block = b.block)
  s.held.any (fun h => mine h.own) || s.remotes.any (fun r => mine r.own)

/-- BLOCK_END (R24, R306): the block's records complete, its resources are released. -/
def State.endBlock (s : State) (place : Nat) : State :=
  match s.block? place with
  | none => s
  | some b =>
    let open_ := [b.own, b.stolen].filterMap fun o => o.bind fun r => if r.completed then none else some r
    if s.blockOver place b = false ∨ (open_ ≠ [] ∧ s.accessing b) ∨ (open_.any fun r => s.recBusy r) then s
    else
      let mine (o : Owner) : Bool := decide (o.part = b.part ∧ o.serial = b.serial ∧ o.block = b.block)
      let s : State := { s with outs := s.outs.filter fun o => !mine o.own
                                collSeqs := s.collSeqs.filter fun e => decide (e.1 / 2 ^ 16 ≠ b.collKey 0 / 2 ^ 16) }
      let s := s.mapLaunch b.part b.serial fun l => { l with ended := l.ended + 1 }
      open_.foldl (fun s r => s.completeHeld place r) s |>.release place

/-- Keys of ordered adds (R274). -/
def OrdAdd.before (x y : OrdAdd) : Bool :=
  decide (x.b < y.b) || (decide (x.b = y.b) && (decide (x.g < y.g) || (decide (x.g = y.g) &&
    (decide (x.l < y.l) || (decide (x.l = y.l) && decide (x.n ≤ y.n))))))

/-- ORDERED_ADD_APPLY: one add is applied; the adds of a word follow one another in key order. Software that wrote the entries leaves
the bits open (R275), a free value; a supervisor launch's adds are its writes, which clear tags (R228). Bytes of a live word are dropped,
to be reported by the handle of the pair, which has ended (R225), and a word that an uncorrectable error has reached takes no add (R281). -/
def State.applyAdd (la : Launch) (s : State) (a : OrdAdd) : State :=
  let n := accBytes a.ty
  let own : Owner := { part := la.part, serial := la.serial, block := a.b, group := a.g, lane := a.l }
  let v := if la.spoilt then (join64 (Config.freeWord s.fresh) (Config.freeWord (s.fresh + 1))).toNat else atomNew .add a.ty (s.mem.readNat a.pa n) a.val.toNat
  if (s.errIn (.glob a.pa) n).isSome then s.meetErr (a.handle.toNat % 2 ^ 8) own (.glob a.pa) n 2
  else
    let q := State.placeNow { s with fresh := s.fresh + 2 } none (.glob a.pa) (leBytes n v) (decide (la.kernel.mode ≠ .user))
    if q.2 then { q.1 with drops := q.1.drops ++ [{ own, sl := .access, pc := a.pc, handle := a.handle,
                                                    addr := a.va + BitVec.ofNat 64 (s.liveOffset (.glob a.pa) n) }] }
    else q.1

/-- Every block of the launch has ended, and every access it made; an aborted launch has none left to write (R347). -/
def State.launchOver (s : State) (la : Launch) : Bool :=
  let mine (o : Owner) : Bool := decide (o.part = la.part ∧ o.serial = la.serial)
  (s.blocks.all fun e => decide (¬ (e.2.part = la.part ∧ e.2.serial = la.serial))) && la.saved.isEmpty
    && !(s.held.any fun h => mine h.own) && !(s.late.any fun h => mine h.own) && !(s.remotes.any fun r => mine r.own)
    && (la.aborting || (!(la.adds.any fun a => s.heldOver (.glob a.pa) (accBytes a.ty) || s.ownedOver none (.glob a.pa) (accBytes a.ty))
      && (match la.src with
          | .region id k => match s.sub? id with
            | some b => (b.ofKidx k).all fun i => decide ((b.slot i).state = .done)
            | none => true
          | _ => decide (la.ended = la.n))))

/-- The end of a launch is reported (R347, R310, R352). -/
def State.report (s : State) (src : Source) (code : Nat) : State :=
  match src with
  | .packet q i => s.completePacket q i code
  | .region id _ => s.settleSub id
  | .firmware id => { s with fwHeads := s.fwHeads.filter (fun h => decide (h.id ≠ id)), fwDone := s.fwDone ++ [(id, code)] }

/-- LAUNCH_END (R24, R274, R347): the ordered adds are applied, the launch releases its serial, and its end is reported: code 6 of one that
was aborted. -/
def State.endLaunch (s : State) (part serial : Nat) : State :=
  match s.launch? part serial with
  | none => s
  | some la =>
    if s.launchOver la then
      let s := (sortBy OrdAdd.before la.adds).foldl (State.applyAdd la) s
      let s : State := { s with launches := s.launches.filter fun l => decide (¬ (l.part = part ∧ l.serial = serial)) }
      match la.src with
      | .region id _ => s.settleSub id
      | src => s.report src (if la.aborting then 6 else 0)
    else s

/-! ### Abort (R392, R317) -/

/-- A captured byte whose store has been released unwritten: an earlier held store's, or memory's own (R392). -/
def State.recapture (s : State) (gone : List Held) (r : RdByte) : RdByte :=
  match r with
  | .byte _ => r
  | .held i k =>
    match gone.find? fun h => h.id = i with
    | none => r
    | some g =>
      match ({ s with held := s.held.filter fun h => decide (h.id < i) } : State).capture (locAdd g.loc k) 1 with
      | x :: _ => x
      | [] => r

/-- What the lanes of a launch left in flight ends (R386, R392): stores with their data are written, those without are released, and
the rest is dropped without effect. -/
def State.cancel (s : State) (part serial : Nat) : State :=
  let mine (o : Owner) : Bool := decide (o.part = part ∧ o.serial = serial)
  let s : State := { s with late := s.late.filter fun h => !mine h.own || h.writes }
  let s := if s.lateWaits (fun h => mine h.own) then s else s.settleLate fun h => mine h.own
  let keep (c : Core) : Core := { c with chans := c.chans.map fun e => (e.1, e.2.filter fun k => !mine k.own) }
  let lost (h : Held) : Bool := mine h.own && (h.data.isNone || h.remote)
  let gone := s.held.filter lost
  let s : State :=
    { s with held := s.held.filter (fun h => !lost h), outs := s.outs.filter (fun o => !mine o.own),
             remotes := s.remotes.filter (fun r => !mine r.own), cores := s.cores.map fun e => (e.1, keep e.2),
             colls := s.colls.map (fun k => if mine k.own then { k with told := true } else k),
             collSeqs := s.collSeqs.filter fun e => decide (e.1 / 2 ^ 40 ≠ part * 2 ^ 24 + serial) }
  let s : State := { s with outs := s.outs.map fun o => { o with bytes := o.bytes.map (s.recapture gone) } }
  (s.drainHeld s.held.length).pruneColls

/-- The records of an aborted region launch complete without effect, and ERR is set (R317). -/
def State.abortRecs (s : State) (id k : Nat) : State :=
  match s.sub? id with
  | none => s
  | some b =>
    let s := (s.mapSub id fun b => { b with aborted := true }).headerErr b.header
    let s := (b.ofKidx k).foldl (fun s i => s.completeRec id i false 0) s
    { s with ready := s.ready.filter fun e => decide (¬ (e.1 = id ∧ e.2.1 = k)) }

/-- The launch is aborted: blocks are discarded, entries and records dropped; it ends, and code 6 is reported, once its last store is
placed (R347). -/
def State.abortLaunch (s : State) (la : Launch) : State :=
  let places := (s.blocks.filter fun e => decide (e.2.part = la.part ∧ e.2.serial = la.serial)).map (·.1)
  let s := s.cancel la.part la.serial
  let clear (c : Core) : Core :=
    { c with engine := c.engine.bind fun x => if x.place ∈ places then none else some x,
             reserved := if c.reserved = some la.src then none else c.reserved }
  let s : State := { s with cores := s.cores.map fun e => (e.1, clear e.2) }
  let s := places.foldl State.release s
  let s := s.mapLaunch la.part la.serial fun l => { l with aborting := true, adds := [], saved := [] }
  let s := match la.src with
    | .region id k => s.abortRecs id k
    | _ => s
  s.endLaunch la.part la.serial

/-- The header of an aborted region launch's list is kept by held bytes. -/
def State.abortWaits (s : State) (la : Launch) : Bool :=
  match la.src with
  | .region id _ => (s.sub? id).any fun b => s.headerBusy b.header
  | _ => false

/-- An aborted launch has not ended, or its completion word is due and not yet written (R392). -/
def State.abortDue (s : State) (part serial : Nat) : Bool :=
  (s.launch? part serial).isSome || s.packets.any fun p => decide (p.part = part ∧ p.serial = some serial) && p.code.isSome && !s.isWritten p

/-- LAUNCH_ABORT (R392): the launch that ABORT names, when GO is set; GO is cleared once its completion word is written. -/
def State.abortWord (s : State) (part : Nat) : State :=
  let a := (s.sysreg part 0x001).toNat + 28
  if s.trapRing part = false ∨ s.keptAt a 4 then s
  else
    let v := s.mem.readNat a 4
    if v.testBit 24 then
      match s.launch? part (v % 2 ^ 24) with
      | some la =>
        if !la.aborting && s.abortWaits la then s
        else
          let t := if la.aborting then s.endLaunch part la.serial else s.abortLaunch la
          if t.abortDue part (v % 2 ^ 24) then t else t.putNat a 4 (v &&& (2 ^ 32 - 1 - 2 ^ 24))
      | none => if s.abortDue part (v % 2 ^ 24) then s else s.putNat a 4 (v &&& (2 ^ 32 - 1 - 2 ^ 24))
    else s

/-! ### Meanings -/

def execPacketTake (queue : Nat) (s : State) : Host.Outcome State Fault Refusal := .next (s.takePacket queue)
def execHeadAging (queue : Nat) (s : State) : Host.Outcome State Fault Refusal := .next (s.ageHead queue)
def execPlacement (part team : Nat) (s : State) : Host.Outcome State Fault Refusal := .next (s.place part team)
def execWaitWordRead (queue : Nat) (s : State) : Host.Outcome State Fault Refusal := .next (s.readWaitWord queue)
def execConcurrentAdmission (part : Nat) (s : State) : Host.Outcome State Fault Refusal := .next (s.admitHead part)
def execDrainMark (part : Nat) (s : State) : Host.Outcome State Fault Refusal := .next (s.drainOne part)
def execBlockStart (part serial : Nat) (s : State) : Host.Outcome State Fault Refusal := .next (s.startBlocks part serial)
def execBlockEnd (core slot : Nat) (s : State) : Host.Outcome State Fault Refusal := .next (s.endBlock (placeOf core slot))
def execLaunchEnd (part serial : Nat) (s : State) : Host.Outcome State Fault Refusal := .next (s.endLaunch part serial)
def execTeamReadyPlace (part cluster : Nat) (s : State) : Host.Outcome State Fault Refusal := .next (s.placeOwn part cluster)
def execClusterSteal (part cluster : Nat) (s : State) : Host.Outcome State Fault Refusal := .next (s.clusterTakes part cluster)
def execLaunchAbort (part : Nat) (s : State) : Host.Outcome State Fault Refusal := .next (s.abortWord part)

end Sys2Proof.Machine
end

