-- ==== Sys2Proof/Machine/Image.lean ====
section
/-! DEFINITION. The save image (R339, R340, R437, R438): its bytes, its reading, the restore checks of R341, and the placing
of what it holds (R390). -/

namespace Sys2Proof.Machine
open Sys2Proof

/-! ### Bytes -/

def padTo (n : Nat) (bs : List Byte) : List Byte := bs ++ List.replicate ((n - bs.length % n) % n) 0
def wordBytes (ws : List Word) : List Byte := ws.flatMap fun w => leBytes 4 w.toNat

/-- Consecutive pieces of `k` bytes. -/
def chunks (k : Nat) : Nat → List Byte → List (List Byte)
  | 0, _ => []
  | n + 1, bs => bs.take k :: chunks k n (bs.drop k)

def wordsFrom (n : Nat) (bs : List Byte) : List Word := (chunks 4 n bs).map fun c => BitVec.ofNat 32 (leNat c)

/-- The entries of a list, by their place, that differ from the value of an unlisted key. -/
def sparse {β : Type} [DecidableEq β] (d : β) (xs : List β) : SMap β :=
  (xs.mapIdx fun i v => (i, v)).filter fun e => decide (e.2 ≠ d)

/-! ### Writing a group part (R340, R438) -/

def lifeCode : Life → Nat
  | .absent => 0 | .live => 1 | .exited => 2

/-- WAIT of a lane record; a nap completes, and an unanswered `halt` issues again. -/
def waitCode : Wait → Nat
  | .join _ _ => 1 | .rendezvous => 2 | .barrier _ _ _ _ _ => 3 | .copy _ _ _ => 4 | .fwcall _ _ => 5
  | .none | .nap _ | .halt _ _ _ | .entering _ | .held | .released => 0

/-- GEN, PHASE and WADDR of a lane record. -/
def waitFields : Wait → Nat × Nat × Nat
  | .barrier wa loc gen phase _ =>
    (gen % 16, if phase then 1 else 0, match loc with
      | .sp _ _ => 2 ^ 63 + wa.toNat % 2 ^ 32
      | .glob _ => wa.toNat)
  | .copy ch b _ => (0, 0, ch % 8 + 2 ^ 32 * b.toNat)
  | _ => (0, 0, 0)

def laneRecord (x : Lane) : Nat :=
  let w := waitFields x.wait
  (if x.isLive then x.pc.toNat else 0) + x.depth.toNat * 2 ^ 32 + lifeCode x.life * 2 ^ 40
    + waitCode x.wait * 2 ^ 42 + (x.preds &&& 0xfe).toNat * 2 ^ 48 + w.1 * 2 ^ 56 + w.2.1 * 2 ^ 60 + w.2.2 * 2 ^ 64

def Half.records (h : Half) (w : Nat) : List Byte := (List.range w).flatMap fun l => leBytes 16 (laneRecord (h.lane l))
def Half.file (h : Half) (w n : Nat) : List Byte :=
  (List.range w).flatMap fun l => wordBytes ((List.range n).map fun r => h.reg l r)
def Half.uniFile (h : Half) : List Byte := wordBytes ((List.range 64).map h.ureg)
def Half.setFile (h : Half) : List Byte := (List.range 16).flatMap fun n => (h.set n).image

def kindCode : ElemKind → Nat
  | .fab => 1 | .mc => 2 | _ => 0

/-- The 16 bytes of a queue element. -/
def elemBytes (e : Elem) : List Byte :=
  leBytes 4 (if e.kind = .filled ∧ e.cause = 0 then e.val.toNat else 0)
    ++ leBytes 4 (e.cause % 16 + kindCode e.kind * 16)
    ++ leBytes 8 (if e.kind = .filled ∧ e.cause = 0 then 0 else e.addr.toNat)

/-- A declared queue: the counts, then every lane's places. -/
def queueBytes (p : Pair) (w q depth : Nat) : List Byte :=
  wordBytes ((List.range w).map fun l => BitVec.ofNat 32 (p.queue q l).length)
    ++ (List.range w).flatMap fun l =>
      let es := ((p.queue q l).take depth).flatMap elemBytes
      es ++ List.replicate (16 * depth - es.length) 0

def streamBytes (x : Stream) : List Byte :=
  wordBytes ((List.range 8).map fun k => x.desc.getD k 0) ++ leBytes 2 x.n0 ++ leBytes 2 x.n1 ++ leBytes 2 x.n2
    ++ leBytes 1 (x.queue % 16) ++ leBytes 1 (tyCode x.ty) ++ leBytes 8 x.mask.toNat
    ++ leBytes 1 (encodeHint x.hint).toNat ++ leBytes 15 0

def storeBytes (h : Held) : List Byte :=
  leBytes 8 h.addr.toNat ++ leBytes 4 h.pc.toNat ++ leBytes 1 (tyCode h.ty) ++ leBytes 1 h.own.lane
    ++ leBytes 1 ((if h.sp then 1 else 0) + (if h.rel then 2 else 0)) ++ leBytes 1 (encodeHint h.hint).toNat

/-- The stores of a lane that still wait for data, in program order. -/
def State.pending (s : State) (o : Owner) : List Held := s.held.filter fun h => decide (h.own = o ∧ h.data = none)

def Decl.declared (d : Decl) : List Nat := (List.range 16).filter fun q => decide (d.depths.getD q 0 ≠ 0)
def maskOf (ns : List Nat) : Nat := ns.foldl (fun m n => m + 2 ^ n) 0

/-- The header of a group part. -/
def groupHeader (d : Decl) (g smask stores lanes : Nat) : List Byte :=
  leBytes 1 g ++ leBytes 1 d.width ++ leBytes 1 d.nx ++ leBytes 1 d.ny ++ leBytes 2 (maskOf d.declared) ++ leBytes 2 smask
    ++ leBytes 2 stores ++ leBytes 2 lanes ++ List.replicate 52 0

/-- The group part of a pair, padded to 64 bytes. -/
def State.groupPart (s : State) (b : Block) (g : Nat) : List Byte :=
  let d := b.kernel.decl
  let p := (b.pair g).rest
  let w := d.width
  let stores := (List.range w).map fun l => s.pending (b.owner g l)
  let streams := (List.range 16).flatMap fun q => p.streams.filter fun x => decide (x.queue = q)
  padTo 64 <|
    groupHeader d g (maskOf (streams.map (·.queue))) (stores.flatMap id).length (stores.filter fun l => decide (l ≠ [])).length
    ++ p.acc.records w ++ p.exe.records w ++ p.exe.file w d.nx ++ p.acc.file w d.ny ++ p.acc.uniFile ++ p.exe.uniFile
    ++ p.acc.setFile ++ p.exe.setFile
    ++ leBytes 8 p.acc.collstat.toNat ++ leBytes 8 p.exe.collstat.toNat ++ leBytes 8 p.sca.base.toNat ++ leBytes 4 p.sca.ctl.toNat
    ++ leBytes 8 p.scb.base.toNat ++ leBytes 4 p.scb.ctl.toNat ++ List.replicate 24 0
    ++ wordBytes ((List.range w).map fun l => smGet 0xf0 p.fencestat l)
    ++ d.declared.flatMap (fun q => queueBytes p w q (d.depths.getD q 0))
    ++ streams.flatMap streamBytes ++ (stores.flatMap id).flatMap storeBytes

/-! ### Writing block, group-pair and core images (R339, R437) -/

def clsNumber (b : Block) : Nat := clsCode b.kernel.decl.cls

/-- A region record that the block holds, or zeros. -/
def heldBytes (o : Option HeldRec) : List Byte :=
  match o with
  | some r => if r.completed then List.replicate 32 0 else (wordBytes r.words ++ List.replicate 32 0).take 32
  | none => List.replicate 32 0

def holds (o : Option HeldRec) : Bool := (o.map fun r => !r.completed).getD false

/-- Copies of the block in the core's channels, in the order of entry. -/
def State.copiesOf (s : State) (place : Nat) (b : Block) : List Copy :=
  sortBy (fun x y => decide (x.id ≤ y.id)) ((List.range 8).flatMap fun ch => ((s.core (coreOf place)).chan ch).filter fun k =>
    decide (k.own.part = b.part ∧ k.own.serial = b.serial ∧ k.own.block = b.block))

/-- Collective commands of the block whose outcome it has not been given. -/
def State.collsOf (s : State) (b : Block) : List Coll :=
  s.colls.filter fun k => !k.told && decide (k.own.part = b.part ∧ k.own.serial = b.serial ∧ k.own.block = b.block)

def copyBytes (k : Copy) : List Byte :=
  leBytes 8 k.dst.toNat ++ leBytes 8 k.src.toNat ++ leBytes 4 k.left ++ leBytes 4 ((k.bar.map fun x => x.1.toNat).getD 0)
    ++ leBytes 1 (k.ch + k.dir * 8 + (if k.bar.isSome then 32 else 0)) ++ leBytes 1 ((k.bar.map (·.2)).getD 0 % 16)
    ++ leBytes 1 k.own.lane ++ leBytes 1 k.own.group ++ leBytes 1 (encodeHint k.hint).toNat ++ leBytes 3 0

def collBytes (k : Coll) : List Byte :=
  leBytes 4 k.stat.toNat ++ leBytes 4 k.bar.toNat ++ leBytes 4 k.id ++ leBytes 1 (k.gen % 16) ++ leBytes 3 0

def tagBytes (d : Decl) : Nat := (d.scratch + 4095) / 4096 * 64

def tagImage (d : Decl) (tags : List Nat) : List Byte :=
  (List.range (tagBytes d)).map fun k => BitVec.ofNat 8 (maskOf ((List.range 8).filter fun j => decide (8 * k + j ∈ tags)))

/-- The 64-byte header of a group-pair or block image. -/
def State.imageHeader (s : State) (kind place : Nat) (b : Block) (size : Nat) : List Byte :=
  let d := b.kernel.decl
  leBytes 4 0x4b425a45 ++ leBytes 2 1 ++ leBytes 1 kind ++ leBytes 1 (modeCode b.kernel.mode) ++ leBytes 8 b.kernel.kd
    ++ leBytes 3 b.serial ++ leBytes 1 (clsNumber b) ++ leBytes 4 b.block ++ leBytes 4 b.start ++ leBytes 1 b.member
    ++ leBytes 1 b.groups ++ leBytes 1 d.tiles
    ++ leBytes 1 ((if b.ofa then 1 else 0) + (if holds b.own || holds b.stolen then 2 else 0))
    ++ leBytes 8 (s.core (coreOf place)).ts ++ leBytes 1 d.ureg ++ leBytes 1 d.usp ++ leBytes 1 b.t ++ leBytes 3 b.n
    ++ leBytes 2 0 ++ leBytes 8 size ++ leBytes 8 0

def State.pairImage (s : State) (place g : Nat) (b : Block) : List Byte :=
  let body := s.groupPart b g
  s.imageHeader 1 place b (64 + body.length) ++ body

def State.blockImage (s : State) (place : Nat) (b : Block) : List Byte :=
  let d := b.kernel.decl
  let ks := s.copiesOf place b
  let cs := s.collsOf b
  let chan (ch : Nat) : List Byte :=
    leBytes 4 (smGet 0 b.wp ch).toNat ++ leBytes 4 (smGet 0 b.chstat ch).toNat
      ++ leBytes 4 (ks.filter fun k => decide (k.ch = ch)).length ++ leBytes 4 (if ch = 0 then cs.length else 0)
      ++ List.replicate 48 0
  let body :=
    heldBytes b.own ++ heldBytes b.stolen ++ (List.range 8).flatMap chan ++ padTo 64 (ks.flatMap copyBytes)
      ++ padTo 64 (cs.flatMap collBytes) ++ padTo 64 (b.scratch.read 0 d.scratch) ++ tagImage d b.tags
      ++ wordBytes ((List.range (d.tiles * 16384)).map fun i => smGet 0 b.tiles i)
      ++ (List.range b.groups).flatMap (s.groupPart b)
  s.imageHeader 2 place b (64 + body.length) ++ body

def splitUnits (split : Option (Nat × Nat)) : Nat :=
  match split with
  | some x => x.1 + 256 * x.2
  | none => 0

/-- A core image: the header, of which only KIND, TS and UNITS are set beside MAGIC and VERSION, then the block images in ascending
slot, each aligned to 4096 bytes (R339). -/
def State.coreImage (s : State) (core : Nat) : List Byte :=
  let blocks := s.blocks.filter fun e => decide (coreOf e.1 = core)
  let body := blocks.foldl (fun bs e => padTo 4096 bs ++ s.blockImage e.1 e.2) (List.replicate 64 0)
  leBytes 4 0x4b425a45 ++ leBytes 2 1 ++ leBytes 1 3 ++ List.replicate 25 0 ++ leBytes 8 (s.core core).ts
    ++ leBytes 2 (splitUnits (s.core core).split) ++ List.replicate 22 0 ++ body.drop 64

/-! ### Reading an image -/

/-- A group part, cut into its pieces under the declarations of its kernel. -/
structure GroupImg where
  hdr : List Byte := []
  recsA : List Nat := []
  recsX : List Nat := []
  xs : List Word := []
  ys : List Word := []
  uniA : List Word := []
  uniX : List Word := []
  setsA : List Nat := []
  setsX : List Nat := []
  spec : List Byte := []
  fence : List Word := []
  queues : List (Nat × List Nat × List (List (List Byte))) := []
  streams : List (List Byte) := []
  stores : List (List Byte) := []

/-- Bytes of the queue parts of a group. -/
def Decl.queueImage (d : Decl) : Nat := d.declared.foldl (fun n q => n + 4 * d.width + 16 * d.width * d.depths.getD q 0) 0

def bitCount (v : Nat) : Nat := ((List.range 16).filter fun k => v.testBit k).length

/-- Bytes of a group part whose header is given, padded to 64. -/
def groupSize (d : Decl) (hdr : List Byte) : Nat :=
  let n := 64 + 32 * d.width + 4 * d.width * d.nx + 4 * d.width * d.ny + 512 + 1024 + 64 + 4 * d.width + d.queueImage
    + 64 * bitCount (field hdr 6 2) + 16 * field hdr 8 2
  (n + 63) / 64 * 64

/-- The queue parts, one after another. -/
def readQueues (d : Decl) : List Nat → List Byte → List (Nat × List Nat × List (List (List Byte)))
  | [], _ => []
  | q :: r, bs =>
    let w := d.width
    let depth := d.depths.getD q 0
    let counts := (wordsFrom w bs).map (·.toNat)
    let body := bs.drop (4 * w)
    (q, counts, (chunks (16 * depth) w body).map (chunks 16 depth)) :: readQueues d r (body.drop (16 * w * depth))

def readGroup (d : Decl) (bs : List Byte) : GroupImg :=
  let w := d.width
  let hdr := bs.take 64
  let b1 := bs.drop 64
  let b2 := b1.drop (32 * w)
  let b3 := b2.drop (4 * w * d.nx)
  let b4 := b3.drop (4 * w * d.ny)
  let b5 := b4.drop 512
  let b6 := b5.drop 1024
  let b7 := b6.drop 64
  let b8 := b7.drop (4 * w)
  let b9 := b8.drop d.queueImage
  let ns := bitCount (field hdr 6 2)
  { hdr, recsA := (chunks 16 w b1).map leNat, recsX := (chunks 16 w (b1.drop (16 * w))).map leNat,
    xs := wordsFrom (w * d.nx) b2, ys := wordsFrom (w * d.ny) b3, uniA := wordsFrom 64 b4, uniX := wordsFrom 64 (b4.drop 256),
    setsA := (chunks 32 16 b5).map leNat, setsX := (chunks 32 16 (b5.drop 512)).map leNat, spec := b6.take 64,
    fence := wordsFrom w b7, queues := readQueues d d.declared b8, streams := chunks 64 ns b9,
    stores := chunks 16 (field hdr 8 2) (b9.drop (64 * ns)) }

/-- Group parts from a position, and the bytes they take. -/
def readGroups (d : Decl) : Nat → List Byte → List GroupImg × Nat
  | 0, _ => ([], 0)
  | n + 1, bs =>
    let k := groupSize d (bs.take 64)
    let r := readGroups d n (bs.drop k)
    (readGroup d bs :: r.1, k + r.2)

/-- A block image, cut into its parts; `size` is the size that its counts and the declarations give. -/
structure BlockImg where
  hdr : List Byte := []
  recs : List (List Word) := []
  chans : List (List Byte) := []
  copies : List (List Byte) := []
  colls : List (List Byte) := []
  scratch : List Byte := []
  tags : List Byte := []
  tiles : List Word := []
  groups : List GroupImg := []
  size : Nat := 0

def up64 (n : Nat) : Nat := (n + 63) / 64 * 64

def readBlock (d : Decl) (bs : List Byte) : BlockImg :=
  let b1 := bs.drop 128
  let chans := chunks 64 8 b1
  let nc := chans.foldl (fun n c => n + field c 8 4) 0
  let nk := field (chans.headD []) 12 4
  let b2 := b1.drop 512
  let b3 := b2.drop (up64 (32 * nc))
  let b4 := b3.drop (up64 (16 * nk))
  let b5 := b4.drop (up64 d.scratch)
  let b6 := b5.drop (tagBytes d)
  let b7 := b6.drop (65536 * d.tiles)
  let gs := readGroups d d.groups b7
  { hdr := bs.take 64, recs := (chunks 32 2 (bs.drop 64)).map (wordsFrom 8), chans, copies := chunks 32 (Nat.min nc 65536) b2, colls := chunks 16 (Nat.min nk 65536) b3,
    scratch := b4.take d.scratch, tags := b5.take (tagBytes d), tiles := wordsFrom (16384 * d.tiles) b6, groups := gs.1,
    size := 128 + 512 + up64 (32 * nc) + up64 (16 * nk) + up64 d.scratch + tagBytes d + 65536 * d.tiles + gs.2 }

/-! ### Fields of a lane record -/

def recPc (r : Nat) : Word := BitVec.ofNat 32 r
def recLife (r : Nat) : Nat := r / 2 ^ 40 % 4
def recWaitOf (r : Nat) : Nat := r / 2 ^ 42 % 8
def recWaddr (r : Nat) : Nat := r / 2 ^ 64 % 2 ^ 64

/-! ### The checks of R341 -/

/-- A reserved field of a group part is nonzero, or a field holds a value that its table does not list. -/
def groupReserved (g : GroupImg) : Bool :=
  decide (field g.hdr 12 52 ≠ 0)
    || (g.recsA ++ g.recsX).any (fun r => decide (r / 2 ^ 45 % 8 ≠ 0 ∨ r / 2 ^ 48 % 2 ≠ 0 ∨ r / 2 ^ 61 % 8 ≠ 0 ∨ 5 < recWaitOf r))
    || (g.setsA ++ g.setsX).any (fun v => decide (v / 2 ^ 138 ≠ 0))
    || decide (field g.spec 24 4 / 2 ^ 26 ≠ 0 ∨ field g.spec 36 4 / 2 ^ 26 ≠ 0 ∨ field g.spec 40 24 ≠ 0)
    || g.fence.any (fun v => decide (v.toNat / 2 ^ 11 % 2 ^ 5 ≠ 0))
    || g.queues.any (fun q => (q.2.1.zip q.2.2).any fun l => (l.2.take l.1).any fun e => decide (field e 4 4 / 2 ^ 6 ≠ 0))
    || g.streams.any (fun x => decide (field x 30 2 ≠ 0 ∨ field x 38 1 / 16 ≠ 0 ∨ field x 39 1 / 64 ≠ 0 ∨ field x 48 1 / 8 ≠ 0 ∨ field x 49 15 ≠ 0))
    || g.stores.any (fun x => decide (field x 12 1 / 64 ≠ 0 ∨ field x 13 1 / 64 ≠ 0 ∨ field x 14 1 / 4 ≠ 0 ∨ field x 15 1 / 8 ≠ 0))

/-- The active-stream mask names queues that no stream can fill, or other queues than the entries. -/
def streamMaskBad (d : Decl) (g : GroupImg) : Bool :=
  let m := field g.hdr 6 2
  let qs := (List.range 16).filter fun k => m.testBit k
  qs.any (fun q => decide (11 < q ∨ q ∉ d.declared)) || decide (g.streams.map (fun x => field x 38 1 % 16) ≠ qs)

/-- W, n_x, n_y or the declared queues of a group part differ from a kernel's. -/
def groupDiffers (d : Decl) (g : GroupImg) : Bool :=
  decide (field g.hdr 1 1 ≠ d.width ∨ field g.hdr 2 1 ≠ d.nx ∨ field g.hdr 3 1 ≠ d.ny ∨ field g.hdr 4 2 ≠ maskOf d.declared)

/-- A reserved field of a region record is nonzero (R300). -/
def recReserved (w : List Word) : Bool :=
  decide (wordAt w 0 / 2 ^ 12 % 16 ≠ 0 ∨ wordAt w 1 / 2 ^ 26 ≠ 0 ∨ wordAt w 2 / 2 ^ 21 ≠ 0 ∨ wordAt w 6 / 2 ^ 20 % 16 ≠ 0
    ∨ wordAt w 7 / 8 % 32 ≠ 0 ∨ wordAt w 7 / 2 ^ 14 ≠ 0)

/-- Reserved fields of the parts of a block image. -/
def blockReserved (i : BlockImg) : Bool :=
  i.recs.any recReserved
    || (i.chans.mapIdx fun k c => decide (field c 4 2 / 2 ^ 4 ≠ 0 ∨ field c (if k = 0 then 16 else 12) (if k = 0 then 48 else 52) ≠ 0)).any id
    || i.copies.any (fun c => decide (field c 24 1 / 64 ≠ 0 ∨ field c 25 1 / 16 ≠ 0 ∨ field c 26 1 / 64 ≠ 0 ∨ field c 27 1 / 16 ≠ 0
        ∨ field c 28 1 / 8 ≠ 0 ∨ field c 29 3 ≠ 0))
    || i.colls.any (fun c => decide (field c 12 1 / 16 ≠ 0 ∨ field c 13 3 ≠ 0))
    || i.groups.any groupReserved

/-- The header's own part of check 1, for group-pair and block images. -/
def State.headerBad (s : State) (part kind : Nat) (hd : List Byte) : Bool :=
  let t := field hd 42 1
  let n := field hd 43 3
  let blk := field hd 20 4
  decide (field hd 0 4 ≠ 0x4b425a45 ∨ field hd 4 2 ≠ 1 ∨ field hd 6 1 ≠ kind)
    || decide (2 ^ 24 ≤ blk ∨ field hd 31 1 / 4 ≠ 0 ∨ field hd 46 2 ≠ 0 ∨ field hd 56 8 ≠ 0)
    || !s.isDesc part (field hd 8 8) || decide (s.descStatus (field hd 8 8) ≠ 0)
    || decide (t < 1 ∨ 16 < t ∨ n < 1 ∨ n ≤ blk ∨ field hd 28 1 ≠ blk % t)

/-- A lane record's PC is no instruction start (check 4). -/
def State.pcBad (s : State) (k : Kernel) (g : GroupImg) : Bool :=
  g.recsA.any (fun r => !s.isStart k .access (recPc r)) || g.recsX.any (fun r => !s.isStart k .execute (recPc r))

/-- Lanes below the lane count are live or exited, the others absent (check 5). -/
def lifeBad (n : Nat) (rs : List Nat) : Bool :=
  (rs.mapIdx fun l r => (l, r)).any fun x =>
    if x.1 < n then decide (recLife x.2 ≠ 1 ∧ recLife x.2 ≠ 2) else decide (recLife x.2 ≠ 0)

/-- A set breaks R183, is faulted, or the waiters are not the lanes whose WAIT is 1 (check 6). -/
def setsBad (w : Nat) (vs rs : List Nat) : Bool :=
  let sets := vs.map jsetOf
  let waiting := laneMask (((rs.mapIdx fun l r => (l, r)).filter fun x => decide (recWaitOf x.2 = 1)).map (·.1))
  sets.any (fun j => decide (j.state = jFaulted) || decide (j.members.toNat / 2 ^ w ≠ 0) || decide (j.waiters &&& ~~~j.members ≠ 0)
      || decide ((j.state = jEmpty) ≠ (j.members = 0)) || decide ((j.state = jWaiting) ≠ (j.waiters ≠ 0)))
    || decide (sets.foldl (fun m j => m ||| j.waiters) 0 ≠ waiting)
    || decide (sets.foldl (fun n j => n + (maskLanes j.waiters).length) 0 ≠ (maskLanes waiting).length)

/-- Queue contents (check 7). -/
def queuesBad (d : Decl) (g : GroupImg) : Bool :=
  g.queues.any fun q => q.2.1.any (fun n => decide (d.depths.getD q.1 0 < n)) ||
    (q.2.1.zip q.2.2).any fun l => (l.2.take l.1).any fun e =>
      let kind := field e 4 4 / 16 % 4
      decide (8 < field e 4 4 % 16) || decide (kind = 3) || (decide (kind ≠ 0) && decide (12 < q.1))

/-- More than 64 pending stores of a lane (check 8). -/
def storesBad (g : GroupImg) : Bool :=
  (List.range 64).any fun l => decide (64 < (g.stores.filter fun x => decide (field x 13 1 % 64 = l)).length)

/-- Checks 4 to 8 of a group part. -/
def State.groupChecks (s : State) (k : Kernel) (gs : List (Nat × GroupImg)) : List (Nat × Bool) :=
  let d := k.decl
  let lanes (g : Nat) : Nat := Nat.min d.width (d.lanes - g * d.width)
  [(4, gs.any fun g => s.pcBad k g.2), (5, gs.any fun g => lifeBad (lanes g.1) g.2.recsA || lifeBad (lanes g.1) g.2.recsX),
   (6, gs.any fun g => setsBad d.width g.2.setsA g.2.recsA || setsBad d.width g.2.setsX g.2.recsX),
   (7, gs.any fun g => queuesBad d g.2), (8, gs.any fun g => storesBad g.2)]

/-- SERIAL names an aborted launch that still holds its serial (check 10). -/
def State.abortedSerial (s : State) (part serial : Nat) : Bool := ((s.launch? part serial).map (·.aborting)).getD false

/-- The saved block of a launch that an image names, if the image fits the launch (check 11). -/
def State.savedBlock (s : State) (part : Nat) (hd : List Byte) : Option Block :=
  match s.launch? part (field hd 16 3) with
  | none => none
  | some la =>
    if la.kernel.kd = field hd 8 8 ∧ clsCode la.kernel.decl.cls = field hd 19 1 ∧ la.n = field hd 43 3 ∧ la.t = field hd 42 1 then
      la.saved.find? fun b => b.block = field hd 20 4
    else none

/-- MODE against the descriptor and the issuing code (check 2). -/
def modeBad (k : Kernel) (mode : Nat) (hd : List Byte) : Bool :=
  decide (field hd 7 1 ≠ modeCode k.mode ∨ mode < field hd 7 1)

/-- UNITS differs from the core's split (check 3). A core that no block has carved yet takes the split of the first (R34). -/
def State.splitBad (s : State) (core : Nat) (units : Nat × Nat) : Bool :=
  match (s.core core).split with
  | some x => decide (x ≠ units)
  | none => false

def firstReason (cs : List (Nat × Bool)) : Nat := ((cs.find? (·.2)).map (·.1)).getD 0

/-- The reason for which a block image is refused; 0 for none. Of the core only the split is looked at: neither R338 nor R341 lists a
refusal for one that is draining and not yet empty, where R34 lets no block be placed, so that the model accepts the image: the model's
choice (DESIGN CHOICE, log 74). -/
def State.blockReason (s : State) (part mode core : Nat) (bs : List Byte) : Nat :=
  let hd := bs.take 64
  if s.headerBad part 2 hd then 1
  else
    let k := s.kernelAt part (field hd 8 8)
    let d := k.decl
    let i := readBlock d bs
    if i.size ≠ field hd 48 8 ∨ bs.length ≠ i.size ∨ blockReserved i ∨ i.groups.any (streamMaskBad d) then 1
    else
      firstReason ([(2, modeBad k mode hd),
        (3, s.splitBad core (field hd 40 1, field hd 41 1) || decide (d.split ≠ (field hd 40 1, field hd 41 1))
            || !fitsCore d.split (d :: s.declsOn core))]
        ++ s.groupChecks k (i.groups.mapIdx fun n g => (n, g))
        ++ [(10, s.abortedSerial part (field hd 16 3)), (11, (s.savedBlock part hd).isNone)])

/-- The reason for which a group-pair image is refused for a pair of a resident block; 0 for none. -/
def State.pairReason (s : State) (b : Block) (mode core g : Nat) (bs : List Byte) : Nat :=
  let hd := bs.take 64
  if s.headerBad b.part 1 hd then 1
  else
    let k := s.kernelAt b.part (field hd 8 8)
    let d := k.decl
    let part := bs.drop 64
    let i := readGroup d part
    if field hd 48 8 ≠ 64 + groupSize d (part.take 64) ∨ bs.length ≠ field hd 48 8 ∨ groupReserved i ∨ streamMaskBad d i then 1
    else
      firstReason ([(2, modeBad k mode hd),
        (3, s.splitBad core (field hd 40 1, field hd 41 1))]
        ++ s.groupChecks k [(g, i)]
        ++ [(9, groupDiffers b.kernel.decl i || groupDiffers d i), (10, s.abortedSerial b.part (field hd 16 3)),
            (11, decide (field hd 16 3 ≠ b.serial ∨ field hd 20 4 ≠ b.block))])

/-! ### Placing a group part (R390) -/

/-- Locations that no access names, for waits and stores that are translated when their pair resumes (R371). -/
def farSp : Loc := .sp 3072 0
def farGlob : Loc := .glob (2 ^ 60)
def isFar (l : Loc) : Bool := decide (l = farSp ∨ l = farGlob)

/-- The wait that a lane record gives. -/
def State.loadWait (s : State) (k : Kernel) (sl : Slice) (sets : List JSet) (o : Owner) (l r : Nat) (old : Lane) : Wait :=
  let at_ := s.fetch k sl (recPc r)
  match recWaitOf r with
  | 1 =>
    match (List.range 16).find? fun n => (sets.getD n {}).waiters.getLsbD l with
    | some n => .join n (match old.wait with
        | .join m pc => if m = n ∧ old.pc = recPc r then pc else recPc r - 12
        | _ => recPc r - 12)
    | none => .none
  | 2 => .rendezvous
  | 3 =>
    match at_ with
    | .ok (.barWait f, n) =>
      let a := recWaddr r
      let sp := decide (2 ^ 63 ≤ a ∧ a % 2 ^ 63 < 2 ^ 32)
      .barrier (BitVec.ofNat 64 (if sp then a % 2 ^ 32 else a)) (if sp then farSp else farGlob) (r / 2 ^ 56 % 16) (r.testBit 60)
        { dst := f.dst, nr := f.nr, len := n }
    | _ => .none
  | 4 =>
    match at_ with
    | .ok (.copyWait f, n) => .copy (recWaddr r % 8) (BitVec.ofNat 32 (recWaddr r / 2 ^ 32)) { dst := f.dst, len := n }
    | _ => .none
  | 5 =>
    match at_, s.calls.find? fun c => c.own = o ∧ c.sl = sl with
    | .ok (.fwcall f, n), some c => .fwcall c.tag { dst := f.dst, len := n }
    | _, _ => .none
  | _ => .none

def lifeOf (c : Nat) : Life := if c = 1 then .live else if c = 2 then .exited else .absent

/-- A half of a pair from its records, files and sets; results still awaited, the count of calls and the timer stay. A lane that has
exited is absent from every set (R45). -/
def State.loadHalf (s : State) (k : Kernel) (sl : Slice) (own : Nat → Owner) (keepPass : Bool) (recs : List Nat) (regs uni : List Word)
    (sets : List Nat) (n : Nat) (coll : DWord) (old : Half) : Half :=
  let js := sets.map jsetOf
  let lane (l r : Nat) : Lane :=
    let x := old.lane l
    { life := lifeOf (recLife r), pc := recPc r, depth := BitVec.ofNat 8 (r / 2 ^ 32), preds := BitVec.ofNat 8 (r / 2 ^ 48) ||| 1
      wait := s.loadWait k sl js (own l) l r x, wins := x.halted.wins, pass := keepPass && x.pass && decide (x.pc = recPc r), calls := x.calls }
  Half.leaveAll
   { lanes := sparse {} (recs.mapIdx lane)
     regs := ((regs.mapIdx fun i v => (i / n * 128 + i % n, v)).filter fun e => decide (e.2 ≠ 0))
     uni := sparse 0 uni, sets := sparse {} js, collstat := coll, timer := old.timer }
   (laneMask (((recs.mapIdx fun l r => (l, r)).filter fun e => decide (recLife e.2 = 2)).map (·.1)))

/-- An element from its 16 bytes; its type and marks are those of the element it was saved from. -/
def loadElem (old : List Elem) (e : List Byte) : Elem :=
  let kind := field e 4 4 / 16 % 4
  let cause := field e 4 4 % 16
  let addr := BitVec.ofNat 64 (field e 8 8)
  let from_ (k : ElemKind) : Elem := (old.find? fun x => x.kind = k ∧ x.cause = cause ∧ x.addr = addr).getD { addr }
  if kind = 1 then { from_ .fab with kind := .fab, val := 0, cause := 0, out := 0 }
  else if kind = 2 then { kind := .mc, addr }
  else if cause = 0 then { val := BitVec.ofNat 32 (field e 0 4) }
  else { from_ .filled with kind := .filled, val := 0, cause }

/-- The pending `ld.mc` elements of a queue meet again the multicasts that fill them; an element beyond those asks for one
more. `hi` is the multicast whose upper half is due. -/
def linkMc (mk : Nat → Out) : List Elem → List Out → Option Out → Nat → List Elem × List Out
  | [], _, _, _ => ([], [])
  | e :: r, outs, hi, n =>
    if e.kind ≠ .mc then
      let q := linkMc mk r outs hi n
      (e :: q.1, q.2)
    else match hi, outs with
      | some o, _ =>
        let q := linkMc mk r outs none n
        ({ e with out := o.id, ty := o.ty, hi := true } :: q.1, q.2)
      | none, o :: os =>
        let q := linkMc mk r os (if isWide o.ty then some o else none) n
        ({ e with out := o.id, ty := o.ty } :: q.1, o :: q.2)
      | none, [] =>
        let o := mk n
        let q := linkMc mk r [] none (n + 1)
        ({ e with out := o.id } :: q.1, o :: q.2)

/-- One lane's queue is loaded. -/
def State.loadQueue (s : State) (place g : Nat) (o : Owner) (q l : Nat) (es : List (List Byte)) (old : Pair) : State :=
  let mine (x : Out) : Bool := decide (x.own = o ∧ x.dst = .queue q) && x.mc.isSome
  let outs := s.outs.filter mine
  let k := smGet 0 (s.pair place g).mcCount l
  let mk (n : Nat) : Out := { id := s.fresh + n, own := o, dst := .queue q, mc := some (k + n) }
  let r := linkMc mk (es.map (loadElem (old.queue q l))) outs none 0
  let new := r.2.filter fun x => decide (s.fresh ≤ x.id)
  let s : State :=
    { s with outs := (s.outs.filter fun x => !mine x || r.2.any fun y => decide (y.id = x.id)) ++ new, fresh := s.fresh + new.length }
  s.mapPair place g fun p =>
    { p.setQueue q l r.1 with mcCount := if new = [] then p.mcCount else smPut p.mcCount l (k + new.length) }

/-- A pending store from its 16 bytes, translated when the pair resumes. -/
def loadStore (own : Nat → Owner) (clears : Bool) (id : Nat) (x : List Byte) : Held :=
  let ty := (tyOfCode (field x 12 1 % 64)).getD .b32
  let sp := (field x 14 1).testBit 0
  { id, own := own (field x 13 1 % 64), loc := if sp then farSp else farGlob, n := Nat.max 1 (accBytes ty), addr := BitVec.ofNat 64 (field x 0 8)
    pc := BitVec.ofNat 32 (field x 8 4), ty, sp, rel := (field x 14 1).testBit 1
    hint := (decodeHint (BitVec.ofNat 3 (field x 15 1))).getD .none, retry := true, clears }

/-- The bytes that a store entry stands for are those of a store still held. -/
def sameStore (h k : Held) : Bool :=
  decide (h.addr = k.addr ∧ h.pc = k.pc ∧ h.ty = k.ty ∧ h.sp = k.sp ∧ h.rel = k.rel ∧ h.hint = k.hint ∧ h.n = k.n)

/-- The entries of a lane take over the stores that it holds, in order; a store without its entry is released unwritten. -/
def takeOver : List Held → List Held → List Held × List Held
  | [], olds => ([], olds)
  | k :: r, [] => let q := takeOver r []; (k :: q.1, q.2)
  | k :: r, h :: hs =>
    let q := takeOver r hs
    if sameStore h k then ({ h with retry := true } :: q.1, q.2) else (k :: q.1, h :: q.2)

/-- The pending stores of a lane are loaded. -/
def State.loadStores (s : State) (o : Owner) (ks : List Held) : State :=
  let r := takeOver ks (s.pending o)
  let gone := (s.pending o).map (·.id)
  let s' : State := { s with held := (s.held.filter fun h => decide (h.id ∉ gone)) ++ r.1 }
  r.2.foldl (fun s h => s.settleReads h.id h.loc) s'

/-- A group part replaces the state of a stopped pair. -/
def State.loadGroup (s : State) (place g : Nat) (keepPass : Bool) (old : Pair) (i : GroupImg) : State :=
  match s.block? place with
  | none => s
  | some b =>
    let d := b.kernel.decl
    let own (l : Nat) := b.owner g l
    let acc := s.loadHalf b.kernel .access own keepPass i.recsA i.ys i.uniA i.setsA d.ny (BitVec.ofNat 64 (field i.spec 0 8)) old.acc
    let exe := s.loadHalf b.kernel .execute own keepPass i.recsX i.xs i.uniX i.setsX d.nx (BitVec.ofNat 64 (field i.spec 8 8)) old.exe
    let some_ := (i.recsA ++ i.recsX).any fun r => decide (recLife r = 1)
    let streams := i.streams.map fun x =>
      { desc := wordsFrom 8 x, n0 := field x 32 2, n1 := field x 34 2, n2 := field x 36 2, queue := field x 38 1 % 16,
        ty := (tyOfCode (field x 39 1 % 64)).getD .b32, mask := BitVec.ofNat 64 (field x 40 8),
        hint := (decodeHint (BitVec.ofNat 3 (field x 48 1))).getD .none : Stream }
    let s := s.mapPair place g fun _ =>
      { old with live := old.live || some_, acc, exe, queues := [], streams,
                 sca := ⟨BitVec.ofNat 64 (field i.spec 16 8), BitVec.ofNat 32 (field i.spec 24 4)⟩,
                 scb := ⟨BitVec.ofNat 64 (field i.spec 28 8), BitVec.ofNat 32 (field i.spec 36 4)⟩,
                 fencestat := (sparse 0xf0 i.fence), resv := [], entering := [], teamWait := false, run := .stopped .halt,
                 haltAt := none, trapSl := none, safe := none, stepping := false, filled := false,
                 broken := old.broken.filter fun k => decide (2 < k) }
    let lanesOf (q : Nat × List Nat × List (List (List Byte))) : List (Nat × List (List Byte)) :=
      (q.2.1.zip q.2.2).mapIdx fun l x => (l, x.2.take x.1)
    let s := i.queues.foldl (fun s q => (lanesOf q).foldl (fun s x => s.loadQueue place g (own x.1) q.1 x.1 x.2 old) s) s
    let stores := i.stores.mapIdx fun n x => loadStore own (decide (b.kernel.mode ≠ .user)) (s.fresh + n) x
    let s : State := { s with fresh := s.fresh + stores.length }
    (List.range b.w).foldl (fun s l => s.loadStores (own l) (stores.filter fun h => decide (h.own.lane = l))) s

/-! ### Placing a block image (R338, R390) -/

/-- A saved copy enters its channel again, with the status that it had set (R233); one that had stopped, or delivered its bytes, has
its arrival still to make. -/
def State.loadCopy (s : State) (core : Nat) (b : Block) (stat : Word) (c : List Byte) : State :=
  let ctl := field c 24 1
  let k : Copy :=
    { id := s.fresh, own := b.owner (field c 27 1 % 16) (field c 26 1 % 64), dst := BitVec.ofNat 64 (field c 0 8),
      src := BitVec.ofNat 64 (field c 8 8), left := field c 16 4, ch := ctl % 8, dir := ctl / 8 % 4,
      bar := if ctl.testBit 5 then some (BitVec.ofNat 32 (field c 20 4), field c 25 1 % 16) else none,
      hint := (decodeHint (BitVec.ofNat 3 (field c 28 1))).getD .none, stat, stopped := decide (stat &&& (stFault ||| stMchk) ≠ 0) }
  { s.mapCore core fun x => x.setChan k.ch (x.chan k.ch ++ [k]) with fresh := s.fresh + 1 }

/-- The held collectives of a block are those that its image names. -/
def State.loadColls (s : State) (b : Block) (cs : List (List Byte)) : State :=
  let mine (k : Coll) : Bool := !k.told && decide (k.own.part = b.part ∧ k.own.serial = b.serial ∧ k.own.block = b.block)
  let fix (k : Coll) : Coll :=
    match cs.find? (fun c => decide (field c 8 4 = k.id % 2 ^ 32)) with
    | some c => { k with stat := BitVec.ofNat 32 (field c 0 4), bar := BitVec.ofNat 32 (field c 4 4), gen := field c 12 1 % 16 }
    | none => { k with told := true }
  let colls := s.colls.map fun k => if mine k then fix k else k
  State.pruneColls { s with colls }

/-- A held region record with the words that the image gives it. -/
def HeldRec.load (r : HeldRec) (w : List Word) : HeldRec := if r.completed then r else { r with words := w }

/-- A block image takes an empty slot; the block stays stopped. -/
def State.placeImage (s : State) (place : Nat) (old : Block) (bs : List Byte) : State :=
  let core := coreOf place
  let d := old.kernel.decl
  let i := readBlock d bs
  let tags := (i.tags.mapIdx fun k v => (k, v)).flatMap fun e => ((List.range 8).filter fun j => e.2.getLsbD j).map fun j => 8 * e.1 + j
  let b : Block :=
    { old with start := field i.hdr 24 4, scratch := sparse memDefault i.scratch, errs := [], tags,
               own := old.own.map fun r => r.load (i.recs.getD 0 []), stolen := old.stolen.map fun r => r.load (i.recs.getD 1 []), tiles := sparse 0 i.tiles,
               wp := sparse 0 (i.chans.map fun c => BitVec.ofNat 32 (field c 0 4)),
               chstat := sparse 0 (i.chans.map fun c => BitVec.ofNat 32 (field c 4 4)), pairs := [], started := true, halted := true,
               copied := [], copyStats := [] }
  let s := s.mapCore core fun k => { k with ts := Nat.max k.ts (field i.hdr 32 8) }
  let s := (s.occupy core (slotOf place) b).mapLaunch b.part b.serial fun l =>
    { l with saved := l.saved.filter fun x => decide (x.block ≠ b.block) }
  let s := (i.copies.mapIdx fun n c => (n, c)).foldl (fun s e => s.loadCopy core b (old.copyStats.getD e.1 0) e.2) s
  let s := s.loadColls b i.colls
  (i.groups.mapIdx fun g x => (g, x)).foldl (fun (s : State) (x : Nat × GroupImg) =>
    let p := old.pair x.1
    let at_ := s.position core d.width
    s.loadGroup place x.1 false { p with xslot := at_.1, xpos := at_.2, broken := [] } x.2) s

end Sys2Proof.Machine
end

