-- ==== Sys2Proof/Machine/Slots.lean ====
section
/-! DEFINITION. Issue slots (R172) and what stalls them, the deadlock tests (R187, R206, R211), napping lanes (R169), and
stops at safe points (R397 to R400). -/

namespace Sys2Proof.Machine
open Sys2Proof

/-! ### Slots (R172) -/

/-- The program counters at which a half has ready lanes, in ascending order. -/
def Half.slots (h : Half) (w : Nat) : List Word :=
  sortBy (fun a b => decide (a.toNat ≤ b.toNat))
    (((List.range w).filter fun l => (h.lane l).ready).map fun l => (h.lane l).pc).eraseDups

/-- The instruction that a slot would issue, with its context. -/
def State.slotCtx (s : State) (place g : Nat) (sl : Slice) (pc : Word) : Option (Instr × Ctx) :=
  match s.block? place with
  | none => none
  | some b =>
    match s.fetch b.kernel sl pc with
    | .error _ => none
    | .ok (i, _) => ({ s with cur := { place, group := g, sl, pc } } : State).begin? i |>.map fun c => (i, c)

/-- The instruction waits for results of earlier ones (R101). -/
def Ctx.awaits (c : Ctx) (i : Instr) : Bool := (c.waitIds i).any fun p => c.st.awaited p.2

/-- The instruction traps before it looks at its queues. -/
def Ctx.trapsFirst (c : Ctx) (i : Instr) : Bool :=
  !legal c.sl i || (c.violation i).isSome || (c.resultError i).isSome || (!c.awaits i && (c.deadPop i).isSome)

/-- The queues from which a lane-fed `mma` takes its operands (R244). -/
def Ctx.laneFed (c : Ctx) (i : Instr) : List (Nat × Nat) :=
  match i with
  | .mma _ => c.transferQueues
  | _ => []

/-- The first of some queues that lacks filled elements in a lane of `active`. -/
def Ctx.lacking (c : Ctx) (qs : List (Nat × Nat)) : Option Nat :=
  (qs.find? fun p => c.act.any fun l => !frontFilled (c.pair.queue p.1 l) p.2).map (·.1)

/-- The path is stalled on a queue of the pair (R97, R205). -/
def Ctx.onQueue (c : Ctx) (i : Instr) : Bool :=
  !c.trapsFirst i && !c.awaits i
    && (c.lacksPop i || c.lacksPush i || ((c.tokenTrap i).isNone && (c.lacking (c.laneFed i)).isSome))

/-- The queue that a stalled path waits on. -/
def Ctx.stallQueue (c : Ctx) (i : Instr) : Nat :=
  match c.lacking (popList i ++ c.laneFed i) with
  | some q => q
  | none => ((pushNeed i).map (·.1)).getD 0xff

/-- The stores of the pair that wait for data. -/
def Ctx.pairStores (c : Ctx) : List Held :=
  c.st.held.filter fun h => h.data.isNone && decide ({ h.own with lane := 0 } = c.own 0)

/-- An awaited result of the path is one that a waiting store of the pair keeps. -/
def Ctx.awaitsStore (c : Ctx) (i : Instr) : Bool :=
  (c.waitIds i).any fun p => c.st.outs.any fun o => decide (o.id = p.2) && o.bytes.any fun r =>
    match r with
    | .held k _ => c.pairStores.any fun h => decide (h.id = k)
    | .byte _ => false

/-- An instruction whose accesses a held store can keep back is issued; of another, only the replay of its elements (R214). -/
def issueAccess (i : Instr) (s : State) : Host.Outcome State Fault Refusal :=
  match i with
  | .mma _ | .zld _ | .zst _ => issueMatrix i s
  | .ldY f => execLdY f s
  | .ldSp f => execLdSp f s
  | .lr f => execLr f s
  | .stream f => execStream f s
  | .st f => execSt f s
  | .stY f => execStY f s
  | .stSp f => execStSp f s
  | .atom op f => execAtom op f s
  | .atomCas f => execAtomCas f s
  | .sc f => execSc f s
  | .barInit f => execBarInit f s
  | .barArrive f => execBarArrive f s
  | .barWait f => execBarWait f s
  | .barInval f => execBarInval f s
  | .barTest f => execBarTest f s
  | .joinSave f => execJoinSave f s
  | .joinLoad f => execJoinLoad f s
  | .copyAsync f => execCopyAsync f s
  | .collRs f => execCollRs f s
  | .collAg f => execCollAg f s
  | .task f => execTask f s
  | .post f => execPost f s
  | .postCnt f => execPostCnt f s
  | .seal f => execSeal f s
  | .steal f => execSteal f s
  | i => issue i (fun _ s => .done s) s

/-- An instruction at the cursor that neither issues nor traps. -/
def accessWaits (i : Instr) (s : State) : Bool :=
  let at_ (s : State) : Pair := s.pair s.cur.place s.cur.group
  match issueAccess i s with
  | .next t => decide ((at_ t).acc.did = (at_ s).acc.did ∧ (at_ t).exe.did = (at_ s).exe.did ∧ (at_ t).run = (at_ s).run)
  | _ => false

/-- The waiting stores that alone keep an operation back (R296): of each, that it waits while the store is there, and not without. -/
def State.keepers (s : State) (waits : State → Bool) : List Held :=
  if waits { s with held := [] } then []
  else s.held.filter fun h => h.data.isNone && !h.remote && waits { s with held := [h] }

/-- The waiting stores whose data a matrix instruction waits for (R263, R296). -/
def Ctx.matrixStores (c : Ctx) (i : Instr) : List Held :=
  if c.st.engineIdle c.core && c.st.held.any (fun h => h.data.isNone && !h.remote) then c.st.keepers (accessWaits i) else []

/-- A waiting store of the pair keeps the path's own accesses, or the replay of its elements, from being made (R206, R265). -/
def Ctx.kept (c : Ctx) (i : Instr) : Bool :=
  (c.st.keepers (accessWaits i)).any fun h => c.pairStores.any fun x => decide (x.id = h.id)

/-- Every member of the team is at its collective of this group number (R256). -/
def State.teamThere (s : State) (b : Block) (g : Nat) : Bool :=
  let team := s.blocks.filter fun e => decide (e.2.part = b.part ∧ e.2.serial = b.serial ∧ e.2.team = b.team)
  decide (team.length = b.t) && team.all fun e => (e.2.pair g).teamWait

/-- The waiting stores that keep back a collective at which every member is (R263, R296). -/
def State.teamStores (s : State) (place g : Nat) : List Held :=
  match s.block? place with
  | none => []
  | some b =>
    let waits (s : State) : Bool := decide (((s.teamMeet b.part b.serial b.team g).pair place g).teamWait)
    if s.teamThere b g && s.held.any (fun h => h.data.isNone && !h.remote) then s.keepers waits else []

/-- A store is one of a pair's. -/
def Held.ofPair (b : Block) (g : Nat) (h : Held) : Bool := h.data.isNone && !h.remote && decide ({ h.own with lane := 0 } = b.owner g 0)

/-- The channel that a lane waits to enter (R231): that of its own copy, or of the copy that its path still waits for. -/
def Pair.enterCh (p : Pair) (l : Nat) : Option Nat :=
  let x := p.acc.lane l
  match x.wait with
  | .entering len =>
    ((p.entering.find? fun r => decide (r.lane = l)).or (p.entering.find? fun r => decide (x.pc = r.pc + BitVec.ofNat 32 len))).map (·.ch)
  | _ => none

/-- The copy that a channel performs waits for a store of the pair (R296). -/
def State.copyHeldBy (s : State) (place g core ch : Nat) : Bool :=
  (s.block? place).any fun b => (s.copyHeld core ch).any (Held.ofPair b g)

/-- A command of a core's collective engine waits for a store of the pair (R296). -/
def State.collHeldBy (s : State) (place g core : Nat) : Bool :=
  (s.block? place).any fun b => s.colls.any fun k => decide (k.core = core) && (s.collHeld k).any (Held.ofPair b g)

/-- An outstanding load of a lane is one that a waiting store of the pair keeps. -/
def Ctx.loadKept (c : Ctx) (l : Nat) : Bool :=
  c.st.outs.any fun o => decide (o.own = c.own l) && o.bytes.any fun r => match r with
    | .held k _ => c.pairStores.any fun h => decide (h.id = k)
    | .byte _ => false

/-- The path is stalled on data for a waiting store of the pair (R206, R211, R296). That a path stalled because a lane holds 64 waiting
stores is one is the model's choice (DESIGN CHOICE, log 82). -/
def Ctx.onData (c : Ctx) (i : Instr) : Bool :=
  !c.trapsFirst i && decide (c.pairStores ≠ []) &&
    (if c.awaits i then c.awaitsStore i
     else if c.onQueue i then false
     else match i with
      | .st _ | .stSp _ => fromQ13 c.f && c.act.any fun l => decide (64 ≤ c.st.waitingStores (c.own l))
      | .fence _ _ => c.act.any fun l => decide (c.st.waitingStores (c.own l) ≠ 0) || c.loadKept l
      | .task _ => (c.act.any fun l => decide (c.st.waitingStores (c.own l) ≠ 0)) || c.kept i
      | .copyAsync _ => (c.act.any fun l => decide (c.st.waitingStores (c.own l) ≠ 0))
        || (decide (c.enterFree c.st = 0) && c.st.copyHeldBy c.place c.group c.core c.f.ch) || c.kept i
      | .collRs _ | .collAg _ => (c.act.any fun l => decide (c.st.waitingStores (c.own l) ≠ 0))
        || (c.st.collFull c.core && c.st.collHeldBy c.place c.group c.core) || c.kept i
      | .mma _ | .zld _ | .zst _ => (c.matrixStores i).any (Held.ofPair c.blk c.group)
      | _ => c.kept i)

/-! ### Lanes of a pair at the end of a clk -/

/-- Lanes of a half that are stalled on a queue or on store data, with the queue or 0xff. -/
def State.stalled (s : State) (place g : Nat) (sl : Slice) : List (Nat × Nat) :=
  match s.block? place with
  | none => []
  | some b =>
    let h := (b.pair g).half sl
    let slots := (h.slots b.w).flatMap fun pc =>
      match s.slotCtx place g sl pc with
      | none => []
      | some (i, c) => if c.onQueue i then c.path.map fun l => (l, c.stallQueue i) else if c.onData i then c.path.map fun l => (l, 0xff) else []
    let on (ch : Nat) : Bool := s.copyHeldBy place g (coreOf place) ch
    let team := decide (sl = .execute) && (b.pair g).teamWait && (s.teamStores place g).any (Held.ofPair b g)
    let others := (h.liveLanes b.w).filterMap fun l => match (h.lane l).wait with
      | .copy ch _ _ => if on ch then some (l, 0xff) else none
      | .entering _ => if ((b.pair g).enterCh l).any on then some (l, 0xff) else none
      | .rendezvous => if team then some (l, 0xff) else none
      | _ => none
    sortBy (fun a b => decide (a.1 ≤ b.1)) (slots ++ others)

/-- A lane blocked in `join.wait` or at a rendezvous (R148). -/
def Wait.inJoin : Wait → Bool
  | .join _ _ | .rendezvous => true
  | _ => false

/-- Every element of the pair is filled (R211, R397). -/
def Pair.allFilled (p : Pair) : Bool := p.queues.all fun q => q.2.all Elem.filled

/-- No engine operation of the block is incomplete but copies and collectives that wait for a store of the pair (R211). -/
def State.enginesStuck (s : State) (place g : Nat) (b : Block) : Bool :=
  let mine (o : Owner) : Bool := decide (o.part = b.part ∧ o.serial = b.serial ∧ o.block = b.block)
  (s.cores.all fun e => e.2.chans.all fun ch => ch.2.all (fun k => !mine k.own) || s.copyHeldBy place g e.1 ch.1)
    && s.colls.all (fun k => !mine k.own || k.told || s.collHeldBy place g k.core)
    && b.pairs.all (fun q => q.2.entering.all fun r => s.copyHeldBy place g (coreOf place) r.ch)
    && s.cores.all (fun e => match e.2.engine with
        | some x => decide (x.place ≠ place)
        | none => true)

/-- The two slices of a pair are stalled on each other (R211): the lowest stalled lane of the execute slice. -/
def State.decoupled (s : State) (place g : Nat) : Option (Nat × Nat) :=
  match s.block? place with
  | none => none
  | some b =>
    let p := b.pair g
    if p.live = false ∨ p.run ≠ .running ∨ p.streams ≠ [] ∨ p.allFilled = false ∨ s.enginesStuck place g b = false then none
    else
      let a := s.stalled place g .access
      let x := s.stalled place g .execute
      let quiet (h : Half) (st : List (Nat × Nat)) : Bool :=
        (h.liveLanes b.w).all fun l => (h.lane l).wait.inJoin || st.any fun e => decide (e.1 = l)
      if a ≠ [] ∧ x ≠ [] ∧ quiet p.acc a ∧ quiet p.exe x then x.head? else none

/-- Elements that a lane's stores need, up to and with one of them (R206). -/
def needThrough (h : Held) : List Held → Nat
  | [] => 0
  | x :: r =>
    let n := if x.own = h.own ∧ x.data = none then (if x.n = 8 then 2 else 1) else 0
    if x.id = h.id then n else n + needThrough h r

/-- A lane that has exited the execute slice holds a store for whose data `q13` holds too few elements (R206). Where several do in one
clk, the record names the store first in issue order and marks its lane alone: the model's choice (DESIGN CHOICE, log 62). -/
def State.starved (s : State) (place g : Nat) : Option Held :=
  match s.block? place with
  | none => none
  | some b =>
    let p := b.pair g
    if p.live = false ∨ p.run ≠ .running then none
    else s.held.find? fun h => h.data.isNone && decide ({ h.own with lane := 0 } = b.owner g 0) && !p.exe.live h.own.lane
      && decide ((p.queue 13 h.own.lane).length < needThrough h s.held)

/-- DECOUPLING_DEADLOCK (R206, R211). -/
def State.decouple (s : State) (place g : Nat) : State :=
  match s.starved place g with
  | some h => s.raiseTrap place g .access h.pc { code := 0x12, lane := h.own.lane, lanes := [h.own.lane], addr := h.addr, aux0 := 0xff }
  | none =>
    match s.decoupled place g with
    | none => s
    | some (l, q) =>
      let h := (s.pair place g).exe
      let pc := (h.lane l).pc
      let ls := ((s.stalled place g .execute).filter fun e => decide ((h.lane e.1).pc = pc)).map (·.1)
      s.raiseTrap place g .execute pc { code := 0x12, lane := l, lanes := ls, aux0 := q }

/-- The instruction at which a lane in `join.wait` or at a rendezvous is blocked. -/
def Lane.blockedAt (x : Lane) : Word :=
  match x.wait with
  | .join _ pc => pc
  | _ => x.pc

/-- Some set of a half can be released (R181), or some rendezvous can issue (R148). -/
def State.canGoOn (s : State) (b : Block) (h : Half) (sl : Slice) : Bool :=
  (List.range 16).any (fun n => decide ((h.set n).waiters = (h.set n).members ∧ (h.set n).members ≠ 0))
    || (h.liveLanes b.w).any fun l => decide ((h.lane l).wait = .rendezvous) && scopeFull h b.w (s.quadAt b sl (h.lane l).pc) (h.lane l).pc l

/-- REJOIN_DEADLOCK (R187): every live lane of the slice is blocked, and none can be released. A team rendezvous is a wait of its own
(R282). There being no `active`, LANES marks the lanes blocked at the instruction reported: the model's choice (DESIGN CHOICE, log 61). -/
def State.rejoin (s : State) (place g : Nat) (sl : Slice) : State :=
  match s.block? place with
  | none => s
  | some b =>
    let p := b.pair g
    let h := p.half sl
    let ls := h.liveLanes b.w
    if p.mayTrap s.clk sl = false ∨ (sl = .execute ∧ p.teamWait) ∨ ls = [] ∨ (ls.any fun l => !(h.lane l).wait.inJoin)
        ∨ s.canGoOn b h sl then s
    else
      let sets := (List.range 16).filter fun n => decide ((h.set n).waiters ≠ 0)
      let pc := (h.lane (ls.headD 0)).blockedAt
      let here := ls.filter fun l => decide ((h.lane l).blockedAt = pc)
      (s.mapHalf place g sl fun h => sets.foldl (fun h n => h.setSet n { h.set n with state := jFaulted }) h).raiseTrap place g sl pc
        { code := 0x11, lane := ls.headD 0xff, lanes := here, aux0 := maskOf sets }

/-! ### Paths that are about to issue (R148, R399) -/

/-- The rendezvous at which an instruction issues: of the quad, or of the group (R148, R239). -/
def meetOf (i : Instr) : Option Bool :=
  match i with
  | .qswapH _ | .qswapV _ | .qbcast _ | .qsum _ => some true
  | .shfl _ _ | .voteAny _ | .voteAll _ | .voteBallot _ | .red _ _ | .scan _ _ _ | .matchLanes _ | .mma _ | .mmaTeam _ | .zclr _ | .zld _
  | .zst _ | .zcvt _ | .zadd _ | .sclSetA _ | .sclSetB _ | .fmtVote _ => some false
  | _ => none

/-- A path comes to an instruction: the lanes that are about to issue it, none while its rendezvous is incomplete, and the state in
which they are. -/
def Ctx.arrive (c : Ctx) (i : Instr) : State × List Nat :=
  match meetOf i with
  | none => (c.st, c.path)
  | some quad =>
    let q := c.gather quad
    (q.1, if q.2 then ((q.1.pair c.place c.group).half c.sl).pathBut c.w c.pc c.st.cur.skip else [])

/-! ### Naps (R169) -/

/-- A lane's nap is over at this clk. -/
def Lane.wake (clk : Nat) (x : Lane) : Lane :=
  match x.wait with
  | .nap e => if e ≤ clk then { x with wait := .none } else x
  | _ => x

/-! ### Stops at safe points (R397 to R400) -/

/-- Every live lane is held, blocked (R172), in a wait of R282, or stalled on a queue or on store data. -/
def State.cannotIssue (s : State) (place g : Nat) (sl : Slice) (b : Block) : Bool :=
  let h := (b.pair g).half sl
  let st := s.stalled place g sl
  (h.liveLanes b.w).all fun l => match (h.lane l).wait with
    | .none => st.any fun e => decide (e.1 = l)
    | .entering _ => st.any fun e => decide (e.1 = l)
    | .released => false
    | _ => true

/-- The pair has come to its stop at safe points (R397). -/
def State.safeDone (s : State) (place g : Nat) : Bool :=
  match s.block? place with
  | none => false
  | some b =>
    let p := b.pair g
    p.safe.isSome && decide (p.run = .running) && p.streams.isEmpty && p.allFilled && s.cannotIssue place g .access b
      && s.cannotIssue place g .execute b

/-- The pair is stopped, and the record that is due is written (R399, R400). -/
def State.finishSafe (s : State) (place g : Nat) (partial_ : Bool) : State :=
  match (s.pair place g).safe with
  | none => s
  | some ss =>
    let why : Why := if ss.why = .haltSafe then .halt else .debug
    let s := (s.stopPair place g why).mapPair place g fun p => { p with safe := none, stepping := false }
    s.stopRecord place g ss partial_

end Sys2Proof.Machine
end

