-- ==== Sys2Proof/Machine/Halt.lean ====
section
/-! DEFINITION. Handles (R335), stopping a target (R338, R377, R386), its resumption (R338, R371, R391), and the saving and
loading of images (R338 to R341, R389, R390), which the system instructions call. -/

namespace Sys2Proof.Machine
open Sys2Proof

/-! ### Handles (R335) -/

structure Handle where
  core : Nat
  slot : Nat
  group : Nat
  level : Nat
  seq : Nat
deriving DecidableEq, Repr

def handleWord (h : Word) : Handle :=
  { core := h.toNat % 2 ^ 8, slot := h.toNat / 2 ^ 8 % 2 ^ 4, group := h.toNat / 2 ^ 12 % 2 ^ 4, level := h.toNat / 2 ^ 16 % 4,
    seq := h.toNat / 2 ^ 20 }

def Handle.place (h : Handle) : Nat := placeOf h.core h.slot

def malformed (w : Word) : Bool :=
  let h := handleWord w
  decide (h.level = 3 ∨ w.toNat / 2 ^ 18 % 4 ≠ 0 ∨ 192 ≤ h.core) || decide (h.level ≠ 0 ∧ h.group ≠ 0)
    || decide (h.level = 2 ∧ (h.slot ≠ 0 ∨ h.seq ≠ 0))

/-- A handle is stale (R335); a core handle never is. A pair whose block is placed and has not started has not ended. -/
def State.stale (s : State) (h : Handle) : Bool :=
  if h.level = 2 then false
  else match s.block? h.place with
    | none => true
    | some b => decide (smGet 0 (s.core h.core).seqs h.slot ≠ h.seq)
      || (decide (h.level = 0) && (decide (b.groups ≤ h.group) || (b.started && !(b.pair h.group).live)))

/-- Places of the blocks of a target. -/
def State.targets (s : State) (h : Handle) : List Nat :=
  if h.level = 2 then s.places.filter fun p => decide (coreOf p = h.core) else [h.place]

/-! ### Stopped targets (R338, R377, R386) -/

/-- Work of a pair that its stop still waits for (R238, R386): remote writes and atomics, accesses that are to take their place, local
results and performed multicasts not yet delivered, stores with data not yet placed, and an accepted matrix instruction. A load whose
bytes a waiting store of its own pair holds is such work too: the model's reading (DEDUCED, log 85). -/
def State.pairBusy (s : State) (place g : Nat) (b : Block) : Bool :=
  (s.remotes.any fun r => decide ({ r.own with lane := 0 } = b.owner g 0 ∧ r.op ≠ .read))
    || (s.late.any fun h => decide ({ h.own with lane := 0 } = b.owner g 0))
    || (s.outs.any fun o => decide ({ o.own with lane := 0 } = b.owner g 0) && (if o.mc.isSome then !o.bytes.isEmpty else o.bad.isNone))
    || (s.held.any fun h => decide ({ h.own with lane := 0 } = b.owner g 0) && h.data.isSome)
    || (match (s.core (coreOf place)).engine with
        | some x => decide (x.place = place ∧ x.group = g)
        | none => false)

/-- The pair is stopped and its stopping has completed. -/
def State.pairStopped (s : State) (place g : Nat) : Bool :=
  match s.block? place with
  | none => false
  | some b => (b.pair g).run.isStopped && !s.pairBusy place g b

/-- Every pair of the block that has not ended is stopped; a block that has not started is once a request has reached it. -/
def State.blockStopped (s : State) (place : Nat) : Bool :=
  match s.block? place with
  | none => false
  | some b => (b.started || b.halted) && (List.range b.groups).all fun g => !(b.pair g).live || s.pairStopped place g

def State.targetStopped (s : State) (h : Handle) : Bool :=
  if h.level = 0 then s.pairStopped h.place h.group else (s.targets h).all s.blockStopped

/-- A pair is halted alone, as a trap stops it (R338). -/
def State.haltPair (s : State) (place g : Nat) : State :=
  ((s.stopPair place g .halt).mapPair place g fun p => { p with haltAt := some (p.haltAt.getD s.clk) }).endSafe place g

/-- The copies of a block that have delivered or given up all their bytes end, channel by channel (R386). -/
def State.endHeads (s : State) (place : Nat) (ch : Nat) : Nat → State
  | 0 => s
  | fuel + 1 =>
    match s.chanHead (coreOf place) ch, s.block? place with
    | some k, some b =>
      if (k.stopped ∨ k.left = 0) ∧ k.own.part = b.part ∧ k.own.serial = b.serial ∧ k.own.block = b.block then
        (s.copyEnd (coreOf place) ch).endHeads place ch fuel
      else s
    | _, _ => s

/-- The same in every channel, so that no entry of an image is left without bytes (R437). -/
def State.endCopies (s : State) (place : Nat) : State := (List.range 8).foldl (fun s ch => s.endHeads place ch 32) s

/-- A pre-emption request reaches a block (R386): its pairs stop, its copies freeze, multicasts already performed are delivered.
A block that is placed and has not started does not start. -/
def State.haltBlock (s : State) (place : Nat) : State :=
  match s.block? place with
  | none => s
  | some b =>
    if b.started = false then s.mapBlock place fun b => { b with halted := true }
    else
      let s := s.endCopies place
      let s := (s.outs.filter fun o => o.mc.isSome && !o.bytes.isEmpty
        && decide (o.own.part = b.part ∧ o.own.serial = b.serial ∧ o.own.block = b.block)).foldl State.finishOut s
      let s := (List.range b.groups).foldl (fun s g => if (b.pair g).live then s.haltPair place g else s) s
      s.mapBlock place fun b => { b with halted := true }

/-! ### The answer of `halt` (R338) -/

/-- The code for a lane that waits in `halt`, once there is one. -/
def State.haltAnswer (s : State) (w : Word) : Option Nat :=
  let h := handleWord w
  if s.stale h then some 7
  else if s.targetStopped h && (decide (h.level = 0) || (s.targets h).all fun p => ((s.block? p).map (·.halted)).getD false) then some 0
  else none

structure HaltWaiter where
  place : Nat
  group : Nat
  sl : Slice
  lane : Nat
  h : Word
  safe : Bool
  k : Ret

/-- The lanes that wait in `halt`. -/
def State.haltWaiters (s : State) : List HaltWaiter :=
  s.blocks.flatMap fun e => e.2.pairs.flatMap fun q => [Slice.access, Slice.execute].flatMap fun sl =>
    (q.2.half sl).lanes.filterMap fun x => match x.2.wait with
      | .halt h safe k => some ⟨e.1, q.1, sl, x.1, h, safe, k⟩
      | _ => none

/-- Every `halt` whose target has stopped, or ended, is answered. -/
def State.settleHalts (s : State) : State :=
  s.haltWaiters.foldl (fun s w => match s.haltAnswer w.h with
    | some code => s.endWait w.place w.group w.sl w.lane w.k (BitVec.ofNat 32 code)
    | none => s) s

/-- PREEMPTION_REQUEST (R386): a request that a lane waits on arrives at its target. -/
def State.preempt (s : State) (w : Word) : State :=
  let h := handleWord w
  if (s.haltWaiters.any fun x => decide (x.h = w) && !x.safe) && decide (h.level ≠ 0) && !s.stale h then
    ((s.targets h).foldl State.haltBlock s).settleHalts
  else s

/-- The limit of a stop at safe points that has not finished in time (R398): 0 for none. -/
def State.parkLimit (s : State) (part : Nat) : Nat := (s.sysreg part 0x010).toNat / 2 ^ 8 % 2 ^ 16 * 4096

/-- PARKING_TIMEOUT (R398): a `halt.safe` is withdrawn with code 2; a breakpoint or step stops at instruction boundaries. -/
def State.parkOver (s : State) (place g : Nat) : State :=
  match s.block? place with
  | none => s
  | some b =>
    match (b.pair g).safe with
    | none => s
    | some ss =>
      if (b.pair g).run.isStopped ∨ s.parkLimit b.part = 0 ∨ s.clk < ss.since + s.parkLimit b.part then s
      else if ss.why ≠ .haltSafe then (s.finishSafe place g true).settleHalts
      else
        let free (h : Half) : Half := { h with lanes := h.lanes.map fun e => (e.1, if e.2.wait = .held then { e.2 with wait := .none } else e.2) }
        let s := s.mapPair place g fun p => { p with safe := none, acc := free p.acc, exe := free p.exe }
        (s.haltWaiters.filter fun w => w.safe && decide (w.h = s.pairHandle place g)).foldl
          (fun s w => s.endWait w.place w.group w.sl w.lane w.k 2) s

/-- SAFE_STOP_COMPLETE (R397). -/
def State.safeStop (s : State) (place g : Nat) : State :=
  if s.safeDone place g then (s.finishSafe place g false).settleHalts else s

/-! ### Resumption (R338, R371, R391) -/

/-- A store held across a save is translated when its pair first resumes (R371), once no store holds an entry that the walk reads. -/
def State.retryStore (s : State) (place : Nat) (b : Block) (h : Held) : State :=
  let put (h' : Held) : State := { s with held := s.held.map fun x => if x.id = h.id then { h' with retry := false } else x }
  let fail : State := (put { h with void := true, remote := true }).fenceFail h.own false false 15
  if h.sp then
    match s.spTarget place (lo32 h.addr) h.n with
    | some p => put { h with loc := .sp p.1 p.2 }
    | none => fail
  else
    match s.translate (b.tctx place) false true h.addr with
    | .ok t => if t.remote then put { h with loc := .glob (t.addr h.addr), remote := true, peer := t.peer }
               else put { h with loc := .glob (t.addr h.addr), remote := false }
    | .wait => s
    | .fault cause => fail.meetWalkErr (coreOf place) h.own b.root h.addr cause

/-- The stores of a pair that runs again find their places. -/
def State.retryStores (s : State) (place g : Nat) : State :=
  match s.block? place with
  | none => s
  | some b => (s.held.filter fun h => h.retry && decide ({ h.own with lane := 0 } = b.owner g 0)).foldl (fun s h => s.retryStore place b h) s

/-- A pending `ld.fab` element is read again; `prev` is the wide read whose upper half follows (R238, R371). The read waits for a store
that holds an entry of the walk, and for an engine that owns its line (R270). -/
def State.rereadElem (s : State) (place : Nat) (b : Block) (g q l : Nat) (e : Elem) (prev : Option Nat) : State × Elem × Option Nat :=
  if e.kind ≠ .fab ∨ e.out ≠ 0 then (s, e, none)
  else match prev, e.hi with
    | some id, true => (s, { e with out := id }, none)
    | _, _ =>
      let wide := isWide e.ty && !e.hi
      let ty := if isWide e.ty && e.hi then .b32 else e.ty
      let e' : Elem := { e with out := s.fresh, ty := e.ty, hi := false }
      let more := if wide then some s.fresh else none
      match s.translate (b.tctx place) true false e.addr with
      | .fault k => (s.meetWalkErr (coreOf place) (b.owner g l) b.root e.addr k, { e with kind := .filled, val := 0, cause := k }, none)
      | .wait => (s, e, none)
      | .ok t =>
        let s' : State := { s with fresh := s.fresh + 1 }
        if t.remote then
          ({ s' with remotes := s'.remotes ++ [{ id := s.fresh, own := b.owner g l, op := .read, peer := t.peer, addr := e.addr,
                                                 raddr := t.addr e.addr, ty, dst := .queue q, acq := e.acq }] }, e', more)
        else if s.ownedOver none (.glob (t.addr e.addr)) (accBytes ty) then (s, e, none)
        else if (s.errIn (.glob (t.addr e.addr)) (accBytes ty)).isSome then
          (s.meetErr (coreOf place) (b.owner g l) (.glob (t.addr e.addr)) (accBytes ty) 0, { e with kind := .filled, val := 0, cause := 4 }, none)
        else
          let s' := (s'.touchRead (coreOf place) b.part (.glob (t.addr e.addr))).request (coreOf place) s.fresh (.glob (t.addr e.addr))
          ({ s' with outs := s'.outs ++ [{ id := s.fresh, own := b.owner g l, dst := .queue q, ty,
                                           bytes := s.capture (.glob (t.addr e.addr)) (accBytes ty), addr := e.addr }] }, e', more)

def State.rereadList (s : State) (place : Nat) (b : Block) (g q l : Nat) : List Elem → Option Nat → State × List Elem
  | [], _ => (s, [])
  | e :: r, prev =>
    let x := s.rereadElem place b g q l e prev
    let y := x.1.rereadList place b g q l r x.2.2
    (y.1, x.2.1 :: y.2)

/-- The pending remote elements of a pair are read again; the reads leave once every element is in its place. -/
def State.reread (s : State) (place g : Nat) (b : Block) : State :=
  let keys := ((b.pair g).queues.filter fun e => e.2.any fun x => decide (x.kind = .fab ∧ x.out = 0)).map (·.1)
  let from_ := s.fresh
  let s := keys.foldl (fun s k =>
    let r := s.rereadList place b g (k / 64) (k % 64) ((s.pair place g).queue (k / 64) (k % 64)) none
    r.1.mapPair place g fun p => p.setQueue (k / 64) (k % 64) r.2) s
  (s.remotes.filter fun r => decide (from_ ≤ r.id)).foldl State.sendRemote s

/-- A restored barrier wait finds its word again and is tested (R229); it waits for a store that holds an entry of the walk. A wait
whose word it cannot reach is dropped, so that the `bar.wait` issues again: the spec names no such case, and this is the model's choice
(DESIGN CHOICE, log 80). -/
def State.findWait (s : State) (place g l : Nat) (b : Block) : State :=
  let put (w : Wait) : State := (s.mapLane place g .access l fun x => { x with wait := w }).retest place g l
  match ((s.pair place g).acc.lane l).wait with
  | .barrier wa loc gen ph k =>
    if loc = farSp then
      match s.spTarget place (lo32 wa) 8 with
      | some p => put (.barrier wa (.sp p.1 p.2) gen ph k)
      | none => put .none
    else if loc = farGlob then
      match s.translate (b.tctx place) true true wa with
      | .ok t => if t.remote then put .none else put (.barrier wa (.glob (t.addr wa)) gen ph k)
      | .fault _ => put .none
      | .wait => s
    else s.retest place g l
  | _ => s

/-- The barrier waits of a pair that have still to find their words. -/
def State.findWaits (s : State) (place g : Nat) (b : Block) : State :=
  ((List.range b.w).filter fun l => match ((s.pair place g).acc.lane l).wait with
    | .barrier _ loc _ _ _ => isFar loc
    | _ => false).foldl (fun s l => s.findWait place g l b) s

/-! ### Answers of firmware calls (R338, R427) -/

/-- The place, group and kept result of the lane that waits for a call's answer. -/
def State.callerOf (s : State) (c : Call) : Option (Nat × Ret) :=
  match s.placeOfOwner c.own with
  | none => none
  | some p => match (((s.pair p c.own.group).half c.sl).lane c.own.lane).wait with
    | .fwcall tag k => if tag = c.tag then some (p, k) else none
    | _ => none

/-- The block of a call's caller is saved. -/
def State.callerSaved (s : State) (c : Call) : Bool :=
  ((s.launch? c.part c.own.serial).map fun la => la.saved.any fun b => decide (b.block = c.own.block)).getD false

/-- The pending call of a tag. -/
def State.pendingCall (s : State) (tag : Word) : Option Call := s.calls.find? fun c => c.tag = tag ∧ c.answer = none

/-- A call's answer reaches its lane; it is held while the caller is stopped or saved, and discarded once the caller is gone. -/
def State.answerCall (s : State) (c : Call) (v : Word) : State :=
  let rest (s : State) : State := { s with calls := s.calls.filter fun x => decide (x.tag ≠ c.tag) }
  match s.callerOf c with
  | some (p, k) =>
    if (s.pair p c.own.group).run.isStopped then
      { s with calls := s.calls.map fun x => if x.tag = c.tag then { x with answer := some v } else x }
    else (rest s).endWait p c.own.group c.sl c.own.lane k v
  | none =>
    if s.callerSaved c then { s with calls := s.calls.map fun x => if x.tag = c.tag then { x with answer := some v } else x }
    else rest s

/-- The held answers of a pair that goes on are delivered. -/
def State.heldAnswers (s : State) (place g : Nat) : State :=
  (s.calls.filter fun c => decide (c.own.group = g ∧ s.placeOfOwner c.own = some place)).foldl (fun s c => match c.answer with
    | some v => s.answerCall c v
    | none => s) s

/-- A stopped pair goes on (R338): its stores and pending reads find their places, its blocked lanes test their waits again. -/
def State.goOn (s : State) (place g : Nat) : State :=
  match s.block? place with
  | none => s
  | some b =>
    if !b.started then s.mapPair place g fun p => { p with run := .running, haltAt := none }
    else if (b.pair g).live && (b.pair g).run.isStopped then
      let s := s.retryStores place g
      let s := (((s.mapBlock place fun b => { b with halted := false }).resumePair place g).heldAnswers place g).reread place g b
      let s := (List.range b.w).foldl (fun s l => s.findWait place g l b) s
      let s := (List.range 8).foldl (fun s ch => s.wakeCopies place ch) s
      ((((if (s.pair place g).teamWait then s else s.wakeMeets place g .execute).wakeMeets place g .access).endPair place g)).tellColls
    else s

/-- The pair may not go on yet: its record waits for the ring, or its state is broken (R383, R385). -/
def State.pinned (s : State) (place g : Nat) : Bool := s.recWaits place g || decide ((s.pair place g).broken ≠ [])

/-- Every stopped pair of a block goes on, and what was held for the block is given to it (R238). -/
def State.goOnBlock (s : State) (place : Nat) : State :=
  match s.block? place with
  | none => s
  | some b =>
    let s := s.mapBlock place fun b => { b with halted := false }
    ((List.range b.groups).foldl (fun s g => if s.pinned place g then s else s.goOn place g) s).tellColls

/-- The blocks that are saved and restored with a block: its launch if concurrent, else its team (R287, R391). -/
def sameUnit (b x : Block) : Bool :=
  decide (x.part = b.part ∧ x.serial = b.serial) && (decide (b.kernel.decl.cls = .concurrent) || decide (x.team = b.team))

/-- A block of the unit is saved (R287, R391), or of a concurrent launch not resident, but for those that have ended (R338). -/
def State.unitAway (s : State) (b : Block) : Bool :=
  (s.launch? b.part b.serial).any fun la => la.saved.any (sameUnit b)
    || decide (b.kernel.decl.cls = .concurrent)
      && decide ((s.blocks.filter fun e => decide (e.2.part = b.part ∧ e.2.serial = b.serial)).length + la.ended < la.n)

/-- `tret` on a target that is not stale: its code, and the state after it. -/
def State.tret (s : State) (h : Handle) : State × Nat :=
  let ps := s.targets h
  let away := ps.any fun p => ((s.block? p).map s.unitAway).getD false
  if h.level = 0 then
    if !s.pairStopped h.place h.group || s.pinned h.place h.group then (s, 2)
    else if away then (s, 4)
    else (s.goOn h.place h.group, 0)
  else if !s.targetStopped h || ps.any (fun p => match s.block? p with
      | some b => (List.range b.groups).any fun g => (b.pair g).live && s.pinned p g
      | none => false) then (s, 2)
  else if away then (s, 4)
  else
    let unit := s.places.filter fun p => ps.any fun q => match s.block? p, s.block? q with
      | some x, some b => decide (p = q) || sameUnit b x
      | _, _ => false
    ((unit.filter s.blockStopped).foldl State.goOnBlock s, 0)

/-! ### Saving (R338 to R340) -/

/-- Bytes at a virtual address of an image: all there, a fault, memory of another partition, or bytes that a store or an engine keeps. -/
inductive ImgReach
  | ok
  | fault
  | outside
  | wait
deriving DecidableEq, Repr

/-- The page of an image lies in the issuing partition's memory, or for firmware in any partition's (R332). -/
def State.imagePage (s : State) (c : TCtx) (t : Tlb) : ImgReach :=
  let n := 2 ^ t.shift
  if partOwns (s.partRec c.part) t.frame n then .ok
  else if s.parts.any fun e => e.2.valid && partOwns e.2 t.frame n then (if c.fw then .ok else .outside)
  else .fault

def State.reachImage (s : State) (c : TCtx) (wr : Bool) (va : DWord) : Nat → Nat → ImgReach
  | 0, _ => .ok
  | fuel + 1, n =>
    if n = 0 then .ok
    else
      let k := Nat.min n (4096 - va.toNat % 4096)
      match s.translate { c with fw := true } (!wr) wr va with
      | .fault _ => .fault
      | .wait => .wait
      | .ok t =>
        if t.remote then .fault
        else if s.imagePage c t ≠ .ok then s.imagePage c t
        else if s.heldOver (.glob (t.addr va)) k || s.ownedOver none (.glob (t.addr va)) k then .wait
        else s.reachImage c wr (va + BitVec.ofNat 64 k) fuel (n - k)

/-- A saved block leaves its place (R338): its copies and remote reads live on in the image, its stores keep their bytes in
device memory, and the partition keeps what R390 says. A team that has not started stays to be placed (R317). -/
def State.freeSaved (s : State) (place : Nat) : State :=
  match s.block? place with
  | none => s
  | some b =>
    if b.started = false then s.unplace b
    else
    let mine (o : Owner) : Bool := decide (o.part = b.part ∧ o.serial = b.serial ∧ o.block = b.block)
    let b := { b with copyStats := (s.copiesOf place b).map (·.stat) }
    let keep (c : Core) : Core := { c with chans := (c.chans.map fun e => (e.1, e.2.filter fun k => !mine k.own)).filter fun e => !e.2.isEmpty }
    let far (h : Held) : Held := match h.loc with
      | .sp p _ => if p = place then { h with loc := farSp } else h
      | .glob _ => h
    let s : State := { s with cores := s.cores.map (fun e => (e.1, keep e.2)), held := s.held.map far,
                              remotes := s.remotes.filter fun r => !(mine r.own && decide (r.op = .read)) }
    (s.mapLaunch b.part b.serial fun l => { l with saved := l.saved ++ [b] }).release place

/-- `ctxsave` of a target that is not stale (R338): its code, the image's bytes, and the state after it; none while the write
must wait. An error of a table that the write meets is reported (R368). -/
def State.save (s : State) (c : TCtx) (own : Owner) (h : Handle) (va : DWord) (cap : Nat) (free : Bool) : Option (State × Nat × Nat) :=
  let ci : TCtx := { c with fw := true }
  let ps := s.targets h
  if !s.targetStopped h then some (s, 2, 0)
  else
    let s := if h.level = 0 then s else ps.foldl State.endCopies s
    let bs := if h.level = 2 then s.coreImage h.core
      else match s.block? h.place with
        | some b => if h.level = 1 then s.blockImage h.place b else s.pairImage h.place h.group b
        | none => []
    if cap < bs.length then some (s, 6, bs.length)
    else match s.reachImage c true va (pagesOf bs.length) bs.length with
      | .wait => none
      | .fault => some (s.rangeErr ci own true va (pagesOf bs.length) bs.length, 6, bs.length)
      | .outside => some (s, 5, bs.length)
      | .ok =>
        let s := (s.writeVirt c va bs (pagesOf bs.length)).1
        let s := ps.foldl (fun s p => match s.block? p with
          | some b => if h.level = 0 then s.summarise p h.group 1
            else (List.range b.groups).foldl (fun s g => if (b.pair g).live then s.summarise p g 1 else s) s
          | none => s) s
        some (if free then ps.foldl State.freeSaved s else s, 0, bs.length)

/-! ### Loading (R338, R341) -/

/-- Why an image is not read: a status code, and the range whose read failed, empty for a refusal. -/
structure ImgFail where
  code : Nat
  va : DWord := 0
  n : Nat := 0
deriving DecidableEq, Repr

/-- Bytes of an image, all at one instant; none while one must wait, or a failure. -/
def State.readBytes (s : State) (c : TCtx) (va : DWord) (n : Nat) : Except ImgFail (Option (List Byte)) :=
  match s.reachImage c false va (pagesOf n) n with
  | .wait => .ok none
  | .fault => .error ⟨6, va, n⟩
  | .outside => .error ⟨5, 0, 0⟩
  | .ok => match s.readVirt c s.fresh va (pagesOf n) n with
    | .error _ => .error ⟨6, va, n⟩
    | .ok r => .ok r

def refusedCode (reason : Nat) : Nat := 3 + reason * 2 ^ 8

/-- The code of a failed read; an uncorrectable error that it met is reported (R281, R368). -/
def State.imageFail (s : State) (c : TCtx) (own : Owner) (f : ImgFail) : State × Nat :=
  (s.rangeErr { c with fw := true } own false f.va (pagesOf f.n) f.n, f.code)

/-- The bytes of a block or group-pair image: of its header, then all that SIZE gives; 2^28 bounds every image that R341 accepts. -/
def State.readImage (s : State) (c : TCtx) (va : DWord) : Except ImgFail (Option (List Byte)) :=
  match s.readBytes c va 64 with
  | .error k => .error k
  | .ok none => .ok none
  | .ok (some hd) =>
    let n := field hd 48 8
    if n < 64 ∨ 2 ^ 28 < n then .error ⟨refusedCode 1, 0, 0⟩ else s.readBytes c va n

/-- The block images after a core image's header, each starting at a multiple of 4,096 bytes. The header does not give their number: the
last is the one that no readable header of a block image follows (R339; DESIGN CHOICE, log 69). -/
def State.readBlocks (s : State) (c : TCtx) (va : DWord) : Nat → Except ImgFail (Option (List (List Byte)))
  | 0 => .ok (some [])
  | fuel + 1 =>
    match s.readBytes c va 64 with
    | .error _ => .ok (some [])
    | .ok none => .ok none
    | .ok (some hd) =>
      if field hd 0 4 ≠ 0x4b425a45 ∨ field hd 6 1 ≠ 2 then .ok (some [])
      else match s.readImage c va with
        | .error k => .error k
        | .ok none => .ok none
        | .ok (some bs) =>
          (s.readBlocks c (va + BitVec.ofNat 64 ((bs.length + 4095) / 4096 * 4096)) fuel).map fun r => r.map fun l => bs :: l

/-- A core image's own header is not as R339 states. -/
def coreHeaderBad (bs : List Byte) : Bool :=
  decide (field bs 0 4 ≠ 0x4b425a45 ∨ field bs 4 2 ≠ 1 ∨ field bs 6 1 ≠ 3 ∨ field bs 7 25 ≠ 0 ∨ field bs 42 22 ≠ 0)

/-- Block images placed in ascending slots of an empty core; the reason of the first that is refused. -/
def State.placeAll (s : State) (part mode core : Nat) : Nat → List (List Byte) → State × Nat
  | _, [] => (s, 0)
  | slot, bs :: r =>
    if 16 ≤ slot then (s, 1)
    else
      let k := s.blockReason part mode core bs
      match s.savedBlock part (bs.take 64) with
      | some old => if k = 0 then (s.placeImage (placeOf core slot) old bs).placeAll part mode core (slot + 1) r else (s, k)
      | none => (s, if k = 0 then 11 else k)

/-- The remote reads of a pair are forgotten. -/
def State.dropReads (s : State) (b : Block) (g : Nat) : State :=
  let mine (r : Remote) : Bool := decide ({ r.own with lane := 0 } = b.owner g 0 ∧ r.op = .read)
  { s with remotes := s.remotes.filter fun r => !mine r }

/-- `ctxload` of a group pair: its code and the state after it. -/
def State.loadPair (s : State) (mode : Nat) (h : Handle) (bs : List Byte) : State × Nat :=
  match s.block? h.place with
  | none => (s, 1)
  | some b =>
    let k := s.pairReason b mode h.core h.group bs
    if k = 0 then
      (((s.mapCore h.core fun k => { k with ts := Nat.max k.ts (field bs 32 8) }).dropReads b h.group).loadGroup h.place h.group true
        (b.pair h.group) (readGroup b.kernel.decl (bs.drop 64)), 0)
    else (s, refusedCode k)

/-- `ctxload` of a block: its code and the state after it. -/
def State.loadBlock (s : State) (part mode : Nat) (h : Handle) (bs : List Byte) : State × Nat :=
  let k := s.blockReason part mode h.core bs
  match s.savedBlock part (bs.take 64) with
  | some old => if k = 0 then (s.placeImage h.place old bs, 0) else (s, refusedCode k)
  | none => (s, refusedCode (if k = 0 then 11 else k))

/-- `ctxload` of a core, from its header and its block images: its code and the state after it. -/
def State.loadCore (s : State) (part mode : Nat) (h : Handle) (hd : List Byte) (bs : List (List Byte)) : State × Nat :=
  if s.splitBad h.core (field hd 40 1, field hd 41 1) then (s, refusedCode 3)
  else
    let s' := s.mapCore h.core fun k => { k with ts := Nat.max k.ts (field hd 32 8) }
    let r := s'.placeAll part mode h.core 0 bs
    if r.2 = 0 then (r.1, 0) else (s, refusedCode r.2)

/-- `ctxload` at a level, for a target that may be loaded (R338): its code and the state after it; none while a byte of the
image must wait. -/
def State.load (s : State) (c : TCtx) (own : Owner) (mode part : Nat) (h : Handle) (va : DWord) : Option (State × Nat) :=
  if h.level = 2 then
    match s.readBytes c va 64 with
    | .error f => some (s.imageFail c own f)
    | .ok none => none
    | .ok (some hd) =>
      if coreHeaderBad hd then some (s, refusedCode 1)
      else match s.readBlocks c (va + 4096) 17 with
        | .error f => some (s.imageFail c own f)
        | .ok none => none
        | .ok (some bs) => some (s.loadCore part mode h hd bs)
  else
    match s.readImage c va with
    | .error f => some (s.imageFail c own f)
    | .ok none => none
    | .ok (some bs) => some (if h.level = 0 then s.loadPair mode h bs else s.loadBlock part mode h bs)

end Sys2Proof.Machine
end

