-- ==== Sys2Proof/Machine/Rings.lean ====
section
/-! DEFINITION. Record rings: the trap ring (R381, R383), the debug ring (R396) and the firmware mailbox (R427), with the records that
are written to them: TRAP_RECORD_WRITE, SAMPLE_RECORD and MEMORY_MACHINE_CHECK. -/

namespace Sys2Proof.Machine
open Sys2Proof

/-! ### A ring (R381, R383) -/

def State.ringWidx (s : State) (base : Nat) : Nat := s.mem.readNat base 8
def State.ringRidx (s : State) (base : Nat) : Nat := s.mem.readNat (base + 8) 8

/-- The ring is not full: WIDX − RIDX is below its capacity. -/
def State.ringRoom (s : State) (base n : Nat) : Bool :=
  decide ((2 ^ 64 + s.ringWidx base - s.ringRidx base) % 2 ^ 64 < n)

/-- Address of the entry that WIDX names. -/
def State.ringSlot (s : State) (base n : Nat) : Nat := base + 64 + 64 * (s.ringWidx base % n)

/-- A held store or an engine keeps a line that the next write needs (R265, R270). -/
def State.ringKept (s : State) (base n : Nat) : Bool :=
  s.heldOver (.glob base) 64 || s.ownedOver none (.glob base) 64 || s.heldOver (.glob (s.ringSlot base n)) 64
    || s.ownedOver none (.glob (s.ringSlot base n)) 64

/-- An entry is written as an engine write, WIDX is advanced after it, and BAR receives one arrival, dropped without a record
when its word cannot take it (R383). `may` says which addresses BAR may have. -/
def State.ringPut (s : State) (core : Option Nat) (base n : Nat) (may : Nat → Bool) (bs : List Byte) : State :=
  let w := s.ringWidx base
  let s := (s.storeEngine core (.glob (s.ringSlot base n)) bs).1
  let s := (s.storeEngine core (.glob base) (leBytes 8 (w + 1))).1
  let bar := s.mem.readNat (base + 16) 8
  if bar = 0 ∨ bar % 8 ≠ 0 ∨ may bar = false then s else (s.engineArrive core (.glob bar) none).1

/-! ### The rings of a partition -/

/-- Base and capacity of the ring that a record goes to. -/
def State.ringOf (s : State) (r : Rec) : Nat × Nat :=
  if r.debug then ((s.sysreg r.part 0x011).toNat, (s.sysreg r.part 0x012).toNat % 2 ^ 32)
  else ((s.sysreg r.part 0x001).toNat, (s.sysreg r.part 0x002).toNat % 2 ^ 32)

def State.ringThere (s : State) (r : Rec) : Bool := if r.debug then s.debugRing r.part else s.trapRing r.part

/-- What becomes of a waiting record. -/
inductive Fate | write | drop | lost | wait
deriving DecidableEq, Repr

/-- A stop record whose pair a pre-emption request has reached is written once every block of the core that such a request has reached
has stopped (R398). -/
def State.stopUnderWay (s : State) (r : Rec) : Bool :=
  r.debug && r.handle.any fun h =>
    let p := (handleWord h).place
    ((s.block? p).any fun b => b.halted)
      && s.blocks.any fun e => decide (coreOf e.1 = coreOf p) && e.2.halted && !s.blockStopped e.1

/-- Trap, machine-check and stop records wait while their ring is full; the others are dropped (R383, R396). Without a ring trap
and machine-check records wait, and no other is written. -/
def State.fate (s : State) (r : Rec) : Fate :=
  let keeps := decide (r.adv = none) && (!r.debug || r.handle.isSome)
  if s.stopUnderWay r then .wait
  else if s.ringThere r then
    let q := s.ringOf r
    if s.ringKept q.1 q.2 then .wait
    else if s.ringRoom q.1 q.2 then .write
    else if keeps then .wait else .lost
  else if keeps && !r.debug then .wait else .drop

/-- The first record that is written or dropped now: none overtakes an earlier one of its ring, nor a stop record the trap record of
its pair (R383, R398). -/
def State.nextRec (s : State) (waiting : List Rec) (n : Nat) : List Rec → Option (Nat × Rec × Fate)
  | [] => none
  | r :: rs =>
    let behind := waiting.any fun w => decide ((w.part, w.debug) = (r.part, r.debug)) || decide (r.handle.isSome ∧ w.handle = r.handle)
    match s.fate r with
    | .wait => s.nextRec (r :: waiting) (n + 1) rs
    | .write => if behind then s.nextRec (r :: waiting) (n + 1) rs else some (n, r, .write)
    | f => some (n, r, f)

/-- The bytes that are written: a summary carries the clk of its write (R404). -/
def Rec.atWrite (r : Rec) (clk : Nat) : List Byte := if field r.bytes 0 2 = 0x13 then r.bytes.take 56 ++ leBytes 8 clk else r.bytes

/-- TRAP_RECORD_WRITE (R383, R372, R396): one waiting record of a core is written to its ring, or dropped. -/
def State.writeRec (s : State) (core : Nat) : State :=
  match s.nextRec [] 0 (s.core core).recs with
  | none => s
  | some (n, r, f) =>
    let s := s.mapCore core fun k => { k with recs := k.recs.eraseIdx n }
    let q := s.ringOf r
    match f with
    | .write => s.ringPut (some core) q.1 q.2 (fun a => partOwns (s.partRec r.part) a 8) (r.atWrite s.clk)
    | .lost => s.ringLost (some core) q.1
    | _ => s

/-! ### Samples (R403) -/

/-- Every access of a sampled instruction has completed: late ones have their places too. -/
def State.sampleOver (s : State) (x : Sample) : Bool :=
  let mine (id : Nat) : Bool := decide (x.lo ≤ id ∧ id < x.hi)
  (s.outs.all fun o => !mine o.id) && (s.held.all fun h => !mine h.id) && (s.late.all fun h => !mine h.id) && (s.remotes.all fun r => !mine r.id)

/-- The clk in which a sampled instruction completed is noted. -/
def State.noteSample (s : State) (core : Nat) : State :=
  match (s.core core).sample with
  | some x => if x.doneAt = none ∧ s.sampleOver x then s.mapCore core fun k => { k with sample := some { x with doneAt := some s.clk } } else s
  | none => s

/-- The record with its measured fields; a member other than the first of an `ld.mc` reports no times. LASTLANE is the lane whose data
returned last, or none, TTOTAL runs from issue to completion, and LEVEL is as the addresses settle it. -/
def sampleRec (x : Sample) (clk : Nat) (t : SampleTimes) : List Byte :=
  let time (n v : Nat) : List Byte := leBytes n (if x.full then Nat.min v (2 ^ (8 * n) - 1) else 0)
  let last := if x.noData then 0xff else (x.last.map (·.2)).getD 0xff
  let total := x.doneAt.getD clk - field x.bytes 56 8
  let level := x.level.getD (1 + t.level % 3)
  x.bytes.take 26 ++ leBytes 1 (Nat.min t.replays 255) ++ leBytes 1 last ++ time 2 t.ttlb ++ time 2 t.tl1 ++ time 2 t.tl2
    ++ time 2 t.tmem ++ time 4 total ++ (x.bytes.drop 40).take 11 ++ leBytes 1 level ++ x.bytes.drop 52

/-- SAMPLE_RECORD: the record of a core's sample is written, or dropped, once its instruction has completed and every earlier record
of that ring has been written. -/
def State.writeSample (s : State) (core : Nat) (t : SampleTimes) : State :=
  match (s.core core).sample with
  | none => s
  | some x =>
    let r : Rec := { part := x.part, debug := true, bytes := sampleRec x s.clk t }
    let f := s.fate r
    if s.sampleOver x = false ∨ f = .wait
        ∨ (s.core core).recs.any (fun y => decide (y.part = x.part ∧ y.debug = true) && decide (s.fate y ≠ .wait)) then s
    else
      let s := s.mapCore core fun k => { k with sample := none }
      let q := s.ringOf r
      match f with
      | .write => s.ringPut (some core) q.1 q.2 (fun a => partOwns (s.partRec r.part) a 8) r.bytes
      | .lost => s.ringLost (some core) q.1
      | _ => s

/-! ### Memory machine checks (R281, R384) -/

/-- A word of device memory holds an uncorrectable error from now on: every access that meets it reports it (R281). -/
def State.markErr (s : State) (pa : DWord) : State :=
  let a := pa.toNat / 8 * 8
  { s with errs := if a ∈ s.errs then s.errs else a :: s.errs }

/-- The same of a word of a block's scratchpad, by its offset (R384). -/
def State.markScratch (s : State) (place off : Nat) : State :=
  let a := off / 8 * 8
  s.mapBlock place fun b => { b with errs := if a ∈ b.errs then b.errs else a :: b.errs }

/-- The word that the access of a number meets holds an error, which is reported: for a scratchpad access the word is its own (R384). -/
def State.accessErr (s : State) (core id : Nat) (own : Owner) (pa : DWord) (source : Nat) : State :=
  match ((s.core core).requests.find? fun r => decide (r.id = id)).map Request.loc with
  | some (.sp p off) => (s.markScratch p off).meetErr core own (.sp p off) 1 source
  | _ => (s.markErr pa).addMc core own pa source

/-- A result that an uncorrectable error keeps from its lane: a token of cause 4, or a failed register result (R197, R212). -/
def State.failOut (s : State) (o : Out) : State :=
  match o.dst with
  | .reg _ | .uni _ => { s with outs := s.outs.map fun x => if x.id = o.id then { x with bad := some 4 } else x }
  | _ => (s.deliverToken o.own o.dst o.id 4).dropOut o.id

/-- The elements of one multicast, in every member, of which an outstanding access is one (R202). -/
def State.mcMates (s : State) (o : Out) : List Out :=
  match o.mc, (s.placeOfOwner o.own).bind s.block? with
  | some k, some b => s.outs.filter (mcOf b o.own.group o.own.lane k)
  | _, _ => [o]

/-- A write or an atomic without a result that an uncorrectable error drops fails in the lane's next fence (R55). -/
def State.dropWrite (s : State) (core c slot group lane source : Nat) (pa : DWord) : State :=
  match s.block? (placeOf c slot) with
  | none => s
  | some b =>
    let own := b.owner group lane
    if c = core ∧ (b.pair group).live ∧ lane < b.w then (((s.fenceFail own false false 15).markErr pa).addMc core own pa source) else s

/-- MEMORY_MACHINE_CHECK (R384): a word is found to hold an uncorrectable error. The access of a lane that meets it fails as its rule
states, and the event is recorded; engines and walks meet it as they reach it. -/
def State.memCheck (s : State) (core : Nat) (agent : McAgent) (pa : DWord) : State :=
  match agent with
  | .load id =>
    match s.outs.find? fun o => o.id = id ∧ o.bad = none ∧ s.coreOfOwner o.own = some core with
    | none => s
    | some o => ((s.mcMates o).foldl State.failOut s).accessErr core id o.own pa 0
  | .store c slot group lane => s.dropWrite core c slot group lane 1 pa
  | .atomicNr c slot group lane => s.dropWrite core c slot group lane 2 pa
  | .atomic id =>
    match s.outs.find? fun o => o.id = id ∧ o.bad = none ∧ s.coreOfOwner o.own = some core with
    | none => s
    | some o => ((s.failOut o).fenceFail o.own false false 15).accessErr core id o.own pa 2
  | .scratch slot => s.markScratch (placeOf core slot) pa.toNat
  | .engine _ _ | .walk => if (s.partOfCore core).isNone then s else s.markErr pa

/-! ### Meanings -/

def execTrapRecordWrite (core : Nat) (s : State) : Host.Outcome State Fault Refusal := .next (s.writeRec core)
def execSampleRecord (core : Nat) (t : SampleTimes) (s : State) : Host.Outcome State Fault Refusal := .next (s.writeSample core t)
def execMemoryMachineCheck (core : Nat) (agent : McAgent) (pa : DWord) (s : State) : Host.Outcome State Fault Refusal :=
  .next (s.memCheck core agent pa)

end Sys2Proof.Machine
end

