-- ==== Sys2Proof/Machine/System.lean ====
section
/-! DEFINITION. The system instructions (R332 to R338, R373, R393 to R395, R407, R427) and the ports of the management processor that
act as they do (R333, R427). -/

namespace Sys2Proof.Machine
open Sys2Proof

/-! ### Modes (R107, R332) -/

/-- The mode may execute the system instruction. -/
def sysAllowed (i : Instr) (m : Mode) : Bool :=
  match m, i with
  | .user, _ => false
  | .supervisor, .eret _ => false
  | .firmware, .fwcall _ => false
  | _, _ => true

def privTrap (ls : List Nat) : TrapInfo := { code := 0x02, lane := ls.headD 0xff, lanes := ls }

/-- An issue of a system instruction: after its legality, the mode is judged before anything else. -/
def issueSys (i : Instr) (body : Ctx → State → Act) (s : State) : Host.Outcome State Fault Refusal :=
  match s.begin? i with
  | none => .next s
  | some c =>
    if legal c.sl i && !sysAllowed i c.blk.kernel.mode then c.conclude i (.trap c.st (privTrap c.act)) else issue i body s

/-- The issuing code may name a core: firmware any, a supervisor those of its partition (R332, R335). -/
def Ctx.mayName (c : Ctx) (core : Nat) : Bool :=
  decide (c.blk.kernel.mode = .firmware) || partHasCore (c.st.partRec c.blk.part) core

/-- An operation in each lane of `active`, in ascending order, each with a result for its lane; none where one must wait. -/
def eachLane (f : State → Nat → Option (State × DWord)) : List Nat → State → List (Nat × DWord) → Option (State × List (Nat × DWord))
  | [], s, rs => some (s, rs)
  | l :: r, s, rs =>
    match f s l with
    | none => none
    | some (s', v) => eachLane f r s' (rs ++ [(l, v)])

def resultOf (rs : List (Nat × DWord)) (l : Nat) : DWord := ((rs.find? fun r => decide (r.1 = l)).map (·.2)).getD 0

/-- The operation of an instruction in each lane, its results written once all lanes have acted; a stall where one must wait. -/
def Ctx.perLane (c : Ctx) (wide : Bool) (f : State → Nat → Option (State × DWord)) (s : State) : Act :=
  match eachLane f c.act s [] with
  | none => .stall c.st
  | some (s, rs) => .done (c.writeAll wide (resultOf rs) s)

/-! ### System registers (R333, R334, R393, R407, R427) -/

def modeNo : Mode → Nat
  | .user => 0 | .supervisor => 1 | .firmware => 2

/-- SYSSTAT as code of a mode reads it on a core. -/
def sysstat (mode part core : Nat) : DWord := BitVec.ofNat 64 (mode + part % 8 * 4 + core % 256 * 2 ^ 8)

/-- The value that a read of a listed register gives. -/
def State.sysValue (s : State) (mode part core idx : Nat) : DWord :=
  if idx = 0x000 then sysstat mode part core
  else if idx = 0x024 then s.ports.zeroExtend 64
  else if idx = 0x030 then s.mbox
  else if idx = 0x031 then s.mboxn.zeroExtend 64
  else s.sysreg part idx

/-- The register is read-only, or is written by firmware alone. -/
def sysReadOnly (idx : Nat) : Bool := decide (idx = 0x000 ∨ idx = 0x024)
def sysFirmware (idx : Nat) : Bool := decide (idx = 0x009 ∨ idx = 0x030 ∨ idx = 0x031)

/-- A value without the reserved bits of its register (R4, R333, R364, R393 to R395, R407). -/
def sysMask (idx : Nat) (v : DWord) : DWord :=
  let n := v.toNat
  BitVec.ofNat 64
    (match idx with
     | 0x003 => n % 2 ^ 8
     | 0x004 => n % 2 ^ 16
     | 0x009 => n % 2 ^ 11
     | 0x00a => n / 2 ^ 12 % 2 ^ 40 * 2 ^ 12
     | 0x00b => n % 2 ^ 16
     | 0x010 => n % 2 ^ 3 + n / 2 ^ 8 % 2 ^ 16 * 2 ^ 8
     | 0x015 => n % 2 ^ 17
     | 0x021 | 0x023 => n % 2 ^ 13
     | _ => if 0x018 ≤ idx ∧ idx ≤ 0x01f then n % 2 ^ 22 else if sysWidth idx = some 32 then n % 2 ^ 32 else n)

/-- The field of the write lies outside its range, so that the register keeps its value (R333). -/
def sysIgnored (idx : Nat) (v : DWord) : Bool :=
  ((idx == 0x003 || idx == 0x004) && decide (v = 0)) || (idx == 0x009 && decide (v = 0 ∨ 1024 < v.toNat))

/-- A write of a register that is neither read-only nor excluded by the mode. A write of SAMPLE restarts the counts (R403). -/
def State.sysWrite (s : State) (part idx : Nat) (v : DWord) : State :=
  let w := sysMask idx v
  if sysIgnored idx w then s
  else if idx = 0x030 then { s with mbox := w }
  else if idx = 0x031 then { s with mboxn := lo32 w }
  else
    let s := s.setSysreg part idx w
    if idx = 0x015 then
      { s with cores := s.cores.map fun e => (e.1, if partHasCore (s.partRec part) e.1 then { e.2 with sampleCount := 0 } else e.2) }
    else s

/-- The index is not listed. -/
def indexCheck (c : Ctx) : Check := operandCheck c 1 fun _ => (sysWidth (sysIndex c.f)).isNone

def sysrdBody (c : Ctx) (s : State) : Act :=
  match firstTrap [indexCheck c] with
  | some t => .trap c.st t
  | none =>
    .done (c.writeAll (isWide c.f.ty)
      (fun _ => c.st.sysValue (modeNo c.blk.kernel.mode) c.blk.part c.core (sysIndex c.f)) s)

def syswrBody (c : Ctx) (s : State) : Act :=
  let idx := sysIndex c.f
  let barred := sysReadOnly idx || (sysFirmware idx && decide (c.blk.kernel.mode ≠ .firmware))
  match firstTrap [indexCheck c, (c.act.filter fun _ => barred, fun _ => { code := 0x02 })] with
  | some t => .trap c.st t
  | none => .done (c.act.foldl (fun s l => s.sysWrite c.blk.part idx (c.src c.f.ty c.f.b l)) s)

/-! ### Handles: checks shared by `halt`, `ctxsave`, `ctxload` and `tret` (R335) -/

def Ctx.handleAt (c : Ctx) (l : Nat) : Word := lo32 (c.src .b32 c.f.a l)

def handleCheck (c : Ctx) : Check := operandCheck c 1 fun l => malformed (c.handleAt l)

/-- A level that the modifier of the instruction forbids (R338). -/
def levelCheck (c : Ctx) (bad : Nat → Bool) : Check := operandCheck c 1 fun l => bad (handleWord (c.handleAt l)).level

/-- The code that a handle gives before its target is looked at: 5 outside the partition, 1 stale (R335, R337). -/
def Ctx.handleCode (c : Ctx) (s : State) (h : Handle) : Nat :=
  if c.mayName h.core = false then 5 else if s.stale h then 1 else 0

def code64 (n : Nat) : DWord := BitVec.ofNat 64 n

/-! ### `halt` (R338, R386, R397) -/

/-- A lane halts its target: a code at once, or a wait until the target has stopped. -/
def Ctx.haltLane (c : Ctx) (safe : Bool) (s : State) (l : Nat) : State :=
  let w := c.handleAt l
  let h := handleWord w
  let k := c.handleCode s h
  let late := match c.f.dst with
    | .uni _ => decide (c.act.head? ≠ some l)
    | _ => false
  let give (s : State) (v : Nat) : State := if late then s else s.writeDst c.place c.group c.sl c.f.dst false l (code64 v)
  if k ≠ 0 then give s k
  else if s.targetStopped h then give (if h.level = 0 then s else (s.targets h).foldl State.haltBlock s) 0
  else
    let s := c.blockLane l late (.halt w safe) s
    if h.level ≠ 0 then s
    else if safe then
      s.mapPair h.place h.group fun p => { p with safe := some (p.safe.getD { why := .haltSafe, since := s.clk }) }
    else s.haltPair h.place h.group

def haltBody (safe : Bool) (c : Ctx) (s : State) : Act :=
  match firstTrap [handleCheck c, levelCheck c fun v => safe && decide (v ≠ 0)] with
  | some t => .trap c.st t
  | none => .done (c.act.foldl (c.haltLane safe) s).settleHalts

/-! ### `tret`, `ctxsave`, `ctxload` (R338) -/

def tretBody (c : Ctx) (s : State) : Act :=
  match firstTrap [handleCheck c] with
  | some t => .trap c.st t
  | none => c.perLane false (fun s l =>
      let h := handleWord (c.handleAt l)
      let k := c.handleCode s h
      if k ≠ 0 then some (s, code64 k)
      else
        let r := s.tret h
        some (r.1, code64 r.2)) s

/-- The context of an image's address: firmware may name memory of any partition (R332). -/
def Ctx.imageCtx (c : Ctx) : TCtx := c.tctx

/-- The status word and the image size in units of 256 bytes, rounded up (R337). -/
def saveResult (code size : Nat) : DWord := BitVec.ofNat 64 (code + (size + 255) / 256 * 2 ^ 32)

def ctxsaveBody (free : Bool) (c : Ctx) (s : State) : Act :=
  match firstTrap [handleCheck c, levelCheck c fun v => free && decide (v = 0)] with
  | some t => .trap c.st t
  | none => c.perLane true (fun s l =>
      let h := handleWord (c.handleAt l)
      let k := c.handleCode s h
      if k ≠ 0 then some (s, saveResult k 0)
      else (s.save c.imageCtx (c.own l) h (c.src .b64 c.f.b l) (c.src .b32 c.f.c l).toNat free).map fun r => (r.1, saveResult r.2.1 r.2.2)) s

/-- The code of `ctxload` for its target (R335, R338): 5 outside the partition, 1 a stale pair, 2 a pair that is not stopped, 4 a
slot or core that is not empty. -/
def Ctx.loadCode (c : Ctx) (s : State) (h : Handle) : Nat :=
  if c.mayName h.core = false ∨ s.partOfCore h.core = none then 5
  else if h.level = 0 then (if s.stale h then 1 else if s.pairStopped h.place h.group then 0 else 2)
  else if h.level = 1 then (if (s.block? h.place).isSome then 4 else 0)
  else if s.targets h = [] then 0 else 4

def ctxloadBody (c : Ctx) (s : State) : Act :=
  match firstTrap [handleCheck c] with
  | some t => .trap c.st t
  | none => c.perLane false (fun s l =>
      let h := handleWord (c.handleAt l)
      let k := c.loadCode s h
      if k ≠ 0 then some (s, code64 k)
      else
        (s.load c.imageCtx (c.own l) (modeNo c.blk.kernel.mode) ((s.partOfCore h.core).getD 0) h (c.src .b64 c.f.b l)).map
          fun r => (r.1, code64 r.2)) s

/-! ### Translations and the L1 (R338, R373, R374) -/

/-- A removal of translations begins. -/
def State.addInval (s : State) (c : Ctx) (l : Nat) (asid : Option Nat) (va : Option DWord) : State :=
  { s with invals := s.invals ++ [{ id := s.fresh, part := c.blk.part, asid, va, own := c.own l }], fresh := s.fresh + 1 }

def tlbinvBody (c : Ctx) (s : State) : Act :=
  let va (l : Nat) : DWord := c.src .b64 c.f.a l
  let far (l : Nat) : Bool := !canonical (va l)
  match firstTrap [(c.act.filter fun l => far l || decide (0xffff < c.word c.f.b l),
      fun l => { code := 0x06, aux0 := if far l then 1 else 2 })] with
  | some t => .trap c.st t
  | none => .done (c.act.foldl (fun s l => s.addInval c l (some (c.word c.f.b l)) (some (va l))) s)

def tlbinvAllBody (c : Ctx) (s : State) : Act :=
  let a (l : Nat) : Nat := c.word c.f.a l
  match firstTrap [operandCheck c 1 fun l => decide (0xffff < a l ∧ a l ≠ 0xffffffff)] with
  | some t => .trap c.st t
  | none => .done (c.act.foldl (fun s l => s.addInval c l (if a l = 0xffffffff then none else some (a l)) none) s)

/-- A cached translation is one that a removal names. -/
def Inval.names (v : Inval) (t : Tlb) : Bool :=
  decide (t.part = v.part) && v.asid.all (fun a => decide (t.asid = a)) && v.va.all fun a => decide (t.page = a.toNat / 2 ^ t.shift)

/-- A matrix instruction in progress holds a translation that the removal names (R249, R371). -/
def State.pinnedBy (s : State) (v : Inval) : Bool :=
  s.cores.any fun e => partHasCore (s.partRec v.part) e.1 && (match e.2.engine with
    | none => false
    | some x => x.pins.any v.names)

/-- INVALIDATION_COMPLETE (R374): the translations leave every TLB of the partition, once no matrix instruction pins them. -/
def State.invalDone (s : State) (id : Nat) : State :=
  match s.invals.find? fun v => v.id = id with
  | none => s
  | some v =>
    if s.pinnedBy v then s
    else { s with tlb := s.tlb.filter fun t => !v.names t, invals := s.invals.filter fun x => decide (x.id ≠ id) }

/-- Every lease of the core's L1 ends: later loads miss there. Its lines hold no bytes that their homes lack. -/
def l1wbBody (c : Ctx) (s : State) : Act :=
  .done (if c.act = [] then s else s.mapCore c.core fun k => { k with leases := [], recalls := [] })

/-- The lane is one of a group pair: what it issued in either slice is waited for. -/
def sysfenceBody (c : Ctx) (s : State) : Act :=
  if c.st.invals.any fun v => c.act.any fun l => decide (v.own = c.own l) then .stall c.st else .done s

/-! ### The firmware mailbox (R338, R427) -/

def sliceNo : Slice → Nat
  | .access => 0 | .execute => 1

def callTag (core slot group lane : Nat) (sl : Slice) (n : Nat) : Word :=
  BitVec.ofNat 32 (core + slot * 2 ^ 8 + group * 2 ^ 12 + lane * 2 ^ 16 + sliceNo sl * 2 ^ 22 + n % 512 * 2 ^ 23)

/-- The next sequence number of a lane that no pending call of its tag uses. -/
def nextSeq (s : State) (mk : Nat → Word) : Nat → Nat → Nat
  | 0, n => n
  | fuel + 1, n => if s.calls.any fun c => decide (c.tag = mk n) then nextSeq s mk fuel (n + 1) else n

/-- The 64 bytes of an entry. -/
def callBytes (c : Call) (handle : Word) (clk : Nat) : List Byte :=
  leBytes 2 0x20 ++ leBytes 1 c.part ++ leBytes 1 0 ++ leBytes 4 c.tag.toNat ++ leBytes 2 c.code ++ leBytes 6 0
    ++ leBytes 8 c.arg.toNat ++ leBytes 4 handle.toNat ++ leBytes 1 c.own.lane ++ leBytes 3 0 ++ leBytes 2 c.asid ++ leBytes 22 0
    ++ leBytes 8 clk

/-- The mailbox takes an entry now. -/
def State.mailRoom (s : State) : Bool :=
  let b := s.mbox.toNat
  decide (b ≠ 0 ∧ s.mboxn ≠ 0) && !s.ringKept b s.mboxn.toNat && s.ringRoom b s.mboxn.toNat

/-- One lane posts its call and blocks. -/
def Ctx.postCall (c : Ctx) (s : State) (l : Nat) : State :=
  let x := ((s.pair c.place c.group).half c.sl).lane l
  let mk (n : Nat) : Word := callTag c.core (slotOf c.place) c.group l c.sl n
  let n := nextSeq s mk 512 x.calls
  let call : Call := { tag := mk n, part := c.blk.part, own := c.own l, sl := c.sl, asid := c.blk.asid, root := c.blk.root,
                       code := c.word c.f.a l, arg := c.src .b64 c.f.b l, at_ := s.clk }
  let late := match c.f.dst with
    | .uni _ => decide (c.act.head? ≠ some l)
    | _ => false
  let s := s.ringPut (some c.core) s.mbox.toNat s.mboxn.toNat (fun _ => true) (callBytes call (s.pairHandle c.place c.group) s.clk)
  c.blockLane l late (.fwcall (mk n))
    (State.mapLane { s with calls := s.calls ++ [call] } c.place c.group c.sl l fun x => { x with calls := n + 1 })

/-- Calls are posted in ascending lane order; the lanes for which the mailbox has no room have not issued. -/
def postCalls (i : Instr) (c : Ctx) (s : State) : List Nat → State × List Nat
  | [] => (s, [])
  | l :: r => if s.mailRoom then postCalls i c (c.postCall s l) r else (s, l :: r)

def fwcallBody (i : Instr) (c : Ctx) (_ : State) : Act :=
  match firstTrap [operandCheck c 1 fun l => decide (65535 < c.word c.f.a l)] with
  | some t => .trap c.st t
  | none =>
    let late := (postCalls i c c.st c.act).2
    if c.act ≠ [] ∧ late = c.act then .stall c.st
    else
      let c' : Ctx := { c with act := c.act.filter fun l => decide (l ∉ late), path := c.path.filter fun l => decide (l ∉ late) }
      .done (postCalls i c (c'.commit i) c'.act).1

/-- The tag of a lane's `eret` names no pending call, or one that a lower lane of the issue answers. -/
def Ctx.unknownTag (c : Ctx) (l : Nat) : Bool :=
  let tag (m : Nat) : Word := lo32 (c.src .b32 c.f.a m)
  (c.st.pendingCall (tag l)).isNone || c.act.any fun m => decide (m < l ∧ tag m = tag l)

/-- The pending call of a tag is answered. -/
def State.answerTag (s : State) (tag v : Word) : State :=
  match s.pendingCall tag with
  | some c => s.answerCall c v
  | none => s

def eretBody (c : Ctx) (s : State) : Act :=
  match firstTrap [operandCheck c 1 c.unknownTag] with
  | some t => .trap c.st t
  | none => .done (c.act.foldl (fun s l => s.answerTag (lo32 (c.src .b32 c.f.a l)) (lo32 (c.src .b32 c.f.b l))) s)

/-! ### The ports of the management processor (R333, R427) -/

/-- The register port: an access with firmware rights, which a rule of R333 that would trap leaves without effect. -/
def State.mgmtPort (s : State) (part idx : Nat) (wr : Option DWord) : State :=
  if (sysWidth idx).isNone ∨ 8 ≤ part ∨ s.sec ≠ .run then s
  else match wr with
    | none => { s with mgmtRead := s.sysValue 2 part 0xff idx }
    | some v => if sysReadOnly idx then s else s.sysWrite part idx v

/-! ### Meanings -/

def execSysrd (f : Ext) (s : State) : Host.Outcome State Fault Refusal := issueSys (.sysrd f) sysrdBody s
def execSyswr (f : Ext) (s : State) : Host.Outcome State Fault Refusal := issueSys (.syswr f) syswrBody s
/-- The write of SAMPLE (R403). -/
def execSampleWrite (f : Ext) (s : State) : Host.Outcome State Fault Refusal := issueSys (.sampleWrite f) syswrBody s
def execEret (f : Ext) (s : State) : Host.Outcome State Fault Refusal := issueSys (.eret f) eretBody s
def execTret (f : Ext) (s : State) : Host.Outcome State Fault Refusal := issueSys (.tret f) tretBody s
def execTlbinv (f : Ext) (s : State) : Host.Outcome State Fault Refusal := issueSys (.tlbinv f) tlbinvBody s
def execTlbinvAll (f : Ext) (s : State) : Host.Outcome State Fault Refusal := issueSys (.tlbinvAll f) tlbinvAllBody s
def execCtxsave (f : Ext) (s : State) : Host.Outcome State Fault Refusal := issueSys (.ctxsave f) (ctxsaveBody false) s
def execCtxsaveFree (f : Ext) (s : State) : Host.Outcome State Fault Refusal := issueSys (.ctxsaveFree f) (ctxsaveBody true) s
def execCtxload (f : Ext) (s : State) : Host.Outcome State Fault Refusal := issueSys (.ctxload f) ctxloadBody s
def execHalt (f : Ext) (s : State) : Host.Outcome State Fault Refusal := issueSys (.halt f) (haltBody false) s
def execHaltSafe (f : Ext) (s : State) : Host.Outcome State Fault Refusal := issueSys (.haltSafe f) (haltBody true) s
def execL1wb (f : Ext) (s : State) : Host.Outcome State Fault Refusal := issueSys (.l1wb f) l1wbBody s
def execFwcall (f : Ext) (s : State) : Host.Outcome State Fault Refusal := issueSys (.fwcall f) (fwcallBody (.fwcall f)) s
def execSysfence (f : Ext) (s : State) : Host.Outcome State Fault Refusal := issueSys (.sysfence f) sysfenceBody s

def execMailboxAnswerPort (tag answer : Word) (s : State) : Host.Outcome State Fault Refusal := .next (s.answerTag tag answer)
def execMgmtRegisterPort (part idx : Nat) (wr : Option DWord) (s : State) : Host.Outcome State Fault Refusal :=
  .next (s.mgmtPort part idx wr)
def execInvalidationComplete (id : Nat) (s : State) : Host.Outcome State Fault Refusal := .next (s.invalDone id)

end Sys2Proof.Machine
end

