-- ==== Sys2Proof/Machine/Watch.lean ====
section
/-! DEFINITION. What no lane executes: waits and their starvation timers (R282, R291 to R293, R296), asynchronous traps (R225, R292,
R385), clock creep and coherence messages (R268, R418), page walks (R368), pre-emption requests and what they leave open (R386,
R387), and the ends of debug stops (R397 to R399). -/

namespace Sys2Proof.Machine
open Sys2Proof

/-! ### Waiting lanes (R282, R296) -/

/-- The WAIT code of R340 for a lane that a wait of R282 holds. -/
def Wait.code : Wait → Option Nat
  | .join _ _ => some 1
  | .rendezvous => some 2
  | .barrier _ _ _ _ _ => some 3
  | .copy _ _ _ => some 4
  | _ => Option.none

/-- Stores for whose data the copy that a channel performs waits (R296). -/
def State.headBlockers (s : State) (core ch : Nat) : List Held := (s.copyHeld core ch).filter fun h => h.data.isNone

/-- Stores for whose data a command of a core's collective engine waits (R296). -/
def State.collBlockers (s : State) (core : Nat) : List Held :=
  ((s.colls.filter fun k => decide (k.core = core)).flatMap s.collHeld).filter fun h => h.data.isNone

/-- A lane that waits: its number, the WAIT code of its wait (0 for a queue), the stores that a copy wait of R296 is for, and the
copy channel that it waits on. -/
structure Waiting where
  lane : Nat
  code : Nat
  stores : List Held := []
  ch : Option Nat := none

/-- The queue of a push is full in some lane; a push that only an active stream holds back is no queue wait (R282). -/
def Ctx.pushFull (c : Ctx) (i : Instr) : Bool :=
  match pushNeed i with
  | none => false
  | some (q, n) => c.act.any fun l => !c.room q n l

/-- A wait for stores, if there are any. -/
def waitOn (hs : List Held) (ch : Option Nat) : Option (Nat × List Held × Option Nat) := if hs = [] then none else some (4, hs, ch)

/-- The wait of the path at a slot, if its stall is one: a lookahead wait is none (R282). -/
def State.slotWait (s : State) (i : Instr) (c : Ctx) : Option (Nat × List Held × Option Nat) :=
  let own : List Held := if c.act.any fun l => decide (s.waitingStores (c.own l) ≠ 0) then c.pairStores else []
  if c.trapsFirst i || c.awaits i then none
  else if c.onQueue i then
    if !c.lacksPop i && c.lacksPush i && !c.pushFull i then none else some (0, [], none)
  else match i with
    | .copyAsync _ => waitOn (if own ≠ [] then own else if c.enterFree s = 0 then s.headBlockers c.core c.f.ch else []) (some c.f.ch)
    | .collRs _ | .collAg _ => waitOn (if own ≠ [] then own else if s.collFull c.core then s.collBlockers c.core else []) none
    | .mma _ | .zld _ | .zst _ => waitOn (c.matrixStores i) none
    | .ldMc _ => if c.blk.member = 0 ∧ c.act.any (fun l => !c.othersReady l (c.pair.mcIssued l)) then some (2, [], none) else none
    | _ => if c.onData i then some (0, [], none) else none

/-- The waiting lanes of a half, in ascending order. The lanes of a team collective wait for its members, and once those are there for
stores that the operands meet, but not for an engine (R282, R295, R296). -/
def State.waiting (s : State) (place g : Nat) (sl : Slice) : List Waiting :=
  match s.block? place with
  | none => []
  | some b =>
    let p := b.pair g
    let h := p.half sl
    let team := decide (sl = .execute) && p.teamWait && s.teamThere b g
    let held := (h.liveLanes b.w).filterMap fun l =>
      match (h.lane l).wait with
      | .copy ch _ _ => some { lane := l, code := 4, stores := s.headBlockers (coreOf place) ch, ch := some ch }
      | .entering _ => (p.enterCh l).bind fun ch =>
        (waitOn (s.headBlockers (coreOf place) ch) (some ch)).map fun w => { lane := l, code := 4, stores := w.2.1, ch := some ch }
      | .rendezvous =>
        if team then (waitOn (s.teamStores place g) none).map fun w => { lane := l, code := 4, stores := w.2.1 }
        else some { lane := l, code := 2 }
      | w => w.code.map fun n => ({ lane := l, code := n } : Waiting)
    let slots := (h.slots b.w).flatMap fun pc =>
      match s.slotCtx place g sl pc with
      | none => []
      | some (i, c) => match s.slotWait i c with
        | some (n, hs, ch) => c.path.map fun l => ({ lane := l, code := n, stores := hs, ch } : Waiting)
        | none => []
    sortBy (fun a b => decide (a.lane ≤ b.lane)) (held ++ slots)

/-! ### Starvation timers (R291, R293) -/

/-- A group of a launch is stopped, stopping at safe points, or saved. -/
def State.launchHeld (s : State) (part serial : Nat) : Bool :=
  (s.blocks.any fun e => decide (e.2.part = part ∧ e.2.serial = serial)
      && e.2.pairs.any fun q => q.2.live && (q.2.run.isStopped || q.2.safe.isSome))
    || ((s.launch? part serial).map fun la => decide (la.saved ≠ [])).getD false

/-- The pair of a store is stopped or saved. -/
def State.storeHeld (s : State) (h : Held) : Bool :=
  match s.placeOfOwner h.own with
  | none => true
  | some p => (s.pair p h.own.group).run.isStopped || (s.pair p h.own.group).safe.isSome

/-- The timer of a half is frozen in this clk (R293). -/
def State.timerFrozen (s : State) (place g : Nat) (sl : Slice) (ws : List Waiting) : Bool :=
  match s.block? place with
  | none => true
  | some b =>
    s.launchHeld b.part b.serial
      || ws.any (fun w => w.stores.any s.storeHeld)
      || ws.any fun w => match (((b.pair g).half sl).lane w.lane).wait with
        | .barrier _ loc _ _ _ => (s.tagAt loc).any fun serial => s.launchHeld b.part serial
        | _ => false

/-- A wait of the half has progressed in this clk, or a waiting lane has left its wait (R291). -/
def State.timerProgress (s : State) (place g : Nat) (sl : Slice) (ws : List Waiting) : Bool :=
  match s.block? place with
  | none => false
  | some b =>
    let p := b.pair g
    let h := p.half sl
    let team := (s.blocks.filter fun e => decide (e.2.part = b.part ∧ e.2.serial = b.serial ∧ e.2.team = b.team)).any fun e =>
      decide ((e.2.pair g).acc.did ≠ 0 ∨ (e.2.pair g).exe.did ≠ 0)
    h.moved || (maskLanes h.waited).any (fun l => h.did.getLsbD l || !ws.any fun w => decide (w.lane = l))
      || ws.any fun w => match (h.lane w.lane).wait with
        | .join n _ => decide ((h.set n).members &&& h.did ≠ 0)
        | .barrier _ _ _ _ _ => false
        | .rendezvous => decide (w.code = 2) && (if p.teamWait && decide (sl = .execute) then team else decide (h.did ≠ 0))
        | _ =>
          if w.code = 4 then w.ch.any fun ch => decide (ch ∈ b.copied)
          else if w.code = 2 then team
          else decide ((p.half (Slice.other sl)).did ≠ 0) || p.filled

/-- The timer of a half at the end of a clk, and the lanes that wait as the next one starts: a frozen timer, as every one of a stopped
pair is, keeps its count (R293). -/
def State.tickTimer (s : State) (place g : Nat) (sl : Slice) : State :=
  if (s.pair place g).run.isStopped then s else
  let ws := s.waiting place g sl
  let t := ((s.pair place g).half sl).timer
  let t' := if ws.isEmpty then 0 else if s.timerFrozen place g sl ws then t else if s.timerProgress place g sl ws then 0 else t + 1
  s.mapHalf place g sl fun h => { h with timer := t', waited := laneMask (ws.map (·.lane)) }

/-! ### Asynchronous traps (R376, R380) -/

/-- The saved PC of the lowest live lane of a half of a pair; of the other half where it has none. -/
def Block.lowestPc (b : Block) (g : Nat) (sl : Slice) : Word :=
  let p := b.pair g
  let at_ (h : Half) : Option Word := (h.liveLanes b.w).head?.map fun l => (h.lane l).pc
  ((at_ (p.half sl)).or ((at_ p.acc).or (at_ p.exe))).getD 0

def State.lowestPc (s : State) (place g : Nat) (sl : Slice) : Word := (s.block? place).elim 0 fun b => b.lowestPc g sl

/-- The same of a pair whose block is saved. -/
def State.savedPc (s : State) (o : Owner) (sl : Slice) : Option Word :=
  ((s.launch? o.part o.serial).bind fun la => la.saved.find? fun b => decide (b.block = o.block)).map fun b => b.lowestPc o.group sl

/-- An asynchronous trap reaches a pair: it stops, if it has not, and the record follows those before it. -/
def State.asyncTrap (s : State) (place g : Nat) (sl : Slice) (t : TrapInfo) : State :=
  let s := s.stopPair place g .trap
  s.raiseTrap place g sl (s.lowestPc place g sl) { t with kind := 4 }

/-- A lane leaves its wait, with its PC at the waiting instruction (R292, R378). That of a `bar.wait` is no waiter of its word any more,
and keeps the GEN that its test on trap return needs (R229). -/
def Half.abandon (h : Half) (l : Nat) : Half :=
  let x := h.lane l
  match x.wait with
  | .join n pc =>
    let j := h.set n
    let ws := j.waiters &&& ~~~(1#64 <<< l)
    (h.setSet n { j with waiters := ws, state := if ws = 0 ∧ j.state = jWaiting then jArmed else j.state }).setLane l
      { x with wait := .none, pc }
  | .barrier wa loc gen ph k => h.setLane l { x with wait := .barrier wa loc gen ph { k with left := true } }
  | .rendezvous | .copy _ _ _ | .entering _ => h.setLane l { x with wait := .none }
  | _ => h

/-- What the record of a watchdog trap says of the waited word (R382). -/
def State.waitInfo (s : State) (place g : Nat) (sl : Slice) (w : Waiting) : TrapInfo :=
  match (((s.pair place g).half sl).lane w.lane).wait with
  | .barrier wa loc _ _ _ =>
    let b := s.barAt loc
    { code := 0x31, addr := wa, aux0 := 3, aux1 := b.arrived + b.expect * 2 ^ 16, aux2 := BitVec.ofNat 64 b.bits }
  | _ => { code := 0x31, aux0 := w.code }

/-- A watchdog trap of a half ends every wait of it (R292). -/
def State.bite (s : State) (place g : Nat) (sl : Slice) (ws : List Waiting) : State :=
  match ws with
  | [] => s
  | w :: _ =>
    let t := { s.waitInfo place g sl w with lane := w.lane, lanes := ws.map (·.lane) }
    let s := s.mapPair place g fun p =>
      let h := ws.foldl (fun h w => h.abandon w.lane) (p.half sl)
      { p.setHalf sl { h with timer := 0 } with teamWait := p.teamWait && decide (sl ≠ .execute),
                                                entering := p.entering.filter fun r => decide (sl ≠ .access ∨ ws.all fun w => w.lane ≠ r.lane) }
    s.asyncTrap place g sl t

/-- WATCHDOG_TRAP (R292): each timer of a pair that is at its bound raises the trap, the access slice's first (R380). -/
def State.watchdogs (s : State) (place g : Nat) : State :=
  match s.block? place with
  | none => s
  | some b =>
    let p := b.pair g
    if p.live = false ∨ p.run ≠ .running then s
    else
      let due (sl : Slice) : List Waiting := if (p.half sl).timer < b.wb * 4096 then [] else s.waiting place g sl
      (s.bite place g .access (due .access)).bite place g .execute (due .execute)

/-- The timer of a half is at its bound. -/
def State.timerDue (s : State) (place g : Nat) (sl : Slice) : Bool :=
  (s.block? place).any fun b => decide (b.wb * 4096 ≤ ((b.pair g).half sl).timer)

def State.watchdog (s : State) (place g : Nat) (sl : Slice) : State := if s.timerDue place g sl then s.watchdogs place g else s

/-- BARRIER_STORE_DROP (R225, R380): a dropped write is reported to its pair; one whose pair is gone is recorded alone. -/
def State.reportDrop (s : State) (n : Nat) : State :=
  match s.drops[n]? with
  | none => s
  | some d =>
    let s : State := { s with drops := s.drops.eraseIdx n }
    let t : TrapInfo := { code := 0x30, lane := d.own.lane, lanes := [d.own.lane], addr := BitVec.ofNat 64 (d.addr.toNat / 8 * 8),
                          aux0 := d.pc.toNat }
    let gone := s.addRec (d.handle.toNat % 2 ^ 8)
      { part := d.own.part
        bytes := recordBytes { t with kind := 4 } (sliceCode d.sl) d.handle ((s.savedPc d.own d.sl).getD d.pc) d.own.serial
          (((s.launch? d.own.part d.own.serial).map (·.asid)).getD 0) s.clk }
    match s.placeOfOwner d.own with
    | none => gone
    | some p => if (s.pair p d.own.group).live && decide (s.pairHandle p d.own.group = d.handle) then s.asyncTrap p d.own.group d.sl t else gone

/-! ### State machine checks (R385) -/

/-- Values that nothing fixes, in place of those of a storage of one pair: 1 its registers, with the predicates, in the marked lanes,
and its `s` files, 2 its queue elements in the marked lanes. -/
def Pair.spoil (p : Pair) (k : Kernel) (storage : Nat) (lanes : List Nat) (n : Nat) : Pair :=
  let reg (h : Half) (count at_ : Nat) : Half :=
    (lanes.flatMap fun l => (List.range count).map fun r => (l, r)).foldl
      (fun h e => h.setReg e.1 e.2 (Config.freeWord (at_ + e.1 * 128 + e.2))) h
  let preds (h : Half) (at_ : Nat) : Half :=
    lanes.foldl (fun h l => h.setLane l { h.lane l with preds := (Config.freeWord (at_ + l)).extractLsb' 0 8 ||| 1 }) h
  let uni (h : Half) (at_ : Nat) : Half := (List.range 64).foldl (fun h r => h.setUreg r (Config.freeWord (at_ + r))) h
  let all (h : Half) (count at_ : Nat) : Half := uni (preds (reg h count at_) (at_ + 8192)) (at_ + 8256)
  let elem (at_ j : Nat) (e : Elem) : Elem := if e.kind = .filled ∧ e.cause = 0 then { e with val := Config.freeWord (at_ + j) } else e
  if storage = 1 then { p with acc := all p.acc k.decl.ny n, exe := all p.exe k.decl.nx (n + 16384) }
  else if storage = 2 then
    { p with queues := p.queues.map fun q => (q.1, if q.1 % 64 ∈ lanes then q.2.mapIdx (elem (n + q.1 * 1024)) else q.2) }
  else p

/-- The same for what all pairs of a block share: 3 its tiles, 4 its scratchpad. -/
def Block.spoil (b : Block) (storage n : Nat) : Block :=
  if storage = 3 then
    { b with tiles := (List.range (b.kernel.decl.tiles * 16384)).foldl (fun m k => smSet 0 m k (Config.freeWord (n + k))) b.tiles }
  else if storage = 4 then
    { b with scratch := b.scratch.write 0 ((List.range b.kernel.decl.scratch).map fun k => Config.freeByte (n + k)) }
  else b

/-- STATE_MACHINE_CHECK (R385): the affected storage holds unspecified values, each pair that uses it traps, and none may resume. -/
def State.stateCheck (s : State) (place g storage : Nat) (lanes : DWord) : State :=
  match s.block? place with
  | none => s
  | some b =>
    if storage < 1 ∨ 4 < storage ∨ (b.pair g).live = false then s
    else
      let ls := (maskLanes lanes).filter fun l => decide (l < b.w)
      let pairs := if storage ≤ 2 then [g] else (List.range b.groups).filter fun q => (b.pair q).live
      let s := s.mapBlock place fun b => b.spoil storage s.fresh
      let s := s.mapPair place g fun p => p.spoil b.kernel storage ls s.fresh
      pairs.foldl (fun s q =>
        (s.mapPair place q fun p => { p with broken := if storage ∈ p.broken then p.broken else p.broken ++ [storage] }).asyncTrap place q .access
          { code := 0x32, lane := ls.headD 0xff, lanes := ls, aux0 := storage }) { s with fresh := s.fresh + 2 ^ 24 }

/-! ### Logical time and coherence messages (R219, R267, R268, R418) -/

/-- Reservations of the blocks of a core whose leases have ended in logical time are cleared (R219). -/
def State.endLeases (s : State) (core : Nat) : State :=
  let ts := (s.core core).ts
  let ends (p : Pair) : Pair := { p with resv := p.resv.filter fun r => decide (ts ≤ r.2.leaseEnd) }
  { s with blocks := s.blocks.map fun e => (e.1, if coreOf e.1 = core then { e.2 with pairs := e.2.pairs.map fun q => (q.1, ends q.2) } else e.2) }

/-- CLOCK_CREEP (R268): at the end of every 64th clk the core's logical time advances. -/
def State.creep (s : State) (core : Nat) : State :=
  if (s.core core).crept + 64 ≤ s.clk + 1 then
    let s' : State := s.mapCore core fun k => { k with ts := k.ts + 1 + Config.creepExtra s.fresh, crept := s.clk + 1 }
    State.endLeases { s' with fresh := s.fresh + 1 } core
  else s

/-- The reply that a recall names has not arrived: its request is outstanding. -/
def State.replyDue (s : State) (request : Option Nat) : Bool := request.any s.outstanding

/-- A core answers a recall of a line: its lease on the line ends. -/
def State.answerRecall (s : State) (core line : Nat) : State :=
  s.mapCore core fun k => { k with leases := smErase k.leases (2 * line), recalls := k.recalls.filter fun r => decide (r.1 ≠ line) }

/-- RECALL_MESSAGE (R418): a recall names the tag of the home's latest reply to the core for the line, or none; it is held until that
reply has arrived, and only then answered. -/
def State.recall (s : State) (core line : Nat) (tag : Option Nat) : State :=
  let r := (s.core core).latest (2 * line)
  if tag ≠ r.map (·.tag) then s
  else if s.replyDue (r.map (·.id)) then
    s.mapCore core fun k => { k with recalls := (k.recalls.filter fun x => decide (x.1 ≠ line)) ++ [(line, r.map (·.id))] }
  else s.answerRecall core line

/-- Held recalls whose replies have arrived are answered. -/
def State.settleRecalls (s : State) (core : Nat) : State :=
  (s.core core).recalls.foldl (fun s r => if s.replyDue r.2 then s else s.answerRecall core r.1) s

/-- LEASE_MESSAGE (R418): a lease that its home has granted replaces an earlier one; one that ends no later than another that has
come is discarded. -/
def State.lease (s : State) (core line leaseEnd : Nat) : State :=
  let t := smGet {} s.lines (2 * line)
  if t.wtime ≤ leaseEnd ∧ leaseEnd ≤ t.leaseEnd ∧ (smFind (s.core core).granted (2 * line)).all (fun e => decide (e < leaseEnd)) ∧ core < 192 then
    s.mapCore core fun k => { k with leases := smPut k.leases (2 * line) leaseEnd, granted := smPut k.granted (2 * line) leaseEnd }
  else s

/-! ### Page walks (R368 to R370) -/

/-- The contexts in which a core translates under an ASID, each as its launch captured it (R364): those of the blocks of its cluster,
whose cores share walks, and of the cluster's collective commands. -/
def State.walkCtxs (s : State) (core part asid : Nat) : List TCtx :=
  let mine (c : TCtx) : Bool := decide (c.part = part ∧ c.asid = asid ∧ clusterOf c.core = clusterOf core)
  (((s.blocks.map fun e => e.2.tctx e.1) ++ (s.colls.filter fun k => k.result.isNone).map Coll.ctx).filter mine).map fun c => { c with core }

/-- TABLE_WALK: a walk for a read or a write in one of the contexts of the ASID leaves its translation in the core's TLB where it finds
no fault; an entry that faults is never cached (R370). Which context it is made for is free (DESIGN CHOICE, log 70). -/
def State.walkIn (s : State) (core part asid : Nat) (va : DWord) : State :=
  let cs := s.walkCtxs core part asid
  let c := cs.getD (Config.walkPick s.fresh % cs.length) {}
  if cs = [] ∨ s.partOfCore core ≠ some part ∨ (s.cached c va).isSome then s
  else
    let s : State := { s with fresh := s.fresh + 1 }
    match s.walk c true false va, s.walk c false true va with
    | .ok t, _ => { s with tlb := s.tlb ++ [t] }
    | _, .ok t => { s with tlb := s.tlb ++ [t] }
    | _, _ => s

/-! ### Pre-emption (R387) -/

/-- REMOTE_ABANDON: a remote write or atomic that is unanswered 18,000 clk after its pair was stopped. -/
def State.abandonRemote (s : State) (id : Nat) : State :=
  match s.remotes.find? fun r => r.id = id ∧ r.op ≠ .read with
  | none => s
  | some r =>
    match s.placeOfOwner r.own with
    | none => s
    | some p =>
      match (s.pair p r.own.group).haltAt with
      | none => s
      | some t =>
        if s.clk < t + 18000 then s
        else
          let s := ({ s with remotes := s.remotes.filter fun x => decide (x.id ≠ id) } : State).fenceFail r.own false false r.port
          let s : State := match r.dst with
            | .drop => s
            | .queue _ => s.deliverToken r.own r.dst r.id 6
            | _ => { s with outs := s.outs ++ [{ id := r.id, own := r.own, dst := r.dst, ty := r.ty, addr := r.addr, pc := r.pc, bad := some 6 }] }
          s.settleHalts

/-! ### Breakpoints (R399) -/

/-- BREAKPOINT_HIT: the path at a safe point hits, once a rendezvous there is complete; that of a team's collective is tested by its own step. -/
def State.hitAt (s : State) (place g : Nat) (sl : Slice) (pc : Word) : State :=
  match s.slotCtx place g sl pc with
  | none => s
  | some (i, c) =>
    let a := c.arrive i
    if a.2 = [] ∨ a.1.ofTeam i then s else (a.1.breakHit place g sl pc a.2).getD s

/-! ### Meanings -/

def execDecouplingDeadlock (core slot group : Nat) (s : State) : Host.Outcome State Fault Refusal :=
  .next (s.decouple (placeOf core slot) group)
def execRejoinDeadlock (core slot group : Nat) (sl : Slice) (s : State) : Host.Outcome State Fault Refusal :=
  .next (s.rejoin (placeOf core slot) group sl)
/-- NAP_END (R169): a lane whose nap is over is ready again. -/
def execNapEnd (core slot group : Nat) (sl : Slice) (lane : Nat) (s : State) : Host.Outcome State Fault Refusal :=
  .next (s.mapLane (placeOf core slot) group sl lane (Lane.wake s.clk))
def execBarrierStoreDrop (index : Nat) (s : State) : Host.Outcome State Fault Refusal := .next (s.reportDrop index)
def execWatchdogTrap (core slot group : Nat) (sl : Slice) (s : State) : Host.Outcome State Fault Refusal :=
  .next (s.watchdog (placeOf core slot) group sl)
def execClockCreep (core : Nat) (s : State) : Host.Outcome State Fault Refusal := .next (s.creep core)
def execRecallMessage (core line : Nat) (tag : Option Nat) (s : State) : Host.Outcome State Fault Refusal := .next (s.recall core line tag)
def execLeaseMessage (core line leaseEnd : Nat) (s : State) : Host.Outcome State Fault Refusal := .next (s.lease core line leaseEnd)
def execTableWalk (core part asid : Nat) (va : DWord) (s : State) : Host.Outcome State Fault Refusal :=
  .next (s.walkIn core part asid va)
def execStateMachineCheck (core slot group storage : Nat) (lanes : DWord) (s : State) : Host.Outcome State Fault Refusal :=
  .next (s.stateCheck (placeOf core slot) group storage lanes)
def execPreemptionRequest (handle : Word) (s : State) : Host.Outcome State Fault Refusal := .next (s.preempt handle)
def execRemoteAbandon (id : Nat) (s : State) : Host.Outcome State Fault Refusal := .next (s.abandonRemote id)
def execBreakpointHit (core slot group : Nat) (sl : Slice) (pc : Nat) (s : State) : Host.Outcome State Fault Refusal :=
  .next (s.hitAt (placeOf core slot) group sl (BitVec.ofNat 32 pc))
def execSafeStopComplete (core slot group : Nat) (s : State) : Host.Outcome State Fault Refusal :=
  .next (s.safeStop (placeOf core slot) group)
def execParkingTimeout (core slot group : Nat) (s : State) : Host.Outcome State Fault Refusal :=
  .next (s.parkOver (placeOf core slot) group)

end Sys2Proof.Machine
end

