-- ==== Sys2Proof/Machine/Loader.lean ====
section
/-! DEFINITION. The loader (R113 to R119): the checks of a kernel image, its placement in the code area and its descriptor. -/

namespace Sys2Proof.Machine
open Sys2Proof

/-! ### The header and the section table (R113, R114) -/

structure Sect where
  ty : Nat
  off : Nat
  size : Nat
  spare : Nat
deriving DecidableEq, Repr

def sectsOf (bs : List Byte) : List Sect :=
  (List.range (field bs 56 2)).map fun k =>
    ⟨field bs (64 + 16 * k) 2, field bs (68 + 16 * k) 4, field bs (72 + 16 * k) 4, field bs (66 + 16 * k) 2 + field bs (76 + 16 * k) 4⟩

/-- The bytes of the section of a type; none where the image has no such section. -/
def sectBytes (bs : List Byte) (ty : Nat) : Option (List Byte) :=
  ((sectsOf bs).find? fun x => decide (x.ty = ty)).map fun x => (bs.drop x.off).take x.size

def sectOr (bs : List Byte) (ty : Nat) : List Byte := (sectBytes bs ty).getD []

/-- The linear decode of a code section (R84): its instruction starts; none where it does not end exactly at the last byte. -/
def linear : Nat → Nat → List Byte → Option (List Nat)
  | 0, _, _ => none
  | fuel + 1, at_, bs =>
    match bs with
    | [] => some []
    | b :: _ =>
      let n := frameLen b
      if bs.length < n then none else (linear fuel (at_ + n) (bs.drop n)).map fun r => at_ :: r

def startsOf (code : List Byte) : Option (List Nat) := linear (code.length / 4 + 1) 0 code

/-- MAGIC, VERSION, WIDTH, CLASS, NSECT or a reserved byte of the header breaks R113. -/
def imageHeaderBad (bs : List Byte) : Bool :=
  decide (bs.length < 64 ∨ field bs 0 4 ≠ 0x4e53594b ∨ field bs 4 2 ≠ 1 ∨ field bs 6 1 ∉ [0, 8, 16, 32, 64] ∨ 2 < field bs 7 1
    ∨ field bs 56 2 < 2 ∨ 7 < field bs 56 2 ∨ field bs 13 3 ≠ 0 ∨ field bs 58 6 ≠ 0 ∨ bs.length < 64 + 16 * field bs 56 2)

/-- Two sections overlap: they share a byte, or an empty section begins strictly inside the other. R114 does not say whether a
section of no bytes can overlap: the model's choice (DESIGN CHOICE, log 57). -/
def sectsOverlap (a b : Sect) : Bool := decide (a.off < b.off + b.size ∧ b.off < a.off + a.size)

/-- The section table breaks R114. -/
def sectTableBad (bs : List Byte) : Bool :=
  let xs := sectsOf bs
  (xs.any fun x => decide (x.ty = 0 ∨ 7 < x.ty ∨ x.spare ≠ 0 ∨ x.off % 16 ≠ 0 ∨ bs.length < x.off + x.size))
    || decide ((xs.map (·.ty)).eraseDups.length ≠ xs.length)
    || (xs.mapIdx fun n x => (n, x)).any (fun p => (xs.drop (p.1 + 1)).any (sectsOverlap p.2))
    || (sectBytes bs 1).isNone || (sectBytes bs 2).isNone
    || [1, 2].any fun ty => decide ((sectOr bs ty).length % 4 ≠ 0) || (startsOf (sectOr bs ty)).isNone

/-- The image does not reach the checks of its sections' contents. -/
def tableBad (bs : List Byte) : Bool := imageHeaderBad bs || sectTableBad bs

/-! ### Relocations and safe points (R104, R115, R116) -/

/-- Offset of the lower word of the literal of the instruction at a start, if it has one (R83). -/
def literalAt (code : List Byte) (start : Nat) : Option Nat :=
  match code[start]? with
  | some b => if b.getLsbD 1 then some (start + frameLen b - 8) else none
  | none => none

/-- Entries of a fixed size. -/
def entriesOf (n : Nat) (bs : List Byte) : List (List Byte) := (List.range (bs.length / n)).map fun k => (bs.drop (n * k)).take n

def relocs (bs : List Byte) : List (Nat × Nat × Nat) :=
  (entriesOf 8 (sectOr bs 5)).map fun e => (field e 0 4, field e 4 1, field e 5 3)

def relocsBad (bs : List Byte) : Bool :=
  decide ((sectOr bs 5).length % 8 ≠ 0) || (relocs bs).any fun e =>
    decide (e.2.1 = 0 ∨ 2 < e.2.1 ∨ e.2.2 ≠ 0)
      || (let code := sectOr bs e.2.1
          !(((startsOf code).getD []).any fun p => decide (literalAt code p = some e.1))
            || decide ((sectOr bs 3).length ≤ field code e.1 8))

/-- A safe point's slice, offset and reserved bits under the kernel's declarations; in the access slice RLIVE has the bits 0 to 63
only (R116). -/
def safeEntryBad (d : Decl) (e : List Byte) : Bool :=
  let sl := field e 4 1
  decide (1 < sl ∨ field e 11 5 ≠ 0 ∨ field e 40 8 ≠ 0) || decide (field e 16 16 / 2 ^ (if sl = 0 then Nat.min 64 d.ny else d.nx) ≠ 0)
    || decide (field e 10 1 / 2 ^ (if sl = 0 then 0 else d.tiles) ≠ 0)
    || (List.range 16).any fun q => (field e 8 2).testBit q && decide (d.depths.getD q 0 = 0)

/-- Offsets of the instructions of a section that carry STOP (R104). -/
def stopsOf (code : List Byte) : List Nat :=
  ((startsOf code).getD []).filter fun p => (code.getD p 0).getLsbD 2

def safeTableBad (bs : List Byte) : Bool :=
  let es := entriesOf 48 (sectOr bs 4)
  let keys := es.map fun e => field e 4 1 * 2 ^ 32 + field e 0 4
  let stops := (stopsOf (sectOr bs 1)) ++ (stopsOf (sectOr bs 2)).map (2 ^ 32 + ·)
  decide ((sectOr bs 4).length % 48 ≠ 0) || es.any (safeEntryBad (declOf bs)) || decide (keys ≠ stops)

/-! ### Signatures (R425) -/

/-- The image with the bytes of its signature section read as zero. -/
def unsignedImage (bs : List Byte) : List Byte :=
  match (sectsOf bs).find? fun x => decide (x.ty = 7) with
  | some x => bs.take x.off ++ List.replicate x.size 0 ++ bs.drop (x.off + x.size)
  | none => bs

def State.signatureBad (s : State) (part : Nat) (bs : List Byte) : Bool :=
  if (s.partRec part).reqsig then
    let g := sectOr bs 7
    let key := smFind s.kkeys (part * 64 + field g 2 2)
    decide (g.length ≠ 128 ∨ field g 0 2 ≠ 1 ∨ 63 < field g 2 2 ∨ field g 4 4 ≠ 0 ∨ field g 122 6 ≠ 0) ||
      (match key with
       | none => true
       | some k => !ed448Verify k (shake256 (unsignedImage bs)) ((g.drop 8).take 114))
  else false

/-! ### Instructions (R37, R41, R43, R47, R48, R117) -/

/-- A queue that the position may name in place of one that R47 forbids it. -/
def rightQueue (pop : Bool) (sl : Slice) (o : Operand) : Operand :=
  match o with
  | .queue _ => .queue (match sl, pop with
    | .access, true => 14
    | .access, false => 0
    | .execute, true => 0
    | .execute, false => 13)
  | o => o

/-- The positions whose queues are those of R47's directions (R120). Every other position lists the specifiers it accepts, and any
other one is an encoding that R106 refuses (R117: the status "illegal instruction" before "declaration"). -/
def byDirection (f : Ext) : Kind → Bool
  | .val _ | .dst _ | .q13val | .off | .sec | .copyBar => true
  | .base => f.sp
  | .copyDst => decide (f.dir ≠ 1)
  | .copySrc => decide (f.dir ≠ 0)
  | _ => false

/-- The instruction is legal but for the direction of its queues, which the loader refuses as a declaration (R47). -/
def legalButQueues (sl : Slice) (i : Instr) : Bool :=
  match sig? i with
  | none => false
  | some (g, f) =>
    let fix (pop : Bool) (k : Kind) (o : Operand) : Operand := if byDirection f k then rightQueue pop sl o else o
    extOk sl g { f with dst := fix false g.dst f.dst, a := fix true g.a f.a, b := fix true g.b f.b,
                        c := fix true g.c f.c, d := fix true g.d f.d } (srcTy i) && extraOk i

/-- An instruction of a section as the loader decodes it. -/
structure Loaded where
  at_ : Nat
  ins : Option Instr
deriving DecidableEq, Repr

def loadedOf (sl : Slice) (code : List Byte) : List Loaded :=
  ((startsOf code).getD []).map fun p =>
    ⟨p, match decodeWith (fun i => legal sl i || legalButQueues sl i) (wordsOf ((code.drop p).take 20)) with
      | .ok (i, _) => some i
      | .error _ => none⟩

/-- Direct targets of an instruction. -/
def directTargets (i : Instr) (pc : Word) : List Word :=
  match row? i with
  | none => []
  | some (g, f) => (srcPositions g f).filterMap fun p =>
      match p.1, p.2 with
      | .rel, .imm _ | .rel, .lit | .relSec, .imm _ | .relSec, .lit => some (relTarget f p.2 pc)
      | _, _ => none

/-- An `mma` with a lane-fed operand (R243, R244). -/
def laneFedMma : Instr → Bool
  | .mma f => [f.a, f.b].any fun o => match o with
    | .uni _ => false
    | _ => true
  | _ => false

/-- A cause of the status "illegal instruction" (R117); without `.width`, a group-scoped instruction (R37) or an `mma` with a
lane-fed operand (R243). -/
def insIllegal (mode : Mode) (width : Nat) (starts : List Nat) (x : Loaded) : Bool :=
  match x.ins with
  | none => true
  | some i =>
    (decide (mode = .user) && decide (majorOf i = 0x7e))
      || (decide (width = 0) && (decide (0x43 ≤ majorOf i ∧ majorOf i ≤ 0x47) || laneFedMma i))
      || (directTargets i (BitVec.ofNat 32 x.at_)).any fun t => decide (t.toNat ∉ starts)

/-- Positions of an instruction, whether each is 64 bits wide, the destination first. -/
def positionsOf (i : Instr) : List (Kind × Operand × Bool) :=
  match row? i with
  | none => []
  | some (g, f) =>
    (g.dst, f.dst, dstWide g f (srcTy i)) :: (srcPositions g f).map fun p => (p.1, p.2, decide (litBits f (srcTy i) p.1 = 64))

/-- A register at or above the declared count of its file, or an odd register for a 64-bit operand (R33, R41). -/
def regsBad (count : Nat) (i : Instr) : Bool :=
  (positionsOf i).any fun p =>
    ((namesAt p.1 p.2.2 p.2.1).any fun n => match n with
      | .r k => decide (count ≤ k)
      | .s k => decide (64 ≤ k)
      | _ => false)
    || (p.2.2 && (match p.1, p.2.1 with
      | .pred, _ | .tile, _ | .set, _ | .no, _ => false
      | _, .reg n => n.getLsbD 0
      | _, .uni n => n.getLsbD 0
      | _, _ => false))

/-- A queue that its slice may not flush (R208): the execute slice flushes `q0` to `q12`, the access slice `q14` and `q15`. -/
def flushBad (sl : Slice) : Instr → Bool
  | .qflush f => match f.a, sl with
    | .queue q, .execute => decide (12 < q.toNat)
    | .queue q, .access => decide (q.toNat < 14)
    | _, _ => false
  | _ => false

/-- A queue outside its direction, one that the kernel does not declare (R47), or one that the slice may not flush (R208). -/
def queueUseBad (sl : Slice) (d : Decl) (i : Instr) : Bool :=
  !legal sl i || flushBad sl i || (positionsOf i).any fun p => match p.1, p.2.1 with
    | .no, _ => false
    | _, .queue q => decide (d.depths.getD q.toNat 0 = 0)
    | _, _ => false

/-- A uniform destination with a source that is not uniform (R43). -/
def uniformBad (i : Instr) : Bool :=
  match positionsOf i with
  | (.no, _) :: _ => false
  | (_, .uni _, _) :: r => r.any fun p => match p.1, p.2.1 with
    | .no, _ => false
    | _, .reg _ => true
    | _, .queue _ => true
    | _, .special n => !specialUniform n.toNat
    | _, _ => false
  | _ => false

/-- A queue named both as a 64-bit and as a 32-bit source (R48). -/
def queueTwice (i : Instr) : Bool :=
  let qs := ((positionsOf i).drop 1).filterMap fun p => match p.2.1 with
    | .queue q => if popsKind p.1 p.2.1 then some (q.toNat, p.2.2) else none
    | _ => none
  qs.any fun a => qs.any fun b => decide (a.1 = b.1 ∧ a.2 ≠ b.2)

/-- A cause of the status "declaration" in an instruction. -/
def insDecl (sl : Slice) (d : Decl) (x : Loaded) : Bool :=
  match x.ins with
  | none => false
  | some i => regsBad (match sl with
      | .access => d.ny
      | .execute => d.nx) i || queueUseBad sl d i || uniformBad i || queueTwice i

/-- A declaration field outside its range (R32, R33, R35, R47, R50, R111). -/
def declBad (bs : List Byte) : Bool :=
  let d := declOf bs
  let bank (n top : Nat) : Bool := decide (n % 8 ≠ 0 ∨ n < 8 ∨ top < n)
  bank d.nx 128 || bank d.ny 64 || decide (d.ureg < 1 ∨ 30 < d.ureg + d.usp ∨ 8 < d.tiles)
    || decide (d.lanes < 1 ∨ (if field bs 6 1 = 0 then 1024 else 16 * d.width) < d.lanes)
    || decide (d.scratch % 256 ≠ 0 ∨ d.usp * 65536 < d.scratch)
    || d.depths.any (fun n => decide (n ≠ 0 ∧ (n < 2 ∨ 1024 < n)))
    || !fitsCore d.split [d]

/-- The status of an image whose header and section table hold: 0 loaded, 1 format, 2 illegal instruction, 3 declaration,
4 signature, the first in the order of R117. -/
def State.imageStatus (s : State) (part : Nat) (mode : Mode) (bs : List Byte) : Nat :=
  let a := loadedOf .access (sectOr bs 1)
  let x := loadedOf .execute (sectOr bs 2)
  let w := field bs 6 1
  if relocsBad bs || safeTableBad bs then 1
  else if s.signatureBad part bs then 4
  else if a.any (insIllegal mode w (a.map (·.at_))) || x.any (insIllegal mode w (x.map (·.at_))) then 2
  else if declBad bs || a.any (insDecl .access (declOf bs)) || x.any (insDecl .execute (declOf bs)) then 3
  else 0

/-! ### The code area (R118, R119) -/

def descAddr (r : PartRec) (i : Nat) : Nat := (codeArea r).1 + 128 * i

/-- The descriptor of an index is in use. -/
def State.descUsed (s : State) (part i : Nat) : Bool := s.isDesc part (descAddr (s.partRec part) i)

/-- The lowest free descriptor index. -/
def State.freeDesc (s : State) (part : Nat) : Option Nat :=
  let a := codeArea (s.partRec part)
  (List.range (Nat.min 65536 (a.2 / 128))).find? fun i => !s.descUsed part i

/-- Offsets, past the descriptors' 8 MiB, that loaded images occupy: first byte and end. -/
def State.codeUsed (s : State) (part : Nat) : List (Nat × Nat) :=
  ((List.range 65536).filter fun i => s.descUsed part i && decide (s.descStatus (descAddr (s.partRec part) i) = 0)).flatMap fun i =>
    let rd (off : Nat) : Nat := s.mem.readNat (descAddr (s.partRec part) i + off) 4
    [(rd 84, rd 84 + rd 96), (rd 88, rd 88 + rd 100), (rd 92, rd 92 + 48 * rd 104)]

def upTo (n v : Nat) : Nat := (v + n - 1) / n * n

/-- The first free stretch of `n` bytes of the code area. -/
def State.codeSpace (s : State) (part n : Nat) : Option Nat :=
  let used := (s.codeUsed part).filter fun e => decide (e.1 < e.2)
  let top := (codeArea (s.partRec part)).2
  (sortBy (fun a b => decide (a ≤ b)) (2 ^ 23 :: used.map fun e => upTo 64 e.2)).find? fun c =>
    decide (2 ^ 23 ≤ c ∧ c + n ≤ top) && used.all fun e => decide (¬ (c < e.2 ∧ e.1 < c + n))

/-- The 128 bytes of a descriptor. -/
def descBytes (status : Nat) (mode : Mode) (part : Nat) (hd : List Byte) (datava : DWord) (asid acode xcode safe asize xsize nsafe : Nat) :
    List Byte :=
  leBytes 4 0x4353444b ++ leBytes 1 status ++ leBytes 1 (modeCode mode) ++ leBytes 1 part ++ leBytes 1 0
    ++ (hd ++ List.replicate 64 0).take 64 ++ leBytes 8 datava.toNat ++ leBytes 2 asid ++ leBytes 2 0 ++ leBytes 4 acode ++ leBytes 4 xcode
    ++ leBytes 4 safe ++ leBytes 4 asize ++ leBytes 4 xsize ++ leBytes 4 nsafe ++ leBytes 20 0

/-! ### Loading -/

/-- An answer word (R426). -/
def fwAnswer (status mid high : Nat) : Word := BitVec.ofNat 32 (status + mid % 2 ^ 8 * 2 ^ 8 + high % 2 ^ 16 * 2 ^ 16)

/-- Where each page of a range of the data section goes: R, W and U are left out of the walk (R118). -/
inductive Pages
  | ok (ps : List (Nat × Nat))
  | fault
  | wait
deriving DecidableEq, Repr

def State.dataPages (s : State) (c : TCtx) (va : DWord) : Nat → Nat → Pages
  | 0, _ => .ok []
  | fuel + 1, n =>
    if n = 0 then .ok []
    else
      let k := Nat.min n (4096 - va.toNat % 4096)
      match s.translate c false false va with
      | .fault _ => .fault
      | .wait => .wait
      | .ok t =>
        if t.remote then .fault
        else if s.heldOver (.glob (t.addr va)) k || s.ownedOver none (.glob (t.addr va)) k then .wait
        else match s.dataPages c (va + BitVec.ofNat 64 k) fuel (n - k) with
          | .ok ps => .ok ((t.addr va, k) :: ps)
          | r => r

/-- Bytes written page by page by firmware. -/
def State.putPages (s : State) : List (Nat × Nat) → List Byte → State
  | [], _ => s
  | (pa, k) :: r, bs => (s.storeFirmware pa (bs.take k)).putPages r (bs.drop k)

/-- A code section with its relocations applied (R115). -/
def relocate (sect : Nat) (rs : List (Nat × Nat × Nat)) (datava : DWord) (code : List Byte) : List Byte :=
  (rs.filter fun e => decide (e.2.1 = sect)).foldl (fun code e =>
    code.take e.1 ++ leBytes 8 (field code e.1 8 + datava.toNat) ++ code.drop (e.1 + 8)) code

/-- A refused image receives a descriptor, and nothing of it is placed. -/
def State.refuseImage (s : State) (part : Nat) (mode : Mode) (status : Nat) (bs : List Byte) : State × Word :=
  match s.freeDesc part with
  | none => (s, fwAnswer 4 0 0)
  | some i =>
    (s.storeFirmware (descAddr (s.partRec part) i) (descBytes status mode part bs 0 0 0 0 0 0 0 0), fwAnswer 0 status i)

/-- The loader's work on an image that it has read, and its answer; none while a held byte keeps it (R118). Where DATAVA faults and the
descriptor table or the code area is full too, the answer is 3; the descriptor of an image without a data section holds the request's
ASID: the model's choices (DESIGN CHOICE, log 75). -/
def State.loadKernel (s : State) (part : Nat) (mode : Mode) (c : TCtx) (datava : DWord) (bs : List Byte) : Option (State × Word) :=
  let r := s.partRec part
  if tableBad bs then some (s.refuseImage part mode 1 bs)
  else if (match sectBytes bs 3 with
      | none => decide (datava ≠ 0)
      | some _ => decide (datava = 0 ∨ datava.toNat % 4096 ≠ 0)) then some (s, fwAnswer 3 0 0)
  else
    let st := s.imageStatus part mode bs
    if st ≠ 0 then some (s.refuseImage part mode st bs)
    else
      let data := sectOr bs 3
      let acc := relocate 1 (relocs bs) datava (sectOr bs 1)
      let exe := relocate 2 (relocs bs) datava (sectOr bs 2)
      let safe := sectOr bs 4
      let xo := upTo 64 acc.length
      let so := xo + upTo 64 exe.length
      match s.dataPages c datava (pagesOf data.length) data.length with
      | .wait => none
      | .fault => some (s, fwAnswer 3 0 0)
      | .ok ps =>
        match s.freeDesc part, s.codeSpace part (so + safe.length) with
        | some i, some o =>
          let base := (codeArea r).1
          let s := ((s.storeFirmware (base + o) acc).storeFirmware (base + o + xo) exe).storeFirmware (base + o + so) safe
          let s := s.putPages ps data
          some (s.storeFirmware (descAddr r i) (descBytes 0 mode part bs datava c.asid o (o + xo) (o + so) acc.length exe.length
            (safe.length / 48)), fwAnswer 0 0 i)
        | _, _ => some (s, fwAnswer 4 0 0)

end Sys2Proof.Machine
end

