-- ==== Sys2Proof/Machine/Firmware.lean ====
section
/-! DEFINITION. The firmware: the services of the mailbox (R118, R409, R423, R424, R426), firmware-mode launches and images (R118,
R352), and partition records (R420, R422). -/

namespace Sys2Proof.Machine
open Sys2Proof

/-! ### Services (R426) -/

/-- The context in which a caller's addresses are read and written. -/
def Call.ctx (c : Call) : TCtx := { core := c.tag.toNat % 2 ^ 8, part := c.part, asid := c.asid, root := c.root, user := false }

/-- Bytes at an argument: a fault, or none while a held byte keeps them. -/
def State.readArg (s : State) (c : Call) (n : Nat) : Except Unit (Option (List Byte)) :=
  if inFabric c.arg then .error ()
  else match s.readVirt c.ctx s.fresh c.arg (pagesOf n) n with
    | .ok r => .ok r
    | .error _ => .error ()

/-- The pages of a destination: with the W and U checks of supervisor code. -/
def State.argPages (s : State) (c : TCtx) (va : DWord) : Nat → Nat → Pages
  | 0, _ => .ok []
  | fuel + 1, n =>
    if n = 0 then .ok []
    else
      let k := Nat.min n (4096 - va.toNat % 4096)
      match s.translate c false true va with
      | .fault _ => .fault
      | .wait => .wait
      | .ok t =>
        if t.remote then .fault
        else if s.heldOver (.glob (t.addr va)) k || s.ownedOver none (.glob (t.addr va)) k then .wait
        else match s.argPages c (va + BitVec.ofNat 64 k) fuel (n - k) with
          | .ok ps => .ok ((t.addr va, k) :: ps)
          | r => r

/-- Bytes written by Equinox at an argument, before it answers 0; 3 where an address faults. -/
def State.writeArg (s : State) (c : Call) (bs : List Byte) : Option (State × Word) :=
  match s.argPages c.ctx c.arg (pagesOf bs.length) bs.length with
  | .wait => none
  | .fault => some (s, fwAnswer 3 0 0)
  | .ok ps => some (s.putPages ps bs, fwAnswer 0 0 0)

/-- The status of a request that names an index at which nothing lies: the manual gives none, so nothing fixes it. -/
def State.openStatus (s : State) : State × Word :=
  ({ s with fresh := s.fresh + 1 }, BitVec.ofNat 32 ((Config.freeWord s.fresh).toNat % 2 ^ 8))

/-- The codes of R426. -/
def fwCodes : List Nat := [0x0000, 0x0001, 0x0010, 0x0011, 0x0020, 0x0030, 0x0031, 0x0040, 0x0041]

/-- A service answers the pending call of a tag, if that call asks for it. -/
def serve (asks : Nat → Bool) (f : State → Call → Option (State × Word)) (tag : Word) (s : State) : Host.Outcome State Fault Refusal :=
  match s.pendingCall tag with
  | none => .next s
  | some c =>
    if asks c.code then
      match f s c with
      | none => .next s
      | some r => .next (r.1.answerCall c r.2)
    else .next s

def svcVersion (s : State) (_ : Call) : Option (State × Word) := some (s, fwAnswer 0 Config.equinoxVersion.toNat 0)

/-- The 64-byte description (code 0x0001). -/
def svcDescribe (s : State) (c : Call) : Option (State × Word) :=
  let r := s.partRec c.part
  s.writeArg c (leBytes 8 s.qtab ++ leBytes 2 r.qfirst ++ leBytes 2 r.qcount ++ leBytes 1 c.part ++ leBytes 51 0)

/-- The lowest index of a partition that holds no kernel key. -/
def State.freeKey (s : State) (part : Nat) : Option Nat := (List.range 64).find? fun k => (smFind s.kkeys (part * 64 + k)).isNone

/-- Solstice judges a certificate (R424): its reserved bytes are zero and the owner root has signed it. -/
def certBad (owner cert : List Byte) : Bool :=
  decide (field cert 57 7 ≠ 0 ∨ field cert 178 78 ≠ 0)
    || !ed448Verify owner (shake256 (cert.take 64)) ((cert.drop 64).take 114)

/-- An accepted key takes an index and extends M with its 57 bytes (R423, R424). -/
def State.acceptKey (s : State) (part k : Nat) (key : List Byte) : State :=
  { s with kkeys := smPut s.kkeys (part * 64 + k) key, measure := shake256 (s.measure ++ key) }

/-- An acceptance that a lower lane of the same issue asked for is still to come (R426). -/
def State.acceptsBefore (s : State) (c : Call) : Bool :=
  s.calls.any fun x => decide (x.code = 0x10 ∧ x.answer = none ∧ x.at_ = c.at_ ∧ x.sl = c.sl ∧ { x.own with lane := 0 } = { c.own with lane := 0 }
    ∧ x.own.lane < c.own.lane)

/-- Two acceptances issued in one clk take indices in ascending lane order: one waits for those of the lower lanes of its issue. -/
def svcKeyAccept (s : State) (c : Call) : Option (State × Word) :=
  if s.acceptsBefore c then none else
  match s.readArg c 256 with
  | .error _ => some (s, fwAnswer 3 0 0)
  | .ok none => none
  | .ok (some cert) =>
    if certBad s.owner cert then some (s, fwAnswer 2 0 0)
    else match s.freeKey c.part with
      | none => some (s, fwAnswer 4 0 0)
      | some k => some (s.acceptKey c.part k (cert.take 57), fwAnswer 0 0 k)

def svcKeyRevoke (s : State) (c : Call) : Option (State × Word) :=
  let k := c.part * 64 + c.arg.toNat
  if c.arg.toNat < 64 ∧ (smFind s.kkeys k).isSome then some ({ s with kkeys := smErase s.kkeys k }, fwAnswer 0 0 0)
  else some s.openStatus

/-- M is 64 bytes (R423). -/
def svcMeasure (s : State) (c : Call) : Option (State × Word) := s.writeArg c ((s.measure ++ List.replicate 64 0).take 64)

/-- A load request (R118): its fields, or a reserved one that is not zero. -/
def loadRequestBad (q : List Byte) : Bool := decide (1 < field q 18 1 ∨ field q 19 5 ≠ 0 ∨ field q 28 36 ≠ 0)

def svcLoad (s : State) (c : Call) : Option (State × Word) :=
  match s.readArg c 64 with
  | .error _ => some (s, fwAnswer 3 0 0)
  | .ok none => none
  | .ok (some q) =>
    if loadRequestBad q then some (s, fwAnswer 3 0 0)
    else
      let t : TCtx := { c.ctx with asid := field q 16 2, root := (s.sysreg c.part 0x00a).toNat }
      let n := field q 24 4
      match s.readVirt t s.fresh (BitVec.ofNat 64 (field q 0 8)) (pagesOf n) n with
      | .error _ => some (s, fwAnswer 3 0 0)
      | .ok none => none
      | .ok (some bs) => s.loadKernel c.part (modeOf (field q 18 1)) t (BitVec.ofNat 64 (field q 8 8)) bs

/-- A taken or resident launch names the descriptor. -/
def State.descNamed (s : State) (part kd : Nat) : Bool :=
  (s.launches.any fun la => decide (la.part = part ∧ la.kernel.kd = kd))
    || (s.packets.any fun p => decide (p.part = part ∧ p.ty = 1 ∧ p.kd.toNat = kd ∧ p.code = none))
    || s.fwHeads.any fun h => decide (h.l.part = part ∧ h.l.kdesc.toNat = kd)

def svcFreeDescriptor (s : State) (c : Call) : Option (State × Word) :=
  let kd := descAddr (s.partRec c.part) c.arg.toNat
  if c.arg.toNat < 65536 ∧ s.isDesc c.part kd then
    if s.descNamed c.part kd then some (s, fwAnswer 6 0 0) else some (s.storeFirmware kd (List.replicate 128 0), fwAnswer 0 0 0)
  else some s.openStatus

/-- An installed key replaces any at its index, which is still accepted for 1,500,000 clk (R409). A key is kept with its secure domain. -/
def State.installKey (s : State) (part idx : Nat) (key : List Byte) : State :=
  let at_ := part * 512 + idx
  let old : List OldKey := match smFind s.tkeys at_ with
    | some k => [{ part, idx, key := k, until_ := s.clk + 1500000 }]
    | none => []
  { s with tkeys := smPut s.tkeys at_ key, oldKeys := s.oldKeys ++ old }

def svcTssInstall (s : State) (c : Call) : Option (State × Word) :=
  match s.readArg c 64 with
  | .error _ => some (s, fwAnswer 3 0 0)
  | .ok none => none
  | .ok (some q) =>
    if field q 36 28 ≠ 0 then some (s, fwAnswer 3 0 0)
    else if field q 32 2 < 512 then some (s.installKey c.part (field q 32 2) (q.take 32 ++ (q.drop 34).take 2), fwAnswer 0 0 0)
    else some s.openStatus

def svcTssRemove (s : State) (c : Call) : Option (State × Word) :=
  let k := c.part * 512 + c.arg.toNat
  if c.arg.toNat < 512 ∧ (smFind s.tkeys k).isSome then some ({ s with tkeys := smErase s.tkeys k }, fwAnswer 0 0 0)
  else some s.openStatus

def svcUnknown (s : State) (_ : Call) : Option (State × Word) := some (s, fwAnswer 1 0 0)

/-! ### Firmware-mode images and launches (R118, R352) -/

/-- Equinox loads a firmware-mode image itself, with the same checks. -/
def State.loadFirmware (s : State) (i : FwImage) : State :=
  let c : TCtx := { part := i.part, asid := i.asid % 2 ^ 16, root := (s.sysreg i.part 0x00a).toNat, user := false }
  if s.sec = .run ∧ (s.partRec i.part).valid then ((s.loadKernel i.part .firmware c i.datava i.image).map (·.1)).getD s else s

/-- The code that a submission's own fields give it, as R346 gives it to a packet; 0 where it may be placed. -/
def State.fwCode (s : State) (l : FwLaunch) : Nat :=
  let kd := l.kdesc.toNat
  let k := s.kernelAt l.part kd
  let la : Launch := { part := l.part, kernel := k, n := l.nblk, t := l.team }
  if !s.inCode l.part kd then 7
  else if l.team < 1 ∨ 16 < l.team ∨ l.nblk < 1 ∨ 16777215 < l.nblk ∨ l.nblk % l.team ≠ 0 ∨ 65535 < l.wb ∨ !s.isDesc l.part kd ∨ s.descStatus kd = 1 then 1
  else if s.descStatus kd ≠ 0 then s.descStatus kd
  else if !teamPossible (s.partRec l.part) l.team ∨ (k.decl.cls = .concurrent ∧ (s.plan la).isNone) then 5
  else if k.mode ≠ .firmware then 9
  else 0

/-- FIRMWARE_SUBMISSION: a launch waits as a class-0 head of its partition, or its completion is reported at once. -/
def State.submitFirmware (s : State) (l : FwLaunch) : State :=
  if s.sec ≠ .run ∨ (s.partRec l.part).valid = false then s
  else
    let s' : State := { s with fresh := s.fresh + 1 }
    if s.fwCode l = 0 then { s' with fwHeads := s'.fwHeads ++ [{ id := s.fresh, l }] }
    else { s' with fwDone := s'.fwDone ++ [(s.fresh, s.fwCode l)] }

/-! ### Partition records (R420, R422) -/

/-- Ranges that start at `a` and `c` share a number; an empty one shares none. -/
def rangesMeet (a n c m : Nat) : Bool := decide (n ≠ 0 ∧ m ≠ 0 ∧ a < c + m ∧ c < a + n)

/-- Two valid records share a cluster, a way, a granule, a queue or a granule of code area. -/
def recordsClash (a b : PartRec) : Bool :=
  decide (a.clusters &&& b.clusters ≠ 0 ∨ a.ways &&& b.ways ≠ 0) || a.memmap.any (fun g => decide (g ∈ b.memmap))
    || rangesMeet a.qfirst a.qcount b.qfirst b.qcount || rangesMeet a.codefirst a.codecnt b.codefirst b.codecnt
    || a.memmap.any (fun g => rangesMeet g 1 b.codefirst b.codecnt) || b.memmap.any fun g => rangesMeet g 1 a.codefirst a.codecnt

/-- A valid record obeys R420 by itself. -/
def recordOk (r : PartRec) : Bool :=
  decide (r.part < 8) && decide (r.clusters ≠ 0 ∧ r.ways ≠ 0 ∧ r.memmap ≠ []) && r.memmap.all (fun g => decide (g < 768))
    && decide (r.qfirst + r.qcount ≤ 4096 ∧ r.supq ≤ r.qcount ∧ r.codecnt ≤ 8 ∧ r.codefirst < 768 ∧ r.codefirst + r.codecnt ≤ 768)
    && r.memmap.all fun g => !rangesMeet g 1 r.codefirst r.codecnt

/-- Granules of a record: its memory and its code area. -/
def granulesOf (r : PartRec) : List Nat := r.memmap ++ (List.range r.codecnt).map fun k => r.codefirst + k

/-- Every byte of granules is written with zero, which clears their tags (R228, R422). -/
def State.zeroGranules (s : State) (gs : List Nat) : State :=
  { s with mem := s.mem.filter fun e => decide (e.1 / 2 ^ 30 ∉ gs), btags := s.btags.filter fun e => decide (e.1 * 8 / 2 ^ 30 ∉ gs),
           errs := s.errs.filter fun a => decide (a / 2 ^ 30 ∉ gs) }

/-- What a cluster's cores kept for their last partition is cleared. -/
def State.clearCores (s : State) (m : BitVec 48) : State :=
  let clear (k : Core) : Core := { k with leases := [], recalls := [], engine := none, chans := [], split := none, drain := none,
                                          reserved := none, freed := [], sampleCount := 0, sample := none }
  { s with cores := s.cores.map fun e => (e.1, if m.getLsbD (clusterOf e.1) then clear e.2 else e.2),
           tlb := s.tlb.filter fun t => !m.getLsbD (clusterOf t.core) }

/-- PARTITION_RECORD_CHANGE (R422): a record changes while its partition holds no resident block and no packet with blocks to place, once
what passes to it is cleared: to a record that is not valid nothing passes. The pending calls of an invalidated partition are answered
with STATUS 5. That the lines of its ways are invalidated shows only in time (log 86). -/
def State.changeRecord (s : State) (r : PartRec) : State :=
  let old := s.partRec r.part
  let busy := (s.blocks.any fun e => decide (e.2.part = r.part)) || s.packets.any fun p => decide (p.part = r.part) && s.unplaced p
  if s.sec ≠ .run ∨ busy ∨ 8 ≤ r.part ∨ (r.valid ∧ (recordOk r = false ∨ s.parts.any (fun e => decide (e.1 ≠ r.part) && e.2.valid && recordsClash e.2 r))) then s
  else
    let s := if r.valid then
        (s.clearCores (if old.valid then r.clusters &&& ~~~old.clusters else r.clusters)).zeroGranules
          ((granulesOf r).filter fun g => !(old.valid && decide (g ∈ granulesOf old)))
      else s
    let s := { s with parts := smSet {} s.parts r.part r }
    if r.valid then s
    else (s.calls.filter fun c => decide (c.part = r.part ∧ c.answer = none)).foldl (fun s c => s.answerCall c (fwAnswer 5 0 0)) s

/-! ### Equinox's own memory (R427) -/

/-- Equinox writes memory that it owns outside every partition: the ring of its mailbox, its RIDX and BAR among it, lies there. -/
def State.equinoxWrite (s : State) (pa : Nat) (bs : List Byte) : State :=
  let mine (g : Nat) : Bool := s.parts.all fun e => !e.2.valid || decide (g ∉ granulesOf e.2)
  if s.sec = .run ∧ pa + bs.length ≤ memBytes ∧ mine (pa / 2 ^ 30) ∧ mine ((pa + bs.length - 1) / 2 ^ 30) ∧ bs.length ≤ 4096
      ∧ s.heldOver (.glob pa) bs.length = false ∧ s.ownedOver none (.glob pa) bs.length = false then s.storeFirmware pa bs
  else s

/-! ### Meanings -/

def execFwVersion (tag : Word) (s : State) : Host.Outcome State Fault Refusal := serve (fun c => decide (c = 0x0000)) svcVersion tag s
def execFwDescribe (tag : Word) (s : State) : Host.Outcome State Fault Refusal := serve (fun c => decide (c = 0x0001)) svcDescribe tag s
def execFwKeyAccept (tag : Word) (s : State) : Host.Outcome State Fault Refusal := serve (fun c => decide (c = 0x0010)) svcKeyAccept tag s
def execFwKeyRevoke (tag : Word) (s : State) : Host.Outcome State Fault Refusal := serve (fun c => decide (c = 0x0011)) svcKeyRevoke tag s
def execFwMeasure (tag : Word) (s : State) : Host.Outcome State Fault Refusal := serve (fun c => decide (c = 0x0020)) svcMeasure tag s
def execFwLoad (tag : Word) (s : State) : Host.Outcome State Fault Refusal := serve (fun c => decide (c = 0x0030)) svcLoad tag s
def execFwFreeDescriptor (tag : Word) (s : State) : Host.Outcome State Fault Refusal :=
  serve (fun c => decide (c = 0x0031)) svcFreeDescriptor tag s
def execFwTssInstall (tag : Word) (s : State) : Host.Outcome State Fault Refusal := serve (fun c => decide (c = 0x0040)) svcTssInstall tag s
def execFwTssRemove (tag : Word) (s : State) : Host.Outcome State Fault Refusal := serve (fun c => decide (c = 0x0041)) svcTssRemove tag s
def execFwUnknownCode (tag : Word) (s : State) : Host.Outcome State Fault Refusal := serve (fun c => decide (c ∉ fwCodes)) svcUnknown tag s

def execFirmwareSubmission (l : FwLaunch) (s : State) : Host.Outcome State Fault Refusal := .next (s.submitFirmware l)
def execFirmwareModeLoad (i : FwImage) (s : State) : Host.Outcome State Fault Refusal := .next (s.loadFirmware i)
def execPartitionRecordChange (r : PartRec) (s : State) : Host.Outcome State Fault Refusal := .next (s.changeRecord r)

end Sys2Proof.Machine
end

