-- ==== Sys2Proof/Machine/Fabric.lean ====
section
/-! DEFINITION. The fabric interface: inbound requests (R406, R409, R410, R412), the answers to remote accesses (R199, R217, R276),
home slices (R419), ports (R407, R432), retransmission and dead links (R411). -/

namespace Sys2Proof.Machine
open Sys2Proof

/-! ### Inbound requests (R406, R409, R410) -/

/-- The context in which an inbound request translates: the partition that it names, TTROOT and its RASID, in user mode. -/
def State.inCtx (s : State) (r : InRequest) : TCtx :=
  { core := 1024, part := r.rpart, asid := r.rasid % 2 ^ 16, root := (s.sysreg r.rpart 0x00a).toNat, user := true }

/-- The peer entries that accept requests of the source and job. -/
def State.inPeers (s : State) (r : InRequest) : List Peer :=
  ((List.range ((s.peerTable r.rpart).elim 0 (·.2))).filterMap (s.peer? r.rpart)).filter fun e =>
    e.inOk && decide (e.fep = r.fep.toNat ∧ e.job = r.job)

/-- The request's protection verifies under the key of a protected entry, or under a replaced key that is still accepted (R409). -/
def State.verifies (s : State) (r : InRequest) (e : Peer) : Bool :=
  !e.tss || s.keyTakes r.rpart e.key r.key

/-- The largest payload of an inbound packet (R406). -/
def inPayload : Nat := 16384

/-- Bytes of an atomic's operand. -/
def inWidth (r : InRequest) : Nat := if r.is64 then 8 else 4

/-- The type of an inbound atomic. The manual does not say whether its min and max read signed or unsigned numbers. -/
def inType (r : InRequest) (signed : Bool) : Ty :=
  match r.op, r.is64 with
  | .fadd, false => .f32
  | .fadd, true => .f64
  | _, false => if signed then .i32 else .n32
  | _, true => if signed then .i64 else .n64

/-- The operation of an inbound atomic on memory (R406); compare-swap has none of its own. -/
def inAtomOp : InOp → Option AtomOp
  | .add | .fadd => some .add
  | .min => some .min
  | .max => some .max
  | .and => some .and
  | .or => some .or
  | .xor => some .xor
  | .swap => some .exch
  | .read | .write | .cas | .other => none

/-- The value that an inbound atomic stores. -/
def inResult (r : InRequest) (signed : Bool) (old : Nat) : Nat :=
  let a := leNat (r.data.take (inWidth r))
  let b := leNat ((r.data.drop (inWidth r)).take (inWidth r))
  atomResult (inAtomOp r.op) (inType r signed) old a b % 2 ^ (8 * (inWidth r))

/-- An accepted write: each page in ascending order. -/
def State.putInbound (s : State) (ps : List (Nat × Nat)) (bs : List Byte) : State :=
  match ps with
  | [] => s
  | (pa, k) :: r => State.putInbound (s.storeEngine none (.glob pa) (bs.take k)).1 r (bs.drop k)

def State.reply (s : State) (a : InReply) : State := { s with inReply := some a }

/-- An access that another device, or this one through its own window, asks for at a home slice (R276). -/
inductive HomeOp
  | read (n : Nat)
  | write (bs : List Byte)
  | atom (n : Nat) (new : Nat → Nat)

/-- An atomic at its home on the location that its address translates to: the answer is the value read. One that meets an
uncorrectable error does nothing and is refused, as an inbound read that meets one is (R281): the model's choice (DESIGN CHOICE, log 83). -/
def State.inAtomic (s : State) (n : Nat) (new : Nat → Nat) (pa : Nat) : State :=
  let old := s.natAt (.glob pa) n
  if (s.errIn (.glob pa) n).isSome then s.reply .refused
  else ((s.storeEngine none (.glob pa) (leBytes n (new old))).1).reply (.done (leBytes n old))

/-- An accepted request is performed (R276, R410), refused where it faults, and not yet performed while held bytes keep it. -/
def State.perform (s : State) (c : TCtx) (addr : DWord) (op : HomeOp) : State :=
  if inFabric addr then s.reply .refused
  else match op with
    | .read n =>
      match s.readVirt c s.fresh addr (pagesOf n) n with
      | .error _ => s.reply .refused
      | .ok none => s
      | .ok (some bs) => s.reply (.done bs)
    | .write bs =>
      if inPayload < bs.length then s.reply .refused
      else match s.argPages c addr (pagesOf bs.length) bs.length with
        | .fault => s.reply .refused
        | .wait => s
        | .ok ps => (s.putInbound ps bs).reply (.done [])
    | .atom n new =>
      if addr.toNat % n ≠ 0 then s.reply .refused
      else match s.translate c true true addr with
        | .fault _ => s.reply .refused
        | .wait => s
        | .ok t =>
          let l : Loc := .glob (t.addr addr)
          if t.remote then s.reply .refused
          else if s.heldOver l n || s.ownedOver none l n then s
          else s.inAtomic n new (t.addr addr)

/-- The access of an inbound packet. Whether its min and max read signed numbers is left free (log 7). -/
def State.inOp (s : State) (r : InRequest) : HomeOp :=
  match r.op with
  | .read => .read r.len
  | .write => .write r.data
  | _ => .atom (inWidth r) (inResult r ((Config.freeWord s.fresh).getLsbD 0))

/-- The request's turn has come (R412): under ROD, requests of one source endpoint are performed in the order of their sequence
numbers, whatever number the first has. -/
def State.inTurn (s : State) (r : InRequest) (e : Peer) : Bool :=
  !e.rod || (smFind s.rod r.fep.toNat).all fun n => decide (r.seq = n)

/-- A request that an entry accepts: one that uses an unimplemented feature is refused without an access (R406). -/
def State.accept (s : State) (r : InRequest) : State :=
  let t : State := { s with fresh := s.fresh + 1, inReply := none }
  if r.op = .other then t.reply .refused else t.perform (s.inCtx r) r.addr (s.inOp r)

/-- INBOUND_REQUEST (R410): performed, refused, or dropped without an answer; or it waits for its turn under ROD, or for bytes that
a store or an engine keeps. -/
def State.inbound (s : State) (r : InRequest) : State :=
  if s.sec ≠ .run then s
  else if !(s.partRec r.rpart).valid then s.reply .refused
  else
    let es := s.inPeers r
    match es.find? (s.verifies r) with
    | none => s.reply (if es = [] then .refused else .dropped)
    | some e =>
      if !s.inTurn r e then s
      else
        let t := s.accept r
        if t.inReply.isNone then s
        else if e.rod then { t with rod := smPut t.rod r.fep.toNat (r.seq + 1) }
        else t

/-! ### Answers to remote accesses (R199, R217, R276) -/

/-- The packet of a remote access names this device's own endpoint (R276). -/
def State.toSelf (s : State) (r : Remote) : Bool := r.sent.isSome && decide (s.fep = some r.head.fep)

/-- The request by which a remote access comes back to the device that issued it: what its packet carries (R408). -/
def Remote.selfRequest (r : Remote) : InRequest :=
  { fep := BitVec.ofNat 128 r.head.fep, job := r.head.job, rpart := r.head.rpart, rasid := r.head.rasid, op := .read,
    is64 := decide (accBytes r.ty = 8), addr := BitVec.ofNat 64 r.raddr, len := accBytes r.ty, data := [], key := r.head.key }

/-- An atomic that R406 does not list: BF16 pairs, and floating-point operations other than add. A packet that asks for it is refused
and causes no access. -/
def Remote.unlisted (r : Remote) : Bool :=
  match r.op with
  | .atom op => decide (r.ty = .bf16x2) || (decide (r.ty = .f32 ∨ r.ty = .f64) && decide (op ≠ some .add))
  | _ => false

/-- What a remote access does at its home. -/
def Remote.homeOp (r : Remote) : HomeOp :=
  let n := accBytes r.ty
  match r.op with
  | .read => .read n
  | .write => .write (leBytes n (r.val.toNat % 2 ^ (8 * n)))
  | .atom op => .atom n fun old => atomResult op r.ty old (r.val.toNat % 2 ^ (8 * n)) (r.val2.toNat % 2 ^ (8 * n)) % 2 ^ (8 * n)

/-- A remote access that names this device is accepted or not as any request (R406, R410), and performed here (R276); the reply is none
while it must wait. -/
def State.atSelf (s : State) (r : Remote) : State :=
  let q := r.selfRequest
  let s : State := { s with inReply := none }
  if !(s.partRec q.rpart).valid then s.reply .refused
  else
    let es := s.inPeers q
    if es.any (s.verifies q) then (if r.unlisted then s.reply .refused else s.perform (s.inCtx q) q.addr r.homeOp)
    else if es = [] then s.reply .refused
    else s.reply .dropped

/-- A remote access is answered: with its data, or with a refusal (R199, R217). -/
def State.answerRemote (s : State) (r : Remote) : RemoteAnswer → State
  | .refused _ => s.failRemote r 5
  | .data v _ =>
    let s : State := { s with remotes := s.remotes.filter fun x => decide (x.id ≠ r.id) }
    (((s.deliver r.own r.dst r.ty r.id (extendLoad r.ty (leBytes (accBytes r.ty) v.toNat))).noteReturn r.own r.id).waitAnswer r.own v).sendReleased

/-- The key under which an answer's protection verifies. -/
def answerKey : RemoteAnswer → Option (List Byte)
  | .data _ k => k
  | .refused k => k

/-- REMOTE_RESPONSE: the answer that the other device gives; of an access that names this device itself, the one that its own
home slice gives. An answer to a protected packet that does not verify is dropped (R409), and an atomic that R406 does not list is
refused. -/
def State.remoteResponse (s : State) (r : Remote) (ans : RemoteAnswer) : State :=
  if s.toSelf r then
    let t := s.atSelf r
    match t.inReply with
    | some (.done bs) => { t with inReply := s.inReply : State }.answerRemote r (.data (BitVec.ofNat 64 (leNat bs)))
    | some .refused => { t with inReply := s.inReply : State }.answerRemote r .refused
    | _ => s
  else if r.head.tss && !s.keyTakes r.own.part r.head.idx (answerKey ans) then s
  else s.answerRemote r (if r.unlisted then .refused (answerKey ans) else ans)

/-! ### Home slices (R419) -/

/-- The low part of the home of a line number: its seven-bit fields, exclusive-or. -/
def homeLow (l : Nat) : Nat :=
  ((List.range 7).map fun k => l / 2 ^ (7 * k) % 2 ^ 7).foldl (· ^^^ ·) 0

/-- The home slice of a physical address, from PA[51:7]: 0 to 383. -/
def homeSlice (pa : Nat) : Nat :=
  let l := pa / 2 ^ 7 % 2 ^ 45
  128 * (l % 3) + homeLow l

/-! ### Outbound packets and ports (R407, R409, R411, R432) -/

/-- DEAD_LINK_TIMEOUT (R411): 1,500,000 clk without an acknowledgement. -/
def State.deadLink (s : State) (id : Nat) : State :=
  match s.remotes.find? fun r => r.id = id with
  | none => s
  | some r => match r.sent with
    | none => s
    | some t => if t + 1500000 ≤ s.clk then s.failRemote r 6 else s

/-- The remote accesses whose time is over at the end of a clk: those that are abandoned (R387) and those whose link is dead (R411). -/
def State.endRemotes (s : State) : State :=
  s.remotes.foldl (fun s r => (s.abandonRemote r.id).deadLink r.id) s

/-- PACKET_RETRANSMIT (R411): a packet is sent again on a permitted port that is up; with none up the access fails. -/
def State.resend (s : State) (id port : Nat) : State :=
  match s.remotes.find? fun r => r.id = id ∧ r.sent.isSome with
  | none => s
  | some r =>
    if r.head.ports &&& s.ports = 0 then s.failRemote r 6
    else if r.head.ports.getLsbD port && s.ports.getLsbD port then
      { s with remotes := s.remotes.map fun x => if x.id = id then { x with port } else x }
    else s

/-- A port comes up or goes down (R407). -/
def State.setPort (s : State) (port : Nat) (up : Bool) : State :=
  if s.sec ≠ .run ∨ 12 ≤ port then s
  else { s with ports := if up then s.ports ||| (1#12 <<< port) else s.ports &&& ~~~(1#12 <<< port) }

/-- KEY_GRACE_EXPIRY (R409): a replaced key is accepted for 1,500,000 clk. -/
def State.expireKeys (s : State) (part idx : Nat) : State :=
  { s with oldKeys := s.oldKeys.filter fun k => decide (k.part ≠ part ∨ k.idx ≠ idx ∨ s.clk < k.until_) }

/-! ### Meanings -/

def execRemoteResponse (id : Nat) (ans : RemoteAnswer) (s : State) : Host.Outcome State Fault Refusal :=
  match s.remotes.find? fun r => r.id = id ∧ r.sent.isSome with
  | none => .next s
  | some r => .next (s.remoteResponse r ans)

def execInboundRequest (r : InRequest) (s : State) : Host.Outcome State Fault Refusal := .next (s.inbound r)
def execDeadLinkTimeout (id : Nat) (s : State) : Host.Outcome State Fault Refusal := .next (s.deadLink id)
def execPacketRetransmit (id port : Nat) (s : State) : Host.Outcome State Fault Refusal := .next (s.resend id port)
def execPortTrained (port : Nat) (s : State) : Host.Outcome State Fault Refusal := .next (s.setPort port true)
def execPortDown (port : Nat) (s : State) : Host.Outcome State Fault Refusal := .next (s.setPort port false)
def execKeyGraceExpiry (part idx : Nat) (s : State) : Host.Outcome State Fault Refusal := .next (s.expireKeys part idx)

end Sys2Proof.Machine
end

