-- ==== Sys2Proof/Machine/Power.lean ====
section
/-! DEFINITION. Boot (R423, R432), reset and the pins (R431, R433), the alarm and Frost (R428 to R430), supply sag and heat (R434,
R436). -/

namespace Sys2Proof.Machine
open Sys2Proof

/-! ### Sensors (R436) -/

/-- The temperature above which a sensor stretches the clock, and the one at which it trips. -/
def sensorLimit : Sensor → Int
  | .cluster _ => 105000
  | .stack _ => 95000
def sensorTrip : Sensor → Int
  | .cluster _ => 120000
  | .stack _ => 105000

def Heat.trips (h : Heat) : Bool := decide (sensorTrip h.sensor ≤ h.temp)

/-- A sensor is at its trip temperature: THERMTRIP_N is low. -/
def State.tripped (s : State) : Bool := s.heats.any Heat.trips

/-! ### Outputs (R431) -/

/-- SECSTATE[1:0]. -/
def secCode : Sec → BitVec 2
  | .boot => 0
  | .failed => 1
  | .run => 2
  | .frost => 3

def State.secState (s : State) : BitVec 2 := secCode s.sec
def State.alarmN (s : State) : Bool := !s.alarm
def State.thermtripN (s : State) : Bool := !s.tripped

/-! ### Boot (R423, R432) -/

/-- The owner root key and the signature that the Equinox image carries, and its digest D over every byte but the signature field, which
reads as zero. -/
def bootKey (b : BootInput) : List Byte := (b.image.drop Config.ownerKeyAt).take 57
def bootSig (b : BootInput) : List Byte := (b.image.drop Config.imageSigAt).take 114
def bootDigest (b : BootInput) : List Byte :=
  shake256 (b.image.take Config.imageSigAt ++ List.replicate (bootSig b).length 0 ++ b.image.drop (Config.imageSigAt + 114))

/-- EQUINOX_VERIFY: the owner key is the one in the fuses and has signed the image. -/
def bootPasses (b : BootInput) : Bool :=
  decide (shake256 (bootKey b) = Config.ownerDigest) && ed448Verify (bootKey b) (bootDigest b) (bootSig b)

/-- M after a boot whose checks pass. -/
def bootMeasure (b : BootInput) : List Byte := shake256 (shake256 (List.replicate 64 0 ++ bootDigest b) ++ shake256 (bootKey b))

/-- The records that Equinox builds: those that obey R420 beside the ones before them. -/
def bootRecords (rs : List PartRec) : SMap PartRec :=
  rs.foldl (fun m r =>
    if r.valid && recordOk r && (smFind m r.part).isNone && !m.any (fun e => recordsClash e.2 r) then smPut m r.part r else m) []

/-- BOOT: RESET_N rises. With PWROK_N low and no trip the device boots: to run, with memory and everything on the device cleared, or to
the failed state. -/
def State.boot (s : State) (b : BootInput) : State :=
  if s.resetN then s
  else
    let s : State := { s with resetN := true }
    if s.sec ≠ .boot ∨ s.pwrokN ∨ s.tripped then s
    else if bootPasses b then
      { s with sec := .run, measure := bootMeasure b, owner := bootKey b, mem := [], btags := [], errs := [], blocks := [],
               cores := [], lines := [], tlb := [], parts := bootRecords b.records, qtab := b.qtab, fep := some b.fep, ports := 0 }
    else { s with sec := .failed, measure := List.replicate 64 0 }

/-! ### Reset, power and Frost (R429, R430, R433) -/

/-- The machine in boot with what a reset keeps: the key store and M, and the state of the sensors and pins. -/
def State.backToBoot (s : State) : State :=
  { State.reset with
    agenda := s.agenda, fresh := s.fresh, measure := s.measure, kkeys := s.kkeys, tkeys := s.tkeys, oldKeys := s.oldKeys.map fun k => { k with until_ := k.until_ - s.clk },
    idErased := s.idErased, sags := s.sags, heats := s.heats, pwrokN := s.pwrokN, resetN := s.resetN }

/-- The pins PWROK_N and RESET_N take these levels. A rise of RESET_N with PWROK_N low is left to BOOT. -/
def State.setPins (s : State) (pwrokN resetN : Bool) : State := { s with pwrokN, resetN := resetN && (pwrokN || s.resetN) }

/-- RESET (R433): where the level of PWROK_N or of RESET_N holds the device in reset, it returns to boot; in Frost neither has an
effect. -/
def State.resetPin (s : State) : State :=
  if (s.resetN && !s.pwrokN) || decide (s.sec = .frost) then s else s.backToBoot

/-- ALARM (R429): the device enters Frost, with the key store and M zero and the alarm output asserted. -/
def State.freeze (s : State) : State :=
  if s.sec = .frost then s
  else
    { State.reset with
      agenda := s.agenda, fresh := s.fresh, sec := .frost, alarm := true, idErased := true,
      sags := s.sags, heats := s.heats, pwrokN := s.pwrokN, resetN := s.resetN }

/-- POWER_REMOVAL (R430): the device leaves Frost, or any other state, for boot, with PWROK_N high. -/
def State.powerOff (s : State) : State := { s.backToBoot with pwrokN := true, resetN := false }

/-! ### Supply and heat (R434, R436) -/

/-- SUPPLY_SAG (R434, R428): a core supply is at so many thousandths of its nominal voltage. At 0.96 itself it has neither fallen below
nor is back above. -/
def State.supply (s : State) (l : SupplyLevel) : State :=
  if l.volts < 900 then s.freeze
  else if l.volts < 960 then { s with sags := { supply := l.supply } :: s.sags.filter fun x => decide (x.supply ≠ l.supply) }
  else
    { s with sags := s.sags.map fun x =>
        if x.supply = l.supply then { x with back := if 960 < l.volts then some (x.back.getD 0) else none } else x }

/-- A clk passes for the supplies that are back. -/
def State.sagClk (s : State) : State := { s with sags := s.sags.map fun x => { x with back := x.back.map (· + 1) } }

/-- STRETCH_END (R434): the stretching of a supply that has been back for 64 clk ends. -/
def State.stretchOver (s : State) : State := { s with sags := s.sags.filter fun x => decide (x.back.getD 0 < 64) }

/-- A sensor shows a temperature: it stretches the clock from above its threshold until it is 3 degrees below, by the
steps given or by as many as before; at its trip temperature the device is held in reset. -/
def State.sense (s : State) (x : Sensor) (temp : Int) (steps : Option Nat) : State :=
  let old := (s.heats.find? fun h => decide (h.sensor = x)).getD { sensor := x }
  let hot := decide (sensorLimit x < temp) || (old.hot && decide (sensorLimit x - 3000 < temp))
  let h : Heat := { sensor := x, temp, hot, steps := if hot then Nat.max 1 (Nat.min (steps.getD old.steps) 4) else 0 }
  let s : State := { s with heats := h :: s.heats.filter fun y => decide (y.sensor ≠ x) }
  if h.trips ∧ s.sec ≠ .frost then s.backToBoot else s

/-- A step acts on what a sensor shows, where that is such a temperature. -/
def State.senseIf (s : State) (p : Reading → Bool) (steps : Option Nat) : State :=
  match s.reading with
  | some r => if p r then State.sense { s with reading := none } r.sensor r.temp steps else s
  | none => s

/-- The stretch of a clk of a core in sixteenths: the larger of the two (R436). -/
def State.stretch (s : State) (core : Nat) : Nat :=
  Nat.max (if s.sags.any fun x => decide (x.supply = Config.supplyOf core) then 4 else 0)
    ((s.heats.filter Heat.hot).foldl (fun n h => Nat.max n h.steps) 0)

/-! ### Meanings -/

def execBoot (b : BootInput) (s : State) : Host.Outcome State Fault Refusal := .next (s.boot b)
def execReset (s : State) : Host.Outcome State Fault Refusal := .next s.resetPin
def execAlarm (s : State) : Host.Outcome State Fault Refusal := .next s.freeze
def execPowerRemoval (s : State) : Host.Outcome State Fault Refusal := .next s.powerOff
def execSupplySag (x : SupplyLevel) (s : State) : Host.Outcome State Fault Refusal := .next (s.supply x)
def execStretchEnd (s : State) : Host.Outcome State Fault Refusal := .next s.stretchOver
/-- THERMAL_THROTTLE (R436): a sensor above its threshold. How many steps follow is not fixed (log 51). -/
def execThermalThrottle (steps : Nat) (s : State) : Host.Outcome State Fault Refusal :=
  .next (s.senseIf (fun r => decide (sensorLimit r.sensor < r.temp)) (some steps))
/-- THERMTRIP (R436): a sensor at its trip temperature. -/
def execThermtrip (s : State) : Host.Outcome State Fault Refusal :=
  .next (s.senseIf (fun r => decide (sensorTrip r.sensor ≤ r.temp)) (some 4))
/-- THERMAL_RECOVERY (R436): a sensor 3 degrees below its threshold. -/
def execThermalRecovery (s : State) : Host.Outcome State Fault Refusal :=
  .next (s.senseIf (fun r => decide (r.temp ≤ sensorLimit r.sensor - 3000)) none)
/-- THERMTRIP_CLEAR (R436): a sensor below its trip temperature. -/
def execThermtripClear (s : State) : Host.Outcome State Fault Refusal :=
  .next (s.senseIf (fun r => decide (r.temp < sensorTrip r.sensor)) none)

end Sys2Proof.Machine
end

