-- ==== Sys2Proof/Machine/Dispatch.lean ====
section
/-! DEFINITION. The meaning of each instruction and step: one arm per constructor of Instr. -/

namespace Sys2Proof.Machine
open Sys2Proof

/-- What an instruction or a step of the part does to the machine. -/
def exec (i : Instr) (s : State) : Host.Outcome State Fault Refusal :=
  match i with
  | .add f => Sys2Proof.Machine.execAdd f s
  | .addBase f => Sys2Proof.Machine.execAddBase f s
  | .sub f => Sys2Proof.Machine.execSub f s
  | .subBase f => Sys2Proof.Machine.execSubBase f s
  | .mulLo f => Sys2Proof.Machine.execMulLo f s
  | .mulHi f => Sys2Proof.Machine.execMulHi f s
  | .mad f => Sys2Proof.Machine.execMad f s
  | .min f => Sys2Proof.Machine.execMin f s
  | .minBase f => Sys2Proof.Machine.execMinBase f s
  | .max f => Sys2Proof.Machine.execMax f s
  | .maxBase f => Sys2Proof.Machine.execMaxBase f s
  | .abs f => Sys2Proof.Machine.execAbs f s
  | .absBase f => Sys2Proof.Machine.execAbsBase f s
  | .neg f => Sys2Proof.Machine.execNeg f s
  | .negBase f => Sys2Proof.Machine.execNegBase f s
  | .and f => Sys2Proof.Machine.execAnd f s
  | .andBase f => Sys2Proof.Machine.execAndBase f s
  | .or f => Sys2Proof.Machine.execOr f s
  | .orBase f => Sys2Proof.Machine.execOrBase f s
  | .xor f => Sys2Proof.Machine.execXor f s
  | .xorBase f => Sys2Proof.Machine.execXorBase f s
  | .not f => Sys2Proof.Machine.execNot f s
  | .notBase f => Sys2Proof.Machine.execNotBase f s
  | .shl f => Sys2Proof.Machine.execShl f s
  | .shlBase f => Sys2Proof.Machine.execShlBase f s
  | .shr f => Sys2Proof.Machine.execShr f s
  | .shrBase f => Sys2Proof.Machine.execShrBase f s
  | .sar f => Sys2Proof.Machine.execSar f s
  | .sarBase f => Sys2Proof.Machine.execSarBase f s
  | .bfx f => Sys2Proof.Machine.execBfx f s
  | .bfi f => Sys2Proof.Machine.execBfi f s
  | .popc f => Sys2Proof.Machine.execPopc f s
  | .popcBase f => Sys2Proof.Machine.execPopcBase f s
  | .clz f => Sys2Proof.Machine.execClz f s
  | .clzBase f => Sys2Proof.Machine.execClzBase f s
  | .brev f => Sys2Proof.Machine.execBrev f s
  | .brevBase f => Sys2Proof.Machine.execBrevBase f s
  | .sel f => Sys2Proof.Machine.execSel f s
  | .cmp cc f => Sys2Proof.Machine.execCmp cc f s
  | .mov f => Sys2Proof.Machine.execMov f s
  | .movBase f => Sys2Proof.Machine.execMovBase f s
  | .fadd f => Sys2Proof.Machine.execFadd f s
  | .fsub f => Sys2Proof.Machine.execFsub f s
  | .fmul f => Sys2Proof.Machine.execFmul f s
  | .fma f => Sys2Proof.Machine.execFma f s
  | .fmin f => Sys2Proof.Machine.execFmin f s
  | .fmax f => Sys2Proof.Machine.execFmax f s
  | .fcmp cc f => Sys2Proof.Machine.execFcmp cc f s
  | .fclass f => Sys2Proof.Machine.execFclass f s
  | .frint f => Sys2Proof.Machine.execFrint f s
  | .ex2s f => Sys2Proof.Machine.execEx2s f s
  | .lg2 f => Sys2Proof.Machine.execLg2 f s
  | .rcp f => Sys2Proof.Machine.execRcp f s
  | .rsq f => Sys2Proof.Machine.execRsq f s
  | .sqrt f => Sys2Proof.Machine.execSqrt f s
  | .div f => Sys2Proof.Machine.execDiv f s
  | .cvt src f => Sys2Proof.Machine.execCvt src f s
  | .pack f => Sys2Proof.Machine.execPack f s
  | .unpack f => Sys2Proof.Machine.execUnpack f s
  | .dot2 f => Sys2Proof.Machine.execDot2 f s
  | .dp4 f => Sys2Proof.Machine.execDp4 f s
  | .qswapH f => Sys2Proof.Machine.execQswapH f s
  | .qswapV f => Sys2Proof.Machine.execQswapV f s
  | .qbcast f => Sys2Proof.Machine.execQbcast f s
  | .qsum f => Sys2Proof.Machine.execQsum f s
  | .shfl m f => Sys2Proof.Machine.execShfl m f s
  | .voteAny f => Sys2Proof.Machine.execVoteAny f s
  | .voteAll f => Sys2Proof.Machine.execVoteAll f s
  | .voteBallot f => Sys2Proof.Machine.execVoteBallot f s
  | .red op f => Sys2Proof.Machine.execRed op f s
  | .scan op excl f => Sys2Proof.Machine.execScan op excl f s
  | .matchLanes f => Sys2Proof.Machine.execMatchLanes f s
  | .pand f => Sys2Proof.Machine.execPand f s
  | .por f => Sys2Proof.Machine.execPor f s
  | .pxor f => Sys2Proof.Machine.execPxor f s
  | .pnot f => Sys2Proof.Machine.execPnot f s
  | .ptest f => Sys2Proof.Machine.execPtest f s
  | .bra f => Sys2Proof.Machine.execBra f s
  | .brQ f => Sys2Proof.Machine.execBrQ f s
  | .brx f => Sys2Proof.Machine.execBrx f s
  | .call f => Sys2Proof.Machine.execCall f s
  | .ret f => Sys2Proof.Machine.execRet f s
  | .exit f => Sys2Proof.Machine.execExit f s
  | .joinInit f => Sys2Proof.Machine.execJoinInit f s
  | .joinEnter f => Sys2Proof.Machine.execJoinEnter f s
  | .joinQuit f => Sys2Proof.Machine.execJoinQuit f s
  | .joinWait f => Sys2Proof.Machine.execJoinWait f s
  | .joinTest f => Sys2Proof.Machine.execJoinTest f s
  | .joinSave f => Sys2Proof.Machine.execJoinSave f s
  | .joinLoad f => Sys2Proof.Machine.execJoinLoad f s
  | .yield f => Sys2Proof.Machine.execYield f s
  | .nap f => Sys2Proof.Machine.execNap f s
  | .trap f => Sys2Proof.Machine.execTrap f s
  | .brk f => Sys2Proof.Machine.execBrk f s
  | .nop f => Sys2Proof.Machine.execNop f s
  | .nopBase f => Sys2Proof.Machine.execNopBase f s
  | .ldQ f => Sys2Proof.Machine.execLdQ f s
  | .ldY f => Sys2Proof.Machine.execLdY f s
  | .ldSp f => Sys2Proof.Machine.execLdSp f s
  | .ldFab f => Sys2Proof.Machine.execLdFab f s
  | .ldMc f => Sys2Proof.Machine.execLdMc f s
  | .stream f => Sys2Proof.Machine.execStream f s
  | .st f => Sys2Proof.Machine.execSt f s
  | .stY f => Sys2Proof.Machine.execStY f s
  | .stSp f => Sys2Proof.Machine.execStSp f s
  | .prefetch f => Sys2Proof.Machine.execPrefetch f s
  | .qflush f => Sys2Proof.Machine.execQflush f s
  | .qcount f => Sys2Proof.Machine.execQcount f s
  | .atom op f => Sys2Proof.Machine.execAtom op f s
  | .atomCas f => Sys2Proof.Machine.execAtomCas f s
  | .lr f => Sys2Proof.Machine.execLr f s
  | .sc f => Sys2Proof.Machine.execSc f s
  | .fence scope f => Sys2Proof.Machine.execFence scope f s
  | .smov f => Sys2Proof.Machine.execSmov f s
  | .barInit f => Sys2Proof.Machine.execBarInit f s
  | .barArrive f => Sys2Proof.Machine.execBarArrive f s
  | .barWait f => Sys2Proof.Machine.execBarWait f s
  | .barInval f => Sys2Proof.Machine.execBarInval f s
  | .barTest f => Sys2Proof.Machine.execBarTest f s
  | .copyAsync f => Sys2Proof.Machine.execCopyAsync f s
  | .copyWait f => Sys2Proof.Machine.execCopyWait f s
  | .collRs f => Sys2Proof.Machine.execCollRs f s
  | .collAg f => Sys2Proof.Machine.execCollAg f s
  | .task f => Sys2Proof.Machine.execTask f s
  | .post f => Sys2Proof.Machine.execPost f s
  | .postCnt f => Sys2Proof.Machine.execPostCnt f s
  | .seal f => Sys2Proof.Machine.execSeal f s
  | .steal f => Sys2Proof.Machine.execSteal f s
  | .mma f => Sys2Proof.Machine.execMma f s
  | .mmaTeam f => Sys2Proof.Machine.execMmaTeam f s
  | .zclr f => Sys2Proof.Machine.execZclr f s
  | .zld f => Sys2Proof.Machine.execZld f s
  | .zst f => Sys2Proof.Machine.execZst f s
  | .zcvt f => Sys2Proof.Machine.execZcvt f s
  | .zadd f => Sys2Proof.Machine.execZadd f s
  | .sclSetA f => Sys2Proof.Machine.execSclSetA f s
  | .sclSetB f => Sys2Proof.Machine.execSclSetB f s
  | .fmtVote f => Sys2Proof.Machine.execFmtVote f s
  | .sysrd f => Sys2Proof.Machine.execSysrd f s
  | .syswr f => Sys2Proof.Machine.execSyswr f s
  | .sampleWrite f => Sys2Proof.Machine.execSampleWrite f s
  | .eret f => Sys2Proof.Machine.execEret f s
  | .tret f => Sys2Proof.Machine.execTret f s
  | .tlbinv f => Sys2Proof.Machine.execTlbinv f s
  | .tlbinvAll f => Sys2Proof.Machine.execTlbinvAll f s
  | .ctxsave f => Sys2Proof.Machine.execCtxsave f s
  | .ctxsaveFree f => Sys2Proof.Machine.execCtxsaveFree f s
  | .ctxload f => Sys2Proof.Machine.execCtxload f s
  | .halt f => Sys2Proof.Machine.execHalt f s
  | .haltSafe f => Sys2Proof.Machine.execHaltSafe f s
  | .l1wb f => Sys2Proof.Machine.execL1wb f s
  | .fwcall f => Sys2Proof.Machine.execFwcall f s
  | .sysfence f => Sys2Proof.Machine.execSysfence f s
  | .fwVersion tag => Sys2Proof.Machine.execFwVersion tag s
  | .fwDescribe tag => Sys2Proof.Machine.execFwDescribe tag s
  | .fwKeyAccept tag => Sys2Proof.Machine.execFwKeyAccept tag s
  | .fwKeyRevoke tag => Sys2Proof.Machine.execFwKeyRevoke tag s
  | .fwMeasure tag => Sys2Proof.Machine.execFwMeasure tag s
  | .fwLoad tag => Sys2Proof.Machine.execFwLoad tag s
  | .fwFreeDescriptor tag => Sys2Proof.Machine.execFwFreeDescriptor tag s
  | .fwTssInstall tag => Sys2Proof.Machine.execFwTssInstall tag s
  | .fwTssRemove tag => Sys2Proof.Machine.execFwTssRemove tag s
  | .fwUnknownCode tag => Sys2Proof.Machine.execFwUnknownCode tag s
  | .mailboxAnswerPort tag answer => Sys2Proof.Machine.execMailboxAnswerPort tag answer s
  | .mgmtRegisterPort part idx wr => Sys2Proof.Machine.execMgmtRegisterPort part idx wr s
  | .firmwareSubmission l => Sys2Proof.Machine.execFirmwareSubmission l s
  | .partitionRecordChange r => Sys2Proof.Machine.execPartitionRecordChange r s
  | .packetTake queue => Sys2Proof.Machine.execPacketTake queue s
  | .headAging queue => Sys2Proof.Machine.execHeadAging queue s
  | .placement part team => Sys2Proof.Machine.execPlacement part team s
  | .waitWordRead queue => Sys2Proof.Machine.execWaitWordRead queue s
  | .concurrentAdmission part => Sys2Proof.Machine.execConcurrentAdmission part s
  | .drainMark part => Sys2Proof.Machine.execDrainMark part s
  | .blockStart part serial => Sys2Proof.Machine.execBlockStart part serial s
  | .blockEnd core slot => Sys2Proof.Machine.execBlockEnd core slot s
  | .launchEnd part serial => Sys2Proof.Machine.execLaunchEnd part serial s
  | .loadDataReturn id => Sys2Proof.Machine.execLoadDataReturn id s
  | .remoteResponse id ans => Sys2Proof.Machine.execRemoteResponse id ans s
  | .multicastRead part serial team group lane => Sys2Proof.Machine.execMulticastRead part serial team group lane s
  | .streamRow core slot group queue => Sys2Proof.Machine.execStreamRow core slot group queue s
  | .storeDataTake core slot group lane => Sys2Proof.Machine.execStoreDataTake core slot group lane s
  | .decouplingDeadlock core slot group => Sys2Proof.Machine.execDecouplingDeadlock core slot group s
  | .rejoinDeadlock core slot group sl => Sys2Proof.Machine.execRejoinDeadlock core slot group sl s
  | .napEnd core slot group sl lane => Sys2Proof.Machine.execNapEnd core slot group sl lane s
  | .matrixAccept core => Sys2Proof.Machine.execMatrixAccept core s
  | .matrixComplete core => Sys2Proof.Machine.execMatrixComplete core s
  | .teamRendezvous part serial team group => Sys2Proof.Machine.execTeamRendezvous part serial team group s
  | .copyEnter core slot group => Sys2Proof.Machine.execCopyEnter core slot group s
  | .copyLineWrite core channel => Sys2Proof.Machine.execCopyLineWrite core channel s
  | .copyComplete core channel => Sys2Proof.Machine.execCopyComplete core channel s
  | .collectiveComplete id cs => Sys2Proof.Machine.execCollectiveComplete id cs s
  | .collectiveTimeout id => Sys2Proof.Machine.execCollectiveTimeout id s
  | .barrierStoreDrop index => Sys2Proof.Machine.execBarrierStoreDrop index s
  | .watchdogTrap core slot group sl => Sys2Proof.Machine.execWatchdogTrap core slot group sl s
  | .clockCreep core => Sys2Proof.Machine.execClockCreep core s
  | .recallMessage core line tag => Sys2Proof.Machine.execRecallMessage core line tag s
  | .leaseMessage core line leaseEnd => Sys2Proof.Machine.execLeaseMessage core line leaseEnd s
  | .tableWalk core part asid va => Sys2Proof.Machine.execTableWalk core part asid va s
  | .invalidationComplete id => Sys2Proof.Machine.execInvalidationComplete id s
  | .windowEntry part => Sys2Proof.Machine.execWindowEntry part s
  | .teamReadyPlace part cluster => Sys2Proof.Machine.execTeamReadyPlace part cluster s
  | .clusterSteal part cluster => Sys2Proof.Machine.execClusterSteal part cluster s
  | .trapRecordWrite core => Sys2Proof.Machine.execTrapRecordWrite core s
  | .memoryMachineCheck core agent pa => Sys2Proof.Machine.execMemoryMachineCheck core agent pa s
  | .stateMachineCheck core slot group storage lanes => Sys2Proof.Machine.execStateMachineCheck core slot group storage lanes s
  | .preemptionRequest handle => Sys2Proof.Machine.execPreemptionRequest handle s
  | .remoteAbandon id => Sys2Proof.Machine.execRemoteAbandon id s
  | .launchAbort part => Sys2Proof.Machine.execLaunchAbort part s
  | .breakpointHit core slot group sl pc => Sys2Proof.Machine.execBreakpointHit core slot group sl pc s
  | .safeStopComplete core slot group => Sys2Proof.Machine.execSafeStopComplete core slot group s
  | .parkingTimeout core slot group => Sys2Proof.Machine.execParkingTimeout core slot group s
  | .sampleRecord core t => Sys2Proof.Machine.execSampleRecord core t s
  | .inboundRequest r => Sys2Proof.Machine.execInboundRequest r s
  | .deadLinkTimeout id => Sys2Proof.Machine.execDeadLinkTimeout id s
  | .portTrained port => Sys2Proof.Machine.execPortTrained port s
  | .keyGraceExpiry part idx => Sys2Proof.Machine.execKeyGraceExpiry part idx s
  | .boot b => Sys2Proof.Machine.execBoot b s
  | .reset => Sys2Proof.Machine.execReset s
  | .alarm => Sys2Proof.Machine.execAlarm s
  | .powerRemoval => Sys2Proof.Machine.execPowerRemoval s
  | .supplySag x => Sys2Proof.Machine.execSupplySag x s
  | .stretchEnd => Sys2Proof.Machine.execStretchEnd s
  | .thermalThrottle steps => Sys2Proof.Machine.execThermalThrottle steps s
  | .thermtrip => Sys2Proof.Machine.execThermtrip s
  | .portDown port => Sys2Proof.Machine.execPortDown port s
  | .packetRetransmit id port => Sys2Proof.Machine.execPacketRetransmit id port s
  | .thermalRecovery => Sys2Proof.Machine.execThermalRecovery s
  | .thermtripClear => Sys2Proof.Machine.execThermtripClear s
  | .firmwareModeLoad image => Sys2Proof.Machine.execFirmwareModeLoad image s

end Sys2Proof.Machine
end

