-- ==== Sys2Proof/Machine/Turns.lean ====
section
/-! DEFINITION. Whose move is next (log 1): the choice of issue slots (R172 to R176, R359, R360), the issue of a slot with its stop
at a safe point (R104, R397 to R400), and the end of a clk. -/

namespace Sys2Proof.Machine
open Sys2Proof

/-! ### Candidates (R172, R173) -/

/-- A candidate slot as R173 orders it. -/
structure Cands where
  pc : Word
  wait : Nat
  lowered : Bool
  lanes : Nat
deriving DecidableEq, Repr

/-- The order of R173. -/
def Cands.before (a b : Cands) : Bool :=
  let starved (c : Cands) : Bool := decide (256 ≤ c.wait)
  if starved a ≠ starved b then starved a
  else if starved a ∧ a.wait ≠ b.wait then decide (b.wait < a.wait)
  else if a.lowered ≠ b.lowered then b.lowered
  else decide (b.lanes < a.lanes ∨ (a.lanes = b.lanes ∧ a.pc.toNat ≤ b.pc.toNat))

/-- The instruction uses the matrix engine (R360). -/
def usesEngine (i : Instr) : Bool := decide (majorOf i = 0x78 ∨ majorOf i = 0x79)

/-- The instruction uses the cross-lane network (R360). -/
def usesNetwork (i : Instr) : Bool := decide (0x40 ≤ majorOf i ∧ majorOf i ≤ 0x47)

/-- The instruction lacks a resource that the state holds (R360): the matrix engine, with its rendezvous complete, a place in a copy
channel or in the collective engine, or a place among a lane's waiting stores. -/
def Ctx.lacksResource (c : Ctx) (i : Instr) : Bool :=
  match i with
  | .copyAsync _ => decide (c.act ≠ [] ∧ c.enterFree c.st = 0)
  | .collRs _ | .collAg _ => decide (c.act ≠ []) && c.st.collFull c.core
  | .st _ | .stSp _ => fromQ13 c.f && c.act.any fun l => decide (64 ≤ c.st.waitingStores (c.own l))
  | _ => usesEngine i && (c.gather false).2 && !c.st.engineIdle c.core

/-- The next instruction of a slot is not stalled on a queue, on a lookahead wait or on a resource (R172). Pipes and ports that the
state does not hold are busy as the turn says. -/
def State.isCand (s : State) (place g : Nat) (sl : Slice) (busy : List Nat) (pc : Word) : Bool :=
  decide (pc.toNat ∉ busy) &&
  match s.slotCtx place g sl pc with
  | none => true
  | some (i, c) => c.trapsFirst i || !(c.awaits i || c.onQueue i || c.lacksResource i)

/-- A slot that is passed over because it lacks an element to pop counts as loss of decoupling all the same (R210). -/
def State.passOver (s : State) (place g : Nat) (sl : Slice) (pc : Word) : State :=
  match s.slotCtx place g sl pc with
  | none => s
  | some (i, c) => if c.onQueue i then c.noteStall i else s

/-- The candidates of a half, a slot yielded in the previous clk left out unless it is the only one (R168, R173). -/
def State.candsOf (s : State) (place g : Nat) (sl : Slice) (h : Half) (w : Nat) (busy : List Nat) (pcs : List Word) : List Cands :=
  let all := (pcs.filter (s.isCand place g sl busy)).map fun pc =>
    { pc, wait := smGet 0 h.ctl.waits pc.toNat, lowered := h.lowered (h.path w pc), lanes := (h.path w pc).length : Cands }
  all.filter fun c => decide (all.length = 1 ∨ c.pc.toNat ∉ h.ctl.yielded)

/-! ### Conflicts (R359) -/

/-- The register bank of a name: four for the lanes' registers, one for the `s` file. -/
def bankOf : Name → Option Nat
  | .r n => some (n % 4)
  | .s _ => some 4
  | _ => none

def readNames (i : Instr) : List Name :=
  match row? i with
  | some (g, f) => (srcPositions g f).flatMap fun p => namesAt p.1 (decide (litBits f (srcTy i) p.1 = 64)) p.2
  | none => []

/-- Two instructions conflict (R359): over a register bank of the execute slice, over a queue that both pop or both push, or over an
engine port. -/
def conflict (sl : Slice) (i j : Instr) : Bool :=
  let inBank (k : Nat) (n : Name) : Bool := decide (bankOf n = some k)
  let reads := (readNames i ++ readNames j).eraseDups
  (decide (sl = .execute) && (List.range 5).any fun k =>
      decide (2 < (reads.filter (inBank k)).length) || ((dstNames i).any (inBank k) && (dstNames j).any (inBank k)))
    || ((popList i).any fun p => (popList j).any fun q => decide (p.1 = q.1))
    || (match pushNeed i, pushNeed j with
        | some p, some q => decide (p.1 = q.1)
        | _, _ => false)
    || (usesEngine i && usesEngine j) || (usesNetwork i && usesNetwork j)

/-- The instruction of a slot. -/
def State.slotIns (s : State) (b : Block) (sl : Slice) (pc : Word) : Option Instr :=
  match s.fetch b.kernel sl pc with
  | .ok (i, _) => some i
  | .error _ => none

/-- At most two slots in the order of R173; of two that conflict the one with the larger wait, else the lower PC. -/
def State.pickTwo (s : State) (b : Block) (sl : Slice) (cs : List Cands) : List Word :=
  match sortBy Cands.before cs with
  | x :: y :: _ =>
    match s.slotIns b sl x.pc, s.slotIns b sl y.pc with
    | some i, some j =>
      if conflict sl i j then
        [if y.wait < x.wait ∨ (x.wait = y.wait ∧ x.pc.toNat ≤ y.pc.toNat) then x.pc else y.pc]
      else [x.pc, y.pc]
    | _, _ => [x.pc, y.pc]
  | cs => cs.map (·.pc)

/-! ### Serial mode (R175) -/

/-- The lane is alone in its slot (R172). -/
def Half.alone (h : Half) (w l : Nat) : Bool := (h.liveLanes w).all fun m => decide (m = l ∨ (h.lane m).pc ≠ (h.lane l).pc)

/-- The one choice of serial mode, with the serial lane (R175). Slots with the same largest wait of at least 256 go in the order of
R173, and such a choice makes no serial lane: the model's choice (DESIGN CHOICE, log 60). -/
def serialPick (h : Half) (w : Nat) (cs : List Cands) : Option (Word × Option Nat) :=
  let can (l : Nat) : Bool := (h.lane l).ready && cs.any fun c => decide (c.pc = (h.lane l).pc)
  match sortBy Cands.before (cs.filter fun c => decide (256 ≤ c.wait)) with
  | c :: _ => some (c.pc, none)
  | [] =>
    let keeps := h.ctl.serialLane.filter fun l => can l && h.alone w l
    match keeps <|> (List.range w).find? (fun l => can l && h.alone w l) with
    | some l => some ((h.lane l).pc, some l)
    | none => ((List.range w).find? can).map fun l => ((h.lane l).pc, none)

/-! ### The choice of a clk (R173 to R175) -/

/-- What a half issues in this clk: the program counters of its slots in ascending order, and its issue control after the choice. Every
candidate counts this clk as a wait, which ends as it issues. A yield mark lasts until the half's next choice, also where the half is
not visited in the next clk (DESIGN CHOICE, log 73). -/
def State.choosing (s : State) (b : Block) (sl : Slice) (h : Half) (cs : List Cands) : List Word × Issue :=
  let serial := serialPick h b.w cs
  let picked := if h.ctl.serial then (serial.map fun p => [p.1]).getD [] else s.pickTwo b sl cs
  let waits := cs.foldl (fun m c => smPut m c.pc.toNat (c.wait + 1))
    (h.ctl.waits.filter fun e => (h.slots b.w).any fun pc => decide (pc.toNat = e.1))
  let pcs := sortBy (fun a b => decide (a.toNat ≤ b.toNat)) picked
  (pcs, { h.ctl with waits, yielded := [], serialLane := if h.ctl.serial then serial.bind (·.2) else none,
                     chosen := (pcs.drop 1).map (·.toNat), chosenAt := some s.clk })

/-- The first choice of a clk (R173): the program counter that issues, if any. A slot that has no other beside it, and nothing to
count, is chosen as it stands. -/
def State.choose (s : State) (place g : Nat) (sl : Slice) (b : Block) (busy : List Nat) : State × Option Word :=
  let h := (b.pair g).half sl
  let all (pcs : List Word) : State × Option Word :=
    let r := s.choosing b sl h (s.candsOf place g sl h b.w busy pcs)
    let s := (pcs.filter fun pc => !s.isCand place g sl [] pc).foldl (fun s pc => s.passOver place g sl pc) s
    (s.mapHalf place g sl fun h => { h with ctl := r.2 }, r.1.head?)
  match h.slots b.w with
  | [] => (s, none)
  | [pc] =>
    if h.ctl.serial ∨ h.ctl.yielded ≠ [] ∨ h.ctl.waits ≠ [] ∨ pc.toNat ∈ busy then all [pc]
    else (s.mapHalf place g sl fun h => { h with ctl := { h.ctl with serialLane := none, chosen := [], chosenAt := some s.clk } }, some pc)
  | pcs => all pcs

/-- The next slot of a half in this clk. -/
def State.nextSlot (s : State) (place g : Nat) (sl : Slice) (busy : List Nat) : State × Option Word :=
  match s.block? place with
  | none => (s, none)
  | some b =>
    let h := (b.pair g).half sl
    if h.ctl.chosenAt ≠ some s.clk then s.choose place g sl b busy
    else match h.ctl.chosen with
      | [] => (s, none)
      | n :: r => (s.mapHalf place g sl fun h => { h with ctl := { h.ctl with chosen := r } }, some (BitVec.ofNat 32 n))

/-! ### The issue of a slot -/

/-- A move: a state that follows at once, or an instruction or step that is executed in a state. -/
inductive Move
  | now (s : State)
  | run (i : Instr) (s : State)

/-- The path at the cursor is about to issue. An encoding that is not legal traps (R106). A breakpoint is tested, and then a stop at
safe points, for the lanes that issue together (R399, R397): after a rendezvous is complete, and for a team's collective by its own step. -/
def State.about (s : State) (cur : Cursor) : Move :=
  match s.block? cur.place with
  | none => .now s
  | some b =>
    let path := ((b.pair cur.group).half cur.sl).pathBut b.w cur.pc cur.skip
    if path = [] then .now s
    else match s.fetch b.kernel cur.sl cur.pc with
      | .error _ => .now (s.raiseTrap cur.place cur.group cur.sl cur.pc { code := 0x01, lane := path.headD 0xff, lanes := path })
      | .ok (i, _) =>
        let s : State := { s with cur }
        match s.begin? i with
        | none => .run i s
        | some c =>
          let a := c.arrive i
          if a.2 = [] ∨ a.1.ofTeam i then .run i s
          else
            let q := a.1.gate cur.place cur.group cur.sl cur.pc a.2
            if q.2 then .run i { q.1 with cur } else .now q.1

/-- The move of a half whose turn it is: its next slot issues its lanes that have not issued in this clk (R173). -/
def State.halfMove (s : State) (place g : Nat) (sl : Slice) (k : Choice) : Move :=
  match s.nextSlot place g sl k.busy with
  | (t, none) => .now t
  | (t, some pc) => t.about { place, group := g, sl, pc, skip := ((t.pair place g).half sl).did, late := k.late }

/-- The state after a move. -/
def Move.result : Move → State
  | .now t => t
  | .run i t => match exec i t with
    | .next u => u
    | _ => t

/-- The turn of a half. A pair that the other slice's trap has stopped in this clk does not issue, but a trap that this slice raises in
the same clk is raised too (R380). -/
def State.issueTurn (s : State) (place g : Nat) (sl : Slice) (k : Choice) : Move :=
  let p := s.pair place g
  if s.sec ≠ .run ∨ p.mayTrap s.clk sl = false then .now s
  else if p.run = .running then s.halfMove place g sl k
  else
    let t := ((s.mapPair place g fun p => { p with run := .running }).halfMove place g sl k).result
    .now (if (t.pair place g).run.isStopped then t else s)

/-! ### The end of a clk -/

/-- The live pairs, as places and groups. -/
def State.livePairs (s : State) : List (Nat × Nat) :=
  s.blocks.flatMap fun e => (e.2.pairs.filter fun q => q.2.live).map fun q => (e.1, q.1)

/-- What R148, R187, R206, R211, R397 and R398 decide at the end of a clk. -/
def State.endTests (s : State) (e : Nat × Nat) : State :=
  let s := (if (s.pair e.1 e.2).teamWait then s else s.wakeMeets e.1 e.2 .execute).wakeMeets e.1 e.2 .access
  let s := (s.safeStop e.1 e.2).parkOver e.1 e.2
  ((s.rejoin e.1 e.2 .access).rejoin e.1 e.2 .execute).decouple e.1 e.2

/-- The late accesses of a pair that is stopped, and of a lane that has exited, take their places (R377, R266). -/
def State.endLate (s : State) (e : Nat × Nat) : State :=
  match s.block? e.1 with
  | none => s
  | some b =>
    let p := b.pair e.2
    let mine (h : Late) : Bool := decide ({ h.own with lane := 0 } = b.owner e.2 0) && (p.run.isStopped || !p.acc.live h.own.lane)
    if s.lateWaits mine then s else s.settleLate mine

/-- What a pair that runs again still has to find: places of its stores and barrier waits, and reads of its remote elements (R371). -/
def State.endRetry (s : State) (e : Nat × Nat) : State :=
  match s.block? e.1 with
  | none => s
  | some b =>
    let p := b.pair e.2
    if p.run.isStopped then s
    else
      let s := (s.retryStores e.1 e.2).findWaits e.1 e.2 b
      if p.queues.any fun q => q.2.any fun x => decide (x.kind = .fab ∧ x.out = 0) then s.reread e.1 e.2 b else s

/-- Serial mode is entered or left (R174), released waiters are ready (R181), and the record of what issued in the clk ends. -/
def Half.endClk (h : Half) (w : Nat) : Half :=
  let n := h.pcCount w
  let ctl := if n ≤ 8 then (if h.ctl.serial then { h.ctl with serial := false, serialLane := none, waits := [] } else h.ctl)
    else if h.did ≠ 0 then { h.ctl with serial := true } else h.ctl
  { h with ctl, did := 0, moved := false,
           lanes := h.lanes.map fun e => (e.1, if e.2.wait = .released then { e.2 with wait := .none } else e.2) }

/-- A pair at the end of a clk: the lanes that have made their step (R400), the clks of serial mode (R404), and the rest of a pair that
has stopped in the clk (R377). -/
def Pair.endClk (p : Pair) (w clk : Nat) : Pair :=
  let k := p.counters
  let p' : Pair :=
    { p with stepped := if p.stepping then p.stepped ||| p.acc.did else p.stepped
             steppedX := if p.stepping then p.steppedX ||| p.exe.did else p.steppedX
             counters := if p.acc.ctl.serial || p.exe.ctl.serial then { k with serialClk := k.serialClk + 1 } else k
             filled := false, acc := p.acc.endClk w, exe := p.exe.endClk w }
  if p.run.isStopped ∧ p.haltAt = some clk then p'.rest else p'

def Block.endClk (b : Block) (clk : Nat) : Block :=
  { b with copied := [], pairs := b.pairs.map fun q => (q.1, if q.2.live then q.2.endClk b.w clk else q.2) }

/-- Naps that are over at this clk end (R169). -/
def Pair.wakeNaps (p : Pair) (clk : Nat) : Pair :=
  let wake (h : Half) : Half := { h with lanes := h.lanes.map fun e => (e.1, e.2.wake clk) }
  { p with acc := wake p.acc, exe := wake p.exe }

/-- What the cores do at the end of a clk: recalls, clock creep, samples, and the end of what R356 keeps from use. -/
def State.endCores (s : State) : State :=
  let s := (s.cores.map (·.1)).foldl (fun s c => ((s.settleRecalls c).creep c).noteSample c) s
  { s with cores := s.cores.map fun e => (e.1, { e.2 with freed := e.2.freed.filter fun x => decide (s.clk < x.1) }) }

/-- A packet ages from the clk in which it becomes its queue's head (R348). -/
def State.stampHeads (s : State) : State :=
  { s with packets := s.packets.map fun p =>
      match s.headOf p.queue with
      | some h => if h.idx = p.idx then p else { p with takenAt := s.clk }
      | none => p }

/-- The end of a clk. -/
def State.tick (s : State) : State :=
  if s.sec ≠ .run then { s.sagClk.stretchOver with clk := s.clk + 1 }
  else
    let ps := s.livePairs
    let s := ps.foldl State.endTests s
    let s := ps.foldl (fun s e => (s.tickTimer e.1 e.2 .access).tickTimer e.1 e.2 .execute) s
    let s := ps.foldl (fun s e => s.watchdogs e.1 e.2) s
    let s := ps.foldl (fun s e => (s.endLate e).endRetry e) s
    let s : State := { s with blocks := s.blocks.map fun e => (e.1, e.2.endClk s.clk) }
    let s := s.collTimeouts.tellColls.settlePackets.settleHalts.sendReleased.endRemotes.endCores.stampHeads
    let clk := s.clk + 1
    State.stretchOver { s.sagClk with clk, oldKeys := s.oldKeys.filter fun k => decide (clk < k.until_), blocks := s.blocks.map fun e =>
      (e.1, { e.2 with pairs := e.2.pairs.map fun q => (q.1, q.2.wakeNaps clk) }) }

/-! ### Moves -/

/-- The row of the table has no encoding: a step of an agent, not an instruction. -/
def isStep (i : Instr) : Bool := (sig? i).isNone && (base? i).isNone

/-- The steps that act while the cores, engines and ports are held in reset (R429, R430): those of supply, sensors and pins. -/
def isPower : Instr → Bool
  | .boot _ | .reset | .alarm | .powerRemoval | .supplySag _ | .stretchEnd | .thermalThrottle _ | .thermtrip | .thermalRecovery
  | .thermtripClear => true
  | _ => false

/-- The step of the table that a sensor's temperature calls for (R436). -/
def State.thermalStep (s : State) (r : Reading) (steps : Nat) : Instr :=
  if sensorTrip r.sensor ≤ r.temp then .thermtrip
  else if s.heats.any fun h => decide (h.sensor = r.sensor) && h.trips then .thermtripClear
  else if sensorLimit r.sensor < r.temp then .thermalThrottle steps
  else if r.temp ≤ sensorLimit r.sensor - 3000 then .thermalRecovery
  else .thermtripClear

/-- A cached translation leaves a TLB (R369), or a core's leases leave its L1 (R267). -/
def State.evict (s : State) (n : Nat) : State :=
  if n < s.tlb.length then { s with tlb := s.tlb.eraseIdx n } else s.mapCore (n - s.tlb.length) fun k => { k with leases := [] }

/-- The next move: the first turn of the agenda, or the end of the clk. -/
def State.move (s : State) : Move :=
  match s.agenda with
  | [] => .now s.tick
  | t :: r =>
    let s : State := { s with agenda := r }
    match t with
    | .tick => .now s.tick
    | .issue core slot g sl k => s.issueTurn (placeOf core slot) g sl k
    | .place id => .now (if s.sec = .run then s.placeTurn id else s)
    | .collective id cs => .now (if s.sec = .run then s.collTurn id cs else s)
    | .event i => if isStep i && (decide (s.sec = .run) || isPower i) then .run i s else .now s
    | .evict n => .now (if s.sec = .run then s.evict n else s)
    | .equinox pa bs => .now (s.equinoxWrite pa bs)
    | .pins pwrokN resetN => .run .reset (s.setPins pwrokN resetN)
    | .sensor r steps => .run (s.thermalStep r steps) { s with reading := some r }

/-! ### A machine about to fetch given bits -/

/-- A partition that owns cluster 0, granule 0 and a code area in granule 1. -/
def probePart : PartRec := { part := 0, valid := true, clusters := 1, ways := 1, memmap := [0], codefirst := 1, codecnt := 1 }

/-- Where the words are stored: past the descriptors of the code area (R118). -/
def probeBase : Nat := 2 ^ 30 + 2 ^ 23

/-- A kernel whose sections both begin with the words (R119). -/
def probeKernel (n : Nat) : Kernel :=
  { kd := 2 ^ 30, decl := { ny := 128, ureg := 64, tiles := 8, lanes := 8, nx := 128, scratch := 4096, depths := List.replicate 16 16 },
    abase := probeBase, asize := n, xbase := probeBase, xsize := n }

def probeHalf : Half := { lanes := (List.range 8).map fun l => (l, { life := .live }) }

/-- A resident block of one group pair, its lanes at offset 0 of both sections. -/
def probeBlock (n : Nat) : Block :=
  { kernel := probeKernel n, pairs := [(0, { live := true, acc := probeHalf, exe := probeHalf })] }

/-- The state with an instruction's words in a code section, a block at its start, and the turn of the slice that takes it. -/
def placeWords (s : State) (nbits w : Nat) : State :=
  let bs := bytesOfWords (tableWords nbits w)
  let sl : Slice := ((tableDecode nbits w).map (·.1)).getD .access
  { s with sec := .run, parts := smPut s.parts 0 probePart, blocks := smPut s.blocks 0 (probeBlock bs.length),
           mem := s.mem.write probeBase bs, agenda := .issue 0 0 0 sl {} :: s.agenda }

end Sys2Proof.Machine
end

