-- ==== Sys2Proof/Machine/Step.lean ====
section
/-! DEFINITION. One step of the machine: its next move, executed. -/

namespace Sys2Proof.Machine
open Sys2Proof

/-- One step (log 1): the next move of the agenda, or the end of a clk. -/
def step (s : State) : Host.Outcome State Fault Refusal :=
  match s.move with
  | .now t => .next t
  | .run i t => exec i t

/-- The state in which step fetches the given bits next (log 12). -/
def State.withFetchWord (s : State) (nbits w : Nat) : State := placeWords s nbits w

end Sys2Proof.Machine
end

