-- ==== Sys2Proof/Safety.lean ====
section
/-! DEFINITION. The terms of the claims: when an instruction issues with nothing in its way, what an issue leaves alone, and
what it leaves in registers, predicates and queues. -/

namespace Sys2Proof.Machine
open Sys2Proof

/-! ### Issues with nothing in their way (R97, R99) -/

/-- None of the checks and waits that precede the instruction's own part applies: the encoding is legal in the slice (R106),
no window is broken (R102), no result is awaited or has failed (R101, R103, R197), every element to pop is there, filled, no
token and not to be read again (R97, R214), every push has room, and no late access of an active lane is still to be placed before
the issue (R266, log 1). -/
def Ctx.clear (c : Ctx) (i : Instr) : Bool :=
  legal c.sl i && (c.violation i).isNone && (c.resultError i).isNone && !((c.waitIds i).any fun p => c.st.awaited p.2)
    && (c.deadPop i).isNone && !c.lacksPop i && (c.tokenTrap i).isNone && !c.lacksPush i
    && (c.toReplay (popList i)).isEmpty && !c.st.late.any (c.lateBefore i)

/-- The instruction issues for the cursor's path, with nothing in its way, in a group of at most 64 lanes (R19). -/
def Clear (i : Instr) (s : State) (c : Ctx) : Prop := s.begin? i = some c ∧ c.clear i = true ∧ c.w ≤ 64

/-- The path reaches a rendezvous that is full for some of its lanes (R148, R239), and from the state after it the
instruction issues with nothing in its way. -/
def Meets (quad : Bool) (i : Instr) (s : State) (c : Ctx) : Prop :=
  ∃ c0, s.begin? i = some c0 ∧ legal c0.sl i = true ∧ (c0.gather quad).2 = true ∧ Clear i (c0.gather quad).1 c

/-- A 64-bit destination is named by an even register (R41); the loader refuses any other image. -/
def Ctx.evenDst (c : Ctx) (wide : Bool) : Prop :=
  match c.f.dst with
  | .reg n => wide = true → n.toNat % 2 = 0
  | _ => True

/-! ### What an issue leaves alone -/

/-- Everything of the machine outside the pair is as it was, but for records and samples of the core (R383, R403). -/
structure Kept (c : Ctx) (t : State) : Prop where
  rest : ({ t with blocks := [], cores := [] } : State) = { c.st with blocks := [], cores := [] }
  others : ∀ p, p ≠ c.place → t.block? p = c.st.block? p
  block : (t.block? c.place).map (fun b => { b with pairs := [] }) = some { c.blk with pairs := [] }
  groups : ∀ g, g ≠ c.group → t.pair c.place g = c.blk.pair g
  cores : ∀ k, k ≠ c.core → t.core k = c.st.core k
  core : ({ t.core c.core with recs := [], sampleCount := 0, sample := none } : Core)
    = { c.st.core c.core with recs := [], sampleCount := 0, sample := none }

/-- The same of an instruction that acts on more than its pair: what the two functions drop of the state and of the issuing
core is left open. -/
structure KeptBut (c : Ctx) (drop : State → State) (dropCore : Core → Core) (t : State) : Prop where
  rest : ({ drop t with blocks := [], cores := [] } : State) = { drop c.st with blocks := [], cores := [] }
  others : ∀ p, p ≠ c.place → t.block? p = c.st.block? p
  block : (t.block? c.place).map (fun b => { b with pairs := [] }) = some { c.blk with pairs := [] }
  groups : ∀ g, g ≠ c.group → t.pair c.place g = c.blk.pair g
  cores : ∀ k, k ≠ c.core → t.core k = c.st.core k
  core : ({ dropCore (t.core c.core) with recs := [], sampleCount := 0, sample := none } : Core)
    = { dropCore (c.st.core c.core) with recs := [], sampleCount := 0, sample := none }

/-- The half that issued, in a later state. -/
def Ctx.halfIn (c : Ctx) (t : State) : Half := (t.pair c.place c.group).half c.sl

/-- The lanes agree in program counter, state, call depth, wait and service calls. -/
def Lane.standsAs (x y : Lane) : Prop :=
  x.pc = y.pc ∧ x.life = y.life ∧ x.depth = y.depth ∧ x.wait = y.wait ∧ x.calls = y.calls

/-- Of the pair, only the issuing half, the queues and the counters change; each lane of the path has the program counter,
state, call depth and wait of the given lane, and every lane off the path is as it was (R97). -/
structure Moved (c : Ctx) (lane : Nat → Lane) (t : State) : Prop where
  pair : ({ t.pair c.place c.group with acc := {}, exe := {}, queues := [], lodSince := [], counters := {} } : Pair)
    = { c.pair with acc := {}, exe := {}, queues := [], lodSince := [], counters := {} }
  other : (t.pair c.place c.group).half (Slice.other c.sl) = c.pair.half (Slice.other c.sl)
  onPath : ∀ l ∈ c.path, ((c.halfIn t).lane l).standsAs (lane l)
  offPath : ∀ l, l ∉ c.path → (c.halfIn t).lane l = c.half.lane l

/-- A lane that goes on past the instruction. -/
def Ctx.next (c : Ctx) (l : Nat) : Lane := { c.half.lane l with pc := (c.half.lane l).pc + BitVec.ofNat 32 c.len }

/-- The path's lanes go on past the instruction (R97). -/
abbrev Advanced (c : Ctx) (t : State) : Prop := Moved c c.next t

/-- Rejoin sets of the half and its timer are as they were, and `%collstat` holds the given mask. -/
def Ctx.setsAnd (c : Ctx) (mask : DWord) (t : State) : Prop :=
  (c.halfIn t).sets = c.half.sets ∧ (c.halfIn t).collstat = mask ∧ (c.halfIn t).timer = c.half.timer
/-- Rejoin sets and `%collstat` of the half, and its timer, are as they were. -/
def Ctx.setsKept (c : Ctx) (t : State) : Prop := c.setsAnd c.half.collstat t

/-- Every per-lane register is as it was. -/
def Ctx.regsKept (c : Ctx) (t : State) : Prop := ∀ l n, (c.halfIn t).reg l n = c.half.reg l n
/-- Every uniform register is as it was. -/
def Ctx.uniKept (c : Ctx) (t : State) : Prop := ∀ n, (c.halfIn t).ureg n = c.half.ureg n
/-- Every predicate is as it was. -/
def Ctx.predsKept (c : Ctx) (t : State) : Prop := ∀ l n, ((c.halfIn t).lane l).pred n = (c.half.lane l).pred n

/-! ### Queues (R46 to R49) -/

/-- What an issue leaves of a lane's sequence before any push: the popped elements are gone. -/
def Ctx.left (c : Ctx) (i : Instr) (q l : Nat) : List Elem :=
  if l ∈ c.act then (popList i).foldl (fun es p => if p.1 = q then es.drop p.2 else es) (c.pair.queue q l) else c.pair.queue q l

/-- Every sequence loses what the instruction pops, and nothing else of the queues changes. -/
def Ctx.popsOnly (c : Ctx) (i : Instr) (t : State) : Prop :=
  ∀ q l, l < 64 → (t.pair c.place c.group).queue q l = c.left i q l

/-- Nothing changes in registers, predicates, sets and queues but the popped elements. -/
def Ctx.quiet (c : Ctx) (i : Instr) (t : State) : Prop :=
  c.setsKept t ∧ c.regsKept t ∧ c.uniKept t ∧ c.predsKept t ∧ c.popsOnly i t

/-- A push is discarded (R49): the lane has exited the consumer's slice, and no store of the lane still waits for the element. -/
def Ctx.lost (c : Ctx) (i : Instr) (q l : Nat) : Bool :=
  !(c.pair.half (consumer q)).live l
    && (decide (q ≠ 13) || decide (c.st.heldNeed (c.own l) ≤ (c.left i q l).length))

/-- The lanes of the path come to stand as given, and every other lane is as it was. -/
structure Goes (c : Ctx) (lane : Nat → Lane) (t : State) : Prop where
  onPath : ∀ l ∈ c.path, ((c.halfIn t).lane l).standsAs (lane l)
  offPath : ∀ l, l ∉ c.path → (c.halfIn t).lane l = c.half.lane l

/-- What an issue of an instruction with an effect of its own keeps of the half: registers, uniform registers, predicates and
`%collstat`; of the queues only the popped elements go. -/
def Ctx.valuesKept (c : Ctx) (i : Instr) (t : State) : Prop :=
  c.regsKept t ∧ c.uniKept t ∧ c.predsKept t ∧ c.popsOnly i t ∧ (c.halfIn t).collstat = c.half.collstat

/-- What a rejoin set becomes when lanes leave it, with the release test; a faulted set only loses them (R45, R180, R181). -/
def JSet.without (j : JSet) (m : DWord) : JSet :=
  let left := j.members &&& ~~~m
  if j.members &&& m = 0 then j
  else if j.state = jFaulted then { j with members := left, waiters := j.waiters &&& ~~~m }
  else if left ≠ 0 ∧ j.waiters &&& ~~~m = left then { j with members := left, waiters := 0, state := jArmed }
  else { j with members := left, waiters := j.waiters &&& ~~~m, state := if left = 0 then jEmpty else j.state }

/-- The lanes that the set releases when lanes leave it. -/
def JSet.freed (j : JSet) (m : DWord) : DWord :=
  if j.state ≠ jFaulted ∧ j.members &&& m ≠ 0 ∧ j.members &&& ~~~m ≠ 0 ∧ j.waiters &&& ~~~m = j.members &&& ~~~m then j.members &&& ~~~m else 0

/-- The end of an issue: the spin detector and the sample of the instruction (R289, R403). -/
def Ctx.finish (c : Ctx) (i : Instr) (u : State) : State := c.sample i (c.watch i u)

/-! ### Results (R97, R41 to R43) -/

/-- In each active lane the destination has received the lane's value; nothing else of registers and queues has changed but
what the instruction pops. -/
def Ctx.wrote (c : Ctx) (i : Instr) (wide : Bool) (v : Nat → DWord) (t : State) : Prop :=
  c.predsKept t ∧
  match c.f.dst with
  | .reg n =>
    (∀ l ∈ c.act, if wide then (c.halfIn t).reg64 l n.toNat = v l else (c.halfIn t).reg l n.toNat = lo32 (v l))
    ∧ (∀ l k, k < 128 → ¬ (l ∈ c.act ∧ (k = n.toNat ∨ (wide = true ∧ k = n.toNat + 1))) → (c.halfIn t).reg l k = c.half.reg l k)
    ∧ c.uniKept t ∧ c.popsOnly i t
  | .uni n =>
    (∀ l ∈ c.act.head?, if wide then (c.halfIn t).ureg64 n.toNat = v l else (c.halfIn t).ureg n.toNat = lo32 (v l))
    ∧ (∀ k, ¬ (c.act ≠ [] ∧ (k = n.toNat ∨ (wide = true ∧ k = n.toNat + 1))) → (c.halfIn t).ureg k = c.half.ureg k)
    ∧ c.regsKept t ∧ c.popsOnly i t
  | .queue n =>
    (∀ q l, l < 64 → (t.pair c.place c.group).queue q l
      = c.left i q l ++ if q = n.toNat ∧ l ∈ c.act ∧ c.lost i q l = false then elemsOf wide (v l) else [])
    ∧ c.regsKept t ∧ c.uniKept t
  | _ => c.regsKept t ∧ c.uniKept t ∧ c.popsOnly i t

/-- In each active lane the destination predicate has received the lane's value; a write to `p0` is discarded (R42). -/
def Ctx.wrotePred (c : Ctx) (i : Instr) (n : BitVec 7) (v : Nat → Bool) (t : State) : Prop :=
  (∀ l k, k < 8 → ((c.halfIn t).lane l).pred k
    = if l ∈ c.act ∧ k = n.toNat ∧ k ≠ 0 then v l else (c.half.lane l).pred k)
  ∧ c.regsKept t ∧ c.uniKept t ∧ c.popsOnly i t

/-! ### Memory accesses (R189 to R222) -/

/-- The offset of a location in the `n` bytes from another one up, if it lies there. -/
def Loc.under (x : Loc) (n : Nat) (y : Loc) : Option Nat :=
  match x, y with
  | .glob a, .glob b => if a ≤ b ∧ b < a + n then some (b - a) else none
  | .sp p a, .sp q b => if p = q ∧ a ≤ b ∧ b < a + n then some (b - a) else none
  | _, _ => none

/-- A lane's access of `n` bytes reaches a location of this device with nothing to wait for: it is aligned, it translates or
lies in a scratchpad it may name, no acquire of the lane is pending, no engine owns the line, and no uncorrectable error has
reached the bytes (R194, R195, R222, R270, R281). -/
abbrev Ctx.reaches (c : Ctx) (sp rd wr : Bool) (n l : Nat) (x : Loc) : Prop :=
  aligned (c.addr sp l).toNat n = true ∧ c.loc sp (c.xlates rd wr) n l = some x ∧ (sp = true ∨ inFabric (c.gaddr l) = false)
    ∧ c.st.acquiring (c.own l) = false ∧ c.st.ownedOver none x n = false ∧ c.st.errIn x n = none

/-- The same for a write: no stream has captured the lane (R205). -/
abbrev Ctx.mayWrite (c : Ctx) (sp rd wr : Bool) (n l : Nat) (x : Loc) : Prop :=
  c.reaches sp rd wr n l x ∧ c.pair.captured l = false

/-- Plain bytes: none is held by an earlier store (R206) and none belongs to a live barrier word (R225). -/
abbrev State.plain (s : State) (x : Loc) (n : Nat) : Prop :=
  s.heldOver x n = false ∧ ∀ k < n, s.tagAt (locAdd x k) = none

/-- A lane's remote access goes out: it is aligned, names a peer by its translation, and that peer may be written and read
through a port that is up; which of several it is, is left free (R199, R408, R411, log 23). Its packet carries what the peer's entry
holds now. -/
def Ctx.sends (c : Ctx) (rd wr : Bool) (n l : Nat) (t : Tlb) (port : Nat) (head : Carried) : Prop :=
  aligned (c.gaddr l).toNat n = true ∧ inFabric (c.gaddr l) = true ∧ c.xlates rd wr l = .ok t ∧ t.remote = true
    ∧ c.st.acquiring (c.own l) = false
    ∧ ∃ e, c.st.peer? c.blk.part t.peer = some e ∧ e.outOk = true
      ∧ c.st.portsTo e ≠ [] ∧ port = c.st.portFor e (c.st.fresh + c.act.idxOf l) ∧ head = c.st.headFor c.blk.part e

/-- No late access of the path's lanes is still to be placed, and none is late by this turn (R266, log 1). -/
def Ctx.prompt (c : Ctx) : Prop := ∀ l ∈ c.path, c.st.cur.late.getLsbD l = false ∧ ∀ h ∈ c.st.late, h.own ≠ c.own l

/-- The lanes' accesses of an issue, in lane order, are late: each is to take its place at its location (R266, log 1). -/
def Ctx.isLater (c : Ctx) (sp : Bool) (ls : List Nat) (op : Nat → LateOp) (x : Nat → Loc) (t : State) : Prop :=
  t.late = c.st.late ++ ls.zipIdx.map (fun p =>
      ({ id := c.st.fresh + p.2, issue := c.st.fresh, own := c.own p.1, op := op p.1, loc := x p.1, n := accBytes c.f.ty, ty := c.f.ty,
         addr := c.addr sp p.1, pc := c.pc, clears := c.clears } : Late))
    ∧ t.fresh = c.st.fresh + ls.length

/-- Reads of the readers whose bytes are not yet known. -/
def Ctx.awaitsPlace (c : Ctx) (sp : Bool) (ls : List Nat) (dst : Dest) (t : State) : Prop :=
  t.outs = c.st.outs ++ ls.zipIdx.map (fun p =>
    ({ id := c.st.fresh + p.2, own := c.own p.1, dst, ty := c.f.ty,
       bytes := List.replicate (accBytes c.f.ty) (.held (c.st.fresh + p.2) 0), addr := c.addr sp p.1, pc := c.pc } : Out))

/-- It is the turn of a late access of this device to take its place: none of its lane or of its issue stands before it, and no engine
owns its line (R265, R270). -/
def State.placesNext (s : State) (pre : List Late) (h : Late) (post : List Late) : Prop :=
  s.sec = .run ∧ s.agenda.head? = some (.place h.id) ∧ s.late = pre ++ h :: post
    ∧ (∀ x ∈ pre, x.id ≠ h.id ∧ x.own ≠ h.own ∧ x.issue ≠ h.issue) ∧ (∀ x ∈ post, x.id ≠ h.id)
    ∧ s.ownedOver none h.loc h.n = false ∧ s.errIn h.loc h.n = none

/-- Reads of the readers are on the way, in lane order, with the bytes that stand at their locations or the held stores that
will supply them (R196, R265). -/
def Ctx.onTheWay (c : Ctx) (sp : Bool) (x : Nat → Loc) (t : State) : Prop :=
  t.outs = c.st.outs ++ c.readers.zipIdx.map (fun p =>
      ({ id := c.st.fresh + p.2, own := c.own p.1, dst := destOf c.f.dst, ty := c.f.ty,
         bytes := c.st.capture (x p.1) (accBytes c.f.ty), addr := c.addr sp p.1, pc := c.pc } : Out))
    ∧ t.fresh = c.st.fresh + c.readers.length

/-- The destinations of reads: reserved elements at the tail of the lanes' sequences (R196), or registers that an open window of
the lane holds back (R101). -/
def Ctx.pending (c : Ctx) (i : Instr) (sp : Bool) (t : State) : Prop :=
  match c.f.dst with
  | .queue q => ∀ r l, l < 64 → (t.pair c.place c.group).queue r l = c.left i r l
      ++ if r = q.toNat ∧ l ∈ c.act ∧ c.lost i r l = false
         then reserved .load (c.st.fresh + c.act.idxOf l) c.f.ty (c.addr sp l) else []
  | .reg _ => c.popsOnly i t
      ∧ ∀ l ∈ c.act, ∃ w ∈ ((c.halfIn t).lane l).wins, w.out = c.st.fresh + c.act.idxOf l
  | _ => c.popsOnly i t ∧ (c.act ≠ [] → ∀ l ∈ c.path, ∃ w ∈ ((c.halfIn t).lane l).wins, w.out = c.st.fresh)

/-- A read leaves memory and the rest alone but for logical time, the core's line requests and the accesses on their way (R267). -/
def ReadKept (c : Ctx) (t : State) : Prop :=
  KeptBut c (fun s => { s with outs := [], fresh := 0, lines := [] })
    (fun k => { k with ts := 0, leases := [], granted := [], requests := [] }) t

/-- The context of an issue after the replay of reported tokens (R214). -/
def Ctx.replayed (c : Ctx) (i : Instr) : Ctx :=
  { c with st := c.replay (popList i), blk := ((c.replay (popList i)).block? c.place).getD c.blk }

/-- The instruction comes to its own part, completes there, and the issue ends. -/
def Completes (i : Instr) (s : State) (c : Ctx) (own : Act) : Prop := ∃ u, own = .done u ∧ exec i s = .next (c.finish i u)

/-! ### Operands as the rules of the manual read them (R121, R125) -/

/-- The bits of an operand of the instruction's type. -/
def Ctx.bv (c : Ctx) (o : Operand) (l : Nat) : BitVec (tyWidth c.f.ty) := (c.src c.f.ty o l).setWidth _

/-- An operand as the integer that its type makes of its bits. -/
def Ctx.asInt (c : Ctx) (o : Operand) (l : Nat) : Int := if isSigned c.f.ty then (c.bv o l).toInt else (c.bv o l).toNat

/-- Bits as the 64-bit value that a destination receives. -/
def ofBits {w : Nat} (x : BitVec w) : DWord := x.setWidth 64

/-- An integer mod 2^w. -/
def Ctx.wrapped (c : Ctx) (x : Int) : DWord := ofBits (BitVec.ofInt (tyWidth c.f.ty) x)

/-- An integer limited to the range of the instruction's type. -/
def Ctx.limited (c : Ctx) (x : Int) : Int :=
  if isSigned c.f.ty then max (-2 ^ (tyWidth c.f.ty - 1)) (min (2 ^ (tyWidth c.f.ty - 1) - 1) x)
  else max 0 (min (2 ^ tyWidth c.f.ty - 1) x)

/-- An integer result: limited under `.sat`, otherwise mod 2^w (R126). -/
def Ctx.result (c : Ctx) (x : Int) : DWord := c.wrapped (if c.f.sat then c.limited x else x)

/-! ### Held in reset (R429, R430) -/

/-- The device does not run: everything is as at reset but what a reset and Frost keep, the pins, what the sensors and supplies show, the clk and the model's own
fields; in Frost the key store and M are zero and the alarm output is asserted. -/
structure State.idle (s : State) : Prop where
  held : s.sec ≠ .run
  same : s = { State.reset with
    agenda := s.agenda, cur := s.cur, fresh := s.fresh, clk := s.clk, sec := s.sec, measure := s.measure, kkeys := s.kkeys,
    tkeys := s.tkeys, oldKeys := s.oldKeys, idErased := s.idErased, alarm := s.alarm, pwrokN := s.pwrokN, resetN := s.resetN,
    sags := s.sags, heats := s.heats, reading := s.reading }
  frost : s.sec = .frost → s.alarm = true ∧ s.idErased = true ∧ s.measure = List.replicate 64 0 ∧ s.kkeys = [] ∧ s.tkeys = []
    ∧ s.oldKeys = []

/-! ### Completion: the next state that an instruction's own effect gives -/

/-- The instruction completes and writes a value in each active lane; of everything else only the path's program counters and
the popped elements change. -/
def Yields (i : Instr) (wide : Ctx → Bool) (v : Ctx → Nat → DWord) : Prop :=
  ∀ s c, Clear i s c → c.evenDst (wide c) →
    ∃ t, exec i s = .next t ∧ Kept c t ∧ Advanced c t ∧ c.setsKept t ∧ c.wrote i (wide c) (v c) t

/-- The instruction completes and writes a predicate in each active lane. -/
def YieldsPred (i : Instr) (v : Ctx → Nat → Bool) : Prop :=
  ∀ s c n, Clear i s c → c.f.dst = .reg n →
    ∃ t, exec i s = .next t ∧ Kept c t ∧ Advanced c t ∧ c.setsKept t ∧ c.wrotePred i n (v c) t

/-- After its rendezvous a quad instruction completes and writes a value in each active lane (R148). -/
def YieldsQuad (i : Instr) (v : Ctx → Nat → DWord) : Prop :=
  ∀ s c, Meets true i s c → c.evenDst (isWide c.f.ty) →
    ∃ t, exec i s = .next t ∧ Kept c t ∧ Advanced c t ∧ c.setsKept t ∧ c.wrote i (isWide c.f.ty) (v c) t

/-- After its rendezvous a group instruction completes, writes a value in each active lane, and leaves a mask in `%collstat`
(R148, R156). -/
def YieldsGroup (i : Instr) (wide : Ctx → Bool) (v : Ctx → Nat → DWord) (mask : Ctx → DWord) : Prop :=
  ∀ s c, Meets false i s c → c.evenDst (wide c) →
    ∃ t, exec i s = .next t ∧ Kept c t ∧ Advanced c t ∧ c.setsAnd (mask c) t ∧ c.wrote i (wide c) (v c) t

/-- The same for a predicate result. -/
def YieldsVote (i : Instr) (v : Ctx → Bool) (mask : Ctx → DWord) : Prop :=
  ∀ s c n, Meets false i s c → c.f.dst = .reg n →
    ∃ t, exec i s = .next t ∧ Kept c t ∧ Advanced c t ∧ c.setsAnd (mask c) t ∧ c.wrotePred i n (fun _ => v c) t

end Sys2Proof.Machine
end

