-- ==== Sys2Proof/Certificates/Slice0/Obligations.lean ====
section
/-! DEFINITION. The statements about the model, each formalising rules of the manual. -/

open Sys2Proof Sys2Proof.Machine

/-! ### Integer and logic instructions (R125 to R132) -/

/-- R126: the sum, difference, products, absolute value and negation, limited under `.sat` and otherwise mod 2^w; the upper half
of the exact product; the smaller and the larger operand. -/
def Obligations.IntegerArithmetic : Prop :=
  let wide (c : Ctx) : Bool := isWide c.f.ty
  let sum (c : Ctx) (l : Nat) : DWord := c.result (c.asInt c.f.a l + c.asInt c.f.b l)
  let diff (c : Ctx) (l : Nat) : DWord := c.result (c.asInt c.f.a l - c.asInt c.f.b l)
  let mag (c : Ctx) (l : Nat) : DWord := c.result (c.asInt c.f.a l).natAbs
  let minus (c : Ctx) (l : Nat) : DWord := c.result (- c.asInt c.f.a l)
  let least (c : Ctx) (l : Nat) : DWord := ofBits (if c.asInt c.f.a l ≤ c.asInt c.f.b l then c.bv c.f.a l else c.bv c.f.b l)
  let most (c : Ctx) (l : Nat) : DWord := ofBits (if c.asInt c.f.b l ≤ c.asInt c.f.a l then c.bv c.f.a l else c.bv c.f.b l)
  (∀ f, Yields (.add f) wide sum) ∧ (∀ f, Yields (.addBase f) wide sum)
  ∧ (∀ f, Yields (.sub f) wide diff) ∧ (∀ f, Yields (.subBase f) wide diff)
  ∧ (∀ f, Yields (.mulLo f) wide fun c l => ofBits (c.bv c.f.a l * c.bv c.f.b l))
  ∧ (∀ f, Yields (.mad f) wide fun c l => c.result (c.asInt c.f.a l * c.asInt c.f.b l + c.asInt c.f.c l))
  ∧ (∀ f, Yields (.abs f) wide mag) ∧ (∀ f, Yields (.absBase f) wide mag)
  ∧ (∀ f, Yields (.neg f) wide minus) ∧ (∀ f, Yields (.negBase f) wide minus)
  ∧ (∀ f, Yields (.mulHi f) wide fun c l => c.wrapped (c.asInt c.f.a l * c.asInt c.f.b l / 2 ^ tyWidth c.f.ty))
  ∧ (∀ f, Yields (.min f) wide least) ∧ (∀ f, Yields (.minBase f) wide least)
  ∧ (∀ f, Yields (.max f) wide most) ∧ (∀ f, Yields (.maxBase f) wide most)

/-- R127: bitwise operations and shifts; a shift by w or more leaves zeros, or the sign bit everywhere for `sar`. -/
def Obligations.LogicAndShifts : Prop :=
  let wide (c : Ctx) : Bool := isWide c.f.ty
  let and_ (c : Ctx) (l : Nat) : DWord := ofBits (c.bv c.f.a l &&& c.bv c.f.b l)
  let or_ (c : Ctx) (l : Nat) : DWord := ofBits (c.bv c.f.a l ||| c.bv c.f.b l)
  let xor_ (c : Ctx) (l : Nat) : DWord := ofBits (c.bv c.f.a l ^^^ c.bv c.f.b l)
  let not_ (c : Ctx) (l : Nat) : DWord := ofBits (~~~ c.bv c.f.a l)
  let count (c : Ctx) (l : Nat) : Nat := (c.src .b32 c.f.b l).toNat
  let left (c : Ctx) (l : Nat) : DWord := ofBits (c.bv c.f.a l <<< count c l)
  let right (c : Ctx) (l : Nat) : DWord := ofBits (c.bv c.f.a l >>> count c l)
  let signed (c : Ctx) (l : Nat) : DWord := ofBits ((c.bv c.f.a l).sshiftRight (count c l))
  (∀ f, Yields (.and f) wide and_) ∧ (∀ f, Yields (.andBase f) wide and_)
  ∧ (∀ f, Yields (.or f) wide or_) ∧ (∀ f, Yields (.orBase f) wide or_)
  ∧ (∀ f, Yields (.xor f) wide xor_) ∧ (∀ f, Yields (.xorBase f) wide xor_)
  ∧ (∀ f, Yields (.not f) wide not_) ∧ (∀ f, Yields (.notBase f) wide not_)
  ∧ (∀ f, Yields (.shl f) wide left) ∧ (∀ f, Yields (.shlBase f) wide left)
  ∧ (∀ f, Yields (.shr f) wide right) ∧ (∀ f, Yields (.shrBase f) wide right)
  ∧ (∀ f, Yields (.sar f) wide signed) ∧ (∀ f, Yields (.sarBase f) wide signed)

/-- R128, R129, R130, R132: counts of bits, reversal, selection and moves; a field taken out of a, sign-extended for signed
types, and the low bits of a put into a field of b. -/
def Obligations.CountsFieldsAndMoves : Prop :=
  (let wide (c : Ctx) : Bool := isWide c.f.ty
   let narrow (_ : Ctx) : Bool := false
   let ones (c : Ctx) (l : Nat) : DWord :=
     BitVec.ofNat 64 ((List.range (tyWidth c.f.ty)).countP fun k => (c.bv c.f.a l).getLsbD k)
   let zeros (c : Ctx) (l : Nat) : DWord :=
     BitVec.ofNat 64 ((List.range (tyWidth c.f.ty)).takeWhile fun k => !(c.bv c.f.a l).getMsbD k).length
   let rev (c : Ctx) (l : Nat) : DWord := ofBits (c.bv c.f.a l).reverse
   let move (c : Ctx) (l : Nat) : DWord := ofBits (c.bv c.f.a l)
   (∀ f, Yields (.popc f) narrow ones) ∧ (∀ f, Yields (.popcBase f) narrow ones)
   ∧ (∀ f, Yields (.clz f) narrow zeros) ∧ (∀ f, Yields (.clzBase f) narrow zeros)
   ∧ (∀ f, Yields (.brev f) wide rev) ∧ (∀ f, Yields (.brevBase f) wide rev)
   ∧ (∀ f, Yields (.sel f) wide fun c l => ofBits (if c.predSrc c.f.c l then c.bv c.f.a l else c.bv c.f.b l))
   ∧ (∀ f, Yields (.mov f) wide move) ∧ (∀ f, Yields (.movBase f) wide move))
  ∧ (let wide (c : Ctx) : Bool := isWide c.f.ty
     (∀ f, Yields (.bfx f) wide fun c l =>
       let len := (c.src .b32 c.f.c l).toNat % 256
       let part : Int := c.asInt c.f.a l / 2 ^ ((c.src .b32 c.f.b l).toNat % 256)
       let low : Int := part % 2 ^ len
       c.wrapped (if len = 0 then 0 else if tyWidth c.f.ty ≤ len then part
         else if isSigned c.f.ty ∧ 2 ^ (len - 1) ≤ low then low - 2 ^ len else low))
     ∧ (∀ f, Yields (.bfi f) wide fun c l =>
       let pos := (c.src .b32 c.f.c l).toNat % 256
       let mask : BitVec (tyWidth c.f.ty) := BitVec.ofNat _ ((2 ^ ((c.src .b32 c.f.d l).toNat % 256) - 1) * 2 ^ pos)
       ofBits ((c.bv c.f.b l &&& ~~~ mask) ||| ((c.bv c.f.a l <<< pos) &&& mask))))

/-- R131, R136, R137, R146: comparisons, classes and the operations on predicates. -/
def Obligations.PredicateResults : Prop :=
  (∀ cc f, YieldsPred (.cmp cc f) fun c l => match cc with
    | .eq => decide (c.bv c.f.a l = c.bv c.f.b l)
    | .ne => decide (c.bv c.f.a l ≠ c.bv c.f.b l)
    | .lt => decide (c.asInt c.f.a l < c.asInt c.f.b l)
    | .le => decide (c.asInt c.f.a l ≤ c.asInt c.f.b l)
    | .gt => decide (c.asInt c.f.a l > c.asInt c.f.b l)
    | .ge => decide (c.asInt c.f.a l ≥ c.asInt c.f.b l))
  ∧ (∀ cc f, YieldsPred (.fcmp cc f) fun c l =>
      let x := c.num (c.bits c.f.a l)
      let y := c.num (c.bits c.f.b l)
      let nan := decide (x = .nan ∨ y = .nan)
      match cc with
      | .eq => !nan && !ltNum x y && !ltNum y x
      | .ne => nan || ltNum x y || ltNum y x
      | .lt => !nan && ltNum x y
      | .le => !nan && !ltNum y x
      | .gt => !nan && ltNum y x
      | .ge => !nan && !ltNum x y
      | .un => nan
      | .num => !nan)
  ∧ (∀ f, YieldsPred (.fclass f) fun c l =>
      decide ((c.src .b32 c.f.b l).toNat / 2 ^ classBit (fmtOf c.f.ty) (c.bits c.f.a l) % 2 = 1))
  ∧ (∀ f, YieldsPred (.pand f) fun c l => c.predSrc c.f.a l && c.predSrc c.f.b l)
  ∧ (∀ f, YieldsPred (.por f) fun c l => c.predSrc c.f.a l || c.predSrc c.f.b l)
  ∧ (∀ f, YieldsPred (.pxor f) fun c l => xor (c.predSrc c.f.a l) (c.predSrc c.f.b l))
  ∧ (∀ f, YieldsPred (.pnot f) fun c l => !c.predSrc c.f.a l)
  ∧ (∀ f, YieldsPred (.ptest f) fun c l => decide (c.bv c.f.a l ≠ 0))

/-! ### Floating point, conversion and packed instructions (R133 to R145) -/

/-- R134, R135, R138, R140: the exact result, rounded once under the instruction's mode, then `sat`; operands and result read
subnormal codes as zeros under `.fz`; packed types act on each element. -/
def Obligations.FloatingPointResults : Prop :=
  let wide (c : Ctx) : Bool := isWide c.f.ty
  let each (c : Ctx) (l : Nat) (op : Nat → Nat → Nat → Nat) : DWord :=
    let a := c.bits c.f.a l
    let b := c.bits c.f.b l
    let d := c.bits c.f.c l
    BitVec.ofNat 64 (if c.f.ty = .bf16x2 ∨ c.f.ty = .f16x2
      then op (a % 2 ^ 16) (b % 2 ^ 16) (d % 2 ^ 16) + 2 ^ 16 * op (a / 2 ^ 16 % 2 ^ 16) (b / 2 ^ 16 % 2 ^ 16) (d / 2 ^ 16 % 2 ^ 16)
      else op a b d)
  let flush (c : Ctx) (x : Nat) : Nat := if c.f.fz then flushCode (fmtOf c.f.ty) x else x
  let val (c : Ctx) (x : Nat) : Machine.Num := decodeF (fmtOf c.f.ty) (flush c x)
  let last (c : Ctx) (x : Nat) : Nat := flush c (if c.f.sat then satF (fmtOf c.f.ty) x else x)
  let rounded (c : Ctx) (x : Machine.Num) : Nat := last c (round (fmtOf c.f.ty) c.f.rnd x)
  (∀ f, Yields (.fadd f) wide fun c l => each c l fun a b _ => rounded c (addNum c.f.rnd (val c a) (val c b)))
  ∧ (∀ f, Yields (.fsub f) wide fun c l => each c l fun a b _ => rounded c (addNum c.f.rnd (val c a) (val c b).neg))
  ∧ (∀ f, Yields (.fmul f) wide fun c l => each c l fun a b _ => rounded c (mulNum (val c a) (val c b)))
  ∧ (∀ f, Yields (.fma f) wide fun c l => each c l fun a b d => rounded c (addNum c.f.rnd (mulNum (val c a) (val c b)) (val c d)))
  ∧ (∀ f, Yields (.div f) wide fun c l => each c l fun a b _ => last c (divCode (fmtOf c.f.ty) c.f.rnd (val c a) (val c b)))
  ∧ (∀ f, Yields (.frint f) wide fun c l => each c l fun a _ _ => round (fmtOf c.f.ty) .rne (match val c a with
      | .fin s n e => .fin s (roundInt c.f.rnd s n e).natAbs 0
      | x => x))
  ∧ (∀ f, Yields (.fmin f) wide fun c l => each c l fun a b _ => minMax (fmtOf c.f.ty) false (flush c a) (flush c b))
  ∧ (∀ f, Yields (.fmax f) wide fun c l => each c l fun a b _ => minMax (fmtOf c.f.ty) true (flush c a) (flush c b))

/-- R139: the reference procedures on the operands, with `.fz` on operands and result; `sqrt.f64` is correctly rounded. -/
def Obligations.SpecialFunctions : Prop :=
  let wide (c : Ctx) : Bool := isWide c.f.ty
  let F (c : Ctx) : Fmt := fmtOf c.f.ty
  let flush (c : Ctx) (x : Nat) : Nat := if c.f.fz then flushCode (F c) x else x
  let val (c : Ctx) (o : Operand) (l : Nat) : Machine.Num := decodeF (F c) (flush c (c.bits o l))
  let out (c : Ctx) (code : Nat) : DWord := BitVec.ofNat 64 (flush c code)
  (∀ f, Yields (.ex2s f) wide fun c l => out c (ex2sCode (F c) (val c c.f.a l) (val c c.f.b l) (val c c.f.c l)))
  ∧ (∀ f, Yields (.lg2 f) wide fun c l => out c (lg2Code (F c) (val c c.f.a l)))
  ∧ (∀ f, Yields (.rcp f) wide fun c l => out c (rcpCode (F c) (val c c.f.a l)))
  ∧ (∀ f, Yields (.rsq f) wide fun c l => out c (rsqCode (F c) (val c c.f.a l)))
  ∧ (∀ f, Yields (.sqrt f) wide fun c l => out c
      (if c.f.ty = .f64 then sqrtCode fp64 c.f.rnd (val c c.f.a l) else sqrtSpecialCode (F c) (val c c.f.a l)))

/-- R141 to R145: conversions, packing and unpacking of elements, and the packed dot products. How `dp4` sums elements of float
types is the model's reading (log 26). -/
def Obligations.ConversionsAndPackedProducts : Prop :=
  let narrow (_ : Ctx) : Bool := false
  let out (x : Nat) : DWord := BitVec.ofNat 64 x
  let word (c : Ctx) (o : Operand) (l : Nat) : Nat := (c.src .b32 o l).toNat
  let f32 (c : Ctx) (o : Operand) (l : Nat) : Nat := (c.src .f32 o l).toNat
  let code (c : Ctx) (sat : Bool) (x : Machine.Num) : Nat :=
    let r := round fp32 c.f.rnd x
    if sat then satF fp32 r else r
  (∀ S f, Yields (.cvt S f) (fun c => isWide c.f.ty) fun c l =>
    out (cvtVal S c.f.ty c.f.rnd c.f.sat c.f.fz (c.src S c.f.a l).toNat))
  ∧ (∀ f, Yields (.pack f) narrow fun c l =>
      let el (t : Ty) (o : Operand) : Nat := cvtVal .f32 t c.f.rnd c.f.sat false (f32 c o l)
      match c.f.ty with
      | .bf16x2 => out (el .bf16 c.f.a + 2 ^ 16 * el .bf16 c.f.b)
      | .f16x2 => out (el .f16 c.f.a + 2 ^ 16 * el .f16 c.f.b)
      | .e2m1 | .ob4 => out (el c.f.ty c.f.a + 2 ^ 4 * el c.f.ty c.f.b + 2 ^ 8 * el c.f.ty c.f.c + 2 ^ 12 * el c.f.ty c.f.d)
      | _ => out (el c.f.ty c.f.a + 2 ^ 8 * el c.f.ty c.f.b + 2 ^ 16 * el c.f.ty c.f.c + 2 ^ 24 * el c.f.ty c.f.d))
  ∧ (∀ f, Yields (.unpack f) narrow fun c l =>
      let a := word c c.f.a l
      let k := word c c.f.b l
      match c.f.ty with
      | .bf16x2 => out (cvtVal .bf16 .f32 .rne false false (a / 2 ^ (16 * (k % 2)) % 2 ^ 16))
      | .f16x2 => out (cvtVal .f16 .f32 .rne false false (a / 2 ^ (16 * (k % 2)) % 2 ^ 16))
      | .e2m1 | .ob4 => out (cvtVal c.f.ty .f32 .rne false false (a / 2 ^ (4 * (k % 4)) % 2 ^ 4))
      | _ => out (cvtVal c.f.ty .f32 .rne false false (a / 2 ^ (8 * (k % 4)) % 2 ^ 8)))
  ∧ (∀ f, Yields (.dot2 f) narrow fun c l =>
      let F := fmtOf c.f.ty
      let a := word c c.f.a l
      let b := word c c.f.b l
      let lo := mulNum (decodeF F (a % 2 ^ 16)) (decodeF F (b % 2 ^ 16))
      let hi := mulNum (decodeF F (a / 2 ^ 16 % 2 ^ 16)) (decodeF F (b / 2 ^ 16 % 2 ^ 16))
      out (code c c.f.sat (addNum c.f.rnd (addNum c.f.rnd lo hi) (decodeF fp32 (f32 c c.f.c l)))))
  ∧ (∀ f, Yields (.dp4 f) narrow fun c l =>
      let el (o : Operand) (k : Nat) : BitVec 8 := BitVec.ofNat 8 (word c o l / 2 ^ (8 * k))
      if c.f.ty = .i8 then
        let x : Int := (el c.f.a 0).toInt * (el c.f.b 0).toInt + (el c.f.a 1).toInt * (el c.f.b 1).toInt
          + (el c.f.a 2).toInt * (el c.f.b 2).toInt + (el c.f.a 3).toInt * (el c.f.b 3).toInt + (lo32 (c.src .i32 c.f.c l)).toInt
        ofBits (BitVec.ofInt 32 (if c.f.sat then max (-2 ^ 31) (min (2 ^ 31 - 1) x) else x))
      else if c.f.ty = .n8 then
        let x : Nat := (el c.f.a 0).toNat * (el c.f.b 0).toNat + (el c.f.a 1).toNat * (el c.f.b 1).toNat
          + (el c.f.a 2).toNat * (el c.f.b 2).toNat + (el c.f.a 3).toNat * (el c.f.b 3).toNat + (lo32 (c.src .n32 c.f.c l)).toNat
        ofBits (BitVec.ofNat 32 (if c.f.sat then min (2 ^ 32 - 1) x else x))
      else
        let F := fmtOf c.f.ty
        let p (k : Nat) := mulNum (decodeF F (el c.f.a k).toNat) (decodeF F (el c.f.b k).toNat)
        out (code c c.f.sat (addNum c.f.rnd (exactBlock [p 0, p 1, p 2, p 3]) (decodeF fp32 (f32 c c.f.c l)))))

/-! ### Cross-lane instructions (R147 to R156) -/

/-- R147 to R152, R156: in a quad each active lane receives the value of the lane that the instruction names, where a lane that
is not live reads as a helper lane, or the sum over the contributing lanes; `shfl`, `vote.ballot`, `match` and the votes
exchange values among the lanes of the group, where lanes found absent or exited give zero and stand in `%collstat`. What `shfl`
marks there is the model's reading (log 26). -/
def Obligations.QuadAndGroupExchanges : Prop :=
  (let out (x : Nat) : DWord := BitVec.ofNat 64 x
   let at_ (c : Ctx) (l : Nat) : Nat := (c.quadSrc l).toNat % 2 ^ tyWidth c.f.ty
   (∀ f, YieldsQuad (.qswapH f) fun c l => out (at_ c (l ^^^ 1)))
   ∧ (∀ f, YieldsQuad (.qswapV f) fun c l => out (at_ c (l ^^^ 2)))
   ∧ (∀ f, YieldsQuad (.qbcast f) fun c l => out (at_ c (l / 4 * 4 + (c.src .b32 c.f.b l).toNat % 4)))
   ∧ (∀ f, YieldsQuad (.qsum f) fun c l =>
       let add (x y : Nat) : Nat :=
         if c.f.ty = .f32 ∨ c.f.ty = .f64 then
           round (fmtOf c.f.ty) c.f.rnd (addNum c.f.rnd (decodeF (fmtOf c.f.ty) x) (decodeF (fmtOf c.f.ty) y))
         else (x + y) % 2 ^ tyWidth c.f.ty
       let v (k : Nat) : Option Nat := if c.quadActs (l / 4 * 4 + k) then some (at_ c (l / 4 * 4 + k)) else none
       out ((Option.merge add (Option.merge add (v 0) (v 1)) (Option.merge add (v 2) (v 3))).getD 0)))
  ∧ (let out (x : Nat) : DWord := BitVec.ofNat 64 x
     let wide (c : Ctx) : Bool := isWide c.f.ty
     let gone (c : Ctx) : DWord := laneMask ((List.range c.w).filter fun l => !c.half.live l)
     let from_ (m : ShflMode) (c : Ctx) (l : Nat) : Option Nat :=
       let b := (c.src .b32 c.f.b l).toNat
       let s : Int := match m with
         | .idx => b
         | .up => (l : Int) - b
         | .down => (l : Int) + b
         | .xor => (l ^^^ b : Nat)
       if 0 ≤ s ∧ s < c.w then some s.toNat else none
     (∀ m f, YieldsGroup (.shfl m f) wide
       (fun c l => out (match from_ m c l with
         | none => c.bits c.f.a l
         | some k => if c.half.live k then c.bits c.f.a k else 0))
       (fun c => laneMask ((c.act.filterMap (from_ m c)).filter fun k => !c.half.live k)))
     ∧ (∀ f, YieldsGroup (.voteBallot f) wide
         (fun c _ => out ((laneMask (c.act.filter fun l => c.predSrc c.f.a l)).toNat % 2 ^ tyWidth c.f.ty)) gone)
     ∧ (∀ f, YieldsGroup (.matchLanes f) (fun _ => true)
         (fun c l => laneMask (c.act.filter fun m => decide (c.bv c.f.a m = c.bv c.f.a l))) gone)
     ∧ (∀ f, YieldsVote (.voteAny f) (fun c => c.act.any fun l => c.predSrc c.f.a l) gone)
     ∧ (∀ f, YieldsVote (.voteAll f) (fun c => c.act.all fun l => c.predSrc c.f.a l) gone))

/-- R153, R154: `red` gives every receiving lane the root of the fixed pairwise tree over the contributions, `scan` the left
fold up to its lane, or up to the lane before it; neutral positions are carried as marks. -/
def Obligations.ReductionsAndScans : Prop :=
  let out (x : Nat) : DWord := BitVec.ofNat 64 x
  let wide (c : Ctx) : Bool := isWide c.f.ty
  let gone (c : Ctx) : DWord := laneMask ((List.range c.w).filter fun l => !c.half.live l)
  let term (c : Ctx) (l : Nat) : Option Nat := if l ∈ c.act then some (c.bits c.f.a l) else none
  let step (op : RedOp) (c : Ctx) : Option Nat → Option Nat → Option Nat := Option.merge (combine op c.f.ty c.f.rnd)
  (∀ op f s c, Meets false (.red op f) s c → c.evenDst (wide c) → ∀ k, c.w = 2 ^ k → k ≤ 6 →
    let level : List (Option Nat) → List (Option Nat) := fun v =>
      (List.range (v.length / 2)).map fun j => step op c (v.getD (2 * j) none) (v.getD (2 * j + 1) none)
    let root := ((List.range k).foldl (fun v _ => level v) ((List.range c.w).map (term c))).headD none
    ∃ t, exec (.red op f) s = .next t ∧ Kept c t ∧ Advanced c t ∧ c.setsAnd (gone c) t
      ∧ c.wrote (.red op f) (wide c) (fun _ => out (root.getD (neutral op c.f.ty))) t)
  ∧ (∀ op excl f, YieldsGroup (.scan op excl f) wide
      (fun c l => out ((((List.range (if excl then l else l + 1)).map fun k => if k < c.w then term c k else none).foldl
        (step op c) none).getD (neutral op c.f.ty))) gone)

/-- R148, R239: a path that reaches the rendezvous of a cross-lane or matrix instruction changes nothing but which of the lanes at the
instruction wait, and the instruction issues only when, for some lane of the path, every live lane of the scope, its quad or the group,
is at the instruction. That a path is held from the first choice of its slot on is the model's choice (log 72). -/
def Obligations.RendezvousHoldsThePath : Prop :=
  let holds (quad : Bool) (i : Instr) : Prop := ∀ (s : State) (c : Ctx), s.begin? i = some c → legal c.sl i = true →
    let here := (List.range c.w).filter (atPc c.half c.pc)
    let complete (l : Nat) : Bool := (c.half.liveLanes c.w).all fun m => (quad && decide (m / 4 ≠ l / 4)) || decide (m ∈ here)
    (∀ l ∈ c.path, complete l = false) →
      ∃ t, exec i s = .next t ∧ Kept c t
        ∧ (∀ l, (c.halfIn t).lane l = if l ∈ here then
            { c.half.lane l with wait := if complete l then .none else .rendezvous } else c.half.lane l)
        ∧ c.regsKept t ∧ c.uniKept t ∧ c.setsKept t ∧ (∀ q l, (t.pair c.place c.group).queue q l = c.pair.queue q l)
  (∀ f, holds true (.qswapH f) ∧ holds true (.qswapV f) ∧ holds true (.qbcast f) ∧ holds true (.qsum f))
  ∧ (∀ f, (∀ m, holds false (.shfl m f)) ∧ holds false (.voteAny f) ∧ holds false (.voteAll f) ∧ holds false (.voteBallot f)
      ∧ (∀ op, holds false (.red op f) ∧ ∀ excl, holds false (.scan op excl f)) ∧ holds false (.matchLanes f))
  ∧ (∀ f, holds false (.mma f) ∧ holds false (.mmaTeam f) ∧ holds false (.zclr f) ∧ holds false (.zld f) ∧ holds false (.zst f)
      ∧ holds false (.zcvt f) ∧ holds false (.zadd f) ∧ holds false (.sclSetA f) ∧ holds false (.sclSetB f) ∧ holds false (.fmtVote f))

/-! ### Control flow (R157 to R171) -/

/-- R157, R162 to R164: a taken branch sets the program counter of the lanes that take it, to the section offset PC + the
operand, or to the operand; the other lanes of the path go on. -/
def Obligations.BranchesSetProgramCounters : Prop :=
  let rel (c : Ctx) (o : Operand) : Word := c.pc + match o with
    | .imm v => v.signExtend 32
    | .lit => lo32 (c.f.lit.getD 0)
    | _ => 0
  let taken (c : Ctx) (p : Nat → Prop) [DecidablePred p] (target : Nat → Word) (l : Nat) : Lane :=
    if l ∈ c.act ∧ p l then { c.half.lane l with pc := target l } else c.next l
  (∀ f s c, Clear (.bra f) s c → ∃ t, exec (.bra f) s = .next t ∧ Kept c t
      ∧ Moved c (taken c (fun _ => True) fun _ => rel c f.a) t ∧ c.quiet (.bra f) t)
  ∧ (∀ f s c, Clear (.brQ f) s c → ∃ t, exec (.brQ f) s = .next t ∧ Kept c t
      ∧ Moved c (taken c (fun l => (c.src .b32 f.a l).getLsbD 0 = true) fun _ => rel c f.b) t ∧ c.quiet (.brQ f) t)
  ∧ (∀ f s c, Clear (.brx f) s c →
      let target (l : Nat) : Word := if isSection f.a then lo32 (c.src .b32 f.a l) else rel c f.a
      (isSection f.a = true → ∀ l ∈ c.act, s.isStart c.blk.kernel c.sl (target l) = true) →
      ∃ t, exec (.brx f) s = .next t ∧ Kept c t ∧ Moved c (taken c (fun _ => True) target) t ∧ c.quiet (.brx f) t)

/-- R165, R166: a call leaves the address after it in its destination and goes one call deeper; a return goes to the address it
reads, one call shallower, and leaves the rejoin sets that were set up at its depth or deeper. -/
def Obligations.CallsAndReturns : Prop :=
  let rel (c : Ctx) (o : Operand) : Word := c.pc + match o with
    | .imm v => v.signExtend 32
    | .lit => lo32 (c.f.lit.getD 0)
    | _ => 0
  let target (c : Ctx) (l : Nat) : Word := if isSection c.f.a then lo32 (c.src .b32 c.f.a l) else rel c c.f.a
  let moved (c : Ctx) (k : BitVec 8) (l : Nat) : Lane :=
    if l ∈ c.act then { c.half.lane l with pc := target c l, depth := (c.half.lane l).depth + k } else c.next l
  let starts (c : Ctx) : Prop := isSection c.f.a = true → ∀ l ∈ c.act, c.st.isStart c.blk.kernel c.sl (target c l) = true
  (∀ f s c, Clear (.call f) s c → c.evenDst false → starts c → (∀ l ∈ c.act, (c.half.lane l).depth ≠ 255) →
      ∃ t, exec (.call f) s = .next t ∧ Kept c t ∧ Moved c (moved c 1) t ∧ c.setsKept t
        ∧ c.wrote (.call f) false (fun _ => (c.pc + BitVec.ofNat 32 c.len).zeroExtend 64) t)
  ∧ (∀ f s c, Clear (.ret f) s c → starts c → (∀ l ∈ c.act, (c.half.lane l).depth ≠ 0) →
      let leaving (n : Nat) : DWord := laneMask (c.act.filter fun l => decide ((c.half.lane l).depth ≤ (c.half.set n).depth))
      (∀ n < 16, (c.half.set n).members &&& leaving n ≠ 0 → (c.half.set n).waiters = 0) →
      ∃ t, exec (.ret f) s = .next t ∧ Kept c t ∧ Moved c (moved c (-1)) t ∧ c.valuesKept (.ret f) t
        ∧ (∀ n, (c.halfIn t).set n = if n < 16 then (c.half.set n).without (leaving n) else c.half.set n)
        ∧ (c.halfIn t).timer = c.half.timer)

/-- R167, R24: the active lanes exit the slice and leave every set of it; lanes waiting for them are released, in the next clk.
A faulted set only loses the lanes. When no lane of either slice is left, and no store waits for data, the pair ends with its queues and streams. -/
def Obligations.ExitEndsLanes : Prop :=
  (∀ f s c, Clear (.exit f) s c → c.act = [] →
    ∃ t, exec (.exit f) s = .next t ∧ Kept c t ∧ Advanced c t ∧ c.quiet (.exit f) t)
  ∧ (∀ f s c, Clear (.exit f) s c → c.act ≠ [] → (∀ o ∈ s.outs, o.mc = none) →
      (∃ sl l, l < c.w ∧ (c.pair.half sl).live l = true ∧ ¬ (sl = c.sl ∧ l ∈ c.act)) →
      let gone := laneMask c.act
      ∃ t, exec (.exit f) s = .next t ∧ Kept c t
        ∧ (t.pair c.place c.group).live = true ∧ (t.pair c.place c.group).run = .running
        ∧ (t.pair c.place c.group).half (Slice.other c.sl) = c.pair.half (Slice.other c.sl)
        ∧ (∀ l, let x := (c.halfIn t).lane l
            let y := if l ∈ c.path then c.next l else c.half.lane l
            x.pc = y.pc ∧ x.depth = y.depth ∧ x.calls = y.calls ∧ x.life = (if l ∈ c.act then .exited else y.life)
              ∧ (x.wait = y.wait ∨ x.wait = .none ∨ x.wait = .released))
        ∧ (∀ n, (c.halfIn t).set n = if n < 16 then (c.half.set n).without gone else c.half.set n)
        ∧ (∀ n < 16, ∀ l, ((c.half.set n).freed gone).getLsbD l = true → ((c.halfIn t).lane l).wait = .released)
        ∧ c.valuesKept (.exit f) t)
  ∧ (∀ f s c, Clear (.exit f) s c → c.act ≠ [] → (∀ o ∈ s.outs, o.mc = none) →
      (∀ e ∈ s.blocks, (e.2.pair c.group).teamWait = false) →
      (∀ sl l, l < c.w → (c.pair.half sl).live l = true → sl = c.sl ∧ l ∈ c.act) →
      (∀ l < c.w, s.heldNeed (c.own l) = 0) →
      ∃ t, exec (.exit f) s = .next t ∧ t.mem = s.mem ∧ (∀ p, p ≠ c.place → t.block? p = s.block? p)
        ∧ (∀ g, g ≠ c.group → t.pair c.place g = c.blk.pair g)
        ∧ let p := t.pair c.place c.group
          p.live = false ∧ p.queues = [] ∧ p.streams = [] ∧ p.resv = [] ∧ p.counters = {}
            ∧ ∀ sl, (p.half sl).liveLanes c.w = [])

/-- R168 to R171, R200: a yield marks the slot after it to be passed over, a nap holds its lanes for the clocks it names, at
most 1,048,575, and `nop` and `prefetch` only go on; with no active lane a yield only goes on too. `trap` and `brk` trap with their code, the active lanes standing after
them; with a debugger attached, `brk` stops the pair with a stop record. That the clk of the issue counts for a nap, and where
the other lanes of the path stand at a `trap`, are the model's choice (logs 58, 59), and so is how long the mark of a yield lasts (log
73). -/
def Obligations.HintsAndSoftwareTraps : Prop :=
  let onward (i : Instr) : Prop := ∀ s c, Clear i s c → ∃ t, exec i s = .next t ∧ Kept c t ∧ Advanced c t ∧ c.quiet i t
  let code (f : Ext) : Nat := match f.a with
    | .imm v => v.toNat
    | _ => (f.lit.getD 0).toNat % 2 ^ 16
  (∀ f s c, Clear (.yield f) s c → ∃ t, exec (.yield f) s = .next t ∧ Kept c t ∧ Advanced c t ∧ c.quiet (.yield f) t
      ∧ (c.act ≠ [] → (c.halfIn t).ctl.yielded = (c.pc + BitVec.ofNat 32 c.len).toNat :: c.half.ctl.yielded
          ∧ (c.halfIn t).ctl.serialLane = none)
      ∧ (c.act = [] → (c.halfIn t).ctl.yielded = c.half.ctl.yielded ∧ (c.halfIn t).ctl.serialLane = c.half.ctl.serialLane))
  ∧ (∀ f s c, Clear (.nap f) s c →
      let n (l : Nat) : Nat := min (lo32 (c.src .b32 f.a l)).toNat 1048575
      ∃ t, exec (.nap f) s = .next t ∧ Kept c t ∧ c.quiet (.nap f) t
        ∧ Moved c (fun l => if l ∈ c.act ∧ n l ≠ 0 then { c.next l with wait := .nap (s.clk + n l) } else c.next l) t)
  ∧ (∀ f, onward (.nop f)) ∧ (∀ f, onward (.nopBase f)) ∧ (∀ f, onward (.prefetch f))
  ∧ (∀ f s c, Clear (.trap f) s c → c.act = [] → ∃ t, exec (.trap f) s = .next t ∧ Kept c t ∧ Advanced c t ∧ c.quiet (.trap f) t)
  ∧ (∀ f s c, Clear (.brk f) s c → c.act = [] → ∃ t, exec (.brk f) s = .next t ∧ Kept c t ∧ Advanced c t ∧ c.quiet (.brk f) t)
  ∧ (∀ f s c l r, Clear (.trap f) s c → c.act = l :: r →
      let info : TrapInfo := { code := 0x15, lane := l, lanes := l :: r, aux0 := code f }
      exec (.trap f) s = .next ((c.commit (.trap f)).raiseTrap c.place c.group c.sl c.pc info))
  ∧ (∀ f s c l r, Clear (.brk f) s c → c.act = l :: r → s.attached c.blk.part = false →
      let info : TrapInfo := { code := 0x16, lane := l, lanes := l :: r, aux0 := code f }
      exec (.brk f) s = .next ((c.commit (.brk f)).raiseTrap c.place c.group c.sl c.pc info))
  ∧ (∀ f s c l r, Clear (.brk f) s c → c.act = l :: r → s.attached c.blk.part = true →
      ∃ t, exec (.brk f) s = .next t ∧ (t.pair c.place c.group).run = .stopped .trap
        ∧ (∀ m ∈ c.path, ((c.halfIn t).lane m).pc = (c.next m).pc)
        ∧ ∃ x ∈ (t.core c.core).recs, x.part = c.blk.part ∧ x.debug = true
            ∧ x.bytes.take 3 = [0x10, 0x00, 0x02] ∧ x.handle = some (s.pairHandle c.place c.group))

/-! ### Rejoin sets (R178 to R184) -/

/-- R44, R178 to R183: with no active lane nothing happens; otherwise, no cause of R178 applying, `join.init` sets the set up,
`join.enter` adds the active lanes, `join.quit` takes them out, `join.wait` blocks them until every member waits, and
`join.test` reads membership; released lanes are ready in the next clk. `join.save` writes the 32-byte image of the set to
scratchpad, and `join.load` replaces the set with an image, without the members that have exited. -/
def Obligations.RejoinSets : Prop :=
  (let idle (i : Instr) : Prop := ∀ s c, Clear i s c → c.act = [] →
     ∃ t, exec i s = .next t ∧ Kept c t ∧ Advanced c t ∧ c.quiet i t
   let puts (c : Ctx) (j : JSet) (t : State) : Prop := ∀ n, (c.halfIn t).set n = if n = c.jset then j else c.half.set n
   let lane (c : Ctx) (free : DWord) (on : Nat → Lane) (t : State) : Prop := ∀ l, ((c.halfIn t).lane l).standsAs
     (let x := if l ∈ c.path then on l else c.half.lane l
      if free.getLsbD l then { x with wait := .released } else x)
   (∀ f, idle (.joinInit f)) ∧ (∀ f, idle (.joinEnter f)) ∧ (∀ f, idle (.joinQuit f)) ∧ (∀ f, idle (.joinWait f))
   ∧ (∀ f, idle (.joinTest f)) ∧ (∀ f, idle (.joinSave f)) ∧ (∀ f, idle (.joinLoad f))
   ∧ (∀ f s c m d, Clear (.joinInit f) s c → c.act ≠ [] → c.theSet.state ≠ jWaiting → c.theSet.state ≠ jFaulted →
       (∀ l ∈ c.act, c.src .b64 f.b l = m ∧ (c.half.lane l).depth = d) →
       let ms := m &&& laneMask (c.half.liveLanes c.w)
       ∃ t, exec (.joinInit f) s = .next t ∧ Kept c t ∧ Advanced c t ∧ c.valuesKept (.joinInit f) t
         ∧ puts c { members := ms, waiters := 0, depth := d, state := if ms = 0 then jEmpty else jArmed } t)
   ∧ (∀ f s c, Clear (.joinEnter f) s c → c.act ≠ [] → c.theSet.state ≠ jEmpty → c.theSet.state ≠ jFaulted →
       let j := c.theSet
       ∃ t, exec (.joinEnter f) s = .next t ∧ Kept c t ∧ Advanced c t ∧ c.valuesKept (.joinEnter f) t
         ∧ puts c { j with members := j.members ||| laneMask c.act } t)
   ∧ (∀ f s c, Clear (.joinQuit f) s c → c.act ≠ [] → c.theSet.state ≠ jFaulted →
       ∃ t, exec (.joinQuit f) s = .next t ∧ Kept c t ∧ c.valuesKept (.joinQuit f) t
         ∧ puts c (c.theSet.without (laneMask c.act)) t ∧ lane c (c.theSet.freed (laneMask c.act)) c.next t)
   ∧ (∀ f s c, Clear (.joinWait f) s c → c.act ≠ [] → (∀ l ∈ c.act, c.theSet.members.getLsbD l = true) →
       c.theSet.state ≠ jEmpty → c.theSet.state ≠ jFaulted →
       let j := c.theSet
       let w := j.waiters ||| laneMask c.act
       let all := decide (w = j.members)
       ∃ t, exec (.joinWait f) s = .next t ∧ Kept c t ∧ c.valuesKept (.joinWait f) t
         ∧ puts c (if all then { j with waiters := 0, state := jArmed } else { j with waiters := w, state := jWaiting }) t
         ∧ lane c (if all then w else 0) (fun l => if l ∈ c.act then { c.next l with wait := .join c.jset c.pc } else c.next l) t)
   ∧ (∀ f s c n, Clear (.joinTest f) s c → f.dst = .reg n → c.theSet.state ≠ jFaulted →
       ∃ t, exec (.joinTest f) s = .next t ∧ Kept c t ∧ Advanced c t ∧ c.setsKept t
         ∧ c.wrotePred (.joinTest f) n (fun l => c.theSet.members.getLsbD l) t))
  ∧ (let image (j : JSet) : Nat := j.members.toNat + j.waiters.toNat * 2 ^ 64 + j.state.toNat * 2 ^ 128 + j.depth.toNat * 2 ^ 130
     let fits (c : Ctx) (off : Nat) : Prop := c.act ≠ [] ∧ c.theSet.state ≠ jWaiting ∧ c.theSet.state ≠ jFaulted
       ∧ (∀ l ∈ c.act, c.word c.f.b l = off) ∧ off % 32 = 0 ∧ off + 32 ≤ c.blk.kernel.decl.scratch
       ∧ c.st.heldOver (.sp c.place off) 32 = false ∧ c.st.ownedOver none (.sp c.place off) 32 = false
       ∧ ∀ l ∈ c.act, c.st.acquiring (c.own l) = false
     (∀ f s c off, Clear (.joinSave f) s c → fits c off → (∀ k < 32, s.tagAt (.sp c.place (off + k)) = none) →
         ∃ t, exec (.joinSave f) s = .next t ∧ Goes c c.next t ∧ c.valuesKept (.joinSave f) t
           ∧ (∀ n, (c.halfIn t).set n = c.half.set n) ∧ t.natAt (.sp c.place off) 32 = image c.theSet
           ∧ ∀ x, (∀ k < 32, x ≠ .sp c.place (off + k)) → t.byteAt x = s.byteAt x)
     ∧ (∀ f s c off j, Clear (.joinLoad f) s c → fits c off → s.natAt (.sp c.place off) 32 = image j →
         j.waiters = 0 → (j.state = jEmpty ∧ j.members = 0 ∨ j.state = jArmed ∧ j.members ≠ 0) → j.members.toNat < 2 ^ c.w →
         let left := j.members &&& ~~~laneMask ((List.range c.w).filter fun l => decide ((c.half.lane l).life = .exited))
         ∃ t, exec (.joinLoad f) s = .next t ∧ Goes c c.next t ∧ c.valuesKept (.joinLoad f) t
           ∧ (∀ n, (c.halfIn t).set n = if n = c.jset then { j with members := left, state := if left = 0 then jEmpty else j.state }
               else c.half.set n)
           ∧ ∀ x, t.byteAt x = s.byteAt x))

/-! ### Loads, streams and queue instructions (R196 to R209, R223) -/

/-- R196 to R198, R212, R213, R219: a local load reserves each active lane's element or leaves its register pending, and changes no
memory; its bytes are those at its place in the order; `lr` also sets the lane's reservation. A load of `ld.q` in one active lane whose
translation faults is no trap: the lane's element carries the cause and the address. That the bytes are taken in the step of the issue
(log 21), or in a later one where the turn says so (log 1), and that a reservation names the location to which the address translates
(log 65), is the model's choice. -/
def Obligations.LoadsReserveTheirDataOrLeaveTokens : Prop :=
  (let loads (i : Instr) (f : Ext) (sp : Bool) : Prop := ∀ s c (x : Nat → Loc), Clear i s c → destOf f.dst ≠ .drop → c.prompt →
     (∀ l ∈ c.act, c.reaches sp true false (accBytes f.ty) l (x l)) →
     ∃ t, exec i s = .next t ∧ ReadKept c t ∧ Advanced c t ∧ c.setsKept t ∧ c.regsKept t ∧ c.uniKept t ∧ c.predsKept t
       ∧ c.onTheWay sp x t ∧ c.pending i sp t
   let later (i : Instr) (f : Ext) (sp : Bool) : Prop := ∀ s c (x : Nat → Loc), Clear i s c → destOf f.dst ≠ .drop →
     (∀ l ∈ c.act, c.reaches sp true false (accBytes f.ty) l (x l) ∧ s.cur.late.getLsbD l = true) →
     ∃ t, exec i s = .next t ∧ KeptBut c (fun s => { s with outs := [], late := [], fresh := 0 }) id t ∧ Advanced c t ∧ c.setsKept t
       ∧ c.regsKept t ∧ c.uniKept t ∧ c.predsKept t ∧ c.awaitsPlace sp c.readers (destOf f.dst) t
       ∧ c.isLater sp c.readers (fun _ => .read) x t ∧ c.pending i sp t
   (∀ f q, f.dst = .queue q → loads (.ldQ f) f false) ∧ (∀ f, loads (.ldY f) f false) ∧ (∀ f, loads (.ldSp f) f true)
   ∧ (∀ f q, f.dst = .queue q → later (.ldQ f) f false) ∧ (∀ f, later (.ldY f) f false) ∧ (∀ f, later (.ldSp f) f true)
   ∧ (∀ (s : State) pre h post, s.placesNext pre h post → h.op = .read →
       ∃ t, step s = .next t ∧ t.late = pre ++ post ∧ t.mem = s.mem
         ∧ t.outs = s.outs.map fun o => if o.id = h.id then { o with bytes := s.capture h.loc h.n } else o)
   ∧ (∀ f s c (x : Nat → Loc), Clear (.lr f) s c → destOf f.dst ≠ .drop → (∀ l ∈ c.act, c.reaches f.sp true false (accBytes f.ty) l (x l)) →
       ∃ t, exec (.lr f) s = .next t ∧ ReadKept c t ∧ Goes c c.next t ∧ c.setsKept t ∧ c.regsKept t ∧ c.uniKept t
         ∧ c.predsKept t ∧ c.onTheWay f.sp x t ∧ c.pending (.lr f) f.sp t
         ∧ ∀ l, match smFind (t.pair c.place c.group).resv l with
             | some r => if l ∈ c.readers then r.loc = x l ∧ r.width = accBytes f.ty else smFind c.pair.resv l = some r
             | none => l ∉ c.readers ∧ smFind c.pair.resv l = none))
  ∧ (∀ f s c l q k, Clear (.ldQ f) s c → f.dst = .queue q → c.act = [l] → aligned (c.gaddr l).toNat (accBytes f.ty) = true →
       inFabric (c.gaddr l) = false → c.st.acquiring (c.own l) = false → s.translate c.tctx true false (c.gaddr l) = .fault k →
       c.lost (.ldQ f) q.toNat l = false →
       ∃ t, exec (.ldQ f) s = .next t ∧ Goes c c.next t ∧ t.outs = s.outs ∧ (k ≠ 4 → t.mem = s.mem)
         ∧ (t.pair c.place c.group).queue q.toNat l = c.left (.ldQ f) q.toNat l ++ tokens k f.ty (c.gaddr l))

/-- R199, R202, R212, R213: `ld.fab` reserves an element in each active lane and sends its read to the peer; where the address
faults, the peer may not be read or no port is up, the element carries the cause. `ld.mc` reserves an element in each member, or
one that carries cause 7 where member 0's lane has exited; once every other member has issued as many, member 0's read supplies
the multicast's elements of every member, or its fault does. Which of the permitted ports a packet takes is left free (log 23). -/
def Obligations.RemoteAndMulticastLoads : Prop :=
  let pushes (i : Instr) (c : Ctx) (q : Nat) (es : Nat → List Elem) (t : State) : Prop :=
    Goes c c.next t ∧ c.setsKept t ∧ c.regsKept t ∧ c.uniKept t ∧ c.predsKept t ∧ t.mem = c.st.mem
      ∧ ∀ r l, l < 64 → (t.pair c.place c.group).queue r l
          = c.left i r l ++ if r = q ∧ l ∈ c.act ∧ c.lost i r l = false then es l else []
  let news (c : Ctx) : Prop := (∀ r ∈ c.st.remotes, r.id < c.st.fresh) ∧ (∀ r l, ∀ e ∈ c.pair.queue r l, e.out < c.st.fresh)
    ∧ ∀ l ∈ c.act, c.st.placeOfOwner (c.own l) = some c.place
  (∀ f s c q (x : Nat → Tlb) (port : Nat → Nat) (head : Nat → Carried), Clear (.ldFab f) s c → f.dst = .queue q → news c →
      (∀ l ∈ c.act, c.sends true false (accBytes f.ty) l (x l) (port l) (head l)) →
      ∃ t, exec (.ldFab f) s = .next t ∧ t.outs = s.outs ∧ t.fresh = s.fresh + c.act.length
        ∧ t.remotes = s.remotes ++ c.act.zipIdx.map (fun p =>
            ({ id := s.fresh + p.2, own := c.own p.1, op := .read, peer := (x p.1).peer, addr := c.gaddr p.1,
               raddr := (x p.1).addr (c.gaddr p.1), ty := f.ty, dst := .queue q.toNat, acq := f.acq, pc := c.pc,
               sent := some s.clk, head := head p.1, port := port p.1 } : Remote))
        ∧ pushes (.ldFab f) c q.toNat (fun l => (reserved .fab (s.fresh + c.act.idxOf l) f.ty (c.gaddr l)).map fun e =>
            { e with acq := f.acq }) t)
  ∧ (∀ f s c q l k, Clear (.ldFab f) s c → f.dst = .queue q → c.act = [l] → aligned (c.gaddr l).toNat (accBytes f.ty) = true →
      inFabric (c.gaddr l) = true → c.st.acquiring (c.own l) = false → c.xlates true false l = .fault k → k ≠ 4 →
      ∃ t, exec (.ldFab f) s = .next t ∧ t.outs = s.outs ∧ t.remotes = s.remotes
        ∧ pushes (.ldFab f) c q.toNat (fun l => tokens k f.ty (c.gaddr l)) t)
  ∧ (∀ f s c q l x, Clear (.ldFab f) s c → f.dst = .queue q → c.act = [l] → aligned (c.gaddr l).toNat (accBytes f.ty) = true →
      inFabric (c.gaddr l) = true → c.st.acquiring (c.own l) = false → c.xlates true false l = .ok x → news c →
      ((s.peer? c.blk.part x.peer).any fun e => e.outOk && decide (s.portsTo e ≠ [])) = false →
      let cause : Nat := if (s.peer? c.blk.part x.peer).any fun e => e.outOk then 6 else 5
      ∃ t, exec (.ldFab f) s = .next t ∧ t.outs = s.outs ∧ t.remotes = s.remotes
        ∧ pushes (.ldFab f) c q.toNat (fun l => (tokens cause f.ty (c.gaddr l)).map fun e => { e with acq := f.acq }) t)
  ∧ (∀ f s c q, Clear (.ldMc f) s c → f.dst = .queue q → c.blk.member ≠ 0 → (∀ l ∈ c.act, c.st.acquiring (c.own l) = false) →
      let kept := c.act.filter fun l => !c.leadGone l
      ∃ t, exec (.ldMc f) s = .next t ∧ t.remotes = s.remotes
        ∧ t.outs = s.outs ++ kept.zipIdx.map (fun p =>
            ({ id := s.fresh + p.2, own := c.own p.1, dst := .queue q.toNat, ty := f.ty, pc := c.pc,
               mc := some (c.pair.mcIssued p.1) } : Out))
        ∧ (∀ l, (t.pair c.place c.group).mcIssued l = c.pair.mcIssued l + if l ∈ c.act then 1 else 0)
        ∧ pushes (.ldMc f) c q.toNat (fun l => if c.leadGone l then tokens 7 f.ty 0
            else reserved .mc (s.fresh + kept.idxOf l) f.ty 0) t)
  ∧ (let alone (c : Ctx) (l : Nat) : Prop := ∀ o ∈ c.st.outs, mcOf c.blk c.group l (c.pair.mcIssued l) o = true →
       o.id < c.st.fresh ∧ c.st.placeOfOwner o.own ≠ some c.place
     (∀ f s c q (x : Nat → Loc), Clear (.ldMc f) s c → f.dst = .queue q → c.blk.member = 0 → news c →
       (∀ l ∈ c.act, c.reaches false true false (accBytes f.ty) l (x l) ∧ c.othersReady l (c.pair.mcIssued l) = true ∧ alone c l) →
       ∃ t, exec (.ldMc f) s = .next t ∧ t.remotes = s.remotes
        ∧ (∀ l, (t.pair c.place c.group).mcIssued l = c.pair.mcIssued l + if l ∈ c.act then 1 else 0)
        ∧ pushes (.ldMc f) c q.toNat (fun l => reserved .mc (s.fresh + c.act.idxOf l) f.ty (c.gaddr l)) t
        ∧ ∀ l ∈ c.act, (∃ o ∈ t.outs, o.own = c.own l ∧ o.id = s.fresh + c.act.idxOf l ∧ o.mc = some (c.pair.mcIssued l))
          ∧ ∀ o ∈ t.outs, mcOf c.blk c.group l (c.pair.mcIssued l) o = true →
              o.bytes = s.capture (x l) (accBytes f.ty) ∧ o.addr = c.gaddr l)
     ∧ (∀ f s c q l k, Clear (.ldMc f) s c → f.dst = .queue q → c.blk.member = 0 → c.act = [l] → news c →
       aligned (c.gaddr l).toNat (accBytes f.ty) = true → inFabric (c.gaddr l) = false → c.st.acquiring (c.own l) = false →
       c.xlates true false l = .fault k → k ≠ 4 → c.othersReady l (c.pair.mcIssued l) = true → alone c l →
       ∃ t, exec (.ldMc f) s = .next t
        ∧ pushes (.ldMc f) c q.toNat (fun l => tokens k f.ty (c.gaddr l)) t
        ∧ ∀ o ∈ t.outs, mcOf c.blk c.group l (c.pair.mcIssued l) o = false))

/-- R203, R205, R208, R209, R223: a stream starts with the captured lanes and its descriptor; `qflush` empties the active lanes'
sequences and takes them out of a stream on the queue; `qcount` counts; `smov` reads the special register that a value names.
What a uniform destination of `smov` takes from a per-lane register is the model's choice (log 64). -/
def Obligations.StreamsAndQueueInstructions : Prop :=
  (∀ f s c q, Clear (.stream f) s c → f.dst = .queue q → c.act ≠ [] → streamBad f.ty c.descWords = false →
      c.streaming q.toNat = false → (∀ l ∈ c.act, c.st.acquiring (c.own l) = false) →
      ∃ t, exec (.stream f) s = .next t ∧ Kept c t ∧ Goes c c.next t ∧ c.setsKept t ∧ c.valuesKept (.stream f) t
        ∧ (t.pair c.place c.group).streams = c.pair.streams ++ if streamRows c.descWords = 0 then [] else
            [{ desc := c.descWords, queue := q.toNat, ty := f.ty, mask := laneMask c.act, hint := f.hint }])
  ∧ (∀ f s c, Clear (.stream f) s c → c.act = [] →
      ∃ t, exec (.stream f) s = .next t ∧ Kept c t ∧ Advanced c t ∧ c.quiet (.stream f) t)
  ∧ (∀ f s c q, Clear (.qflush f) s c → f.a = .queue q →
      ∃ t, exec (.qflush f) s = .next t ∧ Kept c t ∧ Goes c c.next t ∧ c.setsKept t ∧ c.regsKept t ∧ c.uniKept t ∧ c.predsKept t
        ∧ (∀ r l, l < 64 → (t.pair c.place c.group).queue r l
            = if r = q.toNat ∧ l ∈ c.act then [] else c.left (.qflush f) r l)
        ∧ (t.pair c.place c.group).streams = (c.pair.streams.map fun x =>
            if x.queue = q.toNat then { x with mask := x.mask &&& ~~~laneMask c.act } else x).filter fun x => decide (x.mask ≠ 0))
  ∧ (∀ f q, f.a = .queue q → Yields (.qcount f) (fun _ => false) fun c l => BitVec.ofNat 64 (c.pair.queue q.toNat l).length)
  ∧ (∀ f s c, Clear (.smov f) s c → c.evenDst (isWide f.ty) → (∀ n, f.dst = .uni n → uniformSource f.a = true) →
      (∀ l ∈ c.act, let n := (c.src .b32 f.a l).toNat
        specialListed n = true ∧ specialWidth n = tyWidth f.ty ∧ specialSlice n c.sl = true) →
      ∃ t, exec (.smov f) s = .next t ∧ Kept c t ∧ Advanced c t ∧ c.setsKept t
        ∧ c.wrote (.smov f) (isWide f.ty) (fun l => c.special (c.src .b32 f.a l).toNat l) t)

/-! ### Stores, atomics, reservations and fences (R206, R207, R216 to R222) -/

/-- R206, R207, R2, R266: a store of local data puts each active lane's bytes, lowest first, at its address, a higher lane's over
a lower's, or, where its turn makes it late, keeps them until their place in the single order comes; a store from `q13` keeps
its place without data; a store in the fabric window leaves for its peer. Which of the permitted ports it takes is left free
(log 23), and which stores are late is the turn's (log 1). -/
def Obligations.StoresPlaceTheirBytes : Prop :=
  let bytes (f : Ext) (c : Ctx) (x : Nat → Loc) (s t : State) : Prop :=
    ∀ y, t.byteAt y = c.act.foldl (fun v l => match (x l).under (accBytes f.ty) y with
      | some k => BitVec.ofNat 8 ((c.src f.ty f.c l).toNat / 2 ^ (8 * k))
      | none => v) (s.byteAt y)
  let local_ (i : Instr) (f : Ext) (sp : Bool) : Prop := ∀ s c (x : Nat → Loc), Clear i s c → f.c ≠ .queue 13 → c.prompt →
    (∀ l ∈ c.act, c.mayWrite sp false true (accBytes f.ty) l (x l) ∧ s.plain (x l) (accBytes f.ty)) →
    ∃ t, exec i s = .next t ∧ Goes c c.next t ∧ c.valuesKept i t ∧ t.held = s.held ∧ t.outs = s.outs ∧ t.remotes = s.remotes
      ∧ t.late = s.late ∧ bytes f c x s t
  let late (i : Instr) (f : Ext) (sp : Bool) : Prop := ∀ s c (x : Nat → Loc), Clear i s c → f.c ≠ .queue 13 →
    (∀ l ∈ c.act, c.mayWrite sp false true (accBytes f.ty) l (x l) ∧ s.cur.late.getLsbD l = true) →
    ∃ t, exec i s = .next t ∧ KeptBut c (fun s => { s with late := [], fresh := 0 }) id t ∧ Advanced c t ∧ c.setsKept t
      ∧ c.valuesKept i t ∧ (∀ y, t.byteAt y = s.byteAt y)
      ∧ c.isLater sp c.act (fun l => .store (leBytes (accBytes f.ty) (c.src f.ty f.c l).toNat)) x t
  let waiting (i : Instr) (f : Ext) (sp : Bool) : Prop := ∀ s c (x : Nat → Loc), Clear i s c → f.c = .queue 13 →
    (∀ l ∈ c.act, ∀ h ∈ s.late, overlap h.loc h.n (x l) (accBytes f.ty) = false) →
    (∀ l ∈ c.act, c.mayWrite sp false true (accBytes f.ty) l (x l) ∧ s.waitingStores (c.own l) < 64 ∧ c.noData l = false) →
    ∃ t, exec i s = .next t ∧ Goes c c.next t ∧ c.setsKept t ∧ c.valuesKept i t ∧ (∀ y, t.byteAt y = s.byteAt y)
      ∧ t.held = s.held ++ c.act.zipIdx.map fun p =>
          ({ id := s.fresh + p.2, own := c.own p.1, loc := x p.1, n := accBytes f.ty, addr := c.addr sp p.1, pc := c.pc, ty := f.ty,
             sp, rel := f.rel && !sp, hint := f.hint, clears := c.clears } : Held)
  let remote (i : Instr) (f : Ext) : Prop := ∀ s c (x : Nat → Tlb) (port : Nat → Nat) (head : Nat → Carried), Clear i s c → f.c ≠ .queue 13 → f.rel = false →
    (∀ r ∈ s.remotes, r.id < s.fresh) → c.prompt →
    (∀ l ∈ c.act, c.sends false true (accBytes f.ty) l (x l) (port l) (head l) ∧ c.pair.captured l = false) →
    ∃ t, exec i s = .next t ∧ Advanced c t ∧ c.setsKept t ∧ c.valuesKept i t ∧ (∀ y, t.byteAt y = s.byteAt y)
      ∧ t.remotes = s.remotes ++ c.act.zipIdx.map fun p =>
          ({ id := s.fresh + p.2, own := c.own p.1, op := .write, peer := (x p.1).peer, addr := c.gaddr p.1,
             raddr := (x p.1).addr (c.gaddr p.1), ty := f.ty, val := c.src f.ty f.c p.1, pc := c.pc, sent := some s.clk,
             head := head p.1, port := port p.1 } : Remote)
  (∀ f, waiting (.st f) f false) ∧ (∀ f, waiting (.stSp f) f true)
  ∧ (∀ f, local_ (.stY f) f false) ∧ (∀ f, local_ (.stSp f) f true) ∧ (∀ f, remote (.stY f) f)
  ∧ (∀ f, late (.stY f) f false) ∧ (∀ f, late (.stSp f) f true)
  ∧ (∀ f s c (x : Nat → Tlb), Clear (.st f) s c → f.c = .queue 13 →
      (∀ l ∈ c.act, aligned (c.gaddr l).toNat (accBytes f.ty) = true ∧ inFabric (c.gaddr l) = true
        ∧ c.xlates false true l = .ok (x l) ∧ (x l).remote = true ∧ c.st.acquiring (c.own l) = false ∧ c.pair.captured l = false
        ∧ s.waitingStores (c.own l) < 64 ∧ c.noData l = false) →
      ∃ t, exec (.st f) s = .next t ∧ Advanced c t ∧ c.setsKept t ∧ c.valuesKept (.st f) t ∧ (∀ y, t.byteAt y = s.byteAt y)
        ∧ t.held = s.held ++ c.act.zipIdx.map fun p =>
            ({ id := s.fresh + p.2, own := c.own p.1, loc := .glob ((x p.1).addr (c.gaddr p.1)), n := accBytes f.ty,
               addr := c.gaddr p.1, pc := c.pc, ty := f.ty, rel := f.rel, hint := f.hint, clears := c.clears, remote := true,
               peer := (x p.1).peer } : Held))
  ∧ (∀ (s : State) pre h post bs, s.placesNext pre h post → h.op = .store bs → bs.length = h.n → s.plain h.loc h.n →
      (∀ p off, h.loc = .sp p off → (s.block? p).isSome = true) →
      ∃ t, step s = .next t ∧ t.late = pre ++ post
        ∧ ∀ y, t.byteAt y = match h.loc.under h.n y with
          | some j => bs.getD j 0
          | none => s.byteAt y)

/-- R191, R225: whatever a storing instruction comes to, where no access is late (log 1) and no memory error is to be reported, no byte of memory changes outside the bytes that its active lanes' addresses name, at the instruction's
width. -/
def Obligations.StoresTouchOnlyTheirBytes : Prop :=
  let frame (i : Instr) (loc : Ctx → Nat → Option Loc) (n : Nat) : Prop := ∀ s t c, s.begin? i = some c → exec i s = .next t →
    s.errs = [] → (∀ e ∈ s.blocks, e.2.errs = []) → s.late = [] → ∀ y, (∀ l ∈ c.act, ∀ x, loc (c.replayed i) l = some x → x.under n y = none) → t.byteAt y = s.byteAt y
  let at_ (sp rd wr : Bool) (n : Nat) (c : Ctx) : Nat → Option Loc := c.loc sp (c.xlates rd wr) n
  (∀ f, frame (.st f) (at_ false false true (accBytes f.ty)) (accBytes f.ty))
  ∧ (∀ f, frame (.stY f) (at_ false false true (accBytes f.ty)) (accBytes f.ty))
  ∧ (∀ f, frame (.stSp f) (at_ true false true (accBytes f.ty)) (accBytes f.ty))
  ∧ (∀ op f, frame (.atom op f) (at_ f.sp true true (accBytes f.ty)) (accBytes f.ty))
  ∧ (∀ f, frame (.atomCas f) (at_ f.sp true true (accBytes f.ty)) (accBytes f.ty))
  ∧ (∀ f, frame (.sc f) (at_ f.sp true false (accBytes f.ty)) (accBytes f.ty))
  ∧ (∀ f, frame (.joinSave f) (fun c _ => some (.sp c.place (c.offVote.getD 0))) 32)

/-- R216 to R218: an atomic acts lane by lane in ascending order; in each lane it replaces the bytes by the new value of the
operation and returns the old one, or, where its turn makes it late, does so when its place in the single order comes; an ordered float
add joins its launch's buffer. The new values on integers and bit strings are mod 2^w, from the old value, operand c and operand e; a
float add is rounded once under RNE, each half of `.bf16x2` for itself. Which atomics are late is the turn's (log 1), and which of the
permitted ports a remote one takes is left free (log 23). -/
def Obligations.AtomicsReplaceTheirWord : Prop :=
  (let runs (i : Instr) (op : Option AtomOp) (f : Ext) : Prop := ∀ s c (x : Nat → Loc), Clear i s c →
     (∀ l ∈ c.act, c.mayWrite f.sp true true (accBytes f.ty) l (x l) ∧ s.heldOver (x l) (accBytes f.ty) = false
       ∨ f.sp = false ∧ c.pair.captured l = false ∧ ∃ t port head, c.sends true true (accBytes f.ty) l t port head) →
     (∀ l ∈ c.act, c.ordered op l = true → f.nr = true) →
     (c.act.filter (c.ordered op)).length ≤ s.orderedFree c.blk.part →
     Completes i s c (.done (c.act.foldl (c.atomAt op (c.xlates true true)) (c.commit i)))
   let acts (op : Option AtomOp) : Prop := ∀ (c : Ctx) (u : State) (l : Nat) (x : Loc) (b : Block),
     let n := accBytes c.f.ty
     u.block? c.place = some b → c.loc c.f.sp (c.xlates true true) n l = some x → u.plain x n → u.errIn x n = none →
     (∀ p off, x = .sp p off → (u.block? p).isSome = true) →
     let t := c.atomAt op (c.xlates true true) u l
     let new := atomResult op c.f.ty (u.natAt x n) (c.src c.f.ty c.f.c l).toNat (c.src c.f.ty c.f.d l).toNat
     (c.ordered op l = false → c.isLate l = false →
       (∀ y, t.byteAt y = match x.under n y with
         | some k => BitVec.ofNat 8 (new / 2 ^ (8 * k))
         | none => u.byteAt y)
       ∧ (c.f.nr = true → t.outs = u.outs)
       ∧ (c.f.nr = false → destOf c.f.dst ≠ .drop → ∃ id, t.outs = u.outs ++
           [{ id, own := c.own l, dst := destOf c.f.dst, ty := c.f.ty, bytes := (leBytes n (u.natAt x n)).map .byte,
              addr := c.addr c.f.sp l, pc := c.pc }]))
     ∧ (c.ordered op l = false → c.isLate l = true → (∀ y, t.byteAt y = u.byteAt y)
         ∧ t.late = u.late ++ [{ id := u.fresh, issue := c.st.fresh, own := c.own l
                                 op := .atom op (c.src c.f.ty c.f.c l) (c.src c.f.ty c.f.d l), loc := x, n, ty := c.f.ty
                                 addr := c.addr c.f.sp l, pc := c.pc, clears := c.clears }]
         ∧ t.outs = u.outs ++ if c.f.nr = true ∨ destOf c.f.dst = .drop then [] else
             [{ id := u.fresh, own := c.own l, dst := destOf c.f.dst, ty := c.f.ty, bytes := List.replicate n (.held u.fresh 0)
                addr := c.addr c.f.sp l, pc := c.pc }])
     ∧ (c.ordered op l = true → (∀ y, t.byteAt y = u.byteAt y) ∧
         ∀ pa, x = .glob pa →
           let add : OrdAdd := { pa, ty := c.f.ty, val := c.src c.f.ty c.f.c l, b := c.blk.block, g := c.group, l := l,
                                 n := smGet 0 (u.pair c.place c.group).ordCount l, va := c.gaddr l, pc := c.pc,
                                 handle := u.pairHandle c.place c.group }
           t.launches = u.launches.map fun y =>
             if y.part = c.blk.part ∧ y.serial = c.blk.serial then { y with adds := y.adds ++ [add] } else y)
   (∀ op f, runs (.atom op f) (some op) f) ∧ (∀ f, runs (.atomCas f) none f) ∧ (∀ op, acts op)
   ∧ (∀ (s : State) pre h post op v e, s.placesNext pre h post → h.op = .atom op v e → s.plain h.loc h.n →
       (∀ p off, h.loc = .sp p off → (s.block? p).isSome = true) →
       let old := s.natAt h.loc h.n
       ∃ t, step s = .next t ∧ t.late = pre ++ post
         ∧ (∀ y, t.byteAt y = match h.loc.under h.n y with
           | some k => BitVec.ofNat 8 (atomResult op h.ty old v.toNat e.toNat / 2 ^ (8 * k))
           | none => s.byteAt y)
         ∧ t.outs = s.outs.map fun o => if o.id = h.id then { o with bytes := (leBytes h.n old).map .byte } else o))
  ∧ ((∀ ty ∈ [Ty.i32, .n32, .i64, .n64], ∀ old v e, old < 2 ^ tyWidth ty → v < 2 ^ tyWidth ty →
       let x : BitVec (tyWidth ty) := BitVec.ofNat _ old
       let y : BitVec (tyWidth ty) := BitVec.ofNat _ v
       atomResult (some .add) ty old v e = (old + v) % 2 ^ tyWidth ty
       ∧ atomResult (some .min) ty old v e = (if (if isSigned ty then x.toInt ≤ y.toInt else old ≤ v) then old else v)
       ∧ atomResult (some .max) ty old v e = (if (if isSigned ty then y.toInt ≤ x.toInt else v ≤ old) then old else v))
     ∧ (∀ ty ∈ [Ty.b32, .b64], ∀ old v e, old < 2 ^ tyWidth ty → v < 2 ^ tyWidth ty →
       atomResult (some .and) ty old v e = old &&& v ∧ atomResult (some .or) ty old v e = old ||| v
       ∧ atomResult (some .xor) ty old v e = old ^^^ v ∧ atomResult (some .exch) ty old v e = v
       ∧ atomResult none ty old v e = if old = v then e else old)
     ∧ (∀ ty ∈ [Ty.f32, .f64], ∀ old v e, let F := fmtOf ty
       atomResult (some .add) ty old v e = round F .rne (addNum .rne (decodeF F old) (decodeF F v))
       ∧ atomResult (some .min) ty old v e = minMax F false old v ∧ atomResult (some .max) ty old v e = minMax F true old v)
     ∧ (∀ old v e,
       let F := fmtOf .bf16
       let halves (op : Nat → Nat → Nat) : Nat :=
         op (old % 2 ^ 16) (v % 2 ^ 16) + 2 ^ 16 * op (old / 2 ^ 16 % 2 ^ 16) (v / 2 ^ 16 % 2 ^ 16)
       atomResult (some .add) .bf16x2 old v e = halves (fun a b => round F .rne (addNum .rne (decodeF F a) (decodeF F b)))
       ∧ atomResult (some .min) .bf16x2 old v e = halves (minMax F false)
       ∧ atomResult (some .max) .bf16x2 old v e = halves (minMax F true)))

/-- R219: `sc` acts lane by lane; where the lane's reservation names the address and width and still holds, it stores and writes
true, otherwise it stores nothing and writes false; the reservation is gone either way. That the address is compared as the
location it translates to is the model's choice (log 65). -/
def Obligations.ConditionalStores : Prop :=
  (∀ f s c (x : Nat → Loc), Clear (.sc f) s c →
    (∀ l ∈ c.act, c.mayWrite f.sp true false (accBytes f.ty) l (x l) ∧ s.heldOver (x l) (accBytes f.ty) = false) →
    (∀ l ∈ c.act, f.sp = false → s.holdsResv c l (x l) = true → ∃ t, c.xlates true true l = .ok t) →
    Completes (.sc f) s c (.done (c.act.foldl (c.scAt (c.loc f.sp (c.xlates true false) (accBytes f.ty))) (c.commit (.sc f)))))
  ∧ (∀ (c : Ctx) (u : State) (l : Nat) (x : Loc) (b : Block) (d : BitVec 7) (loc : Nat → Option Loc),
    let n := accBytes c.f.ty
    u.block? c.place = some b → loc l = some x → c.f.dst = .reg d → u.plain x n → u.errIn x n = none →
    (∀ p off, x = .sp p off → (u.block? p).isSome = true) →
    let t := c.scAt loc u l
    let ok := u.holdsResv c l x
    (∀ y, t.byteAt y = match x.under n y with
      | some k => if ok then BitVec.ofNat 8 ((c.src c.f.ty c.f.c l).toNat / 2 ^ (8 * k)) else u.byteAt y
      | none => u.byteAt y)
    ∧ (∀ k < 8, (((t.pair c.place c.group).half c.sl).lane l).pred k
        = if k = d.toNat ∧ k ≠ 0 then ok else (((u.pair c.place c.group).half c.sl).lane l).pred k)
    ∧ smFind (t.pair c.place c.group).resv l = none)

/-- R55, R220: a fence whose lanes have nothing outstanding writes each active lane's status word, of the interval that ends
with it, to `%fencestat` and, unless `.nr`, to its destination, and the interval starts anew; while an access of one of its lanes is
outstanding, or a stream holds one, it waits. -/
def Obligations.FencesReportTheirInterval : Prop :=
  (∀ scope f s c, Clear (.fence scope f) s c → (∃ l ∈ c.act, s.unfenced (c.own l) = true ∨ c.pair.captured l = true) →
    exec (.fence scope f) s = .next s)
  ∧ ∀ scope f s c, Clear (.fence scope f) s c → c.evenDst false →
    (∀ l ∈ c.act, s.unfenced (c.own l) = false ∧ c.pair.captured l = false) →
    let word (l : Nat) : Word :=
      let k := smGet {} c.pair.fences l
      BitVec.ofNat 32 ((if k.count = 0 then 0 else 1) + (if k.dead then 2 else 0) + (if k.refused then 4 else 0)
        + (if k.multi then 8 else 0) + k.port * 16 + scopeCode scope * 2 ^ 8 + k.count * 2 ^ 16)
    ∃ t, exec (.fence scope f) s = .next t ∧ Kept c t ∧ Goes c c.next t ∧ c.setsKept t
      ∧ (if f.nr then c.regsKept t ∧ c.uniKept t ∧ c.predsKept t ∧ c.popsOnly (.fence scope f) t
         else c.wrote (.fence scope f) false (fun l => (word l).zeroExtend 64) t)
      ∧ ∀ l, smGet 0xf0 (t.pair c.place c.group).fencestat l = (if l ∈ c.act then word l else smGet 0xf0 c.pair.fencestat l)
        ∧ smGet {} (t.pair c.place c.group).fences l = if l ∈ c.act then {} else smGet {} c.pair.fences l

/-! ### Barriers (R224 to R228, R284) -/

/-- R194, R226: with every active lane's word within reach, and its tag, waiters, range and class as the instruction asks, a
barrier instruction acts lane by lane and completes. -/
def Obligations.BarrierInstructionsComplete : Prop :=
  let ready (c : Ctx) (x : Nat → Loc) : Prop := ∀ l ∈ c.act, c.mayWrite c.f.sp true true 8 l (x l) ∧ c.st.heldOver (x l) 8 = false
  let live (c : Ctx) (x : Nat → Loc) : Prop := ∀ l ∈ c.act, (c.st.tagAt (x l)).isSome = true
  (∀ f s c (x : Nat → Loc), Clear (.barInit f) s c → ready c x → (∀ l ∈ c.act, c.word f.c l ≤ 65535) →
      (∀ l ∈ c.act, s.tagAt (x l) = none ∨ s.waiters (x l) = []) →
      Completes (.barInit f) s c (barInitAct c c.barLocs (c.commit (.barInit f))))
  ∧ (∀ f s c (x : Nat → Loc), Clear (.barArrive f) s c → ready c x → live c x → (∀ l ∈ c.act, 1 ≤ c.word f.c l ∧ c.word f.c l ≤ 65535) →
      Completes (.barArrive f) s c (barArriveAct c c.barLocs (c.commit (.barArrive f))))
  ∧ (∀ f s c (x : Nat → Loc), Clear (.barWait f) s c → ready c x → live c x →
      (∀ l ∈ c.act, waitOk c.blk (s.barAt (x l)) (s.tagAt (x l)) = true) →
      Completes (.barWait f) s c (barWaitAct c c.barLocs (c.commit (.barWait f))))
  ∧ (∀ f s c (x : Nat → Loc), Clear (.barInval f) s c → ready c x → live c x →
      Completes (.barInval f) s c (barInvalAct c c.barLocs (c.commit (.barInval f))))
  ∧ (∀ f s c (x : Nat → Loc) n, Clear (.barTest f) s c → ready c x → live c x → f.dst = .reg n →
      ∃ t, exec (.barTest f) s = .next t ∧ ReadKept c t ∧ Advanced c t ∧ c.setsKept t
        ∧ c.wrotePred (.barTest f) n (fun l => let w := s.barAt (x l)
            w.inval || (w.phase != (c.word f.c l).testBit 0)) t)

/-- R224, R226: what a barrier instruction leaves of the words that its active lanes name, the lanes of one word acting on it in
ascending order: set up anew with its live tag, or made plain memory, by `bar.init`; counted by `bar.arrive`, every completed phase
turning PHASE and releasing the waiters; invalidated by `bar.inval`; and `bar.wait` goes on with the status or blocks. No other byte
changes, and lanes that issue wait on none of the words. That a lane which `bar.wait` blocks stands at the instruction is the model's reading (log 28). -/
def Obligations.BarrierWordsChange : Prop :=
  let meets (c : Ctx) (x : Nat → Loc) : Prop := ∀ l ∈ c.act, c.mayWrite c.f.sp true true 8 l (x l) ∧ c.st.heldOver (x l) 8 = false
    ∧ match x l with
      | .glob a | .sp _ a => a % 8 = 0
  let lanes (c : Ctx) (x : Nat → Loc) (w : Loc) : List Nat := c.act.filter fun l => decide (x l = w)
  let rest (s : State) (c : Ctx) (x : Nat → Loc) (t : State) : Prop :=
    ∀ y, (∀ l ∈ c.act, (x l).under 8 y = none) → t.byteAt y = s.byteAt y ∧ t.tagAt y = s.tagAt y
  let onward (c : Ctx) (t : State) : Prop := ∀ l ∈ c.path, ((c.halfIn t).lane l).standsAs (c.next l)
  let others (s : State) (c : Ctx) (x : Nat → Loc) : Prop := ∀ l ∈ c.act, ∀ k ∈ s.waiters (x l),
    ¬ (k.place = c.place ∧ k.group = c.group ∧ k.lane ∈ c.path)
  let freed (s : State) (w : Loc) (t : State) : Prop := ∀ p g m va gen ph k, ((s.pair p g).acc.lane m).wait = .barrier va w gen ph k →
    k.left = false → ((t.pair p g).acc.lane m).wait = .none
  (∀ f s c x, Clear (.barInit f) s c → meets c x → (∀ l ∈ c.act, c.word f.c l ≤ 65535) →
      (∀ l ∈ c.act, s.tagAt (x l) = none ∨ s.waiters (x l) = []) →
      let set (q : BarWord × Bool) (l : Nat) : BarWord × Bool := if c.word f.c l = 0 then (q.1, false) else
        ({ expect := c.word f.c l, arrived := 0, phase := false, cls := clsCode c.blk.kernel.decl.cls, inval := false,
           gen := (q.1.gen + 1) % 16, sinit := c.blk.start % 2 ^ 24 }, true)
      ∃ t, exec (.barInit f) s = .next t ∧ Goes c c.next t ∧ rest s c x t
        ∧ ∀ l ∈ c.act, (t.barAt (x l), (t.tagAt (x l)).isSome) = (lanes c x (x l)).foldl set (s.barAt (x l), (s.tagAt (x l)).isSome))
  ∧ (∀ f s c x, Clear (.barArrive f) s c → meets c x → (∀ l ∈ c.act, (s.tagAt (x l)).isSome = true) →
      (∀ l ∈ c.act, 1 ≤ c.word f.c l ∧ c.word f.c l ≤ 65535) → (∀ l ∈ c.act, (s.barAt (x l)).expect ≠ 0) → others s c x →
      let count (w : BarWord) (l : Nat) : BarWord := if w.inval then w else
        { w with arrived := (w.arrived + c.word f.c l) % w.expect
                 phase := w.phase != decide ((w.arrived + c.word f.c l) / w.expect % 2 = 1) }
      ∃ t, exec (.barArrive f) s = .next t ∧ onward c t ∧ rest s c x t
        ∧ (∀ l ∈ c.act, t.barAt (x l) = (lanes c x (x l)).foldl count (s.barAt (x l)))
        ∧ (∀ n, f.dst = .reg n → f.nr = false → ∀ l ∈ c.act,
            let w := ((lanes c x (x l)).filter fun m => decide (m ≤ l)).foldl count (s.barAt (x l))
            (c.halfIn t).reg l n.toNat = (if w.phase then 1 else 0) + (if w.inval then 2 else 0))
        ∧ ∀ l ∈ c.act, (s.barAt (x l)).inval = false →
            (s.barAt (x l)).expect ≤ (s.barAt (x l)).arrived + ((lanes c x (x l)).map (c.word f.c)).sum → freed s (x l) t)
  ∧ (∀ f s c x, Clear (.barWait f) s c → meets c x → (∀ l ∈ c.act, (s.tagAt (x l)).isSome = true) →
      (∀ l ∈ c.act, waitOk c.blk (s.barAt (x l)) (s.tagAt (x l)) = true) →
      let ph (l : Nat) : Bool := (c.word f.c l).testBit 0
      let on (l : Nat) : Prop := (s.barAt (x l)).inval = true ∨ (s.barAt (x l)).phase ≠ ph l
      ∃ t, exec (.barWait f) s = .next t ∧ (∀ y, t.byteAt y = s.byteAt y)
        ∧ (∀ l ∈ c.path, ¬ (l ∈ c.act ∧ ¬ on l) → ((c.halfIn t).lane l).standsAs (c.next l))
        ∧ (∀ l ∈ c.act, ¬ on l → ((c.halfIn t).lane l).standsAs { c.half.lane l with
            wait := .barrier (c.addr f.sp l) (x l) (s.barAt (x l)).gen (ph l) { dst := f.dst, nr := f.nr, len := c.len, no := s.fresh } })
        ∧ (∀ l, l ∉ c.path → (c.halfIn t).lane l = c.half.lane l)
        ∧ ∀ n, f.dst = .reg n → f.nr = false → ∀ l ∈ c.act, on l → (c.halfIn t).reg l n.toNat
            = (if (s.barAt (x l)).phase then 1 else 0) + (if (s.barAt (x l)).inval then 2 else 0))
  ∧ (∀ f s c x, Clear (.barInval f) s c → meets c x → (∀ l ∈ c.act, (s.tagAt (x l)).isSome = true) → others s c x →
      ∃ t, exec (.barInval f) s = .next t ∧ onward c t ∧ rest s c x t
        ∧ ∀ l ∈ c.act, let w := s.barAt (x l)
            t.barAt (x l) = (if w.inval then w else { w with inval := true, arrived := 0, gen := (w.gen + 1) % 16 })
            ∧ (w.inval = false → freed s (x l) t))

/-! ### Copies and collectives (R230 to R237) -/

/-- R230, R231, R234 to R237: a checked copy of each active lane enters its channel in lane order while the channel has room, with
GEN of its barrier word, and the other lanes wait to enter with nothing popped; `copy.wait` goes on with the channel's status, or
waits; a collective joins the engine's list with the next number of its participant on its communicator, once that can be read. That
lanes which wait at `copy.wait`, or to enter, stand at the instruction is the model's reading (log 28). -/
def Obligations.CopiesAndCollectivesStart : Prop :=
  let copy (c : Ctx) (l k : Nat) : Copy :=
    let r := c.copyReq l
    { id := c.st.fresh + k, own := c.own l, dst := r.dst, src := r.src, left := r.len, ch := r.ch, dir := r.dir,
      bar := if c.f.bar then some (c.copyBar l, c.st.genAt c.place (c.copyBar l)) else none, hint := r.hint, gpage := r.gpage }
  let entered (c : Ctx) (free : Nat) : List Copy := (c.act.take free).zipIdx.map fun p => copy c p.1 p.2
  (∀ f s c, Clear (.copyAsync f) s c →
      (copyMisaligned c).1 = [] → (copyScratch c).1 = [] → (copyOperand c).1 = [] → (copyMemory c).1 = [] → (copyBarrier c).1 = [] →
      c.engineWaits = false → (∀ l ∈ c.act, (c.copyXl l).waits = false) →
      let free := if c.pair.entering.any (fun r => decide (r.ch = f.ch)) then 0
        else 32 - (((s.core c.core).chan f.ch).filter fun k => !s.frozen k.own).length
      c.act = [] ∨ 0 < free →
      ∃ t, exec (.copyAsync f) s = .next t ∧ t.mem = s.mem ∧ c.setsKept t ∧ c.regsKept t ∧ c.uniKept t ∧ c.predsKept t
        ∧ (∀ q l, l < 64 → (t.pair c.place c.group).queue q l
            = if l ∈ c.act.drop free then c.pair.queue q l else c.left (.copyAsync f) q l)
        ∧ (t.core c.core).chan f.ch = (s.core c.core).chan f.ch ++ entered c free
        ∧ (t.pair c.place c.group).entering = c.pair.entering ++ (c.act.drop free).map c.copyReq
        ∧ Goes c (fun l => if c.act.drop free = [] then c.next l
            else if l ∈ c.act.drop free then { c.half.lane l with wait := .entering c.len }
            else { c.next l with wait := .entering c.len }) t)
  ∧ (∀ f s c, Clear (.copyWait f) s c → (∀ l ∈ c.act, c.word f.a l ≤ 7) →
      let reached (l : Nat) : Bool := decide (0 ≤ (c.blk.wpAt (c.word f.a l) - lo32 (c.src .b32 f.b l)).toInt)
      let status (l : Nat) : Word := smGet 0 c.blk.chstat (c.word f.a l)
      ∃ t, exec (.copyWait f) s = .next t ∧ KeptBut c (fun s => { s with fresh := 0 }) id t ∧ c.setsKept t ∧ c.predsKept t
        ∧ Goes c (fun l => if l ∈ c.act ∧ reached l = false then
            { c.half.lane l with wait := .copy (c.word f.a l) (lo32 (c.src .b32 f.b l)) { dst := f.dst, len := c.len, no := s.fresh } } else c.next l) t
        ∧ (∀ n, f.dst = .reg n → c.uniKept t ∧ c.popsOnly (.copyWait f) t ∧ ∀ l k, k < 128 → (c.halfIn t).reg l k
            = if l ∈ c.act ∧ k = n.toNat ∧ reached l = true then status l else c.half.reg l k)
        ∧ (∀ n, f.dst = .queue n → c.uniKept t ∧ c.regsKept t ∧ ∀ q l, l < 64 → (t.pair c.place c.group).queue q l
            = c.left (.copyWait f) q l ++ if q = n.toNat ∧ l ∈ c.act ∧ reached l = true ∧ c.lost (.copyWait f) q l = false
                then [{ val := status l }] else []))
  ∧ (∀ (gather : Bool) f s c, let i : Instr := if gather then .collAg f else .collRs f
      Clear i s c → c.act ≠ [] → (collScratch c).1 = [] → c.collBad gather = false → c.commWaits (c.collOf gather).comm = false →
      c.engineWaits = false → (s.colls.filter fun k => decide (k.core = c.core ∧ k.result = none)).length < 16 →
      let key := c.blk.collKey (c.collOf gather).comm
      ∃ t k, exec i s = .next t ∧ Advanced c t ∧ c.quiet i t ∧ t.mem = s.mem ∧ t.colls = s.colls ++ [k]
        ∧ ({ k with id := 0, gen := 0, seq := 0, team := 0 } : Coll) = { c.collOf gather with id := 0, gen := 0, seq := 0, team := 0 }
        ∧ k.id = s.fresh ∧ k.seq = smGet 0 s.collSeqs key ∧ smGet 0 t.collSeqs key = k.seq + 1
        ∧ k.gen = (if noAddr k.bar.toNat then 0 else s.genAt c.place k.bar)
        ∧ (k.team = s.fresh ∨ ∃ x ∈ s.colls, k.team = x.team ∧ x.own.part = k.own.part ∧ x.seq = k.seq ∧ x.rank ≠ k.rank
            ∧ x.peers.getD k.rank (0, 0) = (0xfff, k.comm) ∧ k.peers.getD x.rank (0, 0) = (0xfff, x.comm)))
  ∧ (∀ (gather : Bool) f s c, let i : Instr := if gather then .collAg f else .collRs f
      Clear i s c → c.act ≠ [] → (collScratch c).1 = [] → c.collForm gather = false → c.commWaits (c.collOf gather).comm = true →
      exec i s = .next s)
  ∧ (∀ f s c, Clear (.collRs f) s c → c.act = [] → ∃ t, exec (.collRs f) s = .next t ∧ Kept c t ∧ Advanced c t ∧ c.quiet (.collRs f) t)
  ∧ (∀ f s c, Clear (.collAg f) s c → c.act = [] → ∃ t, exec (.collAg f) s = .next t ∧ Kept c t ∧ Advanced c t ∧ c.quiet (.collAg f) t)

/-! ### Task instructions (R311 to R316) -/

/-- R300, R306, R311 to R316: `task` answers 0 when its block holds no open record; otherwise it completes that record, answers 1,
and the records that depended on it go on. `post` gives each active lane the code and INDEX of its append, in lane order, where no slot
lies in a header, and fills the slot and STATE together; `post.cnt` adds to a counter that saturates; `seal` answers what the list comes
to, and on 0 submits its records; `steal` delivers the oldest ready record that the block may take, or the reason why it takes none.
That `task` acts once, what a failed append leaves of the slot, and the order in which `seal` makes its checks, are the model's reading
(log 40), and so is that an empty list that is sealed is done at once (log 41). -/
def Obligations.TaskInstructionsComplete : Prop :=
  let gives (i : Instr) (c : Ctx) (v : Nat → Word) (t : State) : Prop :=
    if c.f.nr then c.regsKept t ∧ c.uniKept t ∧ c.predsKept t ∧ c.popsOnly i t
    else c.wrote i false (fun l => (v l).zeroExtend 64) t
  let goesOn (i : Instr) : Prop := ∀ s c, Clear i s c → c.act = [] → ∃ t, exec i s = .next t ∧ Kept c t ∧ Advanced c t ∧ c.quiet i t
  let sound (s : State) (x : Loc) (n : Nat) : Prop := s.plain x n ∧ s.errIn x n = none
  let onList (c : Ctx) (wr : Bool) (l : Nat) : Prop := aligned (c.listAddr l).toNat 64 = true ∧ inFabric (c.listAddr l) = false
    ∧ ∃ t, c.listXl wr l = .ok t
  let freed (s t : State) (h : HeldRec) : Prop := ∀ b, s.sub? h.sub = some b → h.idx < b.recs.length → (b.slot h.idx).state ≠ .done →
    (h.sub, h.idx) ∉ t.window ∧ ∀ id x, t.sub? id = some x → ∀ r ∈ x.recs, (h.sub, h.idx) ∉ r.deps
  let delivers (c : Ctx) (n : Nat) (ws : List Word) (t : State) : Prop :=
    c.setsKept t ∧ c.regsKept t ∧ c.predsKept t
      ∧ ∀ k, (c.halfIn t).ureg k = if n ≤ k ∧ k < n + 8 then ws.getD (k - n) 0 else c.half.ureg k
  (∀ f, goesOn (.task f)) ∧ (∀ f, goesOn (.post f)) ∧ (∀ f, goesOn (.postCnt f)) ∧ (∀ f, goesOn (.seal f)) ∧ (∀ f, goesOn (.steal f))
  ∧ (∀ f s c, Clear (.task f) s c → c.blk.toComplete = none →
      ∃ t, exec (.task f) s = .next t ∧ Kept c t ∧ Advanced c t ∧ c.setsKept t ∧ gives (.task f) c (fun _ => 0) t)
  ∧ (∀ f s c h, Clear (.task f) s c → c.act ≠ [] → c.blk.toComplete = some h → c.taskWaits = false → s.recBusy h = false →
      ∃ t, exec (.task f) s = .next t ∧ Goes c c.next t ∧ c.setsKept t ∧ gives (.task f) c (fun _ => 1) t ∧ freed s t h
        ∧ (∀ x, t.sub? h.sub = some x → h.idx < x.recs.length → (x.slot h.idx).state = .done)
        ∧ ∀ b, s.sub? h.sub = some b → (b.slot h.idx).state ≠ .done → b.packet = none → s.isLatest b = true →
            sound s (.glob (b.header + 24)) 4 →
            let old := s.natAt (.glob (b.header + 24)) 4
            let new := t.natAt (.glob (b.header + 24)) 4
            new % 2 ^ 20 = (old % 2 ^ 20 + 1) % 2 ^ 20 ∧ new.testBit 20 = decide (old % 2 ^ 20 + 1 = b.recs.length)
              ∧ ∀ y, (Loc.glob (b.header + 24)).under 4 y = none → t.byteAt y = s.byteAt y)
  ∧ (let header (c : Ctx) (l : Nat) : ListHeader := headerOf (c.st.bytesAt (.glob (c.listPa l)) 64)
     let state (c : Ctx) (l : Nat) : Nat := c.st.natAt (.glob (c.listPa l + 20)) 4
     let rank (c : Ctx) (l : Nat) : Nat := (c.act.filter fun m => decide (m < l ∧ c.listPa m = c.listPa l)).length
     let idx (c : Ctx) (l : Nat) : Nat := state c l % 2 ^ 20 + rank c l
     let code (c : Ctx) (l : Nat) : Nat := if (header c l).broken then 3 else if (state c l).testBit 20 then 1
       else if (header c l).cap ≤ idx c l then 2 else 0
     let slot (c : Ctx) (l : Nat) : DWord := c.listAddr l + BitVec.ofNat 64 (64 + 32 * idx c l)
     let ready (c : Ctx) : Prop := ∀ l ∈ c.act, onList c true l ∧ recordBad (c.recWords l) = false ∧ c.busy l (c.listPa l) 64 = false
       ∧ (code c l = 0 → inFabric (slot c l) = false ∧ ∃ t, c.st.translate c.tctx false true (slot c l) = .ok t
            ∧ c.busy l (t.addr (slot c l)) 32 = false)
     let apart (c : Ctx) : Prop := ∀ l ∈ c.act, sound c.st (.glob (c.listPa l)) 64 ∧ ∀ m ∈ c.act,
       (c.listPa l = c.listPa m ∨ overlap (.glob (c.listPa l)) 64 (.glob (c.listPa m)) 64 = false)
       ∧ (code c l = 0 → ∀ t, c.st.translate c.tctx false true (slot c l) = .ok t →
           overlap (.glob (t.addr (slot c l))) 32 (.glob (c.listPa m)) 64 = false)
     (∀ f s c, Clear (.post f) s c → c.evenDst false → ready c → apart c →
       ∃ t, exec (.post f) s = .next t ∧ Goes c c.next t ∧ c.setsKept t
         ∧ gives (.post f) c (fun l => BitVec.ofNat 32 (code c l + if code c l = 0 then idx c l * 2 ^ 12 else 0)) t)
     ∧ (∀ f s c l x, Clear (.post f) s c → c.act = [l] → ready c → code c l = 0 →
         c.st.translate c.tctx false true (slot c l) = .ok x → sound s (.glob (c.listPa l)) 64 → sound s (.glob (x.addr (slot c l))) 32 →
         overlap (.glob (x.addr (slot c l))) 32 (.glob (c.listPa l + 20)) 4 = false →
         let ws := (c.recWords l).take 6 ++ [BitVec.ofNat 32 (idx c l + (header c l).wave * 2 ^ 24), 0]
         ∃ t, exec (.post f) s = .next t ∧ t.natAt (.glob (c.listPa l + 20)) 4 = state c l + 1
           ∧ t.bytesAt (.glob (x.addr (slot c l))) 32 = ws.flatMap (fun w => leBytes 4 w.toNat)
           ∧ ∀ y, (Loc.glob (x.addr (slot c l))).under 32 y = none → (Loc.glob (c.listPa l + 20)).under 4 y = none →
               t.byteAt y = s.byteAt y)
     ∧ (∀ f s c l, Clear (.post f) s c → c.act = [l] → ready c → code c l ≠ 0 → sound s (.glob (c.listPa l)) 64 →
         ∃ t, exec (.post f) s = .next t
           ∧ t.natAt (.glob (c.listPa l + 20)) 4 = (if code c l = 2 then state c l ||| 2 ^ 21 else state c l)
           ∧ ∀ y, (Loc.glob (c.listPa l + 20)).under 4 y = none → t.byteAt y = s.byteAt y)
     ∧ (∀ f s c l, Clear (.seal f) s c → l ∈ c.act.head? → (∀ m ∈ c.act, c.listAddr m = c.listAddr l) → onList c true l →
         c.busy l (c.listPa l) 64 = false → sound s (.glob (c.listPa l)) 64 →
         let h := header c l
         let ktab := s.readAgent c.tctx (BitVec.ofNat 64 h.ktab) 2048
         let slots := s.readAgent c.tctx (c.listAddr l + 64) (32 * h.count)
         let refuses (d : Word) : Prop :=
           ∃ t, exec (.seal f) s = .next t ∧ Kept c t ∧ Advanced c t ∧ c.setsKept t ∧ gives (.seal f) c (fun _ => d) t
         (h.sealed_ = true → refuses 1)
         ∧ (h.sealed_ = false → s.errs = [] → (∃ e, ktab = .error e) ∨ (∃ e, slots = .error e) → refuses 3)
         ∧ (h.sealed_ = false → ∀ tab bs, ktab = .ok (some tab) → slots = .ok (some bs) →
             let recs := (List.range h.count).map fun i => wordsOfBytes ((bs.drop (32 * i)).take 32)
             let used (w : List Word) : List Byte := tabEntry tab (recKidx w)
             let unfit : Prop := h.bad (s.partRec c.blk.part) = true ∨ ∃ w ∈ recs, s.isDesc c.blk.part (entImage (used w)) = true
               ∧ (s.kernelAt c.blk.part (entImage (used w))).decl.cls = .concurrent
             let uneven : Prop := ∃ w ∈ recs, (recs.filter fun v => decide (recKidx v = recKidx w)).length % entTeam (used w) ≠ 0
             (unfit → refuses 3) ∧ (¬ unfit → uneven → refuses 2)
             ∧ (¬ unfit → ¬ uneven → s.snapFree c.blk.part < snapUnits h.count → refuses 3)
             ∧ (¬ unfit → ¬ uneven → snapUnits h.count ≤ s.snapFree c.blk.part → (∀ x ∈ s.subs, x.id < s.fresh) →
                 ∃ t b, exec (.seal f) s = .next t ∧ Goes c c.next t ∧ c.setsKept t ∧ gives (.seal f) c (fun _ => 0) t
                   ∧ t.natAt (.glob (c.listPa l + 20)) 4 = state c l ||| 2 ^ 20 ||| 2 ^ 22
                   ∧ t.natAt (.glob (c.listPa l + 24)) 4 = (if recs = [] then 2 ^ 20 else 0)
                   ∧ (∀ y, (Loc.glob (c.listPa l + 20)).under 8 y = none → t.byteAt y = s.byteAt y)
                   ∧ t.subs = s.subs ++ [b] ∧ b.part = c.blk.part ∧ b.header = c.listPa l ∧ b.asid = c.blk.asid ∧ b.ktab = tab
                   ∧ b.recs.map (·.words) = recs ∧ b.homeBase = h.homeBase ∧ b.homeCnt = h.homeCnt))))
  ∧ (∀ f s c, Clear (.postCnt f) s c →
      (∀ l ∈ c.act, aligned (c.gaddr l).toNat 4 = true ∧ inFabric (c.gaddr l) = false
        ∧ ∃ t, c.xlates true true l = .ok t ∧ c.busy l (t.addr (c.gaddr l)) 4 = false) →
      ∃ t, exec (.postCnt f) s = .next t ∧ Goes c c.next t ∧ c.setsKept t ∧ c.regsKept t ∧ c.uniKept t ∧ c.predsKept t)
  ∧ (∀ f s c l t, Clear (.postCnt f) s c → c.act = [l] → aligned (c.gaddr l).toNat 4 = true → inFabric (c.gaddr l) = false →
      c.xlates true true l = .ok t → c.busy l (t.addr (c.gaddr l)) 4 = false → sound s (.glob (t.addr (c.gaddr l))) 4 →
      let x := Loc.glob (t.addr (c.gaddr l))
      let old := s.natAt x 4
      let n := old % 2 ^ 20 + (c.src .b32 f.c l).toNat
      ∃ u, exec (.postCnt f) s = .next u
        ∧ u.natAt x 4 = min n (2 ^ 20 - 1) + (if old / 2 ^ 20 % 2 = 1 ∨ 2 ^ 20 ≤ n then 2 ^ 20 else 0)
        ∧ (∀ y, x.under 4 y = none → u.byteAt y = s.byteAt y)
        ∧ u.outs = s.outs ++ if f.nr = true ∨ destOf f.dst = .drop then [] else
            [{ id := s.fresh, own := c.own l, dst := destOf f.dst, ty := .b32, bytes := (leBytes 4 old).map .byte, addr := c.gaddr l,
               pc := c.pc }])
  ∧ (∀ f s c l n, Clear (.steal f) s c → l ∈ c.act.head? → f.dst = .uni n → (∀ m ∈ c.act, c.listAddr m = c.listAddr l) →
      onList c false l → c.blk.openStolen = none →
      let list := s.subs.filter fun b => decide (b.part = c.blk.part ∧ b.header = c.listPa l)
      let none_ (k : Nat) : List Word := List.replicate 7 0 ++ [BitVec.ofNat 32 k]
      (list = [] → ∃ t, exec (.steal f) s = .next t ∧ Kept c t ∧ Advanced c t ∧ delivers c n.toNat (none_ 3) t)
      ∧ ∀ b ∈ list.getLast?,
          let mine (e : Nat × Nat × Nat) : Bool :=
            decide (e.1 = b.id ∧ Nat.max 1 (entTeam (b.entry e.2.1)) = 1 ∧ entImage (b.entry e.2.1) = c.blk.kernel.kd)
          (s.ready.find? mine = none →
            ∃ t, exec (.steal f) s = .next t ∧ Kept c t ∧ Advanced c t
              ∧ delivers c n.toNat (none_ (if b.recs.all fun r => decide (r.state = .dispatched ∨ r.state = .done) then 2 else 1)) t)
          ∧ ∀ e, s.ready.find? mine = some e →
              let i := (b.teamRecs e.2.1 e.2.2).headD 0
              let away := decide (clusterOf c.core ≠ b.home i)
              let ws := (b.slot i).words.take 7 ++ [BitVec.ofNat 32 ((if away then 4 else 0) + b.home i * 2 ^ 8)]
              ∃ t, exec (.steal f) s = .next t ∧ Advanced c t ∧ delivers c n.toNat ws t ∧ t.mem = s.mem
                ∧ t.ready = s.ready.filter (fun x => decide (x ≠ e))
                ∧ ((t.block? c.place).bind (·.stolen)) = some { sub := b.id, idx := i, words := ws })
  ∧ (∀ f s c l n h, Clear (.steal f) s c → l ∈ c.act.head? → f.dst = .uni n → (∀ m ∈ c.act, c.listAddr m = c.listAddr l) →
      onList c false l → c.blk.openStolen = some h → c.taskWaits = false → s.recBusy h = false →
      ∃ t, exec (.steal f) s = .next t ∧ Goes c c.next t ∧ c.setsKept t ∧ c.regsKept t ∧ c.predsKept t ∧ freed s t h)

/-! ### The matrix engine (R239 to R264) -/

/-- R248, R254, R257 to R261: tile instructions at an idle engine clear, load, store, convert and add tiles, element by element, leave
every other element as it is, and keep the engine busy; the scale registers take base and control; `fmt.vote` gives a voted format word. -/
def Obligations.TileInstructions : Prop :=
  let idle (c : Ctx) : Prop := c.act ≠ [] ∧ c.st.engineIdle c.core = true
  let at_ (t : State) (c : Ctx) (wide : Bool) (n p : Nat) : Nat := ((t.block? c.place).map fun b => tileAt b wide n p).getD 0
  let busy (t : State) (c : Ctx) : Prop := (t.core c.core).engine = some { place := c.place, group := c.group, pins := [] }
  let wrap (wide : Bool) (v : Nat) : Nat := v % 2 ^ (if wide then 64 else 32)
  (∀ f s c, Meets false (.zclr f) s c → idle c → tileBad c.blk.kernel.decl.tiles false (tileNo f.dst) 1 = none →
      ∃ t, exec (.zclr f) s = .next t ∧ Goes c c.next t ∧ busy t c ∧ t.mem = c.st.mem
        ∧ ∀ n p, p < 16384 → at_ t c false n p = if n = tileNo f.dst then 0 else tileAt c.blk false n p)
  ∧ (∀ f s c a w rows, Meets false (.zld f) s c → idle c →
      let wide := decide (f.ty = .f64)
      let z := tileNo f.dst
      c.lateViolation (regRun .z z (tileStep wide)) = none → c.window f.b 2 (matBits f.ty) = .ok (a, w) →
      tileBad c.blk.kernel.decl.tiles wide z (tileStep wide) = none → c.winRows a w (matBits f.ty) = some rows →
      c.st.rangesWait rows = false → (∀ r ∈ rows, c.st.errIn r.1 r.2 = none) →
      ∃ t, exec (.zld f) s = .next t ∧ Goes c c.next t ∧ busy t c ∧ t.mem = c.st.mem
        ∧ (∀ n p, p < 16384 → ¬ (z ≤ n ∧ n < z + tileStep wide ∧ p / 128 < w.rows ∧ p % 128 < w.cols) →
            at_ t c false n p = tileAt c.blk false n p)
        ∧ ∀ x y, x < w.rows → y < w.cols → ∀ r, rows[x]? = some r →
            at_ t c wide z (x * 128 + y) = wrap wide (zldValue f.ty (elementAt (matBits f.ty) (c.st.bytesAt r.1 r.2) y)))
  ∧ (∀ f s c a w rows g, Meets false (.zst f) s c → idle c → c.voteFmt f.d = .ok g →
      let z := tileNo f.b
      c.lateViolation (regRun .z z (tileStep g.acc64)) = none → drainOk g.acc64 f.ty = true →
      c.window f.c 3 (matBits f.ty) = .ok (a, w) → tileBad c.blk.kernel.decl.tiles g.acc64 z (tileStep g.acc64) = none →
      c.winRows a w (matBits f.ty) = some rows → c.st.rangesWait rows = false → (∀ r ∈ rows, c.st.plain r.1 r.2 ∧ c.st.errIn r.1 r.2 = none) →
      let bytes (x : Nat) : List Byte := packCodes (matBits f.ty) ((List.range w.cols).map fun y =>
        drainCode g f.ty f.rnd (tileAt c.blk g.acc64 z (x * 128 + y)))
      ∃ t, exec (.zst f) s = .next t ∧ Goes c c.next t ∧ busy t c
        ∧ (∀ x r, rows[x]? = some r → t.bytesAt r.1 (bytes x).length = bytes x)
        ∧ ∀ y, (∀ r ∈ rows, r.1.under r.2 y = none) → t.byteAt y = c.st.byteAt y)
  ∧ (∀ f s c g, Meets false (.zcvt f) s c → idle c → c.voteFmt f.b = .ok g →
      let wide := decide (f.ty = .f64)
      let zd := tileNo f.dst
      let zs := tileNo f.a
      c.lateViolation (regRun .z zd (tileStep wide) ++ regRun .z zs (tileStep g.acc64)) = none →
      (zd = zs ∧ wide = g.acc64 ∨ zs + tileStep g.acc64 ≤ zd ∨ zd + tileStep wide ≤ zs) →
      tileBad c.blk.kernel.decl.tiles wide zd (tileStep wide) = none →
      tileBad c.blk.kernel.decl.tiles g.acc64 zs (tileStep g.acc64) = none →
      ∃ t, exec (.zcvt f) s = .next t ∧ Goes c c.next t ∧ busy t c ∧ t.mem = c.st.mem
        ∧ (∀ n p, p < 16384 → (n < zd ∨ zd + tileStep wide ≤ n) → at_ t c false n p = tileAt c.blk false n p)
        ∧ ∀ p, p < 16384 → at_ t c wide zd p = wrap wide (zcvtValue g f.ty f.rnd (tileAt c.blk g.acc64 zs p)))
  ∧ (∀ f s c g, Meets false (.zadd f) s c → idle c → c.voteFmt f.b = .ok g →
      let zd := tileNo f.dst
      let zs := tileNo f.a
      let F := accFmt g.acc64
      c.lateViolation (regRun .z zd (tileStep g.acc64) ++ regRun .z zs (tileStep g.acc64)) = none →
      tileBad c.blk.kernel.decl.tiles g.acc64 zd (tileStep g.acc64) = none →
      tileBad c.blk.kernel.decl.tiles g.acc64 zs (tileStep g.acc64) = none →
      ∃ t, exec (.zadd f) s = .next t ∧ Goes c c.next t ∧ busy t c ∧ t.mem = c.st.mem
        ∧ (∀ n p, p < 16384 → (n < zd ∨ zd + tileStep g.acc64 ≤ n) → at_ t c false n p = tileAt c.blk false n p)
        ∧ ∀ p, p < 16384 → at_ t c g.acc64 zd p = wrap g.acc64
            (round F g.rnd (addNum g.rnd (decodeF F (tileAt c.blk g.acc64 zd p)) (decodeF F (tileAt c.blk g.acc64 zs p)))))
  ∧ (∀ (isA : Bool) f s c l r, let i : Instr := if isA then .sclSetA f else .sclSetB f
      Meets false i s c → c.act = l :: r →
      let base := c.src .b64 f.a l
      let ctl := lo32 (c.src .b32 f.b l)
      base.toNat % 4 = 0 → ctl.toNat / 2 ^ 26 = 0 → ctl.toNat % 32 ≤ 20 →
      ∃ t, exec i s = .next t ∧ Kept c t ∧ Goes c c.next t ∧ c.setsKept t ∧ c.valuesKept i t
        ∧ (t.pair c.place c.group).sca = (if isA then { base, ctl } else c.pair.sca)
        ∧ (t.pair c.place c.group).scb = (if isA then c.pair.scb else { base, ctl }))
  ∧ (∀ f s c g, Meets false (.fmtVote f) s c → c.act ≠ [] → c.evenDst false → c.voteFmt f.a = .ok g →
      ∃ t, exec (.fmtVote f) s = .next t ∧ Kept c t ∧ Advanced c t ∧ c.setsKept t
        ∧ c.wrote (.fmtVote f) false (c.src .b32 f.a) t)

/-- R251, R252: an `mma` of a legal shape whose operands pass their checks leaves in each element of the result the accumulation
of its two lines over the element's old value, or over zero under `.ovw`, and keeps the engine busy. -/
def Obligations.MultiplyAccumulates : Prop :=
  ∀ f s c g w, Meets false (.mma f) s c → c.act ≠ [] → c.words2 = .ok (g, w) → shapeOk w g = true →
    let sh := shapeOf w
    let ops := [c.opA g sh, c.opB g sh]
    let dst := tileNo f.dst
    let qs := (queuesOf ops).filter fun q => decide (q.2 ≤ c.blk.depth q.1)
    c.lateViolation (laneNames ops ++ regRun .z dst (tilesUsed g.acc64 sh)) = none →
    (∀ q ∈ qs, ∀ l ∈ c.act, frontFilled (c.pair.queue q.1 l) q.2 = true ∧ frontToken (c.pair.queue q.1 l) q.2 = false
      ∧ ((c.pair.queue q.1 l).take q.2).any Elem.replay = false) →
    c.st.engineIdle c.core = true → checkOps c ops g.acc64 dst (tilesUsed g.acc64 sh) = none → opsWait c ops = false →
    (∀ o ∈ ops, ∀ r ∈ (o.ranges c.st c.place).getD [], c.st.errIn r.1 r.2 = none) →
    let x := (c.opA g sh).data c.st c
    let y := (c.opB g sh).data c.st c
    ∃ t, exec (.mma f) s = .next t ∧ Goes c c.next t ∧ t.mem = c.st.mem ∧ (t.core c.core).engine.isSome = true
      ∧ ∀ i j, i < sh.m → j < sh.n →
        let p := resultAt g.acc64 dst sh i j
        let old := if f.mods.getLsbD 0 then 0 else tileAt c.blk g.acc64 p.1 p.2
        ((t.block? c.place).map fun b => tileAt b g.acc64 p.1 p.2)
          = some (accumulate g old (x.rows.getD i []) (y.rows.getD j []) (x.scales.getD i []) (y.scales.getD j [])
              % 2 ^ (if g.acc64 then 64 else 32))

/-- R239, R256: without active lanes a matrix instruction only goes on, one of majors 0x78 and 0x79 once the core's engine is idle; a
group at `mma.team` waits there, all its lanes at the instruction, while a member of its team has still to come or the engine of one is
not idle. -/
def Obligations.TeamMultipliesWait : Prop :=
  let goesOn (onEngine : Bool) (i : Instr) : Prop := ∀ s c, Meets false i s c → c.act = [] →
    (onEngine = true → c.st.engineIdle c.core = true) → ∃ t, exec i s = .next t ∧ Kept c t ∧ Advanced c t ∧ c.quiet i t
  (∀ f, ∀ i ∈ [Instr.mma f, .mmaTeam f, .zclr f, .zld f, .zst f, .zcvt f, .zadd f], goesOn true i)
  ∧ (∀ f, ∀ i ∈ [Instr.sclSetA f, .sclSetB f, .fmtVote f], goesOn false i)
  ∧ (∀ f, ∀ i ∈ [Instr.mma f, .mmaTeam f, .zclr f, .zld f, .zst f, .zcvt f, .zadd f], ∀ s c, Meets false i s c → c.act = [] →
      c.st.engineIdle c.core = false → exec i s = .next c.st)
  ∧ (∀ f s c p b, Meets false (.mmaTeam f) s c → c.act ≠ [] → (p, b) ∈ c.atTeam.blocks →
      b.part = c.blk.part ∧ b.serial = c.blk.serial ∧ b.team = c.blk.team →
      (c.atTeam.pair p c.group).teamWait = false ∨ c.atTeam.engineIdle (coreOf p) = false →
      ∃ t, exec (.mmaTeam f) s = .next t ∧ t.mem = c.st.mem ∧ (t.pair c.place c.group).teamWait = true
        ∧ ∀ l ∈ c.pair.exe.liveLanes c.w, ((t.pair c.place c.group).exe.lane l).wait = .rendezvous
            ∧ ((t.pair c.place c.group).exe.lane l).pc = (c.pair.exe.lane l).pc)

/-! ### System instructions (R332 to R338, R373, R393, R407, R427) -/

/-- R332, R333: in a mode that may, `sysrd` gives the value of a listed register and `syswr` leaves the written value, without
its reserved bits, in one that may be written; a value outside the range of the field is ignored; nothing else changes. -/
def Obligations.SystemRegisterAccess : Prop :=
  let no (m : Mode) : Nat := match m with | .user => 0 | .supervisor => 1 | .firmware => 2
  (∀ f s c, Clear (.sysrd f) s c → c.blk.kernel.mode ≠ .user → (sysWidth (sysIndex f)).isSome = true → c.evenDst (isWide f.ty) →
      let idx := sysIndex f
      let v : DWord := if idx = 0x000 then BitVec.ofNat 64 (no c.blk.kernel.mode + c.blk.part % 8 * 4 + c.core % 256 * 2 ^ 8)
        else if idx = 0x024 then s.ports.zeroExtend 64 else if idx = 0x030 then s.mbox
        else if idx = 0x031 then s.mboxn.zeroExtend 64 else s.sysreg c.blk.part idx
      ∃ t, exec (.sysrd f) s = .next t ∧ Kept c t ∧ Advanced c t ∧ c.setsKept t
        ∧ c.wrote (.sysrd f) (isWide f.ty) (fun _ => v) t)
  ∧ (∀ f s c v, let idx := sysIndex f
      ∀ i ∈ [Instr.syswr f, .sampleWrite f], Clear i s c → (∀ l ∈ c.act, c.src f.ty f.b l = v) → c.act ≠ [] →
      c.blk.kernel.mode ≠ .user → (sysWidth idx).isSome = true → idx ≠ 0x000 → idx ≠ 0x024 →
      (idx = 0x009 ∨ idx = 0x030 ∨ idx = 0x031 → c.blk.kernel.mode = .firmware) →
      let w := sysMask idx v
      let out := ((idx = 0x003 ∨ idx = 0x004) ∧ w = 0) ∨ (idx = 0x009 ∧ (w = 0 ∨ 1024 < w.toNat))
      ∃ t, exec i s = .next t ∧ Advanced c t ∧ c.quiet i t ∧ t.mem = s.mem
        ∧ (out → ∀ m p k n, t.sysValue m p k n = s.sysValue m p k n)
        ∧ (¬ out → ∀ m k, t.sysValue m c.blk.part k idx = w)
        ∧ (∀ m p k n, n < 4096 → n ≠ idx → t.sysValue m p k n = s.sysValue m p k n))
  ∧ (∀ i f s c, i = Instr.syswr f ∨ i = .sampleWrite f → Clear i s c → c.act = [] → c.blk.kernel.mode ≠ .user →
      ∃ t, exec i s = .next t ∧ Kept c t ∧ Advanced c t ∧ c.quiet i t)

/-- R106, R107, R332: an instruction that is no legal encoding of its slice takes the illegal-instruction trap; a system
instruction in user mode, `eret` in supervisor mode and `fwcall` in firmware mode take the privilege trap before anything else
of the instruction. -/
def Obligations.IllegalAndPrivilegedInstructionsTrap : Prop :=
  let stops (s : State) (c : Ctx) (i : Instr) (code : Nat) : Prop := exec i s =
    .next (s.raiseTrap c.place c.group c.sl c.pc { code, lane := c.act.headD 0xff, lanes := c.act })
  let traps (i : Instr) (m : Mode) : Prop := ∀ s c, s.begin? i = some c → legal c.sl i = true → c.blk.kernel.mode = m → stops s c i 0x02
  (∀ i s c, isStep i = false → s.begin? i = some c → WellFormed c.sl i = false → stops s c i 0x01)
  ∧ (∀ f, ∀ i ∈ [Instr.sysrd f, .syswr f, .sampleWrite f, .eret f, .tret f, .tlbinv f, .tlbinvAll f, .ctxsave f, .ctxsaveFree f,
      .ctxload f, .halt f, .haltSafe f, .l1wb f, .fwcall f, .sysfence f], traps i .user)
  ∧ (∀ f, traps (.eret f) .supervisor) ∧ (∀ f, traps (.fwcall f) .firmware)

/-- R338, R373, R374: `tlbinv` begins the removal of the translations that each active lane names, `sysfence` waits while one that its
lanes began in either slice is in progress and then goes on, and `l1wb` ends every lease of the core. -/
def Obligations.TranslationAndCacheMaintenance : Prop :=
  let asked (c : Ctx) (asid : Nat → Option Nat) (va : Nat → Option DWord) : List Inval := c.act.zipIdx.map fun p =>
    { id := c.st.fresh + p.2, part := c.blk.part, asid := asid p.1, va := va p.1, own := c.own p.1 }
  (∀ f s c, Clear (.tlbinv f) s c → c.blk.kernel.mode ≠ .user →
      (∀ l ∈ c.act, canonical (c.src .b64 f.a l) = true ∧ c.word f.b l ≤ 0xffff) →
      ∃ t, exec (.tlbinv f) s = .next t ∧ Advanced c t ∧ c.quiet (.tlbinv f) t ∧ t.mem = s.mem
        ∧ t.invals = s.invals ++ asked c (fun l => some (c.word f.b l)) (fun l => some (c.src .b64 f.a l)))
  ∧ (∀ f s c, Clear (.tlbinvAll f) s c → c.blk.kernel.mode ≠ .user →
      (∀ l ∈ c.act, c.word f.a l ≤ 0xffff ∨ c.word f.a l = 0xffffffff) →
      ∃ t, exec (.tlbinvAll f) s = .next t ∧ Advanced c t ∧ c.quiet (.tlbinvAll f) t ∧ t.mem = s.mem
        ∧ t.invals = s.invals ++ asked c (fun l => if c.word f.a l = 0xffffffff then none else some (c.word f.a l)) fun _ => none)
  ∧ (∀ f s c, Clear (.sysfence f) s c → c.blk.kernel.mode ≠ .user →
      ((∀ v ∈ s.invals, ∀ l ∈ c.act, v.own ≠ c.own l) →
        ∃ t, exec (.sysfence f) s = .next t ∧ Kept c t ∧ Advanced c t ∧ c.quiet (.sysfence f) t)
      ∧ ((∃ v ∈ s.invals, ∃ l ∈ c.act, v.own = c.own l) → exec (.sysfence f) s = .next c.st))
  ∧ (∀ f s c, Clear (.l1wb f) s c → c.blk.kernel.mode ≠ .user →
      ∃ t, exec (.l1wb f) s = .next t ∧ KeptBut c id (fun k => { k with leases := [], recalls := [] }) t ∧ Advanced c t
        ∧ c.quiet (.l1wb f) t ∧ (c.act ≠ [] → (t.core c.core).leases = [] ∧ (t.core c.core).recalls = []))

/-- R338, R427: `fwcall` posts the lane's call and blocks it, where the mailbox has room; `eret` and the answer port answer the
pending call of their tag: the waiting lane goes on with the answer and the call is gone. Of `fwcall`, what one active lane does is said
here. That the waiting lane keeps its program counter at the instruction is the model's reading (log 28). -/
def Obligations.FirmwareCalls : Prop :=
  (∀ f s c l, Clear (.fwcall f) s c → c.blk.kernel.mode ≠ .user → c.blk.kernel.mode ≠ .firmware → c.act = [l] →
      c.word f.a l ≤ 65535 → s.mailRoom = true →
      ∃ t x, exec (.fwcall f) s = .next t ∧ t.calls = s.calls ++ [x] ∧ x.own = c.own l ∧ x.code = c.word f.a l
        ∧ x.arg = c.src .b64 f.b l ∧ x.answer = none ∧ ((c.halfIn t).lane l).pc = c.pc
        ∧ ∃ k, ((c.halfIn t).lane l).wait = .fwcall x.tag k)
  ∧ (∀ f s c, Clear (.fwcall f) s c → c.blk.kernel.mode ≠ .user → c.blk.kernel.mode ≠ .firmware → c.act = [] →
      ∃ t, exec (.fwcall f) s = .next t ∧ Kept c t ∧ Advanced c t ∧ c.quiet (.fwcall f) t)
  ∧ (∀ f s c, Clear (.eret f) s c → c.blk.kernel.mode = .firmware → (∀ l ∈ c.act, c.unknownTag l = false) →
      Completes (.eret f) s c (.done (c.act.foldl
        (fun u l => u.answerTag (lo32 (c.src .b32 f.a l)) (lo32 (c.src .b32 f.b l))) (c.commit (.eret f)))))
  ∧ (∀ tag v s, exec (.mailboxAnswerPort tag v) s = .next (s.answerTag tag v))
  ∧ (∀ tag v (s : State) x p k n, s.pendingCall tag = some x → s.callerOf x = some (p, k) → (s.pair p x.own.group).run = .running →
      k.dst = .reg n → k.nr = false →
      let t := s.answerTag tag v
      let h := (t.pair p x.own.group).half x.sl
      (∀ y ∈ t.calls, y.tag ≠ tag) ∧ h.reg x.own.lane n.toNat = v ∧ (h.lane x.own.lane).wait = .none ∧ t.mem = s.mem)

/-- R335 to R341, R371, R383, R389: `halt` answers a code for a handle outside the partition or stale, 0 where the target has
stopped, and otherwise stops its target or asks for a safe point, and its lane waits; `tret` answers a code, or 0 and resumes a
stopped pair; `ctxsave` answers a code and the image's size, and with 0 the image is written and, under `.free`, the places are
given up; `ctxload` answers a code, or 0 and replaces a stopped target's state. Every other code leaves all as it was, where no copy of
the target has ended and no uncorrectable error is known. All this is said of one active lane. The corners of these answers (logs 46, 47),
where a waiting lane stands (log 28) and which block images a core image holds (log 69) are the model's reading. -/
def Obligations.HaltSaveAndResume : Prop :=
  let one (i : Instr) (s : State) (c : Ctx) (l : Nat) : Prop := Clear i s c ∧ c.blk.kernel.mode ≠ .user ∧ c.act = [l]
    ∧ malformed (c.handleAt l) = false
  let answers (i : Instr) (s : State) (c : Ctx) (wide : Bool) (v : DWord) : Prop :=
    ∃ t, exec i s = .next t ∧ Kept c t ∧ Advanced c t ∧ c.setsKept t ∧ c.wrote i wide (fun _ => v) t
  let image (code size : Nat) : DWord := BitVec.ofNat 64 (code + (size + 255) / 256 * 2 ^ 32)
  (∀ (safe : Bool) f s c l, let i : Instr := if safe then .haltSafe f else .halt f
      one i s c l → c.evenDst false → (safe = true → (handleWord (c.handleAt l)).level = 0) →
      let h := handleWord (c.handleAt l)
      let k := c.handleCode s h
      (s.haltWaiters = [] → (k ≠ 0 ∨ h.level = 0 ∧ s.targetStopped h = true) → answers i s c false (BitVec.ofNat 64 k))
      ∧ (∀ n, f.dst = .reg n → k ≠ 0 ∨ s.targetStopped h = true → ∃ t, exec i s = .next t
          ∧ (c.halfIn t).reg l n.toNat = BitVec.ofNat 32 k ∧ ((c.halfIn t).lane l).pc = (c.next l).pc)
      ∧ (k = 0 → s.targetStopped h = false → ∃ t, exec i s = .next t
          ∧ (safe = true → (t.pair h.place h.group).safe.isSome = true)
          ∧ (safe = false → h.level = 0 → (t.pair h.place h.group).run.isStopped = true
              ∧ ∀ b n, s.block? h.place = some b → s.pairBusy h.place h.group b = false → f.dst = .reg n →
                  (c.halfIn t).reg l n.toNat = 0 ∧ ((c.halfIn t).lane l).pc = (c.next l).pc)
          ∧ (safe = true ∨ h.level ≠ 0 → ((c.halfIn t).lane l).pc = c.pc ∧ ∃ r, ((c.halfIn t).lane l).wait = .halt (c.handleAt l) safe r)))
  ∧ (∀ f s c l, one (.tret f) s c l → c.evenDst false →
      let h := handleWord (c.handleAt l)
      let k := c.handleCode s h
      let ps := s.targets h
      let pinned : Bool := if h.level = 0 then s.pinned h.place h.group else ps.any fun p =>
        (s.block? p).any fun b => (List.range b.groups).any fun g => (b.pair g).live && s.pinned p g
      let away : Bool := ps.any fun p => (s.block? p).any s.unitAway
      (k ≠ 0 → answers (.tret f) s c false (BitVec.ofNat 64 k))
      ∧ (k = 0 → s.targetStopped h = false ∨ pinned = true → answers (.tret f) s c false 2)
      ∧ (k = 0 → s.targetStopped h = true → pinned = false → away = true → answers (.tret f) s c false 4)
      ∧ (k = 0 → s.targetStopped h = true → pinned = false → away = false → ∃ t, exec (.tret f) s = .next t
          ∧ (∀ n, f.dst = .reg n → (c.halfIn t).reg l n.toNat = 0 ∧ ((c.halfIn t).lane l).pc = (c.next l).pc)
          ∧ (h.level = 0 → (s.pair h.place h.group).teamWait = false → (t.pair h.place h.group).run = .running)))
  ∧ (∀ (free : Bool) f s c l, let i : Instr := if free then .ctxsaveFree f else .ctxsave f
      one i s c l → c.evenDst true → (free = true → (handleWord (c.handleAt l)).level ≠ 0) →
      let h := handleWord (c.handleAt l)
      let k := c.handleCode s h
      let u := c.commit i
      let ps := s.targets h
      let ready : Bool := s.targetStopped h
      let v := if h.level = 0 then u else ps.foldl State.endCopies u
      let bs : List Byte := if h.level = 2 then v.coreImage h.core
        else ((v.block? h.place).map fun b => if h.level = 1 then v.blockImage h.place b else v.pairImage h.place h.group b).getD []
      let n := bs.length
      let reach := v.reachImage c.imageCtx true (c.src .b64 f.b l) (pagesOf n) n
      (k ≠ 0 → answers i s c true (image k 0))
      ∧ (k = 0 → ready = false → answers i s c true (image 2 0))
      ∧ (k = 0 → ready = true → c.word f.c l < n → v = u → answers i s c true (image 6 n))
      ∧ (k = 0 → ready = true → n ≤ c.word f.c l → reach = .fault → v = u → s.errs = [] → answers i s c true (image 6 n))
      ∧ (k = 0 → ready = true → n ≤ c.word f.c l → reach = .outside → v = u → answers i s c true (image 5 n))
      ∧ (k = 0 → ready = true → n ≤ c.word f.c l → reach = .wait → exec i s = .next c.st)
      ∧ (k = 0 → ready = true → n ≤ c.word f.c l → reach = .ok → ∃ t, exec i s = .next t
          ∧ t.mem = (v.writeVirt c.imageCtx (c.src .b64 f.b l) bs (pagesOf n)).1.mem
          ∧ (∀ d, f.dst = .reg d → (c.halfIn t).reg64 l d.toNat = image 0 n ∧ ((c.halfIn t).lane l).pc = (c.next l).pc)
          ∧ (free = true → ∀ p ∈ ps, t.block? p = none)
          ∧ (free = false → ∀ p ∈ ps, (t.block? p).isSome = (s.block? p).isSome)))
  ∧ (∀ f s c l, one (.ctxload f) s c l → c.evenDst false →
      let h := handleWord (c.handleAt l)
      let k := c.loadCode s h
      let u := c.commit (.ctxload f)
      let va := c.src .b64 f.b l
      let mode := modeNo c.blk.kernel.mode
      let part := (s.partOfCore h.core).getD 0
      let tells (code : Nat) : Prop := answers (.ctxload f) s c false (BitVec.ofNat 64 code)
      let loads (bs : List Byte) (t : State) : Prop := exec (.ctxload f) s = .next t ∧ t.mem = s.mem
        ∧ (∀ d, f.dst = .reg d → (c.halfIn t).reg l d.toNat = 0 ∧ ((c.halfIn t).lane l).pc = (c.next l).pc)
        ∧ field bs 32 8 ≤ (t.core h.core).ts
      (k ≠ 0 → tells k)
      ∧ (k = 0 → h.level ≠ 2 → ∀ e, u.readImage c.imageCtx va = .error e → s.errs = [] → tells e.code)
      ∧ (k = 0 → h.level = 0 → ∀ bs b, u.readImage c.imageCtx va = .ok (some bs) → s.block? h.place = some b →
          let reason := u.pairReason b mode h.core h.group bs
          (reason ≠ 0 → tells (3 + reason * 2 ^ 8))
          ∧ (reason = 0 → ∃ t, loads bs t ∧ (t.pair h.place h.group).run.isStopped = true))
      ∧ (k = 0 → h.level = 1 → ∀ bs, u.readImage c.imageCtx va = .ok (some bs) →
          let reason := u.blockReason part mode h.core bs
          (reason ≠ 0 → tells (3 + reason * 2 ^ 8))
          ∧ (reason = 0 → ∀ old, u.savedBlock part (bs.take 64) = some old → ∃ t b, loads bs t ∧ t.block? h.place = some b
              ∧ b.started = true ∧ b.halted = true ∧ b.block = old.block ∧ b.serial = old.serial))
      ∧ (k = 0 → h.level = 2 → (∀ e, u.readBytes c.imageCtx va 64 = .error e → s.errs = [] → tells e.code)
          ∧ ∀ hd, u.readBytes c.imageCtx va 64 = .ok (some hd) → (coreHeaderBad hd = true → tells (3 + 2 ^ 8))
            ∧ ∀ bs, coreHeaderBad hd = false → u.readBlocks c.imageCtx (va + 4096) 17 = .ok (some bs) →
                let r := u.loadCore part mode h hd bs
                (r.2 ≠ 0 → tells r.2) ∧ (r.2 = 0 → ∃ t, loads hd t ∧ ∀ p, (t.block? p).isSome = (r.1.block? p).isSome)))

/-! ### Firmware (R118, R352, R409, R420 to R427) -/

/-- R118, R409, R424, R426: each service answers the pending call of its code. The status of a request that names an index at
which nothing lies is left free (log 7); that an accepted key extends M directly with its bytes is the model's reading (log 90).
What a malformed request is answered (log 33) is the model's choice. -/
def Obligations.FirmwareServices : Prop :=
  let word (status mid high : Nat) : Word := BitVec.ofNat 32 (status + mid * 2 ^ 8 + high * 2 ^ 16)
  let asks (s : State) (tag : Word) (code : Nat) (x : Call) : Prop := s.pendingCall tag = some x ∧ x.code = code
  let gives (i : Instr) (s u : State) (x : Call) (v : Word) : Prop := exec i s = .next (u.answerCall x v)
  (∀ s tag x, asks s tag 0x0000 x → gives (.fwVersion tag) s s x (word 0 Config.equinoxVersion.toNat 0))
  ∧ (∀ s tag x ps, asks s tag 0x0001 x → s.argPages x.ctx x.arg (pagesOf 64) 64 = .ok ps →
      let r := s.partRec x.part
      let bytes := leBytes 8 s.qtab ++ leBytes 2 r.qfirst ++ leBytes 2 r.qcount ++ leBytes 1 x.part ++ List.replicate 51 0
      gives (.fwDescribe tag) s (s.putPages ps bytes) x (word 0 0 0))
  ∧ (∀ s tag x, asks s tag 0x0001 x → s.argPages x.ctx x.arg (pagesOf 64) 64 = .fault → gives (.fwDescribe tag) s s x (word 3 0 0))
  ∧ (∀ s tag x, asks s tag 0x0010 x →
      -- An acceptance waits for those that lower lanes of its issue asked for.
      let before : Prop := ∃ y ∈ s.calls, y.code = 0x10 ∧ y.answer = none ∧ y.at_ = x.at_ ∧ y.sl = x.sl
        ∧ ({ y.own with lane := 0 } : Owner) = { x.own with lane := 0 } ∧ y.own.lane < x.own.lane
      (before → exec (.fwKeyAccept tag) s = .next s)
      ∧ ∀ cert, ¬ before → s.readArg x 256 = .ok (some cert) →
          (∀ k, certBad s.owner cert = false → s.freeKey x.part = some k →
            gives (.fwKeyAccept tag) s { s with kkeys := smPut s.kkeys (x.part * 64 + k) (cert.take 57)
                                                measure := shake256 (s.measure ++ cert.take 57) } x (word 0 0 k))
          ∧ (certBad s.owner cert = true → gives (.fwKeyAccept tag) s s x (word 2 0 0))
          ∧ (certBad s.owner cert = false → s.freeKey x.part = none → gives (.fwKeyAccept tag) s s x (word 4 0 0)))
  ∧ (∀ s tag x, asks s tag 0x0011 x → x.arg.toNat < 64 → (smFind s.kkeys (x.part * 64 + x.arg.toNat)).isSome = true →
      gives (.fwKeyRevoke tag) s { s with kkeys := smErase s.kkeys (x.part * 64 + x.arg.toNat) } x (word 0 0 0))
  ∧ (∀ s tag x ps, asks s tag 0x0020 x → s.argPages x.ctx x.arg (pagesOf 64) 64 = .ok ps →
      gives (.fwMeasure tag) s (s.putPages ps ((s.measure ++ List.replicate 64 0).take 64)) x (word 0 0 0))
  ∧ (∀ s tag x q, asks s tag 0x0030 x → s.readArg x 64 = .ok (some q) →
      let t : TCtx := { x.ctx with asid := field q 16 2, root := (s.sysreg x.part 0x00a).toNat }
      (loadRequestBad q = true → gives (.fwLoad tag) s s x (word 3 0 0))
      ∧ ∀ bs r, loadRequestBad q = false →
          s.readVirt t s.fresh (BitVec.ofNat 64 (field q 0 8)) (pagesOf (field q 24 4)) (field q 24 4) = .ok (some bs) →
          s.loadKernel x.part (if field q 18 1 = 1 then .supervisor else .user) t (BitVec.ofNat 64 (field q 8 8)) bs = some r →
          gives (.fwLoad tag) s r.1 x r.2)
  ∧ (∀ s tag x, asks s tag 0x0031 x → x.arg.toNat < 65536 →
      let kd := descAddr (s.partRec x.part) x.arg.toNat
      s.isDesc x.part kd = true →
      gives (.fwFreeDescriptor tag) s (if s.descNamed x.part kd then s else s.storeFirmware kd (List.replicate 128 0)) x
        (if s.descNamed x.part kd then word 6 0 0 else word 0 0 0))
  ∧ (∀ s tag x q, asks s tag 0x0040 x → s.readArg x 64 = .ok (some q) → field q 36 28 = 0 → field q 32 2 < 512 →
      let at_ := x.part * 512 + field q 32 2
      ∃ u, gives (.fwTssInstall tag) s u x (word 0 0 0) ∧ u.mem = s.mem
        ∧ (∀ k, smFind u.tkeys k = if k = at_ then some (q.take 32 ++ (q.drop 34).take 2) else smFind s.tkeys k)
        ∧ u.oldKeys = s.oldKeys ++ match smFind s.tkeys at_ with
          | some k => [{ part := x.part, idx := field q 32 2, key := k, until_ := s.clk + 1500000 }]
          | none => [])
  ∧ (∀ s tag x, asks s tag 0x0040 x → s.readArg x 64 = .error () → gives (.fwTssInstall tag) s s x (word 3 0 0))
  ∧ (∀ s tag x, asks s tag 0x0041 x → x.arg.toNat < 512 → (smFind s.tkeys (x.part * 512 + x.arg.toNat)).isSome = true →
      gives (.fwTssRemove tag) s { s with tkeys := smErase s.tkeys (x.part * 512 + x.arg.toNat) } x (word 0 0 0))
  ∧ (∀ s tag x, s.pendingCall tag = some x → x.code ∉ [0x0000, 0x0001, 0x0010, 0x0011, 0x0020, 0x0030, 0x0031, 0x0040, 0x0041] →
      gives (.fwUnknownCode tag) s s x (word 1 0 0))

/-- R333, R352, R118, R420, R422: the management processor reads and writes system registers, a firmware-mode launch waits as a
head or is reported with the code that refuses it, Equinox loads its images as the loader does, and a partition record changes
once the granules that pass to it are zero; an invalidated partition's calls are answered. The code of a submission that fails a
check, and which records may change, are the model's reading (log 34). -/
def Obligations.PortsAndSubmissions : Prop :=
  (∀ s part idx, (sysWidth idx).isSome = true → part < 8 → s.sec = .run →
    exec (.mgmtRegisterPort part idx none) s = .next { s with mgmtRead := s.sysValue 2 part 0xff idx }
    ∧ ∀ v, exec (.mgmtRegisterPort part idx (some v)) s = .next (if sysReadOnly idx then s else s.sysWrite part idx v))
  ∧ (∀ s l, s.sec = .run → (s.partRec l.part).valid = true →
      ∃ t, exec (.firmwareSubmission l) s = .next t
        ∧ t.fwHeads = s.fwHeads ++ (if s.fwCode l = 0 then [{ id := s.fresh, l }] else [])
        ∧ t.fwDone = s.fwDone ++ (if s.fwCode l = 0 then [] else [(s.fresh, s.fwCode l)])
        ∧ t = { s with fwHeads := t.fwHeads, fwDone := t.fwDone, fresh := t.fresh })
  ∧ (∀ s i r, s.sec = .run → (s.partRec i.part).valid = true →
      s.loadKernel i.part .firmware { part := i.part, asid := i.asid % 2 ^ 16, root := (s.sysreg i.part 0x00a).toNat, user := false }
        i.datava i.image = some r →
      exec (.firmwareModeLoad i) s = .next r.1)
  ∧ (∀ s r, s.sec = .run → r.part < 8 → (∀ e ∈ s.blocks, e.2.part ≠ r.part) → (∀ p ∈ s.packets, p.part ≠ r.part) →
      (r.valid = true → recordOk r = true ∧ ∀ e ∈ s.parts, e.1 ≠ r.part → e.2.valid = true → recordsClash e.2 r = false) →
      ∃ t, exec (.partitionRecordChange r) s = .next t
        ∧ (∀ p, t.partRec p = if p = r.part then r else s.partRec p)
        ∧ (r.valid = true → t.calls = s.calls ∧ ∀ a,
            let g := a / 2 ^ 30
            t.mem.get a = if g ∈ granulesOf r ∧ ¬ ((s.partRec r.part).valid = true ∧ g ∈ granulesOf (s.partRec r.part)) then 0
              else s.mem.get a)
        ∧ (r.valid = false → ∀ x ∈ t.calls, x.part = r.part → x.answer ≠ none))

/-! ### The scheduler (R24 to R27, R303, R342 to R358, R392) -/

/-- R343 to R345: an enabled queue whose descriptor breaks a rule is set in error; otherwise its next packet is taken, with the write
times of the lines that hold the descriptor and the packet, and one that a check refuses completes with its code. Which descriptors are broken, beyond the rules' own words, is the model's reading
(log 42). -/
def Obligations.QueuesAreTakenInOrder : Prop :=
  ∀ s q part, s.queuePart q = some part → s.heldOver (.glob (s.queueAt q)) 64 = false → s.ownedOver none (.glob (s.queueAt q)) 64 = false →
    let a := s.queueAt q
    let d := s.mem.read a 64
    let flags := field d 10 1
    let widx := field d 16 8
    let ridx := field d 24 8
    let good : Prop := flags % 4 = 1 ∧ queueBroken (s.partRec part) d (smGet 0 s.lastIdx q) = false
    (flags % 4 ≠ 1 → exec (.packetTake q) s = .next s)
    ∧ (flags % 4 = 1 → queueBroken (s.partRec part) d (smGet 0 s.lastIdx q) = true →
        exec (.packetTake q) s = .next { s.putNat (a + 10) 1 (flags ||| 2) with lastIdx := smErase s.lastIdx q })
    ∧ (good → widx ≤ ridx → exec (.packetTake q) s = .next { s with lastIdx := smPut s.lastIdx q widx })
    ∧ (good → ridx < widx →
        let u : State := { s with lastIdx := smPut s.lastIdx q widx }
        let pa := field d 0 8 + 64 * (ridx % 2 ^ field d 8 1)
        let bs := s.mem.read pa 64
        let p : Packet := { packetOf bs q ridx part (field d 9 1 % 4) s.clk with
          ts := Nat.max (s.lineTime (.glob a)).wtime (s.lineTime (.glob pa)).wtime }
        s.heldOver (.glob pa) 64 = false → s.ownedOver none (.glob pa) 64 = false → ∀ code, u.packetCode p bs = some code →
          let v : State := u.putNat (a + 24) 8 (ridx + 1)
          let taken : State := { v with packets := s.packets ++ [p] }
          exec (.packetTake q) s = .next (if code = 0 then taken else taken.completePacket q ridx code))

/-- R348, R349, R353 to R357: a head ages after 2^24 clk; its wait word, read under the queue's ASID of that time, is met once it
reads at least the value, and is read remotely where it lies on another device; the first head receives its next team on cores that no
head and no ready team of a higher class takes, one block on each, later in logical time than its packet's read; a concurrent head has
its cores reserved, and those of another split drain; a core of the fewest blocks drains for a head that finds none. That a head which
cannot be placed lets a later one place, and which team goes first, are the model's reading (log 43), as are the TTROOT under which the
wait word is read (log 42), the port of that read (log 23) and its owner (log 20). -/
def Obligations.HeadsAndPlacement : Prop :=
  (∀ s q p, s.headOf q = some p → exec (.headAging q) s = .next (if p.takenAt + 2 ^ 24 ≤ s.clk then
      { s with packets := s.packets.map fun x => if x.queue = q ∧ x.idx = p.idx then { x with aged := true } else x } else s))
  ∧ (∀ s q p t, s.headOf q = some p → p.waitAddr ≠ 0 →
      s.translate (schedCtx p.part (s.mem.readNat (s.qtab + 64 * p.queue + 12) 2) (s.sysreg p.part 0x00a).toNat) true false p.waitAddr = .ok t →
      (t.remote = false → s.heldOver (.glob (t.addr p.waitAddr)) 8 = false → s.ownedOver none (.glob (t.addr p.waitAddr)) 8 = false →
        exec (.waitWordRead q) s = .next (if p.waitVal.toNat ≤ s.mem.readNat (t.addr p.waitAddr) 8 then
          { s with packets := s.packets.map fun x => if x.queue = q ∧ x.idx = p.idx then { x with waitOk := true } else x } else s))
      ∧ ∀ e, t.remote = true → s.peer? p.part t.peer = some e → e.outOk = true → s.portsTo e ≠ [] → (∀ r ∈ s.remotes, r.id ≠ s.fresh) →
        let r : Remote := { id := s.fresh, own := p.waitOwner, op := .read, peer := t.peer, addr := p.waitAddr,
                            raddr := t.addr p.waitAddr, ty := .b64, sent := some s.clk, head := s.headFor p.part e, port := s.portFor e s.fresh }
        exec (.waitWordRead q) s = .next { s with fresh := s.fresh + 1, remotes := s.remotes ++ [r] })
  ∧ (∀ s part h r cores, s.heads part = h :: r → h.sub = none → s.headCoresBut (s.claims part h.cls) h = some cores →
      cores.Nodup → cores.length = h.la.t → (h.opened = true → s.launch? h.la.part h.la.serial = some h.la) →
      let team := h.la.nextTeam
      let serial := if h.opened then h.la.serial else s.nextSerial h.la.part
      ∃ t, exec (.placement part team) s = .next t ∧ t.mem = s.mem
        ∧ (∃ la ∈ t.launches, la.part = h.la.part ∧ la.serial = serial ∧ la.placed = h.la.placed ++ [team])
        ∧ ∀ m < h.la.t, h.ts ≤ (t.core (cores.getD m 0)).ts
          ∧ ∃ slot < 16, ∃ b, t.block? (placeOf (cores.getD m 0) slot) = some b ∧ b.part = h.la.part ∧ b.serial = serial
            ∧ b.block = team * h.la.t + m ∧ b.member = m ∧ b.kernel = h.la.kernel ∧ b.n = h.la.n ∧ b.t = h.la.t ∧ b.started = false)
  ∧ (∀ s part h plan, (∀ c ∈ coresOf (s.partRec part), (s.core c).reserved = none) →
      (s.heads part).find? (fun x => x.sub.isNone && decide (x.la.kernel.decl.cls = .concurrent ∧ x.la.placed = [])) = some h →
      s.plan h.la = some plan → s.drainsFor part h.la.src = false →
      ∃ t, exec (.concurrentAdmission part) s = .next t ∧ t.mem = s.mem ∧ t.blocks = s.blocks
        ∧ ∀ cs ∈ plan, ∀ c ∈ cs, (t.core c).reserved = some h.la.src
          ∧ ((s.core c).split ≠ some h.la.kernel.decl.split → (s.core c).drain = none → if s.declsOn c = []
              then (t.core c).split = some h.la.kernel.decl.split
              else (t.core c).drain = some { src := h.la.src, split := h.la.kernel.decl.split }))
  ∧ (∀ s part h, (s.heads part).find? (fun x => x.sub.isNone && !x.la.heldBack && !x.la.aborting && (s.headCores x).isNone) = some h →
      let cores := coresOf (s.partRec part)
      let open_ (c : Nat) : Prop := c ∈ cores ∧ (s.core c).drain = none ∧ (s.core c).reserved = none ∧ s.declsOn c ≠ []
      h.la.kernel.decl.cls ≠ .concurrent → (∀ c ∈ cores, (s.core c).drain = none → (s.core c).reserved = none → s.busyDecls c ≠ [] →
        (s.core c).split ≠ some h.la.kernel.decl.split) →
      s.drainsFor part h.la.src = false → (cores.filter fun c => (s.core c).drain.isSome && (s.core c).reserved.isNone).length < h.la.t →
      (∃ c, open_ c) →
      ∃ c, open_ c ∧ (∀ d, open_ d → (s.declsOn c).length < (s.declsOn d).length ∨ ((s.declsOn c).length = (s.declsOn d).length ∧ c ≤ d))
        ∧ exec (.drainMark part) s
          = .next (s.mapCore c fun k => { k with drain := some { src := h.la.src, split := h.la.kernel.decl.split } }))

/-- R15, R24, R26, R40, R59, R274, R347, R351, R392: the placed blocks of a launch start, at most once in a clk and a parallel launch's
teams in their order, with their lanes live at
the first instruction, registers zero and the launch's words in the uniform registers; a block that is over leaves its slot; a launch
that is over has its ordered adds applied in the order of their keys and is reported. The launch that ABORT names is aborted: none of
its blocks is left, stores without data and accesses on their way are dropped, it reports code 6 once its last store is placed, and GO
is cleared once the completion word is written. What becomes of an aborted launch's serial is the model's reading (log 44). -/
def Obligations.LaunchesStartEndAndAbort : Prop :=
  ((∀ s part serial la p b, s.launch? part serial = some la → la.aborting = false → la.startAt ≠ some s.clk →
       (la.kernel.decl.cls = .concurrent → la.placed.length * la.t = la.n
         ∧ ∀ e ∈ s.blocks, e.2.part = part → e.2.serial = serial → e.2.started = false → e.2.halted = false) →
       s.block? p = some b → b.part = part → b.serial = serial → b.started = false →
       (∀ e ∈ s.blocks, e.2.part = part → e.2.serial = serial → e.2.started = false → e.2.team = b.team → e.2.halted = false) →
       (la.kernel.decl.cls = .parallel → (∀ id k, la.src ≠ .region id k) → ∀ k < b.team, k ∈ la.placed
         ∧ ∀ e ∈ s.blocks, e.2.part = part → e.2.serial = serial → e.2.team = k → e.2.started = false → e.2.halted = false) →
       ∃ t, exec (.blockStart part serial) s = .next t ∧ t.mem = s.mem ∧ ∃ b', t.block? p = some b' ∧ b'.started = true
         ∧ ∀ g < b.groups, ∀ sl,
           let x := b'.pair g
           let h := x.half sl
           let n := min b.w (b.kernel.decl.lanes - g * b.w)
           x.live = true ∧ x.run = (b.pair g).run ∧ x.queues = [] ∧ x.streams = []
             ∧ (∀ l, (h.lane l).life = (if l < n then .live else .absent) ∧ (h.lane l).pc = 0 ∧ (h.lane l).wait = .none)
             ∧ (∀ l k, h.reg l k = 0) ∧ (∀ k, h.set k = {})
             ∧ h.ureg 0 = lo32 la.args ∧ h.ureg 1 = hi32 la.args ∧ h.ureg 2 = BitVec.ofNat 32 la.n ∧ h.ureg 3 = BitVec.ofNat 32 la.t)
   ∧ (∀ s core slot b, slot < 16 → s.block? (placeOf core slot) = some b → s.blockOver (placeOf core slot) b = true →
       b.own = none → b.stolen = none →
       ∃ t, exec (.blockEnd core slot) s = .next t ∧ t.block? (placeOf core slot) = none ∧ t.mem = s.mem
         ∧ (∀ p, p ≠ placeOf core slot → t.block? p = s.block? p)
         ∧ (∀ la, s.launch? b.part b.serial = some la → t.launch? b.part b.serial = some { la with ended := la.ended + 1 })
         ∧ (t.core core).freed = (s.core core).freed ++ [(s.clk, slot, b.kernel.decl)])
   ∧ (∀ s part serial la q i, s.launch? part serial = some la → s.launchOver la = true → la.src = .packet q i → la.aborting = false →
       ∃ xs : List OrdAdd, xs.Perm la.adds ∧ xs.Pairwise (fun x y => x.before y = true) ∧
         let u := xs.foldl (State.applyAdd la) s
         exec (.launchEnd part serial) s = .next
           (State.completePacket { u with launches := u.launches.filter fun l => decide (¬ (l.part = part ∧ l.serial = serial)) } q i 0)))
  ∧ (∀ s part la q i, s.trapRing part = true →
       let a := (s.sysreg part 0x001).toNat + 28
       let v := s.mem.readNat a 4
       let n := v % 2 ^ 24
       let mine (o : Owner) : Prop := o.part = part ∧ o.serial = n
       s.heldOver (.glob a) 4 = false → s.ownedOver none (.glob a) 4 = false → (∀ k < 4, s.tagAt (.glob (a + k)) = none) → v.testBit 24 = true →
       s.launch? part n = some la →
       (la.aborting = true → (s.endLaunch part n).abortDue part n = false →
          ∃ t, exec (.launchAbort part) s = .next t ∧ t.mem.readNat a 4 = v - 2 ^ 24)
       ∧ (la.aborting = false → la.src = .packet q i →
          ∃ t, exec (.launchAbort part) s = .next t ∧ (t.abortDue part n = false → t.mem.readNat a 4 = v - 2 ^ 24)
            ∧ (∀ p b, t.block? p = some b → ¬ (b.part = part ∧ b.serial = n))
            ∧ (∀ l ∈ t.launches, l.part = part → l.serial = n → l.aborting = true ∧ l.adds = [] ∧ l.saved = [])
            ∧ (∀ h ∈ t.held, mine h.own → h.data.isSome = true ∧ h.remote = false)
            ∧ (∀ o ∈ t.outs, ¬ mine o.own) ∧ (∀ r ∈ t.remotes, ¬ mine r.own)
            ∧ (t.launch? part n = none → ∀ x ∈ t.packets, x.queue = q → x.idx = i → x.code.isSome = true)))

/-- R300, R303, R304, R305, R307, R316, R358: the next record of a partition enters the window, where it waits for the records it
depends on, or, empty or refused, is done at once; the oldest team of a cluster's own list is placed on cores that no head and no
ready team of a higher class takes, its records in its blocks' hands; an idle cluster takes the oldest team of the longest list, and word 7 of a record says that it runs outside its home. That a
record depends on records of its partition only is the model's reading (log 41). -/
def Obligations.RegionRecordsMove : Prop :=
  let places (i : Instr) (s : State) (e : Nat × Nat × Nat) (cluster : Nat) : Prop :=
    ∀ b cores, s.sub? e.1 = some b → s.readyCores (s.claims b.part b.prio) e cluster = some cores → cores.Nodup →
      let r := s.subLaunch b e.2.1
      let rec_ (m : Nat) : Nat := (b.teamRecs e.2.1 e.2.2).getD m 0
      cores.length = r.1.t →
      ∃ t, exec i s = .next t ∧ t.mem = s.mem ∧ t.ready = s.ready.filter (fun x => decide (x ≠ e))
        ∧ (∀ b', t.sub? e.1 = some b' → ∀ k ∈ b.teamRecs e.2.1 e.2.2, (b'.slot k).state = .dispatched)
        ∧ ∀ m < r.1.t, b.ts ≤ (t.core (cores.getD m 0)).ts ∧ ∃ slot < 16, ∃ x, t.block? (placeOf (cores.getD m 0) slot) = some x ∧ x.part = b.part
          ∧ x.serial = (if r.2 then r.1.serial else s.nextSerial b.part) ∧ x.kernel = r.1.kernel
          ∧ x.block = e.2.2 * r.1.t + m ∧ x.member = m ∧ x.started = false
          ∧ x.own = some { sub := b.id, idx := rec_ m, words := (b.slot (rec_ m)).words.take 7
              ++ [word7 0 (decide (clusterOf (cores.getD m 0) ≠ b.home (rec_ m))) (b.home (rec_ m))] }
  (∀ s part b i, (s.window.filter fun e => decide (((s.sub? e.1).map (·.part)).getD 8 = part)).length < (s.sysreg part 0x009).toNat % 2 ^ 11 →
      s.window.length < 8192 → s.nextEntry part = some (b, i) → s.sub? b.id = some b →
      let r := b.slot i
      let dead : Prop := r.refused = true ∨ (recRows r.words = 0 ∧ b.teamRuns i = false)
      let deps := if recRows r.words = 0 then [] else s.depsOf b i
      (dead → s.headerBusy b.header = false →
        ∃ t, exec (.windowEntry part) s = .next t ∧ (b.id, i) ∉ t.window
          ∧ ∀ b', t.sub? b.id = some b' → (b'.slot i).state = .done ∧ b'.finished = b.finished + 1)
      ∧ (¬ dead → ∃ t, exec (.windowEntry part) s = .next t ∧ t.window = s.window ++ [(b.id, i)] ∧ t.mem = s.mem ∧ t.blocks = s.blocks
          ∧ ∀ b', t.sub? b.id = some b' → (b'.slot i).deps = deps ∧ (b'.slot i).state = if deps = [] then .ready else .waiting))
  ∧ (∀ s part cluster e, s.ready.find? (fun e => decide (s.listOf e = some (part, cluster))) = some e →
      places (.teamReadyPlace part cluster) s e cluster)
  ∧ (∀ s part cluster c e,
      let size (c : Nat) : Nat := (s.ready.filter fun e => decide (s.listOf e = some (part, c))).length
      let cs := clustersOf (s.partRec part)
      size cluster = 0 → cluster ∈ cs → c ∈ cs → 0 < size c → (∀ d ∈ cs, size d < size c ∨ (size d = size c ∧ cs.idxOf c ≤ cs.idxOf d)) →
      s.ready.find? (fun e => decide (s.listOf e = some (part, c))) = some e →
      places (.clusterSteal part cluster) s e cluster)

/-! ### Results of accesses (R196, R199, R202, R204, R206, R217) -/

/-- R196, R197, R199, R202, R212, R217: the data of an outstanding local access reaches its element or register, extended as its
type says; a remote device's answer gives a lane its value, or fails the access with cause 0x5: a token in a queue, the fence
status of a write or atomic. A multicast that member 0 has performed fills the elements of its lane. -/
def Obligations.ResultsArrive : Prop :=
  (let value (ty : Ty) (bs : List Byte) : DWord := match ty with
     | .i8 => ((BitVec.ofNat 8 (leNat bs)).signExtend 32).setWidth 64
     | .i16 => ((BitVec.ofNat 16 (leNat bs)).signExtend 32).setWidth 64
     | .n8 => BitVec.ofNat 64 (leNat bs % 2 ^ 8)
     | .n16 => BitVec.ofNat 64 (leNat bs % 2 ^ 16)
     | _ => BitVec.ofNat 64 (leNat bs)
   ∀ s id o (bs : List Byte) p, s.outs.find? (fun o => decide (o.id = id ∧ o.mc = none)) = some o → o.bad = none → o.bytes = bs.map .byte →
     s.placeOfOwner o.own = some p →
     ∃ t, exec (.loadDataReturn id) s = .next t ∧ t.outs = s.outs.filter (fun x => decide (x.id ≠ id)) ∧ t.mem = s.mem
       ∧ let h := (t.pair p o.own.group).acc
         let h0 := (s.pair p o.own.group).acc
         (∀ n, o.dst = .reg n → (if isWide o.ty then h.reg64 o.own.lane n = value o.ty bs else h.reg o.own.lane n = lo32 (value o.ty bs))
           ∧ ∀ l k, k < 128 → ¬ (l = o.own.lane ∧ (k = n ∨ k = n + 1)) → n < 127 → h.reg l k = h0.reg l k)
         ∧ (∀ n, o.dst = .uni n → smGet 0 h0.uniAt n ≤ id → (isWide o.ty = true → smGet 0 h0.uniAt (n + 1) ≤ id) →
             if isWide o.ty then h.ureg64 n = value o.ty bs else h.ureg n = lo32 (value o.ty bs))
         ∧ (∀ n, o.dst = .uni n → isWide o.ty = false → id < smGet 0 h0.uniAt n → h.uni = h0.uni)
         ∧ (∀ q, o.dst = .queue q → (t.pair p o.own.group).queue q o.own.lane
             = ((s.pair p o.own.group).queue q o.own.lane).map fun e => if e.out = id ∧ e.kind ≠ .filled then
                 { e with val := if e.hi then hi32 (value o.ty bs) else lo32 (value o.ty bs), cause := 0, kind := .filled, out := 0 } else e))
  ∧ ((∀ s id r p n v key, s.remotes.find? (fun r => decide (r.id = id ∧ r.sent.isSome)) = some r → s.placeOfOwner r.own = some p →
         s.toSelf r = false → (r.head.tss = true → s.keyTakes r.own.part r.head.idx key = true) → r.unlisted = false →
         r.dst = .reg n → r.ty = .b32 → (∀ x ∈ s.remotes, x.sent.isSome = true) →
         ∃ t, exec (.remoteResponse id (.data v key)) s = .next t ∧ (∀ x ∈ t.remotes, x.id ≠ id) ∧ t.mem = s.mem
           ∧ (t.pair p r.own.group).acc.reg r.own.lane n = lo32 v)
     ∧ (∀ s id r p q key, s.remotes.find? (fun r => decide (r.id = id ∧ r.sent.isSome)) = some r → s.placeOfOwner r.own = some p →
         s.toSelf r = false → (r.head.tss = true → s.keyTakes r.own.part r.head.idx key = true) → r.op = .read → r.dst = .queue q →
         ∃ t, exec (.remoteResponse id (.refused key)) s = .next t ∧ t.remotes = s.remotes.filter (fun x => decide (x.id ≠ id)) ∧ t.mem = s.mem
           ∧ (t.pair p r.own.group).queue q r.own.lane = ((s.pair p r.own.group).queue q r.own.lane).map fun e =>
               if e.out = id ∧ e.kind ≠ .filled then { e with val := 0, cause := 5, kind := .filled, out := 0 } else e)
     ∧ (∀ s id r p key, s.remotes.find? (fun r => decide (r.id = id ∧ r.sent.isSome)) = some r → s.placeOfOwner r.own = some p →
         s.toSelf r = false → (r.head.tss = true → s.keyTakes r.own.part r.head.idx key = true) → r.op ≠ .read → r.dst = .drop →
         let k := smGet {} (s.pair p r.own.group).fences r.own.lane
         ∃ t, exec (.remoteResponse id (.refused key)) s = .next t ∧ t.remotes = s.remotes.filter (fun x => decide (x.id ≠ id)) ∧ t.mem = s.mem
           ∧ let k' := smGet {} (t.pair p r.own.group).fences r.own.lane
             k'.count = min (k.count + 1) 0xffff ∧ k'.refused = true ∧ k'.dead = k.dead)
     ∧ (∀ s part serial team group lane o p b (bs : List Byte) q,
         s.outs.filter (fun o => o.mc.isSome && !o.bytes.isEmpty
           && decide (o.own.part = part ∧ o.own.serial = serial ∧ o.own.group = group ∧ o.own.lane = lane)
           && ((s.placeOfOwner o.own).bind s.block?).any fun b => decide (b.team = team)) = [o] →
         s.placeOfOwner o.own = some p → s.block? p = some b → o.bad = none → o.bytes = bs.map .byte → o.dst = .queue q →
         ∃ t, exec (.multicastRead part serial team group lane) s = .next t ∧ t.outs = s.outs.filter (fun x => decide (x.id ≠ o.id))
           ∧ t.mem = s.mem
           ∧ (t.pair p group).queue q lane = ((b.pair group).queue q lane).map (fillElem o.id (extendLoad o.ty bs))))

/-- R204 to R206: a stream reserves its next row in every captured lane, with the read of each lane's address, and goes on to
the row after it; the oldest waiting store of a lane takes its data from `q13` and puts it at its address, and a pair whose lanes
have all exited ends with it (R24). -/
def Obligations.StreamRowsAndStoreData : Prop :=
  (∀ s core slot g q b x (xl : Nat → Tlb), let place := placeOf core slot
      s.block? place = some b → (b.pair g).streams.find? (fun x => decide (x.queue = q)) = some x → (b.pair g).run = .running → q ≤ 12 →
      let ls := maskLanes x.mask
      let at_ (l : Nat) : Loc := .glob ((xl l).addr (x.addr l))
      (∀ l ∈ ls, (b.pair g).exe.live l = true ∧ ((b.pair g).queue q l).length + (if isWide x.ty then 2 else 1) ≤ b.depth q
        ∧ inFabric (x.addr l) = false ∧ s.translate (b.tctx place) true false (x.addr l) = .ok (xl l)
        ∧ s.ownedOver none (at_ l) (accBytes x.ty) = false ∧ s.errIn (at_ l) (accBytes x.ty) = none) →
      ∃ t, exec (.streamRow core slot g q) s = .next t ∧ t.mem = s.mem
        ∧ t.outs = s.outs ++ ls.zipIdx.map (fun e => ({ id := s.fresh + e.2, own := b.owner g e.1, dst := .queue q, ty := x.ty
                                                        bytes := s.capture (at_ e.1) (accBytes x.ty), addr := x.addr e.1 } : Out))
        ∧ (∀ l ∈ ls, (t.pair place g).queue q l = (b.pair g).queue q l ++ reserved .load (s.fresh + ls.idxOf l) x.ty (x.addr l))
        ∧ (t.pair place g).streams = (b.pair g).streams.filterMap fun y => if y.queue = q then x.next else some y)
  ∧ (∀ (x : Stream) l, x.addr l = BitVec.ofNat 64 (dwordAt x.desc 0) + BitVec.ofNat 64 l * (x.desc.getD 2 0).signExtend 64
      + BitVec.ofNat 64 x.n0 * (x.desc.getD 3 0).signExtend 64 + BitVec.ofNat 64 x.n1 * (x.desc.getD 4 0).signExtend 64
      + BitVec.ofNat 64 x.n2 * (x.desc.getD 5 0).signExtend 64)
  ∧ (∀ s core slot g l b h, let place := placeOf core slot
      s.block? place = some b → (b.pair g).run = .running → s.held = [h] → h.own = b.owner g l → h.data = none → h.retry = false →
      h.void = false → h.remote = false → h.n = accBytes h.ty →
      let n := if isWide h.ty then 2 else 1
      let es := (b.pair g).queue 13 l
      let v : DWord := if isWide h.ty then join64 (es.getD 0 {}).val (es.getD 1 {}).val else ((es.getD 0 {}).val).setWidth 64
      n ≤ es.length → (∀ k < h.n, s.tagAt (locAdd h.loc k) = none) → (∀ p off, h.loc = .sp p off → (s.block? p).isSome = true) →
      s.errIn h.loc h.n = none → (∀ r ∈ s.remotes, r.sent.isSome = true) →
      ∃ t, exec (.storeDataTake core slot g l) s = .next t ∧ t.held = []
        ∧ (if (b.pair g).live = true ∧ (b.pair g).acc.liveLanes b.w = [] ∧ (b.pair g).exe.liveLanes b.w = []
            then (t.pair place g).live = false else (t.pair place g).queue 13 l = es.drop n)
        ∧ ∀ y, t.byteAt y = match h.loc.under h.n y with
          | some k => BitVec.ofNat 8 (v.toNat / 2 ^ (8 * k))
          | none => s.byteAt y)

/-! ### Waits and deadlocks (R148, R169, R187, R206, R211, R291, R292, R386, R397 to R400) -/

/-- R187, R206, R211, R292: the two slices of a pair that wait for each other, the lanes of a slice that all wait where no rejoin set
can be released and no rendezvous can issue, and a wait that outlasts its bound trap; a nap that is over ends. The clk in which the
watchdog fires is the model's reading (log 38), as is what a lane keeps of its `bar.wait` for the test on trap return (log 84). Which
lanes the records of the deadlocks name is the model's choice (logs 61, 62). -/
def Obligations.EndlessWaitsTrap : Prop :=
  let stops (i : Instr) (s : State) (place g : Nat) (code slice : Byte) (t : State) : Prop :=
    exec i s = .next t ∧ (t.pair place g).run = .stopped .trap
      ∧ ∃ x ∈ (t.core (coreOf place)).recs, x.handle = some (s.pairHandle place g) ∧ x.debug = false ∧ (x.bytes.drop 2).take 2 = [code, slice]
  (∀ s core slot g, let place := placeOf core slot
      (∀ h, s.starved place g = some h → (s.pair place g).run = .running →
        ∃ t, stops (.decouplingDeadlock core slot g) s place g 0x12 0 t)
      ∧ (∀ l q, s.starved place g = none → s.decoupled place g = some (l, q) →
          ∃ t, stops (.decouplingDeadlock core slot g) s place g 0x12 1 t)
      ∧ (s.starved place g = none → s.decoupled place g = none → exec (.decouplingDeadlock core slot g) s = .next s))
  ∧ (∀ s core slot g sl b, let place := placeOf core slot
      let h := (b.pair g).half sl
      s.block? place = some b → (b.pair g).live = true → (b.pair g).run = .running → (sl = .execute → (b.pair g).teamWait = false) →
      h.liveLanes b.w ≠ [] →
      (∀ l ∈ h.liveLanes b.w, (h.lane l).wait.inJoin = true) →
      (∀ n < 16, (h.set n).waiters = (h.set n).members → (h.set n).members = 0) →
      (∀ l ∈ h.liveLanes b.w, (h.lane l).wait = .rendezvous →
        scopeFull h b.w (s.quadAt b sl (h.lane l).pc) (h.lane l).pc l = false) →
      ∃ t, stops (.rejoinDeadlock core slot g sl) s place g 0x11 (if sl = .access then 0 else 1) t
        ∧ ∀ n < 16, (((t.pair place g).half sl).set n).state = if (h.set n).waiters ≠ 0 then jFaulted else (h.set n).state)
  ∧ (∀ s core slot g sl l e, let place := placeOf core slot
      (s.block? place).isSome = true → (((s.pair place g).half sl).lane l).wait = .nap e →
      e ≤ s.clk → exec (.napEnd core slot g sl l) s = .next (s.mapLane place g sl l fun x => { x with wait := .none }))
  ∧ (∀ s core slot g sl b, let place := placeOf core slot
      s.block? place = some b → (b.pair g).live = true → (b.pair g).run = .running → s.waiting place g sl ≠ [] →
      b.wb * 4096 ≤ ((b.pair g).half sl).timer →
      ∃ t, stops (.watchdogTrap core slot g sl) s place g 0x31 (if sl = .access then 0 else 1) t
        ∧ ((t.pair place g).half sl).timer = 0 ∧ ∀ w ∈ s.waiting place g sl,
          let y := (((t.pair place g).half sl).lane w.lane).wait
          match (((b.pair g).half sl).lane w.lane).wait with
          | .barrier a x gen ph k => y = .barrier a x gen ph { k with left := true }
          | _ => y = .none)

/-- R386, R397 to R400: a breakpoint holds the path that reaches it and asks the pair to stop at safe points; a pair that has
come to its stop is stopped; a stop that takes too long is withdrawn, or ends where the pair stands; a pre-emption request stops
every pair of its target, and keeps a placed block from starting. That only the lanes of the path that are not marked are held and
named (log 48), and which lanes a step holds (log 66), are the model's reading. -/
def Obligations.StopsAtSafePoints : Prop :=
  (∀ s core slot g sl pc i c b n r, let place := placeOf core slot
      let w := BitVec.ofNat 32 pc
      let u := (c.arrive i).1
      let h := (b.pair g).half sl
      let ls := (c.arrive i).2.filter fun l => !(h.lane l).pass
      s.slotCtx place g sl w = some (i, c) → u.ofTeam i = false →
      u.block? place = some b → (b.pair g).live = true → (b.pair g).run = .running → (b.pair g).safe = none → ls ≠ [] →
      u.stopAt b sl w = true → u.bpsAt b sl w = n :: r →
      ∃ t ss, exec (.breakpointHit core slot g sl pc) s = .next t ∧ (t.pair place g).safe = some ss ∧ ss.since = s.clk
        ∧ (∃ ord, ss.why = .breakpoint n ord sl w (laneMask ls)) ∧ (t.pair place g).run = .running
        ∧ ∀ l, (((t.pair place g).half sl).lane l).wait = if l ∈ ls then .held else (h.lane l).wait)
  ∧ (∀ s core slot g ss, let place := placeOf core slot
      s.safeDone place g = true → (s.pair place g).safe = some ss →
      ∃ t, exec (.safeStopComplete core slot g) s = .next t
        ∧ (t.pair place g).run = .stopped (if ss.why = .haltSafe then .halt else .debug) ∧ (t.pair place g).safe = none)
  ∧ (∀ s core slot g b ss, let place := placeOf core slot
      s.block? place = some b → (b.pair g).safe = some ss → (b.pair g).run = .running → s.parkLimit b.part ≠ 0 →
      ss.since + s.parkLimit b.part ≤ s.clk →
      ∃ t, exec (.parkingTimeout core slot g) s = .next t ∧ (t.pair place g).safe = none
        ∧ (t.pair place g).run = (if ss.why = .haltSafe then .running else .stopped .debug)
        ∧ (ss.why = .haltSafe → ∀ sl l, (((b.pair g).half sl).lane l).wait = .held → (((t.pair place g).half sl).lane l).wait = .none))
  ∧ (∀ s w, let h := handleWord w
      (∃ x ∈ s.haltWaiters, x.h = w ∧ x.safe = false) → h.level ≠ 0 → s.stale h = false →
      ∃ t, exec (.preemptionRequest w) s = .next t ∧ ∀ p ∈ s.targets h, ∀ b, s.block? p = some b →
        (t.block? p).map (·.halted) = some true
        ∧ (b.started = true → ∀ g < b.groups, (b.pair g).live = true → (t.pair p g).run.isStopped = true))

/-! ### Engines (R231 to R237, R239, R254 to R256, R415) -/

/-- R239, R240, R254 to R256: an idle engine issues the instruction of the first group that waits; a finished one is idle; the
members of a team issue together, each computing its own part of C, or trap together: in the issue of `mma.team` with which the last
member comes, every engine being idle, or later. That a divergent word in one member traps
every member is the model's reading (log 45). -/
def Obligations.MatrixEngineSteps : Prop :=
  let places (s : State) (part serial team : Nat) : List Nat :=
    (s.blocks.filter fun e => decide (e.2.part = part ∧ e.2.serial = serial ∧ e.2.team = team)).map (·.1)
  -- The members of a team issue from a state, or all trap, as an instruction's next state.
  let meets (i : Instr) (s0 s : State) (part serial team g : Nat) : Prop :=
    let ps := places s part serial team
    let up := ps.foldl (fun s p => s.wakeTeam p g) s
    let ms := ps.filterMap fun p => up.memberCtx p g
    let words (m : Instr × Ctx) : Option Word × Option Word :=
      (vote m.2.act (fun l => lo32 (m.2.src .b32 m.2.f.c l)), vote m.2.act (fun l => lo32 (m.2.src .b32 m.2.f.d l)))
    ps ≠ [] → ps.Nodup → (∀ p ∈ ps, ∃ b, s.block? p = some b ∧ b.t = ps.length ∧ (b.pair g).teamWait = true
      ∧ (b.pair g).run = .running ∧ s.engineIdle (coreOf p) = true) → ms.length = ps.length → (∀ m ∈ ms, s.teamHeld g m = none) →
    (∀ a b f w, (∀ m ∈ ms, words m = (some a, some b)) → (∀ m ∈ ms, m.2.words2 = .ok (f, w)) →
      let sh := shapeOf w
      let sub := subShape sh
      (∀ m ∈ ms, m.2.teamCheck f w = none ∧ opsWait m.2 (m.2.teamOps f sh) = false) → (ms.map fun m => m.2.blk.member).Nodup →
      (∀ m ∈ ms, ∀ o ∈ m.2.teamOps f sh, ∀ r ∈ (o.ranges up m.2.place).getD [], up.errIn r.1 r.2 = none) →
      ∃ t, exec i s0 = .next t ∧ t.mem = s.mem
        ∧ (∀ m ∈ ms, t.engineIdle (coreOf m.2.place) = false ∧ (t.pair m.2.place g).teamWait = false
            ∧ ∀ l ∈ m.2.path, ((t.pair m.2.place g).exe.lane l).pc = m.2.pc + BitVec.ofNat 32 m.2.len)
        ∧ ∀ m ∈ ms, ∀ x ∈ ms, ∀ y ∈ ms, m.2.blk.member < gridM sh * gridN sh →
            x.2.blk.member = m.2.blk.member / gridN sh * gridN sh → y.2.blk.member = m.2.blk.member % gridN sh →
            let dx := (x.2.opA f sub).data up x.2
            let dy := (y.2.opB f sub).data up y.2
            ∀ i j, i < sub.m → j < sub.n →
              let p := resultAt f.acc64 (tileNo m.2.f.dst) sub i j
              let old := if m.2.ovw then 0 else tileAt m.2.blk f.acc64 p.1 p.2
              ((t.block? m.2.place).map fun b => tileAt b f.acc64 p.1 p.2)
                = some (accumulate f old (dx.rows.getD i []) (dy.rows.getD j []) (dx.scales.getD i []) (dy.scales.getD j [])
                    % 2 ^ (if f.acc64 then 64 else 32)))
    ∧ ((∃ m ∈ ms, words m ≠ words (ms.headD m) ∨ (words m).1 = none ∨ (words m).2 = none) →
        ∃ t, exec i s0 = .next t ∧ ∀ m ∈ ms, (t.pair m.2.place g).run = .stopped .trap)
  (∀ s core cur i b, s.engineIdle core = true → (s.engineOrder core).findSome? (fun e => s.matrixAt e.1 e.2) = some (cur, i) →
      s.block? cur.place = some b →
      (({ s with cur } : State).ofTeam i = true ∨ s.barred cur.place cur.group .execute cur.pc ((b.pair cur.group).exe.liveLanes b.w) = false) →
      exec (.matrixAccept core) s = exec i { s with cur } ∧ ∃ t, exec (.matrixAccept core) s = .next t)
  ∧ (∀ s core, ∃ t, exec (.matrixComplete core) s = .next t ∧ t.engineIdle core = true ∧ (∀ k, k ≠ core → t.core k = s.core k)
      ∧ t.core core = { s.core core with engine := none } ∧ t = { s with cores := t.cores })
  ∧ (∀ s part serial team g, meets (.teamRendezvous part serial team g) s s part serial team g)
  ∧ (∀ f s c, Meets false (.mmaTeam f) s c → c.act ≠ [] →
      meets (.mmaTeam f) s c.atTeam c.blk.part c.blk.serial c.blk.team c.group)

/-- R231 to R234, R270, R271, R298: a waiting copy enters its channel, with its barrier's GEN as it is then, and its lane has its
elements popped; the copy that a channel performs writes what it has of one destination line at once, from source lines each read at
one instant, and advances the write pointer; at a page that faults it stops, with MCHK for an uncorrectable error; one that is
finished or stopped makes its arrival and leaves the channel. When the channel's status changes is the model's reading (log 27). -/
def Obligations.CopyEngineSteps : Prop :=
  let performs (s : State) (core ch : Nat) (k : Copy) (place : Nat) (b : Block) : Prop :=
    s.chanHead core ch = some k ∧ k.ch = ch ∧ s.placeOfOwner k.own = some place ∧ s.block? place = some b
  let readLine (u : State) (core place : Nat) (k : Copy) (v : State) (k' : Copy) : Prop := ∃ x t,
    let a := k.src + BitVec.ofNat 64 k.ahead.length
    let m := min (k.left - k.ahead.length) (128 - a.toNat % 128)
    u.copyReach k place false a m (k.left - k.ahead.length) = .at_ x t
      ∧ v = u.touchRead core k.own.part x ∧ k' = { k with ahead := k.ahead ++ u.bytesAt x m, gpage := t }
  (∀ s core slot g b r len, let place := placeOf core slot
      slot < 16 → s.block? place = some b → (b.pair g).entering.find? (fun r => s.chanRoom core r.ch) = some r →
      ((b.pair g).acc.lane r.lane).wait = .entering len → ((b.pair g).acc.lane r.lane).pc = r.pc → r.lane < b.w →
      let k : Copy := { id := s.fresh, own := b.owner g r.lane, dst := r.dst, src := r.src, left := r.len, ch := r.ch, dir := r.dir
                        bar := r.bar.map fun a => (a, s.genAt place a), hint := r.hint, gpage := r.gpage }
      ∃ t, exec (.copyEnter core slot g) s = .next t ∧ t.mem = s.mem ∧ (t.pair place g).entering = (b.pair g).entering.erase r
        ∧ (t.core core).chan r.ch = (s.core core).chan r.ch ++ [k]
        ∧ ((t.pair place g).acc.lane r.lane).pc = r.pc + BitVec.ofNat 32 len
        ∧ (∀ q l, l < 64 → (t.pair place g).queue q l = if l = r.lane
            then r.pops.foldl (fun es p => if p.1 = q then es.drop p.2 else es) ((b.pair g).queue q l) else (b.pair g).queue q l)
        ∧ ((∀ x ∈ (b.pair g).entering.erase r, x.pc ≠ r.pc) → ((t.pair place g).acc.lane r.lane).wait = .none))
  ∧ (∀ s core ch k place b dst t0 u k1, performs s core ch k place b → k.stopped = false → k.left ≠ 0 →
      let n := min k.left (128 - k.dst.toNat % 128)
      let k0 : Copy := { k with gpage := t0 }
      s.copyReach k place true k.dst n k.left = .at_ dst t0 →
      ((n ≤ k.ahead.length ∧ u = s ∧ k1 = k0) ∨ (k.ahead.length < n ∧ readLine s core place k0 u k1)
        ∨ (k.ahead.length < n ∧ ∃ v x, readLine s core place k0 v x ∧ x.ahead.length < n ∧ readLine v core place x u k1)) →
      n ≤ k1.ahead.length → (∀ i < n, s.tagAt (locAdd dst i) = none) → (∀ p off, dst = .sp p off → (s.block? p).isSome = true) →
      let k' : Copy := { k1 with dst := k.dst + BitVec.ofNat 64 n, src := k.src + BitVec.ofNat 64 n, left := k.left - n, ahead := k1.ahead.drop n }
      ∃ t, exec (.copyLineWrite core ch) s = .next t
        ∧ (∀ y, t.byteAt y = match dst.under n y with
            | some i => k1.ahead.getD i 0
            | none => s.byteAt y)
        ∧ (t.core core).chan ch = ((s.core core).chan ch).map (fun y => if y.id = k.id then k' else y)
        ∧ (t.block? place).map (fun b => b.wpAt ch) = some (b.wpAt ch + BitVec.ofNat 32 n))
  ∧ (∀ s core ch k place b cause err, performs s core ch k place b → k.stopped = false → k.left ≠ 0 →
      s.copyReach k place true k.dst (min k.left (128 - k.dst.toNat % 128)) k.left = .stop cause err →
      let bit : Word := if cause = 4 then 2 else 1
      ∃ t, exec (.copyLineWrite core ch) s = .next t
        ∧ (t.core core).chan ch = ((s.core core).chan ch).map
            (fun y => if y.id = k.id then { k with stopped := true, stat := k.stat ||| bit } else y)
        ∧ ∃ b', t.block? place = some b' ∧ smGet 0 b'.chstat ch &&& bit = bit)
  ∧ (∀ s core ch k place b, performs s core ch k place b → (k.stopped = true ∨ k.left = 0) → s.arrivalWaits k place = false →
      ∃ t b', exec (.copyComplete core ch) s = .next t
        ∧ (t.core core).chan ch = ((s.core core).chan ch).filter (fun y => decide (y.id ≠ k.id))
        ∧ t.block? place = some b' ∧ b'.wpAt ch = b.wpAt ch + BitVec.ofNat 32 k.left
        ∧ ∀ a gen p, k.bar = some (a, gen) → s.spTarget place a 8 = some p →
            let x : Loc := .sp p.1 p.2
            let w := s.barAt x
            let counts : Prop := (s.tagAt x).isSome = true ∧ w.inval = false ∧ gen = w.gen ∧ s.errIn x 8 = none
            (¬ counts → smGet 0 b'.chstat ch &&& 4 = 4 ∧ t.barAt x = w)
            ∧ (counts → w.arrived + 1 < w.expect → t.barAt x = { w with arrived := w.arrived + 1 }))

/-- R236, R237, R270, R272, R415: a collective reads SRC and writes DST a line at a time; once every contribution is there the output
is that of the operation, and with DST written the command ends: STATUS takes FAULT, MISMATCH, REFUSED with the port, or none of
them; a refused one ends as soon as the refusal is known, a mismatched one without an output, and one whose contributions are not all
there after 2^27 clk with DEADLINK.
An integer sum is the sum of the contributions mod 2^w; a gather is their concatenation by rank. What a faulting destination keeps is
the model's reading (log 27). -/
def Obligations.CollectivesEnd : Prop :=
  let ends (i : Instr) (s : State) (k : Coll) (v : Nat) (t : State) : Prop := exec i s = .next t
    ∧ (∀ x ∈ t.colls, x.id = k.id → x.result = some (BitVec.ofNat 32 v))
    ∧ ∀ place l, s.placeOfOwner k.own = some place → s.frozen k.own = false → s.collWord place k.stat 4 = some l →
        s.keptBytes (some l) 4 = false → s.keptBytes (s.collWord place k.bar 8) 8 = false → (∀ i < 4, s.tagAt (locAdd l i) = none) →
        (k.bar.toNat % 8 = 0 ∨ k.bar.toNat = 0xffffffff) → t.natAt l 4 = v
  let only (s : State) (k : Coll) : Prop := s.colls.filter (fun x => decide (x.id = k.id)) = [k] ∧ k.result = none ∧ k.told = false
    ∧ s.held = [] ∧ (∀ p b, s.block? p = some b → b.errs = []) ∧ ∀ x ∈ s.colls, x.id ≠ k.id → x.result.isSome = true → x.told = true
  let intime (s : State) (k : Coll) : Prop := only s k ∧ k.out = none ∧ s.clk < k.accepted + 2 ^ 27
    ∧ ∀ x ∈ s.colls, x.team = k.team → x.got.length = x.srcBytes
  let known (s : State) (k : Coll) (cs : List Contribution) : List (Option Part) := (List.range k.peers.length).map (s.contribution k cs)
  let ready (s : State) (k : Coll) (cs : List Contribution) (ps : List Part) : Prop := intime s k ∧ known s k cs = ps.map some
  let agrees (k : Coll) (p : Part) : Prop := p.gather = k.gather ∧ p.count = k.count ∧ p.ty = tyCode k.ty ∧ p.op = k.op
  (∀ s k cs port, intime s k → ((known s k cs).filterMap id).findSome? (·.refused) = some port →
      ∃ t, ends (.collectiveComplete k.id cs) s k (5 + port % 16 * 256) t ∧ t.mem = s.mem)
  ∧ (∀ s k cs ps, ready s k cs ps → ((∀ p ∈ ps, p.refused = none) → (∃ p ∈ ps, ¬ agrees k p) → ∃ t, ends (.collectiveComplete k.id cs) s k 0xf11 t ∧ t.mem = s.mem)
      ∧ ((∀ p ∈ ps, p.refused = none ∧ agrees k p) → k.put = 0 → k.store = false → 0 < k.dstBytes → ∀ va n r, s.collReach k true = (va, n, r) →
          (∀ f e, r = .stop f e → ∃ t, ends (.collectiveComplete k.id cs) s k 0xf09 t)
          ∧ ∀ a x, r = .at_ (.glob a) x → n = k.dstBytes →
            (∀ j < n, s.tagAt (.glob (a + j)) = none) →
            ∃ t, ends (.collectiveComplete k.id cs) s k 0xf01 t ∧ t.mem.read a n = collResult k ps
              ∧ ∀ y, y < a ∨ a + n ≤ y → t.mem.get y = s.mem.get y))
  ∧ (∀ s k, only s k → k.out = none → k.accepted + 2 ^ 27 ≤ s.clk → none ∈ known s k [] → ∃ t, ends (.collectiveTimeout k.id) s k 0xf03 t ∧ t.mem = s.mem)
  ∧ (∀ s k cs r va n a x, only s k → s.sec = .run → s.agenda = .collective k.id cs :: r →
      (k.got.length < k.srcBytes → s.collReach k false = (va, n, .at_ (.glob a) x) →
        ∃ t, step s = .next t ∧ t.mem = s.mem ∧ t.colls = s.colls.map (fun y => if y.id = k.id then
          { k with got := k.got ++ s.mem.read a n, gsrc := x } else y))
      ∧ ∀ bs, k.got.length = k.srcBytes → k.out = some bs → k.put < k.dstBytes → s.collReach k true = (va, n, .at_ (.glob a) x) →
        bs.length = k.dstBytes → (∀ j < n, s.tagAt (.glob (a + j)) = none) →
        ∃ t, step s = .next t ∧ t.mem.read a n = (bs.drop k.put).take n ∧ (∀ y, y < a ∨ a + n ≤ y → t.mem.get y = s.mem.get y)
          ∧ t.colls = s.colls.map (fun y => if y.id = k.id then { k with put := k.put + n, gdst := x } else y))
  ∧ (∀ (k : Coll) (ps : List Part), k.gather = true → (∀ p ∈ ps, p.data.length = k.count * accBytes k.ty) →
      collResult k ps = ps.flatMap (·.data))
  ∧ (∀ (k : Coll) (ps : List Part) i, k.gather = false → k.op = 0 → k.ty = .i32 ∨ k.ty = .n32 ∨ k.ty = .i64 ∨ k.ty = .n64 → i < k.count →
      ps ≠ [] → ps.length ≤ 2 ^ 16 →
      let w := accBytes k.ty
      leNat (((collResult k ps).drop (i * w)).take w)
        = (ps.map fun p => leNat ((p.data.drop ((k.rank * k.count + i) * w)).take w)).sum % 2 ^ (8 * w))

/-! ### Memory system, records and checks (R219, R225, R267, R268, R369 to R374, R380 to R387, R403, R418) -/

/-- R267, R268, R369, R374, R418: logical time creeps on after 64 clk; a line request has a tag that none outstanding of its core has; a
recall of the home's latest reply ends the core's lease once that reply has come; a granted lease is kept, an earlier one that comes
later is not; a walk that faults neither a read nor a write is cached and no other; and a removal of translations completes. How far
creep goes beyond one tick is left free (log 8), and so is the launch for which a walk is made (log 70). Which lease messages are kept,
and which tag a request gets, are the model's choice (log 39). -/
def Obligations.CoherenceAndTranslationSteps : Prop :=
  (∀ s core,
      ((s.core core).crept + 64 ≤ s.clk + 1 → ∃ t, exec (.clockCreep core) s = .next t ∧ (s.core core).ts < (t.core core).ts
        ∧ (t.core core).crept = s.clk + 1 ∧ t.mem = s.mem ∧ (∀ k, k ≠ core → t.core k = s.core k)
        ∧ ∀ p g l r, coreOf p = core → smFind (t.pair p g).resv l = some r → (t.core core).ts ≤ r.leaseEnd)
      ∧ (s.clk + 1 < (s.core core).crept + 64 → exec (.clockCreep core) s = .next s))
  ∧ (∀ (s : State) core id l, ∃ r, ((s.request core id l).core core).requests.getLast? = some r ∧ r.id = id ∧ r.loc = l
      ∧ ∀ x ∈ (s.core core).requests, s.outstanding x.id = true → x.tag ≠ r.tag)
  ∧ (∀ s core line tag, let r := (s.core core).latest (2 * line)
      (tag ≠ r.map (·.tag) → exec (.recallMessage core line tag) s = .next s)
      ∧ (tag = r.map (·.tag) → s.replyDue (r.map (·.id)) = false → ∃ t, exec (.recallMessage core line tag) s = .next t ∧ t = { s with cores := t.cores }
        ∧ smFind (t.core core).leases (2 * line) = none ∧ (∀ x, x ≠ 2 * line → smFind (t.core core).leases x = smFind (s.core core).leases x)
        ∧ (t.core core).recalls = (s.core core).recalls.filter fun r => decide (r.1 ≠ line))
      ∧ (tag = r.map (·.tag) → s.replyDue (r.map (·.id)) = true → ∃ t, exec (.recallMessage core line tag) s = .next t ∧ t = { s with cores := t.cores }
        ∧ (t.core core).leases = (s.core core).leases ∧ (line, r.map (·.id)) ∈ (t.core core).recalls))
  ∧ (∀ s core line e, let h := smGet {} s.lines (2 * line)
      (core < 192 → h.wtime ≤ e → e ≤ h.leaseEnd → (∀ old, smFind (s.core core).granted (2 * line) = some old → old < e) →
        ∃ t, exec (.leaseMessage core line e) s = .next t ∧ t = { s with cores := t.cores }
          ∧ (∀ x, smFind (t.core core).leases x = if x = 2 * line then some e else smFind (s.core core).leases x)
          ∧ smFind (t.core core).granted (2 * line) = some e)
      ∧ (∀ old, smFind (s.core core).granted (2 * line) = some old → e ≤ old → exec (.leaseMessage core line e) s = .next s))
  ∧ (∀ s core part asid va, s.walkCtxs core part asid = [] → exec (.tableWalk core part asid va) s = .next s)
  ∧ (∀ s core part asid va, s.walkCtxs core part asid ≠ [] → ∃ c ∈ s.walkCtxs core part asid, s.partOfCore core = some part → s.cached c va = none →
      let u : State := { s with fresh := s.fresh + 1 }
      let reads := ∃ x, s.walk c true false va = .ok x
      let writes := ∃ x, s.walk c false true va = .ok x
      (∀ x, s.walk c true false va = .ok x ∨ (¬ reads ∧ s.walk c false true va = .ok x) →
        exec (.tableWalk core part asid va) s = .next { u with tlb := s.tlb ++ [x] })
      ∧ (¬ reads → ¬ writes → exec (.tableWalk core part asid va) s = .next u))
  ∧ (∀ s id v, s.invals.find? (fun v => decide (v.id = id)) = some v → s.pinnedBy v = false →
      exec (.invalidationComplete id) s
        = .next { s with tlb := s.tlb.filter (fun t => !v.names t), invals := s.invals.filter fun x => decide (x.id ≠ id) })

/-- R219, R225, R379, R380, R381 to R387, R403: a waiting record is written to its ring, behind which WIDX advances, and waits
while the ring is full; machine checks fail the access or the storage that they meet, and a word of device memory or of a scratchpad that
holds an error stays so for every later access; a dropped barrier store traps its pair; remote accesses of a stopped pair are given up after 18,000 clk; a sample
is recorded once its accesses are over. Which access fails for each agent is the model's reading (log 35). -/
def Obligations.RecordsAndChecks : Prop :=
  let free (s : State) (base n : Nat) : Prop := s.ringKept base n = false ∧ s.ringRoom base n = true ∧ s.ringWidx base + 1 < 2 ^ 64
    ∧ s.mem.readNat (base + 16) 8 = 0 ∧ ∀ k < 64, s.tagAt (.glob (base + k)) = none ∧ s.tagAt (.glob (s.ringSlot base n + k)) = none
  let written (s t : State) (base n : Nat) (bs : List Byte) : Prop :=
    t.mem.read (s.ringSlot base n) 64 = bs ∧ t.ringWidx base = s.ringWidx base + 1
  let noted (s : State) (core part kind code : Nat) : Prop :=
    ∃ r ∈ (s.core core).recs, r.part = part ∧ r.debug = false ∧ r.bytes.take 3 = [BitVec.ofNat 8 kind, 0, BitVec.ofNat 8 code]
  (∀ s core r rs base n, (s.core core).recs = r :: rs → r.bytes.length = 64 → s.ringThere r = true → s.ringOf r = (base, n) → free s base n →
      s.stopUnderWay r = false →
      ∃ t, exec (.trapRecordWrite core) s = .next t ∧ (t.core core).recs = rs
        ∧ written s t base n (if field r.bytes 0 2 = 0x13 then r.bytes.take 56 ++ leBytes 8 s.clk else r.bytes))
  ∧ (∀ s core r base n, (s.core core).recs = [r] → r.debug = false → r.adv = none → s.ringThere r = true → s.ringOf r = (base, n) →
      s.ringRoom base n = false → exec (.trapRecordWrite core) s = .next s)
  ∧ (∀ s core x tm, let r : Rec := { part := x.part, debug := true, bytes := sampleRec x s.clk tm }
      (s.core core).sample = some x → x.bytes.length = 64 → s.sampleOver x = true → (s.core core).recs = [] → s.ringThere r = true →
      ∀ base n, s.ringOf r = (base, n) → free s base n →
      ∃ t, exec (.sampleRecord core tm) s = .next t ∧ (t.core core).sample = none ∧ written s t base n r.bytes
        ∧ r.bytes.take 26 = x.bytes.take 26
        ∧ (x.full = true → ∀ d, x.doneAt = some d → field r.bytes 36 4 = min (d - field x.bytes 56 8) (2 ^ 32 - 1))
        ∧ (x.noData = true → field r.bytes 27 1 = 0xff)
        ∧ (∀ d l, x.noData = false → x.last = some (d, l) → l < 64 → field r.bytes 27 1 = l) ∧ ∀ v < 256, x.level = some v → field r.bytes 51 1 = v)
  ∧ (∀ s core id o p part q pa, s.outs.find? (fun o => decide (o.id = id ∧ o.bad = none ∧ s.coreOfOwner o.own = some core)) = some o →
      s.placeOfOwner o.own = some p → s.partOfCore core = some part → o.dst = .queue q → o.mc = none →
      ((s.core core).recs.filter Rec.isMc).length < 16 →
      let at_ := ((s.core core).requests.find? fun r => decide (r.id = id)).map Request.loc
      ∃ t, exec (.memoryMachineCheck core (.load id) pa) s = .next t ∧ (∀ x ∈ t.outs, x.id ≠ id) ∧ t.mem = s.mem
        ∧ ((∀ y off, at_ ≠ some (.sp y off)) → noted t core part 5 0x40 ∧ pa.toNat / 8 * 8 ∈ t.errs)
        ∧ (∀ y off b, at_ = some (.sp y off) → s.block? y = some b →
            noted t core part 5 0x40 ∧ t.errs = s.errs ∧ ∃ b', t.block? y = some b' ∧ off / 8 * 8 ∈ b'.errs)
        ∧ (t.pair p o.own.group).queue q o.own.lane = ((s.pair p o.own.group).queue q o.own.lane).map fun e =>
            if e.out = id ∧ e.kind ≠ .filled then { e with val := 0, cause := 4, kind := .filled, out := 0 } else e)
  ∧ (∀ s core slot g l b part pa, s.block? (placeOf core slot) = some b → (b.pair g).live = true → l < b.w →
      s.placeOfOwner (b.owner g l) = some (placeOf core slot) → s.partOfCore core = some part →
      ((s.core core).recs.filter Rec.isMc).length < 16 →
      ∃ t, exec (.memoryMachineCheck core (.store core slot g l) pa) s = .next t ∧ noted t core part 5 0x40
        ∧ (smGet {} (t.pair (placeOf core slot) g).fences l).count = min ((smGet {} (b.pair g).fences l).count + 1) 0xffff
        ∧ t.mem = s.mem ∧ pa.toNat / 8 * 8 ∈ t.errs)
  ∧ (∀ s core slot pa b, s.block? (placeOf core slot) = some b →
      ∃ t, exec (.memoryMachineCheck core (.scratch slot) pa) s = .next t
        ∧ (∀ p, p ≠ placeOf core slot → t.block? p = s.block? p)
        ∧ ∃ b', t.block? (placeOf core slot) = some b' ∧ { b' with errs := b.errs } = b
          ∧ ∀ a, a ∈ b'.errs ↔ a = pa.toNat / 8 * 8 ∨ a ∈ b.errs)
  ∧ (∀ s core ch part pa, s.partOfCore core = some part →
      ∃ t, exec (.memoryMachineCheck core (.engine core ch) pa) s = .next t ∧ t = { s with errs := t.errs }
        ∧ ∀ a, a ∈ t.errs ↔ a = pa.toNat / 8 * 8 ∨ a ∈ s.errs)
  ∧ (∀ s core slot g storage lanes b, let place := placeOf core slot
      s.block? place = some b → (b.pair g).live = true → (b.pair g).run = .running → g < b.groups → 1 ≤ storage → storage ≤ 4 →
      ∃ t, exec (.stateMachineCheck core slot g storage lanes) s = .next t ∧ (t.pair place g).run = .stopped .trap
        ∧ storage ∈ (t.pair place g).broken ∧ (∀ x ∈ (b.pair g).broken, x ∈ (t.pair place g).broken) ∧ t.mem = s.mem ∧ noted t (coreOf place) b.part 4 0x32)
  ∧ (∀ s n d p, s.drops[n]? = some d → s.placeOfOwner d.own = some p → (s.pair p d.own.group).live = true →
      (s.pair p d.own.group).run = .running → s.pairHandle p d.own.group = d.handle →
      ∃ t b, exec (.barrierStoreDrop n) s = .next t ∧ t.drops = s.drops.eraseIdx n ∧ (t.pair p d.own.group).run = .stopped .trap
        ∧ s.block? p = some b ∧ noted t (coreOf p) b.part 4 0x30 ∧ t.mem = s.mem)
  ∧ (∀ s n d, s.drops[n]? = some d → s.placeOfOwner d.own = none →
      ∃ t, exec (.barrierStoreDrop n) s = .next t ∧ t.drops = s.drops.eraseIdx n ∧ t.blocks = s.blocks
        ∧ noted t (d.handle.toNat % 2 ^ 8) d.own.part 4 0x30)
  ∧ (∀ s id r p t0, s.remotes.find? (fun r => decide (r.id = id ∧ r.op ≠ .read)) = some r → s.placeOfOwner r.own = some p → r.dst = .drop →
      (s.pair p r.own.group).haltAt = some t0 → t0 + 18000 ≤ s.clk →
      ∃ t, exec (.remoteAbandon id) s = .next t ∧ t.remotes = s.remotes.filter (fun x => decide (x.id ≠ id)) ∧ t.mem = s.mem
        ∧ (smGet {} (t.pair p r.own.group).fences r.own.lane).count
          = min ((smGet {} (s.pair p r.own.group).fences r.own.lane).count + 1) 0xffff)

/-! ### The fabric (R406 to R412) -/

/-- R276, R406, R407, R409 to R412: an inbound request is refused where no peer entry accepts it, where it uses a feature that is
not implemented, or where it names the fabric window, dropped where none verifies, and otherwise performed under the named ASID,
under ROD in the order of the sequence numbers; a remote write that names this device is performed on its own memory, and an atomic that
R406 does not list is refused; an answer to a protected packet that does not verify is dropped; a packet is sent again on a port that is
up, and fails where none is; one unanswered for 1,500,000 clk is a dead link; ports come up and go down; replaced keys
expire. Whether an inbound min or max is signed is left free (log 7). The order of a compare-and-swap's operands, that an
unverified request is dropped, and how sequence numbers go on, are the model's reading (logs 17, 18). -/
def Obligations.FabricSteps : Prop :=
  let admitted (s : State) (r : InRequest) : Prop := s.sec = .run ∧ (s.partRec r.rpart).valid = true
  let taken (s : State) (r : InRequest) (e : Peer) : Prop := admitted s r ∧ (s.inPeers r).find? (s.verifies r) = some e
    ∧ (e.rod = true → ∀ n, smFind s.rod r.fep.toNat = some n → r.seq = n)
  let accepted (s : State) (r : InRequest) (e : Peer) : Prop := taken s r e ∧ inFabric r.addr = false
  let answers (s : State) (r : InRequest) (u : State) (a : InReply) : Prop := exec (.inboundRequest r) s = .next { u with inReply := some a }
  let counted (s : State) : State := { s with fresh := s.fresh + 1, inReply := none }
  let after (r : InRequest) (e : Peer) (u : State) : State := if e.rod then { u with rod := smPut u.rod r.fep.toNat (r.seq + 1) } else u
  (∀ s r, admitted s r → s.inPeers r = [] → answers s r s .refused)
  ∧ (∀ s r, admitted s r → s.inPeers r ≠ [] → (∀ e ∈ s.inPeers r, s.verifies r e = false) → answers s r s .dropped)
  ∧ (∀ s r e n, admitted s r → (s.inPeers r).find? (s.verifies r) = some e → e.rod = true → smFind s.rod r.fep.toNat = some n → r.seq ≠ n →
      exec (.inboundRequest r) s = .next s)
  ∧ (∀ s r e, taken s r e → r.op = .other ∨ inFabric r.addr = true → answers s r (after r e (counted s)) .refused)
  ∧ (∀ s r e bs, accepted s r e → r.op = .read → (counted s).readVirt (s.inCtx r) (s.fresh + 1) r.addr (pagesOf r.len) r.len = .ok (some bs) →
      answers s r (after r e (counted s)) (.done bs))
  ∧ (∀ s r e k, accepted s r e → r.op = .read → (counted s).readVirt (s.inCtx r) (s.fresh + 1) r.addr (pagesOf r.len) r.len = .error k →
      answers s r (after r e (counted s)) .refused)
  ∧ (∀ s r e ps, accepted s r e → r.op = .write → r.data.length ≤ 16384 →
      (counted s).argPages (s.inCtx r) r.addr (pagesOf r.data.length) r.data.length = .ok ps →
      answers s r (after r e ((counted s).putInbound ps r.data)) (.done []))
  ∧ (∀ s r e x, accepted s r e → r.op ≠ .read → r.op ≠ .write → r.op ≠ .other →
      let n := if r.is64 then 8 else 4
      let pa := x.addr r.addr
      let old := s.mem.readNat pa n
      let a := leNat (r.data.take n)
      let b := leNat ((r.data.drop n).take n)
      r.addr.toNat % n = 0 → s.translate (s.inCtx r) true true r.addr = .ok x → x.remote = false → s.heldOver (.glob pa) n = false →
      s.ownedOver none (.glob pa) n = false → s.errIn (.glob pa) n = none → (∀ k < n, s.tagAt (.glob (pa + k)) = none) →
      ∃ t, exec (.inboundRequest r) s = .next t ∧ t.inReply = some (.done (s.mem.read pa n))
        ∧ (∀ y, y < pa ∨ pa + n ≤ y → t.mem.get y = s.mem.get y)
        ∧ (match r.op with
          | .add => t.mem.readNat pa n = (old + a) % 2 ^ (8 * n)
          | .and => t.mem.readNat pa n = old &&& a
          | .or => t.mem.readNat pa n = old ||| a
          | .xor => t.mem.readNat pa n = old ^^^ a
          | .swap => t.mem.readNat pa n = a
          | .cas => t.mem.readNat pa n = if old = a then b else old
          | _ => True))
  ∧ (∀ s id r ans x, s.remotes.find? (fun r => decide (r.id = id ∧ r.sent.isSome)) = some r → s.toSelf r = true →
      let q := r.selfRequest
      let n := accBytes r.ty
      let pa := x.addr q.addr
      (s.partRec q.rpart).valid = true → (∃ y ∈ s.inPeers q, s.verifies q y = true) → inFabric q.addr = false → r.op = .write → r.dst = .drop →
      q.addr.toNat % 4096 + n ≤ 4096 → s.translate (s.inCtx q) false true q.addr = .ok x → x.remote = false →
      s.heldOver (.glob pa) n = false → s.ownedOver none (.glob pa) n = false → (∀ k < n, s.tagAt (.glob (pa + k)) = none) →
      ∃ t, exec (.remoteResponse id ans) s = .next t ∧ (∀ y ∈ t.remotes, y.id ≠ id)
        ∧ t.mem.read pa n = leBytes n (r.val.toNat % 2 ^ (8 * n)) ∧ ∀ y, y < pa ∨ pa + n ≤ y → t.mem.get y = s.mem.get y)
  ∧ (∀ s id r v key, s.remotes.find? (fun r => decide (r.id = id ∧ r.sent.isSome)) = some r →
      (s.toSelf r = true → (s.partRec r.head.rpart).valid = true → (∃ y ∈ s.inPeers r.selfRequest, s.verifies r.selfRequest y = true) →
        r.unlisted = true → exec (.remoteResponse id (.data v key)) s = .next (s.failRemote r 5))
      ∧ (s.toSelf r = false → r.head.tss = true → s.keyTakes r.own.part r.head.idx key = false →
        exec (.remoteResponse id (.data v key)) s = .next s ∧ exec (.remoteResponse id (.refused key)) s = .next s)
      ∧ (s.toSelf r = false → (r.head.tss = true → s.keyTakes r.own.part r.head.idx key = true) → r.unlisted = true →
        exec (.remoteResponse id (.data v key)) s = .next (s.failRemote r 5)))
  ∧ (∀ s id r t0, s.remotes.find? (fun r => decide (r.id = id)) = some r → r.sent = some t0 → t0 + 1500000 ≤ s.clk →
      exec (.deadLinkTimeout id) s = .next (s.failRemote r 6))
  ∧ (∀ (s : State) r p, s.placeOfOwner r.own = some p → r.op ≠ .read → r.dst = .drop →
      let t := s.failRemote r 6
      (∀ x ∈ t.remotes, x.id ≠ r.id) ∧ (smGet {} (t.pair p r.own.group).fences r.own.lane).dead = true)
  ∧ (∀ s id r port, s.remotes.find? (fun r => decide (r.id = id ∧ r.sent.isSome)) = some r →
      (port < 12 → r.head.ports.getLsbD port = true → s.ports.getLsbD port = true →
        exec (.packetRetransmit id port) s = .next { s with remotes := s.remotes.map fun x => if x.id = id then { x with port } else x })
      ∧ ((∀ k < 12, r.head.ports.getLsbD k = true → s.ports.getLsbD k = false) →
        exec (.packetRetransmit id port) s = .next (s.failRemote r 6)))
  ∧ (∀ s port, s.sec = .run → port < 12 →
      ∃ t u, exec (.portTrained port) s = .next t ∧ exec (.portDown port) s = .next u ∧ t = { s with ports := t.ports }
        ∧ u = { s with ports := u.ports } ∧ ∀ k < 12, t.ports.getLsbD k = (decide (k = port) || s.ports.getLsbD k)
          ∧ u.ports.getLsbD k = (decide (k ≠ port) && s.ports.getLsbD k))
  ∧ (∀ s part idx, exec (.keyGraceExpiry part idx) s
      = .next { s with oldKeys := s.oldKeys.filter fun k => decide (k.part ≠ part ∨ k.idx ≠ idx ∨ s.clk < k.until_) })

/-- R419: the home slice of a physical address, by its line number, and the manual's example: slices 112 and 241. -/
def Obligations.HomeSlices : Prop :=
  (∀ pa : BitVec 52,
      let l := pa.extractLsb' 7 45
      let low : BitVec 7 := l.extractLsb' 0 7 ^^^ l.extractLsb' 7 7 ^^^ l.extractLsb' 14 7 ^^^ l.extractLsb' 21 7 ^^^ l.extractLsb' 28 7
        ^^^ l.extractLsb' 35 7 ^^^ (l.extractLsb' 42 3).setWidth 7
      homeSlice pa.toNat = 128 * (l.toNat % 3) + low.toNat ∧ homeSlice pa.toNat < 384)
  ∧ homeSlice 0x000000020a000000 = 112 ∧ homeSlice (0x000000020a000000 + 128) = 241

/-! ### Boot, reset and power (R423, R428 to R436) -/

/-- R333, R430, R432: right after reset the machine is in boot with nothing resident, memory reading zero, the alarm output not
asserted, and the system registers at the values of their table. That memory reads zero before boot is the model's choice (log
3). -/
def Obligations.ResetState : Prop :=
  let s := State.reset
  s.sec = .boot ∧ s.idle ∧ s.alarm = false ∧ s.ports = 0 ∧ s.measure = List.replicate 64 0 ∧ (∀ a, s.mem.get a = 0) ∧ s.mem.wf = true
    ∧ (∀ p, s.block? p = none) ∧ (∀ part idx, s.sysreg part idx
      = if idx = 0x003 then 16 else if idx = 0x004 then 256 else if idx = 0x009 then 1024 else if idx = 0x010 then 0x1000 else 0)

/-- R423, R428 to R434, R436: as RESET_N rises with PWROK_N low the device measures, verifies and runs, or fails; either pin holds it in
reset, which keeps the key store and M; the alarm, or a supply below 0.90 of nominal, leads to Frost with both zero; the clock of a core
is stretched while its supply sags and for 64 clk after, and in heat, the larger of the two; a sensor at its trip temperature holds the
device in reset. That reset also leaves the failed state follows R433 over R430's table (log 24). What removal of power keeps (log 16),
which records boot takes (log 19), that the FEP comes with the boot input and the owner key in use from the image (log 6), where the
image carries it (log 89), how the digest and the signature are computed (log 10), and the units and the sensors' model, a supply at exactly 0.96 being neither below nor back above (log 51), are the
model's reading too. -/
def Obligations.BootResetAndPower : Prop :=
  let frozen (s t : State) : Prop := t.idle ∧ t.sec = .frost ∧ t.agenda = s.agenda
  let sound (b : BootInput) : Prop := shake256 (bootKey b) = Config.ownerDigest ∧ ed448Verify (bootKey b) (bootDigest b) (bootSig b) = true
  let limit (x : Sensor) : Int := match x with
    | .cluster _ => 105000
    | .stack _ => 95000
  let trip (x : Sensor) : Int := match x with
    | .cluster _ => 120000
    | .stack _ => 105000
  let others (s : State) (x : Sensor) : List Heat := s.heats.filter fun y => decide (y.sensor ≠ x)
  (∀ s : State, (s.sec = .boot → s.secState = 0b00) ∧ (s.sec = .failed → s.secState = 0b01) ∧ (s.sec = .run → s.secState = 0b10)
      ∧ (s.sec = .frost → s.secState = 0b11) ∧ s.alarmN = !s.alarm ∧ (s.thermtripN = false ↔ ∃ h ∈ s.heats, trip h.sensor ≤ h.temp))
  ∧ (∀ s b, s.resetN = false → s.sec = .boot → s.pwrokN = false → s.thermtripN = true → sound b →
      ∃ t, exec (.boot b) s = .next t ∧ t.sec = .run ∧ t.resetN = true ∧ t.owner = bootKey b ∧ t.mem = [] ∧ t.blocks = [] ∧ t.cores = []
        ∧ t.ports = 0 ∧ t.errs = [] ∧ t.fep = some b.fep
        ∧ t.measure = shake256 (shake256 (List.replicate 64 0 ++ bootDigest b) ++ shake256 (bootKey b)))
  ∧ (∀ s b, s.resetN = false → s.sec = .boot → s.pwrokN = false → s.thermtripN = true → ¬ sound b →
      exec (.boot b) s = .next { s with resetN := true, sec := .failed, measure := List.replicate 64 0 })
  ∧ (∀ s b, (s.resetN = false → s.sec ≠ .boot ∨ s.pwrokN = true ∨ s.thermtripN = false → exec (.boot b) s = .next { s with resetN := true })
      ∧ (s.resetN = true → exec (.boot b) s = .next s))
  ∧ (∀ s, s.sec ≠ .frost → s.pwrokN = true ∨ s.resetN = false → ∃ t, exec .reset s = .next t ∧ t.idle ∧ t.sec = .boot
      ∧ t.kkeys = s.kkeys ∧ t.tkeys = s.tkeys ∧ t.measure = s.measure ∧ t.pwrokN = s.pwrokN ∧ t.resetN = s.resetN)
  ∧ (∀ s, s.sec = .frost → exec .reset s = .next s)
  ∧ (∀ s p r l, s.agenda = .pins p r :: l →
      step s = exec .reset { s with agenda := l, pwrokN := p, resetN := r && (p || s.resetN) })
  ∧ (∀ s, s.sec = .frost → exec .alarm s = .next s)
  ∧ (∀ s, s.sec ≠ .frost → ∃ t, exec .alarm s = .next t ∧ frozen s t)
  ∧ (∀ s, ∃ t, exec .powerRemoval s = .next t ∧ t.sec = .boot ∧ t.alarm = false ∧ t.idle ∧ t.pwrokN = true)
  ∧ (∀ s n v, s.sec ≠ .frost → v < 900 → ∃ t, exec (.supplySag ⟨n, v⟩) s = .next t ∧ frozen s t)
  ∧ (∀ s n v, 900 ≤ v → v < 960 →
      exec (.supplySag ⟨n, v⟩) s = .next { s with sags := { supply := n, back := none } :: s.sags.filter fun x => decide (x.supply ≠ n) })
  ∧ (∀ s n v, 960 ≤ v → ∃ t, exec (.supplySag ⟨n, v⟩) s = .next t ∧ t = { s with sags := t.sags } ∧ t.sags.length = s.sags.length
      ∧ ∀ (k : Nat) (x : Sag), s.sags[k]? = some x → t.sags[k]? = some ({ x with back :=
          if x.supply = n then (if v = 960 then none else some (x.back.getD 0)) else x.back } : Sag))
  ∧ (∀ s, s.sec ≠ .run → s.agenda = [] → ∃ t, step s = .next t ∧ t.clk = s.clk + 1 ∧ t.sec = s.sec
      ∧ t.sags = (s.sags.map fun x => ({ x with back := x.back.map (· + 1) } : Sag)).filter fun x => decide (x.back.getD 0 < 64))
  ∧ (∀ s, exec .stretchEnd s = .next { s with sags := s.sags.filter fun x => decide (x.back.getD 0 < 64) })
  ∧ (∀ s x v n, s.reading = some ⟨x, v⟩ → (limit x < v → v < trip x → exec (.thermalThrottle n) s
        = .next { s with reading := none, heats := { sensor := x, temp := v, hot := true, steps := max 1 (min n 4) } :: others s x })
      ∧ (v ≤ limit x → exec (.thermalThrottle n) s = .next s))
  ∧ (∀ s x v, s.reading = some ⟨x, v⟩ → (v ≤ limit x - 3000 → exec .thermalRecovery s
        = .next { s with reading := none, heats := { sensor := x, temp := v, hot := false, steps := 0 } :: others s x })
      ∧ (limit x - 3000 < v → exec .thermalRecovery s = .next s))
  ∧ (∀ (s : State) core, let n := s.stretch core
      let hot := s.heats.filter Heat.hot
      ((∀ h ∈ hot, h.steps ≤ 4) → n ≤ 4) ∧ (∀ h ∈ hot, h.steps ≤ n) ∧ ((∃ x ∈ s.sags, x.supply = Config.supplyOf core) → 4 ≤ n)
        ∧ ((∀ x ∈ s.sags, x.supply ≠ Config.supplyOf core) → n = 0 ∨ ∃ h ∈ hot, h.steps = n))
  ∧ (∀ s x v, s.reading = some ⟨x, v⟩ → s.sec ≠ .frost → trip x ≤ v → ∃ t, exec .thermtrip s = .next t ∧ t.sec = .boot ∧ t.thermtripN = false ∧ t.blocks = []
      ∧ ∀ b, ∃ u, exec (.boot b) t = .next u ∧ u.sec = .boot ∧ u.blocks = [])
  ∧ (∀ s x v, s.reading = some ⟨x, v⟩ → v < trip x → ∃ t h, exec .thermtripClear s = .next t
      ∧ t = { s with reading := none, heats := t.heats } ∧ t.heats = h :: others s x ∧ h.sensor = x ∧ h.temp = v)
  ∧ (∀ s r n l, s.agenda = .sensor r n :: l → ∃ i, (i = .thermtrip ∨ i = .thermtripClear ∨ i = .thermalThrottle n ∨ i = .thermalRecovery)
      ∧ step s = exec i { s with agenda := l, reading := some r } ∧ ∃ t, exec i { s with agenda := l, reading := some r } = .next t
      ∧ ∃ h, t.heats = h :: others s r.sensor ∧ h.sensor = r.sensor ∧ h.temp = r.temp)

/-- R429, R430: until it boots the device holds nothing but its key store and M, whatever steps it makes; and in Frost it stays
until power is removed. -/
def Obligations.HeldInReset : Prop :=
  let noBoot (s : State) : Prop := ∀ b, .event (.boot b) ∉ s.agenda
  ∀ s t, s.idle → noBoot s → step s = .next t →
    t.idle ∧ noBoot t ∧ (s.sec = .frost → s.agenda.head? ≠ some (.event .powerRemoval) → t.sec = .frost)

/-! ### Traps, steps and encodings (R2, R83 to R106, R376 to R382) -/

/-- R377 to R379, R382: a trap stops both slices of its pair as they stand, reservations cleared, memory and other blocks
untouched; its record waits for the ring. At the end of that clk the pair comes to rest: naps are cut short and windows close. That
the pair stops in the step that traps is the model's reading (log 29). -/
def Obligations.TrapsStopThePair : Prop :=
  (∀ (s : State) place g sl pc (x : TrapInfo) b, s.block? place = some b → (b.pair g).run = .running →
    (∀ o ∈ s.outs, { o.own with lane := 0 } ≠ b.owner g 0) → (b.pair g).safe = none → (b.pair g).trapSl = none →
    let t := s.raiseTrap place g sl pc x
    let p := t.pair place g
    p.run = .stopped .trap ∧ p.haltAt = some s.clk ∧ p.live = (b.pair g).live ∧ p.resv = [] ∧ p.queues = (b.pair g).queues
      ∧ p.streams = (b.pair g).streams ∧ t.mem = s.mem ∧ (∀ q, q ≠ place → t.block? q = s.block? q)
      ∧ (∀ k, k ≠ g → t.pair place k = b.pair k) ∧ (∀ k, k ≠ coreOf place → t.core k = s.core k)
      ∧ (∀ sl, p.half sl = (b.pair g).half sl)
      ∧ ∃ r, (t.core (coreOf place)).recs = (s.core (coreOf place)).recs ++ [r] ∧ r.part = b.part ∧ r.debug = false
          ∧ r.handle = some (s.pairHandle place g) ∧ r.bytes.length = 64
          ∧ field r.bytes 0 2 = x.kind % 2 ^ 16 ∧ field r.bytes 2 1 = x.code % 2 ^ 8
          ∧ field r.bytes 3 1 = (if sl = .access then 0 else 1) ∧ field r.bytes 4 4 = (s.pairHandle place g).toNat
          ∧ field r.bytes 8 4 = pc.toNat ∧ field r.bytes 12 1 = x.lane % 2 ^ 8 ∧ field r.bytes 16 8 = x.addr.toNat
          ∧ field r.bytes 24 8 = (laneMask x.lanes).toNat ∧ field r.bytes 32 4 = x.aux0 % 2 ^ 32 ∧ field r.bytes 36 4 = x.aux1 % 2 ^ 32
          ∧ field r.bytes 40 8 = x.aux2.toNat ∧ field r.bytes 48 3 = b.serial % 2 ^ 24 ∧ field r.bytes 52 2 = b.asid % 2 ^ 16
          ∧ field r.bytes 56 8 = s.clk % 2 ^ 64)
  ∧ ∀ (p : Pair) w clk, p.run.isStopped = true → p.haltAt = some clk → ∀ sl,
      let h := (p.endClk w clk).half sl
      let h0 := p.half sl
      h.regs = h0.regs ∧ h.uni = h0.uni ∧ h.sets = h0.sets ∧ ∀ l,
        let y := h.lane l
        let z := h0.lane l
        y.pc = z.pc ∧ y.life = z.life ∧ y.depth = z.depth ∧ y.preds = z.preds ∧ (∀ v ∈ y.wins, v.out ≠ 0) ∧ ∀ e, y.wait ≠ .nap e

/-- A step runs the instruction at a program counter (log 1): the turn of a half chooses a program counter. Where the bytes of
its section there decode to a well-formed instruction, the step is that instruction's exec for the lanes there that have not
issued in the clk: at once while a rendezvous is incomplete or the team's own step is to come, and otherwise where no breakpoint
and no stop at safe points holds one of the lanes that issue together. Where the bytes do not decode the path traps (R106). A
half with one program counter, nothing to count and nothing busy chooses it. The turn of another step of the table is its exec.
How two slots of one clk are chosen beside this is the turn's and R173's (log 15). -/
def Obligations.StepsRunInstructions : Prop :=
  (∀ s u core slot g sl k r pc b i n, let place := placeOf core slot
      let bytes := u.mem.read ((b.kernel.section sl).1 + pc.toNat) (min 20 ((b.kernel.section sl).2 - pc.toNat))
      let h := (b.pair g).half sl
      let path := h.pathBut b.w pc h.did
      let cur : Cursor := { place, group := g, sl, pc, skip := h.did, late := k.late }
      let v : State := { u with cur }
      s.agenda = .issue core slot g sl k :: r → s.sec = .run → (s.pair place g).live = true → (s.pair place g).run = .running →
      ({ s with agenda := r } : State).nextSlot place g sl k.busy = (u, some pc) → u.block? place = some b → path ≠ [] →
      (decode sl bytes = .ok (i, n) → WellFormed sl i = true
        ∧ (v.begin? i = none → step s = exec i v)
        ∧ ∀ c, v.begin? i = some c →
          let a := c.arrive i
          -- A collective of a team with active lanes: its members are tested for stops together, when all have come.
          let team := ∃ f c', i = .mmaTeam f ∧ a.1.begin? i = some c' ∧ c'.act ≠ []
          (a.2 = [] ∨ team → step s = exec i v)
          ∧ ∀ b', a.2 ≠ [] → ¬ team → a.1.block? place = some b' → a.1.breakHit place g sl pc a.2 = none → a.1.toHold b' g sl pc a.2 = [] →
            step s = exec i { a.1 with cur })
      ∧ ∀ e, decode sl bytes = .error e → ∃ x : TrapInfo, x.code = 0x01 ∧ x.lanes = path ∧ step s = .next (u.raiseTrap place g sl pc x))
  ∧ (∀ (s : State) place g sl b pc busy, let h := (b.pair g).half sl
      s.block? place = some b → h.slots b.w = [pc] → h.ctl.chosenAt ≠ some s.clk → h.ctl.serial = false → h.ctl.yielded = [] →
      h.ctl.waits = [] → pc.toNat ∉ busy →
      ∃ u, s.nextSlot place g sl busy = (u, some pc) ∧ u.mem = s.mem
        ∧ ∃ b', u.block? place = some b' ∧ b'.kernel = b.kernel
          ∧ ((b'.pair g).half sl).lanes = h.lanes ∧ ((b'.pair g).half sl).regs = h.regs)
  ∧ (∀ s i r, s.agenda = .event i :: r → isStep i = true → s.sec = .run → step s = exec i { s with agenda := r })

/-- R2, R85 to R96, R105, R110, with the words of the manual's own examples: 5.1 `add`, `mov`, `nop`; 5.2 `fma`; `cmp`, `cvt`,
`red`, `vote.any`; `bra` (small immediate and literal), `br.q`, `join.init`, `join.wait`; `ld.q`, `ld.y`, `st`, `atom`,
`stream`, `qflush`; `mma`; `copy.async`, `bar.init`, `post`, `seal`; `ctxsave.free`, `fwcall`. Each decodes to its instruction,
with its length in bytes; the all-ones word and the reserved fields of a base word do not decode. -/
def Obligations.WordsDecode : Prop :=
  let acc (ws : List Word) (i : Instr) (n : Nat) : Prop := decodeWords .access ws = .ok (i, n)
  let exe (ws : List Word) (i : Instr) (n : Nat) : Prop := decodeWords .execute ws = .ok (i, n)
  acc [0x0c831400] (.addBase { d := 5, a := 3, b := 50 }) 4
  ∧ exe [0x000010ba, 0x12345678, 0] (.movBase { d := 4, lit := some 0x12345678 }) 12
  ∧ exe [0x00000318] (.nopBase {}) 4
  ∧ exe [0x30400119, 0x082a0009, 0x00511400]
      (.fma { ahead := 3, dst := .reg 8, a := .reg 9, b := .queue 0, c := .reg 10, g0 := 1, g1 := 10, ty := .f32, rnd := .rz }) 12
  ∧ exe [0x001008b1, 0x00031404, 0x00030000] (.cmp .lt { dst := .reg 2, a := .reg 4, b := .imm 10, ty := .i32 }) 12
  ∧ exe [0x000045c1, 0, 0x00150000] (.cvt .f32 { ty := .e4m3 }) 12
  ∧ exe [0x00a00229, 0x08000007, 0x00110000] (.red .add { dst := .reg 20, a := .reg 7, g0 := 1, ty := .f32 }) 12
  ∧ exe [0x00200221, 0x00000003, 0] (.voteAny { dst := .reg 4, a := .reg 3 }) 12
  ∧ exe [0x000002c1, 0x180001e8, 0] (.bra { a := .imm (-24), g0 := 3 }) 12
  ∧ exe [0x000002c3, 0x4800017f, 0, 0xffffffb8, 0] (.bra { a := .lit, g0 := 9, lit := some 0xffffffb8 }) 20
  ∧ exe [0x000002c9, 0x0003410c, 0] (.brQ { a := .queue 12, b := .imm 32 }) 12
  ∧ exe [0x000002f1, 0x0003ff11, 0] (.joinInit { a := .set 1, b := .imm (-1) }) 12
  ∧ exe [0x00000ef1, 0x00000111, 0] (.joinWait { a := .set 1 }) 12
  ∧ acc [0x08000341, 0x00032004, 0x00090000] (.ldQ { dst := .queue 0, a := .reg 4, b := .imm 16, ty := .b32 }) 12
  ∧ acc [0x10400741, 0x00031006, 0x000a0000] (.ldY { ahead := 1, dst := .reg 8, a := .reg 6, b := .imm 8, ty := .b64 }) 12
  ∧ acc [0x00000351, 0x04370006, 0x00090000] (.st { a := .reg 6, b := .imm 0, c := .queue 13, ty := .b32 }) 12
  ∧ acc [0x00000371, 0x26070020, 0x18070000]
      (.atom .add { a := .reg 32, b := .imm 0, c := .imm 1, g0 := 4, ty := .n32, mods := 6 }) 12
  ∧ acc [0x08100349, 0x000000ac, 0x00090000] (.stream { dst := .queue 2, a := .uni 44, ty := .b32 }) 12
  ∧ exe [0x00000361, 0x00000100, 0] (.qflush { a := .queue 0 }) 12
  ∧ exe [0x000003c1, 0x0011188a, 0x04000089] (.mma { a := .uni 10, b := .uni 12, c := .reg 4, d := .uni 9, mods := 1 }) 12
  ∧ acc [0x000003eb, 0x2dfc301c, 0x20000000, 0x40, 0]
      (.copyAsync { a := .reg 28, b := .reg 24, c := .lit, g0 := 5, mods := 8, lit := some 0x40 }) 20
  ∧ acc [0x000003e1, 0x260b00a8, 0x04000000] (.barInit { a := .uni 40, b := .imm 0, c := .imm 2, g0 := 4, mods := 1 }) 12
  ∧ acc [0x00a087e9, 0x00001086, 0] (.post { dst := .reg 20, a := .uni 6, b := .reg 8 }) 12
  ∧ acc [0x00b88be9, 0x3800009e, 0] (.seal { dst := .reg 23, a := .uni 30, g0 := 7 }) 12
  ∧ exe [0x00101bf1, 0x02210c84, 0x04000000] (.ctxsaveFree { dst := .reg 2, a := .uni 4, b := .uni 6, c := .uni 8, mods := 1 }) 12
  ∧ exe [0x00102bf1, 0x00010d90, 0] (.fwcall { dst := .reg 2, a := .imm 16, b := .uni 6 }) 12
  ∧ (∀ sl, (∃ e, decodeWords sl [0xffffffff] = .error e) ∧ ∃ e, decodeWords sl [0x00000718] = .error e)

/-- R83 to R96, R105, R106: every well-formed instruction is decoded from its words, with every operand, whatever follows them;
and the words that decode to an instruction are its encoding. -/
def Obligations.DecodeOfEncode : Prop :=
  (∀ sl i rest, WellFormed sl i = true → decode sl (bytesOfWords (encode i) ++ rest) = .ok (i, byteLen i))
  ∧ (∀ sl ws i n, decodeWords sl ws = .ok (i, n) → WellFormed sl i = true ∧ n = byteLen i ∧ encode i = ws.take (n / 4))

/-- R2, R225, R228, R266: a write of an engine changes exactly the bytes of its range that belong to no live barrier word, a
write of firmware every byte of its range, clearing tags; memory keeps its canonical form. -/
def Obligations.WritesPlaceTheirBytes : Prop :=
  (∀ (s : State) core x bs, (∀ p off, x = .sp p off → (s.block? p).isSome = true) →
      let r := s.storeEngine core x bs
      (∀ y, r.1.byteAt y = match x.under bs.length y with
        | some k => if (s.tagAt y).isSome then s.byteAt y else bs.getD k 0
        | none => s.byteAt y)
      ∧ (r.2 = true ↔ ∃ k < bs.length, (s.tagAt (locAdd x k)).isSome = true) ∧ (∀ y, r.1.tagAt y = s.tagAt y)
      ∧ (s.mem.wf = true → r.1.mem.wf = true))
  ∧ (∀ (s : State) pa bs, let t := s.storeFirmware pa bs
      (∀ y, t.byteAt y = match (Loc.glob pa).under bs.length y with
        | some k => bs.getD k 0
        | none => s.byteAt y)
      ∧ (∀ k < bs.length, t.tagAt (.glob (pa + k)) = none) ∧ (s.mem.wf = true → t.mem.wf = true))
end

