-- ==== Sys2Proof/Laws/State.lean ====
section
/-! SUPPORT. What each named update leaves of a record's fields: one lemma a field and update, so that no proof unfolds an
update. -/

namespace Sys2Proof.Machine
open Sys2Proof

/-! ### State.setCore -/

@[simp] theorem State.setCore_agenda (x : State) (c : Nat) (k : Core) : (x.setCore c k).agenda = x.agenda := rfl
@[simp] theorem State.setCore_cur (x : State) (c : Nat) (k : Core) : (x.setCore c k).cur = x.cur := rfl
@[simp] theorem State.setCore_fresh (x : State) (c : Nat) (k : Core) : (x.setCore c k).fresh = x.fresh := rfl
@[simp] theorem State.setCore_clk (x : State) (c : Nat) (k : Core) : (x.setCore c k).clk = x.clk := rfl
@[simp] theorem State.setCore_sec (x : State) (c : Nat) (k : Core) : (x.setCore c k).sec = x.sec := rfl
@[simp] theorem State.setCore_mem (x : State) (c : Nat) (k : Core) : (x.setCore c k).mem = x.mem := rfl
@[simp] theorem State.setCore_btags (x : State) (c : Nat) (k : Core) : (x.setCore c k).btags = x.btags := rfl
@[simp] theorem State.setCore_lines (x : State) (c : Nat) (k : Core) : (x.setCore c k).lines = x.lines := rfl
@[simp] theorem State.setCore_held (x : State) (c : Nat) (k : Core) : (x.setCore c k).held = x.held := rfl
@[simp] theorem State.setCore_late (x : State) (c : Nat) (k : Core) : (x.setCore c k).late = x.late := rfl
@[simp] theorem State.setCore_outs (x : State) (c : Nat) (k : Core) : (x.setCore c k).outs = x.outs := rfl
@[simp] theorem State.setCore_remotes (x : State) (c : Nat) (k : Core) : (x.setCore c k).remotes = x.remotes := rfl
@[simp] theorem State.setCore_drops (x : State) (c : Nat) (k : Core) : (x.setCore c k).drops = x.drops := rfl
@[simp] theorem State.setCore_tlb (x : State) (c : Nat) (k : Core) : (x.setCore c k).tlb = x.tlb := rfl
@[simp] theorem State.setCore_errs (x : State) (c : Nat) (k : Core) : (x.setCore c k).errs = x.errs := rfl
@[simp] theorem State.setCore_invals (x : State) (c : Nat) (k : Core) : (x.setCore c k).invals = x.invals := rfl
@[simp] theorem State.setCore_blocks (x : State) (c : Nat) (k : Core) : (x.setCore c k).blocks = x.blocks := rfl
@[simp] theorem State.setCore_launches (x : State) (c : Nat) (k : Core) : (x.setCore c k).launches = x.launches := rfl
@[simp] theorem State.setCore_packets (x : State) (c : Nat) (k : Core) : (x.setCore c k).packets = x.packets := rfl
@[simp] theorem State.setCore_fwHeads (x : State) (c : Nat) (k : Core) : (x.setCore c k).fwHeads = x.fwHeads := rfl
@[simp] theorem State.setCore_rrs (x : State) (c : Nat) (k : Core) : (x.setCore c k).rrs = x.rrs := rfl
@[simp] theorem State.setCore_lastIdx (x : State) (c : Nat) (k : Core) : (x.setCore c k).lastIdx = x.lastIdx := rfl
@[simp] theorem State.setCore_serials (x : State) (c : Nat) (k : Core) : (x.setCore c k).serials = x.serials := rfl
@[simp] theorem State.setCore_subs (x : State) (c : Nat) (k : Core) : (x.setCore c k).subs = x.subs := rfl
@[simp] theorem State.setCore_window (x : State) (c : Nat) (k : Core) : (x.setCore c k).window = x.window := rfl
@[simp] theorem State.setCore_ready (x : State) (c : Nat) (k : Core) : (x.setCore c k).ready = x.ready := rfl
@[simp] theorem State.setCore_colls (x : State) (c : Nat) (k : Core) : (x.setCore c k).colls = x.colls := rfl
@[simp] theorem State.setCore_collSeqs (x : State) (c : Nat) (k : Core) : (x.setCore c k).collSeqs = x.collSeqs := rfl
@[simp] theorem State.setCore_parts (x : State) (c : Nat) (k : Core) : (x.setCore c k).parts = x.parts := rfl
@[simp] theorem State.setCore_sys (x : State) (c : Nat) (k : Core) : (x.setCore c k).sys = x.sys := rfl
@[simp] theorem State.setCore_qtab (x : State) (c : Nat) (k : Core) : (x.setCore c k).qtab = x.qtab := rfl
@[simp] theorem State.setCore_mbox (x : State) (c : Nat) (k : Core) : (x.setCore c k).mbox = x.mbox := rfl
@[simp] theorem State.setCore_mboxn (x : State) (c : Nat) (k : Core) : (x.setCore c k).mboxn = x.mboxn := rfl
@[simp] theorem State.setCore_calls (x : State) (c : Nat) (k : Core) : (x.setCore c k).calls = x.calls := rfl
@[simp] theorem State.setCore_measure (x : State) (c : Nat) (k : Core) : (x.setCore c k).measure = x.measure := rfl
@[simp] theorem State.setCore_kkeys (x : State) (c : Nat) (k : Core) : (x.setCore c k).kkeys = x.kkeys := rfl
@[simp] theorem State.setCore_tkeys (x : State) (c : Nat) (k : Core) : (x.setCore c k).tkeys = x.tkeys := rfl
@[simp] theorem State.setCore_oldKeys (x : State) (c : Nat) (k : Core) : (x.setCore c k).oldKeys = x.oldKeys := rfl
@[simp] theorem State.setCore_rod (x : State) (c : Nat) (k : Core) : (x.setCore c k).rod = x.rod := rfl
@[simp] theorem State.setCore_idErased (x : State) (c : Nat) (k : Core) : (x.setCore c k).idErased = x.idErased := rfl
@[simp] theorem State.setCore_ports (x : State) (c : Nat) (k : Core) : (x.setCore c k).ports = x.ports := rfl
@[simp] theorem State.setCore_fep (x : State) (c : Nat) (k : Core) : (x.setCore c k).fep = x.fep := rfl
@[simp] theorem State.setCore_alarm (x : State) (c : Nat) (k : Core) : (x.setCore c k).alarm = x.alarm := rfl
@[simp] theorem State.setCore_pwrokN (x : State) (c : Nat) (k : Core) : (x.setCore c k).pwrokN = x.pwrokN := rfl
@[simp] theorem State.setCore_resetN (x : State) (c : Nat) (k : Core) : (x.setCore c k).resetN = x.resetN := rfl
@[simp] theorem State.setCore_sags (x : State) (c : Nat) (k : Core) : (x.setCore c k).sags = x.sags := rfl
@[simp] theorem State.setCore_heats (x : State) (c : Nat) (k : Core) : (x.setCore c k).heats = x.heats := rfl
@[simp] theorem State.setCore_reading (x : State) (c : Nat) (k : Core) : (x.setCore c k).reading = x.reading := rfl
@[simp] theorem State.setCore_owner (x : State) (c : Nat) (k : Core) : (x.setCore c k).owner = x.owner := rfl
@[simp] theorem State.setCore_mgmtRead (x : State) (c : Nat) (k : Core) : (x.setCore c k).mgmtRead = x.mgmtRead := rfl
@[simp] theorem State.setCore_inReply (x : State) (c : Nat) (k : Core) : (x.setCore c k).inReply = x.inReply := rfl
@[simp] theorem State.setCore_fwDone (x : State) (c : Nat) (k : Core) : (x.setCore c k).fwDone = x.fwDone := rfl

/-! ### State.setBlock -/

@[simp] theorem State.setBlock_agenda (x : State) (p : Nat) (b : Block) : (x.setBlock p b).agenda = x.agenda := rfl
@[simp] theorem State.setBlock_cur (x : State) (p : Nat) (b : Block) : (x.setBlock p b).cur = x.cur := rfl
@[simp] theorem State.setBlock_fresh (x : State) (p : Nat) (b : Block) : (x.setBlock p b).fresh = x.fresh := rfl
@[simp] theorem State.setBlock_clk (x : State) (p : Nat) (b : Block) : (x.setBlock p b).clk = x.clk := rfl
@[simp] theorem State.setBlock_sec (x : State) (p : Nat) (b : Block) : (x.setBlock p b).sec = x.sec := rfl
@[simp] theorem State.setBlock_mem (x : State) (p : Nat) (b : Block) : (x.setBlock p b).mem = x.mem := rfl
@[simp] theorem State.setBlock_btags (x : State) (p : Nat) (b : Block) : (x.setBlock p b).btags = x.btags := rfl
@[simp] theorem State.setBlock_lines (x : State) (p : Nat) (b : Block) : (x.setBlock p b).lines = x.lines := rfl
@[simp] theorem State.setBlock_held (x : State) (p : Nat) (b : Block) : (x.setBlock p b).held = x.held := rfl
@[simp] theorem State.setBlock_late (x : State) (p : Nat) (b : Block) : (x.setBlock p b).late = x.late := rfl
@[simp] theorem State.setBlock_outs (x : State) (p : Nat) (b : Block) : (x.setBlock p b).outs = x.outs := rfl
@[simp] theorem State.setBlock_remotes (x : State) (p : Nat) (b : Block) : (x.setBlock p b).remotes = x.remotes := rfl
@[simp] theorem State.setBlock_drops (x : State) (p : Nat) (b : Block) : (x.setBlock p b).drops = x.drops := rfl
@[simp] theorem State.setBlock_tlb (x : State) (p : Nat) (b : Block) : (x.setBlock p b).tlb = x.tlb := rfl
@[simp] theorem State.setBlock_errs (x : State) (p : Nat) (b : Block) : (x.setBlock p b).errs = x.errs := rfl
@[simp] theorem State.setBlock_invals (x : State) (p : Nat) (b : Block) : (x.setBlock p b).invals = x.invals := rfl
@[simp] theorem State.setBlock_cores (x : State) (p : Nat) (b : Block) : (x.setBlock p b).cores = x.cores := rfl
@[simp] theorem State.setBlock_launches (x : State) (p : Nat) (b : Block) : (x.setBlock p b).launches = x.launches := rfl
@[simp] theorem State.setBlock_packets (x : State) (p : Nat) (b : Block) : (x.setBlock p b).packets = x.packets := rfl
@[simp] theorem State.setBlock_fwHeads (x : State) (p : Nat) (b : Block) : (x.setBlock p b).fwHeads = x.fwHeads := rfl
@[simp] theorem State.setBlock_rrs (x : State) (p : Nat) (b : Block) : (x.setBlock p b).rrs = x.rrs := rfl
@[simp] theorem State.setBlock_lastIdx (x : State) (p : Nat) (b : Block) : (x.setBlock p b).lastIdx = x.lastIdx := rfl
@[simp] theorem State.setBlock_serials (x : State) (p : Nat) (b : Block) : (x.setBlock p b).serials = x.serials := rfl
@[simp] theorem State.setBlock_subs (x : State) (p : Nat) (b : Block) : (x.setBlock p b).subs = x.subs := rfl
@[simp] theorem State.setBlock_window (x : State) (p : Nat) (b : Block) : (x.setBlock p b).window = x.window := rfl
@[simp] theorem State.setBlock_ready (x : State) (p : Nat) (b : Block) : (x.setBlock p b).ready = x.ready := rfl
@[simp] theorem State.setBlock_colls (x : State) (p : Nat) (b : Block) : (x.setBlock p b).colls = x.colls := rfl
@[simp] theorem State.setBlock_collSeqs (x : State) (p : Nat) (b : Block) : (x.setBlock p b).collSeqs = x.collSeqs := rfl
@[simp] theorem State.setBlock_parts (x : State) (p : Nat) (b : Block) : (x.setBlock p b).parts = x.parts := rfl
@[simp] theorem State.setBlock_sys (x : State) (p : Nat) (b : Block) : (x.setBlock p b).sys = x.sys := rfl
@[simp] theorem State.setBlock_qtab (x : State) (p : Nat) (b : Block) : (x.setBlock p b).qtab = x.qtab := rfl
@[simp] theorem State.setBlock_mbox (x : State) (p : Nat) (b : Block) : (x.setBlock p b).mbox = x.mbox := rfl
@[simp] theorem State.setBlock_mboxn (x : State) (p : Nat) (b : Block) : (x.setBlock p b).mboxn = x.mboxn := rfl
@[simp] theorem State.setBlock_calls (x : State) (p : Nat) (b : Block) : (x.setBlock p b).calls = x.calls := rfl
@[simp] theorem State.setBlock_measure (x : State) (p : Nat) (b : Block) : (x.setBlock p b).measure = x.measure := rfl
@[simp] theorem State.setBlock_kkeys (x : State) (p : Nat) (b : Block) : (x.setBlock p b).kkeys = x.kkeys := rfl
@[simp] theorem State.setBlock_tkeys (x : State) (p : Nat) (b : Block) : (x.setBlock p b).tkeys = x.tkeys := rfl
@[simp] theorem State.setBlock_oldKeys (x : State) (p : Nat) (b : Block) : (x.setBlock p b).oldKeys = x.oldKeys := rfl
@[simp] theorem State.setBlock_rod (x : State) (p : Nat) (b : Block) : (x.setBlock p b).rod = x.rod := rfl
@[simp] theorem State.setBlock_idErased (x : State) (p : Nat) (b : Block) : (x.setBlock p b).idErased = x.idErased := rfl
@[simp] theorem State.setBlock_ports (x : State) (p : Nat) (b : Block) : (x.setBlock p b).ports = x.ports := rfl
@[simp] theorem State.setBlock_fep (x : State) (p : Nat) (b : Block) : (x.setBlock p b).fep = x.fep := rfl
@[simp] theorem State.setBlock_alarm (x : State) (p : Nat) (b : Block) : (x.setBlock p b).alarm = x.alarm := rfl
@[simp] theorem State.setBlock_pwrokN (x : State) (p : Nat) (b : Block) : (x.setBlock p b).pwrokN = x.pwrokN := rfl
@[simp] theorem State.setBlock_resetN (x : State) (p : Nat) (b : Block) : (x.setBlock p b).resetN = x.resetN := rfl
@[simp] theorem State.setBlock_sags (x : State) (p : Nat) (b : Block) : (x.setBlock p b).sags = x.sags := rfl
@[simp] theorem State.setBlock_heats (x : State) (p : Nat) (b : Block) : (x.setBlock p b).heats = x.heats := rfl
@[simp] theorem State.setBlock_reading (x : State) (p : Nat) (b : Block) : (x.setBlock p b).reading = x.reading := rfl
@[simp] theorem State.setBlock_owner (x : State) (p : Nat) (b : Block) : (x.setBlock p b).owner = x.owner := rfl
@[simp] theorem State.setBlock_mgmtRead (x : State) (p : Nat) (b : Block) : (x.setBlock p b).mgmtRead = x.mgmtRead := rfl
@[simp] theorem State.setBlock_inReply (x : State) (p : Nat) (b : Block) : (x.setBlock p b).inReply = x.inReply := rfl
@[simp] theorem State.setBlock_fwDone (x : State) (p : Nat) (b : Block) : (x.setBlock p b).fwDone = x.fwDone := rfl

/-! ### State.dropBlock -/

@[simp] theorem State.dropBlock_agenda (x : State) (p : Nat) : (x.dropBlock p).agenda = x.agenda := rfl
@[simp] theorem State.dropBlock_cur (x : State) (p : Nat) : (x.dropBlock p).cur = x.cur := rfl
@[simp] theorem State.dropBlock_fresh (x : State) (p : Nat) : (x.dropBlock p).fresh = x.fresh := rfl
@[simp] theorem State.dropBlock_clk (x : State) (p : Nat) : (x.dropBlock p).clk = x.clk := rfl
@[simp] theorem State.dropBlock_sec (x : State) (p : Nat) : (x.dropBlock p).sec = x.sec := rfl
@[simp] theorem State.dropBlock_mem (x : State) (p : Nat) : (x.dropBlock p).mem = x.mem := rfl
@[simp] theorem State.dropBlock_btags (x : State) (p : Nat) : (x.dropBlock p).btags = x.btags := rfl
@[simp] theorem State.dropBlock_lines (x : State) (p : Nat) : (x.dropBlock p).lines = x.lines := rfl
@[simp] theorem State.dropBlock_held (x : State) (p : Nat) : (x.dropBlock p).held = x.held := rfl
@[simp] theorem State.dropBlock_late (x : State) (p : Nat) : (x.dropBlock p).late = x.late := rfl
@[simp] theorem State.dropBlock_outs (x : State) (p : Nat) : (x.dropBlock p).outs = x.outs := rfl
@[simp] theorem State.dropBlock_remotes (x : State) (p : Nat) : (x.dropBlock p).remotes = x.remotes := rfl
@[simp] theorem State.dropBlock_drops (x : State) (p : Nat) : (x.dropBlock p).drops = x.drops := rfl
@[simp] theorem State.dropBlock_tlb (x : State) (p : Nat) : (x.dropBlock p).tlb = x.tlb := rfl
@[simp] theorem State.dropBlock_errs (x : State) (p : Nat) : (x.dropBlock p).errs = x.errs := rfl
@[simp] theorem State.dropBlock_invals (x : State) (p : Nat) : (x.dropBlock p).invals = x.invals := rfl
@[simp] theorem State.dropBlock_cores (x : State) (p : Nat) : (x.dropBlock p).cores = x.cores := rfl
@[simp] theorem State.dropBlock_launches (x : State) (p : Nat) : (x.dropBlock p).launches = x.launches := rfl
@[simp] theorem State.dropBlock_packets (x : State) (p : Nat) : (x.dropBlock p).packets = x.packets := rfl
@[simp] theorem State.dropBlock_fwHeads (x : State) (p : Nat) : (x.dropBlock p).fwHeads = x.fwHeads := rfl
@[simp] theorem State.dropBlock_rrs (x : State) (p : Nat) : (x.dropBlock p).rrs = x.rrs := rfl
@[simp] theorem State.dropBlock_lastIdx (x : State) (p : Nat) : (x.dropBlock p).lastIdx = x.lastIdx := rfl
@[simp] theorem State.dropBlock_serials (x : State) (p : Nat) : (x.dropBlock p).serials = x.serials := rfl
@[simp] theorem State.dropBlock_subs (x : State) (p : Nat) : (x.dropBlock p).subs = x.subs := rfl
@[simp] theorem State.dropBlock_window (x : State) (p : Nat) : (x.dropBlock p).window = x.window := rfl
@[simp] theorem State.dropBlock_ready (x : State) (p : Nat) : (x.dropBlock p).ready = x.ready := rfl
@[simp] theorem State.dropBlock_colls (x : State) (p : Nat) : (x.dropBlock p).colls = x.colls := rfl
@[simp] theorem State.dropBlock_collSeqs (x : State) (p : Nat) : (x.dropBlock p).collSeqs = x.collSeqs := rfl
@[simp] theorem State.dropBlock_parts (x : State) (p : Nat) : (x.dropBlock p).parts = x.parts := rfl
@[simp] theorem State.dropBlock_sys (x : State) (p : Nat) : (x.dropBlock p).sys = x.sys := rfl
@[simp] theorem State.dropBlock_qtab (x : State) (p : Nat) : (x.dropBlock p).qtab = x.qtab := rfl
@[simp] theorem State.dropBlock_mbox (x : State) (p : Nat) : (x.dropBlock p).mbox = x.mbox := rfl
@[simp] theorem State.dropBlock_mboxn (x : State) (p : Nat) : (x.dropBlock p).mboxn = x.mboxn := rfl
@[simp] theorem State.dropBlock_calls (x : State) (p : Nat) : (x.dropBlock p).calls = x.calls := rfl
@[simp] theorem State.dropBlock_measure (x : State) (p : Nat) : (x.dropBlock p).measure = x.measure := rfl
@[simp] theorem State.dropBlock_kkeys (x : State) (p : Nat) : (x.dropBlock p).kkeys = x.kkeys := rfl
@[simp] theorem State.dropBlock_tkeys (x : State) (p : Nat) : (x.dropBlock p).tkeys = x.tkeys := rfl
@[simp] theorem State.dropBlock_oldKeys (x : State) (p : Nat) : (x.dropBlock p).oldKeys = x.oldKeys := rfl
@[simp] theorem State.dropBlock_rod (x : State) (p : Nat) : (x.dropBlock p).rod = x.rod := rfl
@[simp] theorem State.dropBlock_idErased (x : State) (p : Nat) : (x.dropBlock p).idErased = x.idErased := rfl
@[simp] theorem State.dropBlock_ports (x : State) (p : Nat) : (x.dropBlock p).ports = x.ports := rfl
@[simp] theorem State.dropBlock_fep (x : State) (p : Nat) : (x.dropBlock p).fep = x.fep := rfl
@[simp] theorem State.dropBlock_alarm (x : State) (p : Nat) : (x.dropBlock p).alarm = x.alarm := rfl
@[simp] theorem State.dropBlock_pwrokN (x : State) (p : Nat) : (x.dropBlock p).pwrokN = x.pwrokN := rfl
@[simp] theorem State.dropBlock_resetN (x : State) (p : Nat) : (x.dropBlock p).resetN = x.resetN := rfl
@[simp] theorem State.dropBlock_sags (x : State) (p : Nat) : (x.dropBlock p).sags = x.sags := rfl
@[simp] theorem State.dropBlock_heats (x : State) (p : Nat) : (x.dropBlock p).heats = x.heats := rfl
@[simp] theorem State.dropBlock_reading (x : State) (p : Nat) : (x.dropBlock p).reading = x.reading := rfl
@[simp] theorem State.dropBlock_owner (x : State) (p : Nat) : (x.dropBlock p).owner = x.owner := rfl
@[simp] theorem State.dropBlock_mgmtRead (x : State) (p : Nat) : (x.dropBlock p).mgmtRead = x.mgmtRead := rfl
@[simp] theorem State.dropBlock_inReply (x : State) (p : Nat) : (x.dropBlock p).inReply = x.inReply := rfl
@[simp] theorem State.dropBlock_fwDone (x : State) (p : Nat) : (x.dropBlock p).fwDone = x.fwDone := rfl

/-! ### State.setSysreg -/

@[simp] theorem State.setSysreg_agenda (x : State) (p i : Nat) (v : DWord) : (x.setSysreg p i v).agenda = x.agenda := rfl
@[simp] theorem State.setSysreg_cur (x : State) (p i : Nat) (v : DWord) : (x.setSysreg p i v).cur = x.cur := rfl
@[simp] theorem State.setSysreg_fresh (x : State) (p i : Nat) (v : DWord) : (x.setSysreg p i v).fresh = x.fresh := rfl
@[simp] theorem State.setSysreg_clk (x : State) (p i : Nat) (v : DWord) : (x.setSysreg p i v).clk = x.clk := rfl
@[simp] theorem State.setSysreg_sec (x : State) (p i : Nat) (v : DWord) : (x.setSysreg p i v).sec = x.sec := rfl
@[simp] theorem State.setSysreg_mem (x : State) (p i : Nat) (v : DWord) : (x.setSysreg p i v).mem = x.mem := rfl
@[simp] theorem State.setSysreg_btags (x : State) (p i : Nat) (v : DWord) : (x.setSysreg p i v).btags = x.btags := rfl
@[simp] theorem State.setSysreg_lines (x : State) (p i : Nat) (v : DWord) : (x.setSysreg p i v).lines = x.lines := rfl
@[simp] theorem State.setSysreg_held (x : State) (p i : Nat) (v : DWord) : (x.setSysreg p i v).held = x.held := rfl
@[simp] theorem State.setSysreg_late (x : State) (p i : Nat) (v : DWord) : (x.setSysreg p i v).late = x.late := rfl
@[simp] theorem State.setSysreg_outs (x : State) (p i : Nat) (v : DWord) : (x.setSysreg p i v).outs = x.outs := rfl
@[simp] theorem State.setSysreg_remotes (x : State) (p i : Nat) (v : DWord) : (x.setSysreg p i v).remotes = x.remotes := rfl
@[simp] theorem State.setSysreg_drops (x : State) (p i : Nat) (v : DWord) : (x.setSysreg p i v).drops = x.drops := rfl
@[simp] theorem State.setSysreg_tlb (x : State) (p i : Nat) (v : DWord) : (x.setSysreg p i v).tlb = x.tlb := rfl
@[simp] theorem State.setSysreg_errs (x : State) (p i : Nat) (v : DWord) : (x.setSysreg p i v).errs = x.errs := rfl
@[simp] theorem State.setSysreg_invals (x : State) (p i : Nat) (v : DWord) : (x.setSysreg p i v).invals = x.invals := rfl
@[simp] theorem State.setSysreg_cores (x : State) (p i : Nat) (v : DWord) : (x.setSysreg p i v).cores = x.cores := rfl
@[simp] theorem State.setSysreg_blocks (x : State) (p i : Nat) (v : DWord) : (x.setSysreg p i v).blocks = x.blocks := rfl
@[simp] theorem State.setSysreg_launches (x : State) (p i : Nat) (v : DWord) : (x.setSysreg p i v).launches = x.launches := rfl
@[simp] theorem State.setSysreg_packets (x : State) (p i : Nat) (v : DWord) : (x.setSysreg p i v).packets = x.packets := rfl
@[simp] theorem State.setSysreg_fwHeads (x : State) (p i : Nat) (v : DWord) : (x.setSysreg p i v).fwHeads = x.fwHeads := rfl
@[simp] theorem State.setSysreg_rrs (x : State) (p i : Nat) (v : DWord) : (x.setSysreg p i v).rrs = x.rrs := rfl
@[simp] theorem State.setSysreg_lastIdx (x : State) (p i : Nat) (v : DWord) : (x.setSysreg p i v).lastIdx = x.lastIdx := rfl
@[simp] theorem State.setSysreg_serials (x : State) (p i : Nat) (v : DWord) : (x.setSysreg p i v).serials = x.serials := rfl
@[simp] theorem State.setSysreg_subs (x : State) (p i : Nat) (v : DWord) : (x.setSysreg p i v).subs = x.subs := rfl
@[simp] theorem State.setSysreg_window (x : State) (p i : Nat) (v : DWord) : (x.setSysreg p i v).window = x.window := rfl
@[simp] theorem State.setSysreg_ready (x : State) (p i : Nat) (v : DWord) : (x.setSysreg p i v).ready = x.ready := rfl
@[simp] theorem State.setSysreg_colls (x : State) (p i : Nat) (v : DWord) : (x.setSysreg p i v).colls = x.colls := rfl
@[simp] theorem State.setSysreg_collSeqs (x : State) (p i : Nat) (v : DWord) : (x.setSysreg p i v).collSeqs = x.collSeqs := rfl
@[simp] theorem State.setSysreg_parts (x : State) (p i : Nat) (v : DWord) : (x.setSysreg p i v).parts = x.parts := rfl
@[simp] theorem State.setSysreg_qtab (x : State) (p i : Nat) (v : DWord) : (x.setSysreg p i v).qtab = x.qtab := rfl
@[simp] theorem State.setSysreg_mbox (x : State) (p i : Nat) (v : DWord) : (x.setSysreg p i v).mbox = x.mbox := rfl
@[simp] theorem State.setSysreg_mboxn (x : State) (p i : Nat) (v : DWord) : (x.setSysreg p i v).mboxn = x.mboxn := rfl
@[simp] theorem State.setSysreg_calls (x : State) (p i : Nat) (v : DWord) : (x.setSysreg p i v).calls = x.calls := rfl
@[simp] theorem State.setSysreg_measure (x : State) (p i : Nat) (v : DWord) : (x.setSysreg p i v).measure = x.measure := rfl
@[simp] theorem State.setSysreg_kkeys (x : State) (p i : Nat) (v : DWord) : (x.setSysreg p i v).kkeys = x.kkeys := rfl
@[simp] theorem State.setSysreg_tkeys (x : State) (p i : Nat) (v : DWord) : (x.setSysreg p i v).tkeys = x.tkeys := rfl
@[simp] theorem State.setSysreg_oldKeys (x : State) (p i : Nat) (v : DWord) : (x.setSysreg p i v).oldKeys = x.oldKeys := rfl
@[simp] theorem State.setSysreg_rod (x : State) (p i : Nat) (v : DWord) : (x.setSysreg p i v).rod = x.rod := rfl
@[simp] theorem State.setSysreg_idErased (x : State) (p i : Nat) (v : DWord) : (x.setSysreg p i v).idErased = x.idErased := rfl
@[simp] theorem State.setSysreg_ports (x : State) (p i : Nat) (v : DWord) : (x.setSysreg p i v).ports = x.ports := rfl
@[simp] theorem State.setSysreg_fep (x : State) (p i : Nat) (v : DWord) : (x.setSysreg p i v).fep = x.fep := rfl
@[simp] theorem State.setSysreg_alarm (x : State) (p i : Nat) (v : DWord) : (x.setSysreg p i v).alarm = x.alarm := rfl
@[simp] theorem State.setSysreg_pwrokN (x : State) (p i : Nat) (v : DWord) : (x.setSysreg p i v).pwrokN = x.pwrokN := rfl
@[simp] theorem State.setSysreg_resetN (x : State) (p i : Nat) (v : DWord) : (x.setSysreg p i v).resetN = x.resetN := rfl
@[simp] theorem State.setSysreg_sags (x : State) (p i : Nat) (v : DWord) : (x.setSysreg p i v).sags = x.sags := rfl
@[simp] theorem State.setSysreg_heats (x : State) (p i : Nat) (v : DWord) : (x.setSysreg p i v).heats = x.heats := rfl
@[simp] theorem State.setSysreg_reading (x : State) (p i : Nat) (v : DWord) : (x.setSysreg p i v).reading = x.reading := rfl
@[simp] theorem State.setSysreg_owner (x : State) (p i : Nat) (v : DWord) : (x.setSysreg p i v).owner = x.owner := rfl
@[simp] theorem State.setSysreg_mgmtRead (x : State) (p i : Nat) (v : DWord) : (x.setSysreg p i v).mgmtRead = x.mgmtRead := rfl
@[simp] theorem State.setSysreg_inReply (x : State) (p i : Nat) (v : DWord) : (x.setSysreg p i v).inReply = x.inReply := rfl
@[simp] theorem State.setSysreg_fwDone (x : State) (p i : Nat) (v : DWord) : (x.setSysreg p i v).fwDone = x.fwDone := rfl

/-! ### State.dropOut -/

@[simp] theorem State.dropOut_agenda (x : State) (i : Nat) : (x.dropOut i).agenda = x.agenda := rfl
@[simp] theorem State.dropOut_cur (x : State) (i : Nat) : (x.dropOut i).cur = x.cur := rfl
@[simp] theorem State.dropOut_fresh (x : State) (i : Nat) : (x.dropOut i).fresh = x.fresh := rfl
@[simp] theorem State.dropOut_clk (x : State) (i : Nat) : (x.dropOut i).clk = x.clk := rfl
@[simp] theorem State.dropOut_sec (x : State) (i : Nat) : (x.dropOut i).sec = x.sec := rfl
@[simp] theorem State.dropOut_mem (x : State) (i : Nat) : (x.dropOut i).mem = x.mem := rfl
@[simp] theorem State.dropOut_btags (x : State) (i : Nat) : (x.dropOut i).btags = x.btags := rfl
@[simp] theorem State.dropOut_lines (x : State) (i : Nat) : (x.dropOut i).lines = x.lines := rfl
@[simp] theorem State.dropOut_held (x : State) (i : Nat) : (x.dropOut i).held = x.held := rfl
@[simp] theorem State.dropOut_late (x : State) (i : Nat) : (x.dropOut i).late = x.late := rfl
@[simp] theorem State.dropOut_remotes (x : State) (i : Nat) : (x.dropOut i).remotes = x.remotes := rfl
@[simp] theorem State.dropOut_drops (x : State) (i : Nat) : (x.dropOut i).drops = x.drops := rfl
@[simp] theorem State.dropOut_tlb (x : State) (i : Nat) : (x.dropOut i).tlb = x.tlb := rfl
@[simp] theorem State.dropOut_errs (x : State) (i : Nat) : (x.dropOut i).errs = x.errs := rfl
@[simp] theorem State.dropOut_invals (x : State) (i : Nat) : (x.dropOut i).invals = x.invals := rfl
@[simp] theorem State.dropOut_cores (x : State) (i : Nat) : (x.dropOut i).cores = x.cores := rfl
@[simp] theorem State.dropOut_blocks (x : State) (i : Nat) : (x.dropOut i).blocks = x.blocks := rfl
@[simp] theorem State.dropOut_launches (x : State) (i : Nat) : (x.dropOut i).launches = x.launches := rfl
@[simp] theorem State.dropOut_packets (x : State) (i : Nat) : (x.dropOut i).packets = x.packets := rfl
@[simp] theorem State.dropOut_fwHeads (x : State) (i : Nat) : (x.dropOut i).fwHeads = x.fwHeads := rfl
@[simp] theorem State.dropOut_rrs (x : State) (i : Nat) : (x.dropOut i).rrs = x.rrs := rfl
@[simp] theorem State.dropOut_lastIdx (x : State) (i : Nat) : (x.dropOut i).lastIdx = x.lastIdx := rfl
@[simp] theorem State.dropOut_serials (x : State) (i : Nat) : (x.dropOut i).serials = x.serials := rfl
@[simp] theorem State.dropOut_subs (x : State) (i : Nat) : (x.dropOut i).subs = x.subs := rfl
@[simp] theorem State.dropOut_window (x : State) (i : Nat) : (x.dropOut i).window = x.window := rfl
@[simp] theorem State.dropOut_ready (x : State) (i : Nat) : (x.dropOut i).ready = x.ready := rfl
@[simp] theorem State.dropOut_colls (x : State) (i : Nat) : (x.dropOut i).colls = x.colls := rfl
@[simp] theorem State.dropOut_collSeqs (x : State) (i : Nat) : (x.dropOut i).collSeqs = x.collSeqs := rfl
@[simp] theorem State.dropOut_parts (x : State) (i : Nat) : (x.dropOut i).parts = x.parts := rfl
@[simp] theorem State.dropOut_sys (x : State) (i : Nat) : (x.dropOut i).sys = x.sys := rfl
@[simp] theorem State.dropOut_qtab (x : State) (i : Nat) : (x.dropOut i).qtab = x.qtab := rfl
@[simp] theorem State.dropOut_mbox (x : State) (i : Nat) : (x.dropOut i).mbox = x.mbox := rfl
@[simp] theorem State.dropOut_mboxn (x : State) (i : Nat) : (x.dropOut i).mboxn = x.mboxn := rfl
@[simp] theorem State.dropOut_calls (x : State) (i : Nat) : (x.dropOut i).calls = x.calls := rfl
@[simp] theorem State.dropOut_measure (x : State) (i : Nat) : (x.dropOut i).measure = x.measure := rfl
@[simp] theorem State.dropOut_kkeys (x : State) (i : Nat) : (x.dropOut i).kkeys = x.kkeys := rfl
@[simp] theorem State.dropOut_tkeys (x : State) (i : Nat) : (x.dropOut i).tkeys = x.tkeys := rfl
@[simp] theorem State.dropOut_oldKeys (x : State) (i : Nat) : (x.dropOut i).oldKeys = x.oldKeys := rfl
@[simp] theorem State.dropOut_rod (x : State) (i : Nat) : (x.dropOut i).rod = x.rod := rfl
@[simp] theorem State.dropOut_idErased (x : State) (i : Nat) : (x.dropOut i).idErased = x.idErased := rfl
@[simp] theorem State.dropOut_ports (x : State) (i : Nat) : (x.dropOut i).ports = x.ports := rfl
@[simp] theorem State.dropOut_fep (x : State) (i : Nat) : (x.dropOut i).fep = x.fep := rfl
@[simp] theorem State.dropOut_alarm (x : State) (i : Nat) : (x.dropOut i).alarm = x.alarm := rfl
@[simp] theorem State.dropOut_pwrokN (x : State) (i : Nat) : (x.dropOut i).pwrokN = x.pwrokN := rfl
@[simp] theorem State.dropOut_resetN (x : State) (i : Nat) : (x.dropOut i).resetN = x.resetN := rfl
@[simp] theorem State.dropOut_sags (x : State) (i : Nat) : (x.dropOut i).sags = x.sags := rfl
@[simp] theorem State.dropOut_heats (x : State) (i : Nat) : (x.dropOut i).heats = x.heats := rfl
@[simp] theorem State.dropOut_reading (x : State) (i : Nat) : (x.dropOut i).reading = x.reading := rfl
@[simp] theorem State.dropOut_owner (x : State) (i : Nat) : (x.dropOut i).owner = x.owner := rfl
@[simp] theorem State.dropOut_mgmtRead (x : State) (i : Nat) : (x.dropOut i).mgmtRead = x.mgmtRead := rfl
@[simp] theorem State.dropOut_inReply (x : State) (i : Nat) : (x.dropOut i).inReply = x.inReply := rfl
@[simp] theorem State.dropOut_fwDone (x : State) (i : Nat) : (x.dropOut i).fwDone = x.fwDone := rfl

/-! ### Block.setPair -/

@[simp] theorem Block.setPair_part (x : Block) (g : Nat) (p : Pair) : (x.setPair g p).part = x.part := rfl
@[simp] theorem Block.setPair_serial (x : Block) (g : Nat) (p : Pair) : (x.setPair g p).serial = x.serial := rfl
@[simp] theorem Block.setPair_block (x : Block) (g : Nat) (p : Pair) : (x.setPair g p).block = x.block := rfl
@[simp] theorem Block.setPair_member (x : Block) (g : Nat) (p : Pair) : (x.setPair g p).member = x.member := rfl
@[simp] theorem Block.setPair_start (x : Block) (g : Nat) (p : Pair) : (x.setPair g p).start = x.start := rfl
@[simp] theorem Block.setPair_kernel (x : Block) (g : Nat) (p : Pair) : (x.setPair g p).kernel = x.kernel := rfl
@[simp] theorem Block.setPair_n (x : Block) (g : Nat) (p : Pair) : (x.setPair g p).n = x.n := rfl
@[simp] theorem Block.setPair_t (x : Block) (g : Nat) (p : Pair) : (x.setPair g p).t = x.t := rfl
@[simp] theorem Block.setPair_asid (x : Block) (g : Nat) (p : Pair) : (x.setPair g p).asid = x.asid := rfl
@[simp] theorem Block.setPair_root (x : Block) (g : Nat) (p : Pair) : (x.setPair g p).root = x.root := rfl
@[simp] theorem Block.setPair_ofa (x : Block) (g : Nat) (p : Pair) : (x.setPair g p).ofa = x.ofa := rfl
@[simp] theorem Block.setPair_wb (x : Block) (g : Nat) (p : Pair) : (x.setPair g p).wb = x.wb := rfl
@[simp] theorem Block.setPair_scratch (x : Block) (g : Nat) (p : Pair) : (x.setPair g p).scratch = x.scratch := rfl
@[simp] theorem Block.setPair_tags (x : Block) (g : Nat) (p : Pair) : (x.setPair g p).tags = x.tags := rfl
@[simp] theorem Block.setPair_errs (x : Block) (g : Nat) (p : Pair) : (x.setPair g p).errs = x.errs := rfl
@[simp] theorem Block.setPair_tiles (x : Block) (g : Nat) (p : Pair) : (x.setPair g p).tiles = x.tiles := rfl
@[simp] theorem Block.setPair_wp (x : Block) (g : Nat) (p : Pair) : (x.setPair g p).wp = x.wp := rfl
@[simp] theorem Block.setPair_chstat (x : Block) (g : Nat) (p : Pair) : (x.setPair g p).chstat = x.chstat := rfl
@[simp] theorem Block.setPair_own (x : Block) (g : Nat) (p : Pair) : (x.setPair g p).own = x.own := rfl
@[simp] theorem Block.setPair_stolen (x : Block) (g : Nat) (p : Pair) : (x.setPair g p).stolen = x.stolen := rfl
@[simp] theorem Block.setPair_started (x : Block) (g : Nat) (p : Pair) : (x.setPair g p).started = x.started := rfl
@[simp] theorem Block.setPair_halted (x : Block) (g : Nat) (p : Pair) : (x.setPair g p).halted = x.halted := rfl
@[simp] theorem Block.setPair_copied (x : Block) (g : Nat) (p : Pair) : (x.setPair g p).copied = x.copied := rfl
@[simp] theorem Block.setPair_copyStats (x : Block) (g : Nat) (p : Pair) : (x.setPair g p).copyStats = x.copyStats := rfl

/-! ### Pair.setQueue -/

@[simp] theorem Pair.setQueue_live (x : Pair) (q l : Nat) (es : List Elem) : (x.setQueue q l es).live = x.live := rfl
@[simp] theorem Pair.setQueue_acc (x : Pair) (q l : Nat) (es : List Elem) : (x.setQueue q l es).acc = x.acc := rfl
@[simp] theorem Pair.setQueue_exe (x : Pair) (q l : Nat) (es : List Elem) : (x.setQueue q l es).exe = x.exe := rfl
@[simp] theorem Pair.setQueue_streams (x : Pair) (q l : Nat) (es : List Elem) : (x.setQueue q l es).streams = x.streams := rfl
@[simp] theorem Pair.setQueue_sca (x : Pair) (q l : Nat) (es : List Elem) : (x.setQueue q l es).sca = x.sca := rfl
@[simp] theorem Pair.setQueue_scb (x : Pair) (q l : Nat) (es : List Elem) : (x.setQueue q l es).scb = x.scb := rfl
@[simp] theorem Pair.setQueue_fencestat (x : Pair) (q l : Nat) (es : List Elem) : (x.setQueue q l es).fencestat = x.fencestat := rfl
@[simp] theorem Pair.setQueue_fences (x : Pair) (q l : Nat) (es : List Elem) : (x.setQueue q l es).fences = x.fences := rfl
@[simp] theorem Pair.setQueue_resv (x : Pair) (q l : Nat) (es : List Elem) : (x.setQueue q l es).resv = x.resv := rfl
@[simp] theorem Pair.setQueue_ordCount (x : Pair) (q l : Nat) (es : List Elem) : (x.setQueue q l es).ordCount = x.ordCount := rfl
@[simp] theorem Pair.setQueue_mcCount (x : Pair) (q l : Nat) (es : List Elem) : (x.setQueue q l es).mcCount = x.mcCount := rfl
@[simp] theorem Pair.setQueue_teamWait (x : Pair) (q l : Nat) (es : List Elem) : (x.setQueue q l es).teamWait = x.teamWait := rfl
@[simp] theorem Pair.setQueue_entering (x : Pair) (q l : Nat) (es : List Elem) : (x.setQueue q l es).entering = x.entering := rfl
@[simp] theorem Pair.setQueue_run (x : Pair) (q l : Nat) (es : List Elem) : (x.setQueue q l es).run = x.run := rfl
@[simp] theorem Pair.setQueue_broken (x : Pair) (q l : Nat) (es : List Elem) : (x.setQueue q l es).broken = x.broken := rfl
@[simp] theorem Pair.setQueue_haltAt (x : Pair) (q l : Nat) (es : List Elem) : (x.setQueue q l es).haltAt = x.haltAt := rfl
@[simp] theorem Pair.setQueue_trapSl (x : Pair) (q l : Nat) (es : List Elem) : (x.setQueue q l es).trapSl = x.trapSl := rfl
@[simp] theorem Pair.setQueue_safe (x : Pair) (q l : Nat) (es : List Elem) : (x.setQueue q l es).safe = x.safe := rfl
@[simp] theorem Pair.setQueue_stepping (x : Pair) (q l : Nat) (es : List Elem) : (x.setQueue q l es).stepping = x.stepping := rfl
@[simp] theorem Pair.setQueue_stepped (x : Pair) (q l : Nat) (es : List Elem) : (x.setQueue q l es).stepped = x.stepped := rfl
@[simp] theorem Pair.setQueue_steppedX (x : Pair) (q l : Nat) (es : List Elem) : (x.setQueue q l es).steppedX = x.steppedX := rfl
@[simp] theorem Pair.setQueue_lodSince (x : Pair) (q l : Nat) (es : List Elem) : (x.setQueue q l es).lodSince = x.lodSince := rfl
@[simp] theorem Pair.setQueue_counters (x : Pair) (q l : Nat) (es : List Elem) : (x.setQueue q l es).counters = x.counters := rfl
@[simp] theorem Pair.setQueue_filled (x : Pair) (q l : Nat) (es : List Elem) : (x.setQueue q l es).filled = x.filled := rfl
@[simp] theorem Pair.setQueue_xslot (x : Pair) (q l : Nat) (es : List Elem) : (x.setQueue q l es).xslot = x.xslot := rfl
@[simp] theorem Pair.setQueue_xpos (x : Pair) (q l : Nat) (es : List Elem) : (x.setQueue q l es).xpos = x.xpos := rfl

/-! ### Half.setLane -/

@[simp] theorem Half.setLane_regs (x : Half) (l : Nat) (v : Lane) : (x.setLane l v).regs = x.regs := rfl
@[simp] theorem Half.setLane_uni (x : Half) (l : Nat) (v : Lane) : (x.setLane l v).uni = x.uni := rfl
@[simp] theorem Half.setLane_uniAt (x : Half) (l : Nat) (v : Lane) : (x.setLane l v).uniAt = x.uniAt := rfl
@[simp] theorem Half.setLane_sets (x : Half) (l : Nat) (v : Lane) : (x.setLane l v).sets = x.sets := rfl
@[simp] theorem Half.setLane_collstat (x : Half) (l : Nat) (v : Lane) : (x.setLane l v).collstat = x.collstat := rfl
@[simp] theorem Half.setLane_ctl (x : Half) (l : Nat) (v : Lane) : (x.setLane l v).ctl = x.ctl := rfl
@[simp] theorem Half.setLane_timer (x : Half) (l : Nat) (v : Lane) : (x.setLane l v).timer = x.timer := rfl
@[simp] theorem Half.setLane_moved (x : Half) (l : Nat) (v : Lane) : (x.setLane l v).moved = x.moved := rfl
@[simp] theorem Half.setLane_did (x : Half) (l : Nat) (v : Lane) : (x.setLane l v).did = x.did := rfl
@[simp] theorem Half.setLane_waited (x : Half) (l : Nat) (v : Lane) : (x.setLane l v).waited = x.waited := rfl

/-! ### Half.setReg -/

@[simp] theorem Half.setReg_lanes (x : Half) (l n : Nat) (v : Word) : (x.setReg l n v).lanes = x.lanes := rfl
@[simp] theorem Half.setReg_uni (x : Half) (l n : Nat) (v : Word) : (x.setReg l n v).uni = x.uni := rfl
@[simp] theorem Half.setReg_uniAt (x : Half) (l n : Nat) (v : Word) : (x.setReg l n v).uniAt = x.uniAt := rfl
@[simp] theorem Half.setReg_sets (x : Half) (l n : Nat) (v : Word) : (x.setReg l n v).sets = x.sets := rfl
@[simp] theorem Half.setReg_collstat (x : Half) (l n : Nat) (v : Word) : (x.setReg l n v).collstat = x.collstat := rfl
@[simp] theorem Half.setReg_ctl (x : Half) (l n : Nat) (v : Word) : (x.setReg l n v).ctl = x.ctl := rfl
@[simp] theorem Half.setReg_timer (x : Half) (l n : Nat) (v : Word) : (x.setReg l n v).timer = x.timer := rfl
@[simp] theorem Half.setReg_moved (x : Half) (l n : Nat) (v : Word) : (x.setReg l n v).moved = x.moved := rfl
@[simp] theorem Half.setReg_did (x : Half) (l n : Nat) (v : Word) : (x.setReg l n v).did = x.did := rfl
@[simp] theorem Half.setReg_waited (x : Half) (l n : Nat) (v : Word) : (x.setReg l n v).waited = x.waited := rfl

/-! ### Half.setUreg -/

@[simp] theorem Half.setUreg_lanes (x : Half) (n : Nat) (v : Word) : (x.setUreg n v).lanes = x.lanes := rfl
@[simp] theorem Half.setUreg_regs (x : Half) (n : Nat) (v : Word) : (x.setUreg n v).regs = x.regs := rfl
@[simp] theorem Half.setUreg_uniAt (x : Half) (n : Nat) (v : Word) : (x.setUreg n v).uniAt = x.uniAt := rfl
@[simp] theorem Half.setUreg_sets (x : Half) (n : Nat) (v : Word) : (x.setUreg n v).sets = x.sets := rfl
@[simp] theorem Half.setUreg_collstat (x : Half) (n : Nat) (v : Word) : (x.setUreg n v).collstat = x.collstat := rfl
@[simp] theorem Half.setUreg_ctl (x : Half) (n : Nat) (v : Word) : (x.setUreg n v).ctl = x.ctl := rfl
@[simp] theorem Half.setUreg_timer (x : Half) (n : Nat) (v : Word) : (x.setUreg n v).timer = x.timer := rfl
@[simp] theorem Half.setUreg_moved (x : Half) (n : Nat) (v : Word) : (x.setUreg n v).moved = x.moved := rfl
@[simp] theorem Half.setUreg_did (x : Half) (n : Nat) (v : Word) : (x.setUreg n v).did = x.did := rfl
@[simp] theorem Half.setUreg_waited (x : Half) (n : Nat) (v : Word) : (x.setUreg n v).waited = x.waited := rfl

/-! ### Half.setSet -/

@[simp] theorem Half.setSet_lanes (x : Half) (j : Nat) (v : JSet) : (x.setSet j v).lanes = x.lanes := rfl
@[simp] theorem Half.setSet_regs (x : Half) (j : Nat) (v : JSet) : (x.setSet j v).regs = x.regs := rfl
@[simp] theorem Half.setSet_uni (x : Half) (j : Nat) (v : JSet) : (x.setSet j v).uni = x.uni := rfl
@[simp] theorem Half.setSet_uniAt (x : Half) (j : Nat) (v : JSet) : (x.setSet j v).uniAt = x.uniAt := rfl
@[simp] theorem Half.setSet_collstat (x : Half) (j : Nat) (v : JSet) : (x.setSet j v).collstat = x.collstat := rfl
@[simp] theorem Half.setSet_ctl (x : Half) (j : Nat) (v : JSet) : (x.setSet j v).ctl = x.ctl := rfl
@[simp] theorem Half.setSet_timer (x : Half) (j : Nat) (v : JSet) : (x.setSet j v).timer = x.timer := rfl
@[simp] theorem Half.setSet_moved (x : Half) (j : Nat) (v : JSet) : (x.setSet j v).moved = x.moved := rfl
@[simp] theorem Half.setSet_did (x : Half) (j : Nat) (v : JSet) : (x.setSet j v).did = x.did := rfl
@[simp] theorem Half.setSet_waited (x : Half) (j : Nat) (v : JSet) : (x.setSet j v).waited = x.waited := rfl

/-! ### Pair.setHalf -/

@[simp] theorem Pair.setHalf_live (x : Pair) (sl : Slice) (h : Half) : (x.setHalf sl h).live = x.live := by cases sl <;> rfl
@[simp] theorem Pair.setHalf_queues (x : Pair) (sl : Slice) (h : Half) : (x.setHalf sl h).queues = x.queues := by cases sl <;> rfl
@[simp] theorem Pair.setHalf_streams (x : Pair) (sl : Slice) (h : Half) : (x.setHalf sl h).streams = x.streams := by cases sl <;> rfl
@[simp] theorem Pair.setHalf_sca (x : Pair) (sl : Slice) (h : Half) : (x.setHalf sl h).sca = x.sca := by cases sl <;> rfl
@[simp] theorem Pair.setHalf_scb (x : Pair) (sl : Slice) (h : Half) : (x.setHalf sl h).scb = x.scb := by cases sl <;> rfl
@[simp] theorem Pair.setHalf_fencestat (x : Pair) (sl : Slice) (h : Half) : (x.setHalf sl h).fencestat = x.fencestat := by cases sl <;> rfl
@[simp] theorem Pair.setHalf_fences (x : Pair) (sl : Slice) (h : Half) : (x.setHalf sl h).fences = x.fences := by cases sl <;> rfl
@[simp] theorem Pair.setHalf_resv (x : Pair) (sl : Slice) (h : Half) : (x.setHalf sl h).resv = x.resv := by cases sl <;> rfl
@[simp] theorem Pair.setHalf_ordCount (x : Pair) (sl : Slice) (h : Half) : (x.setHalf sl h).ordCount = x.ordCount := by cases sl <;> rfl
@[simp] theorem Pair.setHalf_mcCount (x : Pair) (sl : Slice) (h : Half) : (x.setHalf sl h).mcCount = x.mcCount := by cases sl <;> rfl
@[simp] theorem Pair.setHalf_teamWait (x : Pair) (sl : Slice) (h : Half) : (x.setHalf sl h).teamWait = x.teamWait := by cases sl <;> rfl
@[simp] theorem Pair.setHalf_entering (x : Pair) (sl : Slice) (h : Half) : (x.setHalf sl h).entering = x.entering := by cases sl <;> rfl
@[simp] theorem Pair.setHalf_run (x : Pair) (sl : Slice) (h : Half) : (x.setHalf sl h).run = x.run := by cases sl <;> rfl
@[simp] theorem Pair.setHalf_broken (x : Pair) (sl : Slice) (h : Half) : (x.setHalf sl h).broken = x.broken := by cases sl <;> rfl
@[simp] theorem Pair.setHalf_haltAt (x : Pair) (sl : Slice) (h : Half) : (x.setHalf sl h).haltAt = x.haltAt := by cases sl <;> rfl
@[simp] theorem Pair.setHalf_trapSl (x : Pair) (sl : Slice) (h : Half) : (x.setHalf sl h).trapSl = x.trapSl := by cases sl <;> rfl
@[simp] theorem Pair.setHalf_safe (x : Pair) (sl : Slice) (h : Half) : (x.setHalf sl h).safe = x.safe := by cases sl <;> rfl
@[simp] theorem Pair.setHalf_stepping (x : Pair) (sl : Slice) (h : Half) : (x.setHalf sl h).stepping = x.stepping := by cases sl <;> rfl
@[simp] theorem Pair.setHalf_stepped (x : Pair) (sl : Slice) (h : Half) : (x.setHalf sl h).stepped = x.stepped := by cases sl <;> rfl
@[simp] theorem Pair.setHalf_steppedX (x : Pair) (sl : Slice) (h : Half) : (x.setHalf sl h).steppedX = x.steppedX := by cases sl <;> rfl
@[simp] theorem Pair.setHalf_lodSince (x : Pair) (sl : Slice) (h : Half) : (x.setHalf sl h).lodSince = x.lodSince := by cases sl <;> rfl
@[simp] theorem Pair.setHalf_counters (x : Pair) (sl : Slice) (h : Half) : (x.setHalf sl h).counters = x.counters := by cases sl <;> rfl
@[simp] theorem Pair.setHalf_filled (x : Pair) (sl : Slice) (h : Half) : (x.setHalf sl h).filled = x.filled := by cases sl <;> rfl
@[simp] theorem Pair.setHalf_xslot (x : Pair) (sl : Slice) (h : Half) : (x.setHalf sl h).xslot = x.xslot := by cases sl <;> rfl
@[simp] theorem Pair.setHalf_xpos (x : Pair) (sl : Slice) (h : Half) : (x.setHalf sl h).xpos = x.xpos := by cases sl <;> rfl

/-! ### Lane.setPred and Half.putReg -/

@[simp] theorem Lane.setPred_life (x : Lane) (n : Nat) (v : Bool) : (x.setPred n v).life = x.life := by
  unfold Lane.setPred; split <;> rfl
@[simp] theorem Lane.setPred_pc (x : Lane) (n : Nat) (v : Bool) : (x.setPred n v).pc = x.pc := by
  unfold Lane.setPred; split <;> rfl
@[simp] theorem Lane.setPred_depth (x : Lane) (n : Nat) (v : Bool) : (x.setPred n v).depth = x.depth := by
  unfold Lane.setPred; split <;> rfl
@[simp] theorem Lane.setPred_wait (x : Lane) (n : Nat) (v : Bool) : (x.setPred n v).wait = x.wait := by
  unfold Lane.setPred; split <;> rfl
@[simp] theorem Lane.setPred_wins (x : Lane) (n : Nat) (v : Bool) : (x.setPred n v).wins = x.wins := by
  unfold Lane.setPred; split <;> rfl
@[simp] theorem Lane.setPred_pass (x : Lane) (n : Nat) (v : Bool) : (x.setPred n v).pass = x.pass := by
  unfold Lane.setPred; split <;> rfl
@[simp] theorem Lane.setPred_calls (x : Lane) (n : Nat) (v : Bool) : (x.setPred n v).calls = x.calls := by
  unfold Lane.setPred; split <;> rfl
@[simp] theorem Half.putReg_lanes (x : Half) (w : Bool) (l n : Nat) (v : DWord) : (x.putReg w l n v).lanes = x.lanes := by
  unfold Half.putReg; split <;> rfl
@[simp] theorem Half.putReg_uni (x : Half) (w : Bool) (l n : Nat) (v : DWord) : (x.putReg w l n v).uni = x.uni := by
  unfold Half.putReg; split <;> rfl
@[simp] theorem Half.putReg_uniAt (x : Half) (w : Bool) (l n : Nat) (v : DWord) : (x.putReg w l n v).uniAt = x.uniAt := by
  unfold Half.putReg; split <;> rfl
@[simp] theorem Half.putReg_sets (x : Half) (w : Bool) (l n : Nat) (v : DWord) : (x.putReg w l n v).sets = x.sets := by
  unfold Half.putReg; split <;> rfl
@[simp] theorem Half.putReg_collstat (x : Half) (w : Bool) (l n : Nat) (v : DWord) : (x.putReg w l n v).collstat = x.collstat := by
  unfold Half.putReg; split <;> rfl
@[simp] theorem Half.putReg_ctl (x : Half) (w : Bool) (l n : Nat) (v : DWord) : (x.putReg w l n v).ctl = x.ctl := by
  unfold Half.putReg; split <;> rfl
@[simp] theorem Half.putReg_timer (x : Half) (w : Bool) (l n : Nat) (v : DWord) : (x.putReg w l n v).timer = x.timer := by
  unfold Half.putReg; split <;> rfl
@[simp] theorem Half.putReg_moved (x : Half) (w : Bool) (l n : Nat) (v : DWord) : (x.putReg w l n v).moved = x.moved := by
  unfold Half.putReg; split <;> rfl
@[simp] theorem Half.putReg_did (x : Half) (w : Bool) (l n : Nat) (v : DWord) : (x.putReg w l n v).did = x.did := by
  unfold Half.putReg; split <;> rfl
@[simp] theorem Half.putReg_waited (x : Half) (w : Bool) (l n : Nat) (v : DWord) : (x.putReg w l n v).waited = x.waited := by
  unfold Half.putReg; split <;> rfl
@[simp] theorem Half.putUreg_lanes (x : Half) (w : Bool) (n : Nat) (v : DWord) : (x.putUreg w n v).lanes = x.lanes := by
  unfold Half.putUreg; split <;> rfl
@[simp] theorem Half.putUreg_regs (x : Half) (w : Bool) (n : Nat) (v : DWord) : (x.putUreg w n v).regs = x.regs := by
  unfold Half.putUreg; split <;> rfl
@[simp] theorem Half.putUreg_uniAt (x : Half) (w : Bool) (n : Nat) (v : DWord) : (x.putUreg w n v).uniAt = x.uniAt := by
  unfold Half.putUreg; split <;> rfl
@[simp] theorem Half.putUreg_sets (x : Half) (w : Bool) (n : Nat) (v : DWord) : (x.putUreg w n v).sets = x.sets := by
  unfold Half.putUreg; split <;> rfl
@[simp] theorem Half.putUreg_collstat (x : Half) (w : Bool) (n : Nat) (v : DWord) : (x.putUreg w n v).collstat = x.collstat := by
  unfold Half.putUreg; split <;> rfl
@[simp] theorem Half.putUreg_ctl (x : Half) (w : Bool) (n : Nat) (v : DWord) : (x.putUreg w n v).ctl = x.ctl := by
  unfold Half.putUreg; split <;> rfl
@[simp] theorem Half.putUreg_timer (x : Half) (w : Bool) (n : Nat) (v : DWord) : (x.putUreg w n v).timer = x.timer := by
  unfold Half.putUreg; split <;> rfl
@[simp] theorem Half.putUreg_moved (x : Half) (w : Bool) (n : Nat) (v : DWord) : (x.putUreg w n v).moved = x.moved := by
  unfold Half.putUreg; split <;> rfl
@[simp] theorem Half.putUreg_did (x : Half) (w : Bool) (n : Nat) (v : DWord) : (x.putUreg w n v).did = x.did := by
  unfold Half.putUreg; split <;> rfl
@[simp] theorem Half.putUreg_waited (x : Half) (w : Bool) (n : Nat) (v : DWord) : (x.putUreg w n v).waited = x.waited := by
  unfold Half.putUreg; split <;> rfl

end Sys2Proof.Machine
end

