-- ==== Sys2Proof/Laws/Store.lean ====
section
/-! SUPPORT. Laws of the sparse maps: read after write, writes that meet, and the canonical form that every memory
operation keeps. -/

namespace Sys2Proof.Machine
open Sys2Proof

variable {β : Type}

/-! ### Reads after writes -/

theorem smGet_erase_self (d : β) (m : SMap β) (k : Nat) : smGet d (smErase m k) k = d := by
  induction m with
  | nil => rfl
  | cons e r ih =>
    obtain ⟨j, v⟩ := e
    by_cases h : j = k <;> simp [smErase, smGet, h, ih]

theorem smGet_erase_ne (d : β) (m : SMap β) {k j : Nat} (h : j ≠ k) : smGet d (smErase m k) j = smGet d m j := by
  induction m with
  | nil => rfl
  | cons e r ih =>
    obtain ⟨i, v⟩ := e
    by_cases hk : i = k
    · subst hk; simp [smErase, smGet, ih, Ne.symm h]
    · by_cases hj : i = j
      · subst hj; simp [smErase, smGet, hk]
      · simp [smErase, smGet, hk, hj, ih]

theorem smGet_insert_ne (d : β) (m : SMap β) {k j : Nat} (v : β) (h : j ≠ k) : smGet d (smInsert m k v) j = smGet d m j := by
  induction m with
  | nil => simp [smInsert, smGet, Ne.symm h]
  | cons e r ih =>
    obtain ⟨i, w⟩ := e
    by_cases hk : k < i
    · simp [smInsert, smGet, hk, Ne.symm h]
    · by_cases hj : i = j
      · subst hj; simp [smInsert, smGet, hk]
      · simp [smInsert, smGet, hk, hj, ih]

theorem smGet_insert_erase (d : β) (m : SMap β) (k : Nat) (v : β) : smGet d (smInsert (smErase m k) k v) k = v := by
  induction m with
  | nil => simp [smErase, smInsert, smGet]
  | cons e r ih =>
    obtain ⟨i, w⟩ := e
    by_cases hk : i = k
    · simp [smErase, hk, ih]
    · by_cases hl : k < i <;> simp [smErase, smInsert, smGet, hk, hl, ih]

@[simp] theorem smGet_set_self [DecidableEq β] (d : β) (m : SMap β) (k : Nat) (v : β) : smGet d (smSet d m k v) k = v := by
  unfold smSet
  by_cases h : v = d
  · simp [h, smGet_erase_self]
  · simp [h, smGet_insert_erase]

theorem smGet_set_ne [DecidableEq β] (d : β) (m : SMap β) {k j : Nat} (v : β) (h : j ≠ k) :
    smGet d (smSet d m k v) j = smGet d m j := by
  unfold smSet
  by_cases hv : v = d
  · simp [hv, smGet_erase_ne d m h]
  · simp [hv, smGet_insert_ne d _ v h, smGet_erase_ne d m h]

@[simp] theorem smGet_put_self (d : β) (m : SMap β) (k : Nat) (v : β) : smGet d (smPut m k v) k = v :=
  smGet_insert_erase d m k v

theorem smGet_put_ne (d : β) (m : SMap β) {k j : Nat} (v : β) (h : j ≠ k) : smGet d (smPut m k v) j = smGet d m j := by
  simp [smPut, smGet_insert_ne d _ v h, smGet_erase_ne d m h]

theorem smFind_erase_self (m : SMap β) (k : Nat) : smFind (smErase m k) k = none := by
  induction m with
  | nil => rfl
  | cons e r ih =>
    obtain ⟨j, v⟩ := e
    by_cases h : j = k <;> simp [smErase, smFind, h, ih]

theorem smFind_erase_ne (m : SMap β) {k j : Nat} (h : j ≠ k) : smFind (smErase m k) j = smFind m j := by
  induction m with
  | nil => rfl
  | cons e r ih =>
    obtain ⟨i, v⟩ := e
    by_cases hk : i = k
    · subst hk; simp [smErase, smFind, ih, Ne.symm h]
    · by_cases hj : i = j
      · subst hj; simp [smErase, smFind, hk]
      · simp [smErase, smFind, hk, hj, ih]

theorem smFind_insert_ne (m : SMap β) {k j : Nat} (v : β) (h : j ≠ k) : smFind (smInsert m k v) j = smFind m j := by
  induction m with
  | nil => simp [smInsert, smFind, Ne.symm h]
  | cons e r ih =>
    obtain ⟨i, w⟩ := e
    by_cases hk : k < i
    · simp [smInsert, smFind, hk, Ne.symm h]
    · by_cases hj : i = j
      · subst hj; simp [smInsert, smFind, hk]
      · simp [smInsert, smFind, hk, hj, ih]

@[simp] theorem smFind_put_self (m : SMap β) (k : Nat) (v : β) : smFind (smPut m k v) k = some v := by
  unfold smPut
  induction m with
  | nil => simp [smErase, smInsert, smFind]
  | cons e r ih =>
    obtain ⟨i, w⟩ := e
    by_cases hk : i = k
    · simp [smErase, hk, ih]
    · by_cases hl : k < i <;> simp [smErase, smInsert, smFind, hk, hl, ih]

theorem smFind_put_ne (m : SMap β) {k j : Nat} (v : β) (h : j ≠ k) : smFind (smPut m k v) j = smFind m j := by
  simp [smPut, smFind_insert_ne _ v h, smFind_erase_ne m h]

/-! ### A second write to a key replaces the first -/

theorem smErase_erase (m : SMap β) (k : Nat) : smErase (smErase m k) k = smErase m k := by
  induction m with
  | nil => rfl
  | cons e r ih =>
    obtain ⟨i, w⟩ := e
    by_cases hk : i = k <;> simp [smErase, hk, ih]

theorem smErase_insert (m : SMap β) (k : Nat) (v : β) : smErase (smInsert m k v) k = smErase m k := by
  induction m with
  | nil => simp [smInsert, smErase]
  | cons e r ih =>
    obtain ⟨i, w⟩ := e
    by_cases hl : k < i
    · simp [smInsert, smErase, hl]
    · by_cases hk : i = k
      · subst hk; simp [smInsert, smErase, ih]
      · simp [smInsert, smErase, hk, hl, ih]

@[simp] theorem smPut_put (m : SMap β) (k : Nat) (v w : β) : smPut (smPut m k v) k w = smPut m k w := by
  simp [smPut, smErase_insert, smErase_erase]

@[simp] theorem smSet_set [DecidableEq β] (d : β) (m : SMap β) (k : Nat) (v w : β) :
    smSet d (smSet d m k v) k w = smSet d m k w := by
  unfold smSet
  by_cases h : v = d <;> by_cases h' : w = d <;> simp [h, h', smErase_insert, smErase_erase]

/-! ### The canonical form -/

theorem smWfFrom_mono [DecidableEq β] (d : β) {m : SMap β} {lo lo' : Nat} (h : lo' ≤ lo) (hm : smWfFrom d lo m = true) :
    smWfFrom d lo' m = true := by
  cases m with
  | nil => rfl
  | cons e r =>
    obtain ⟨j, v⟩ := e
    simp only [smWfFrom, Bool.and_eq_true, decide_eq_true_eq] at hm ⊢
    exact ⟨⟨by omega, hm.1.2⟩, hm.2⟩

theorem smWfFrom_erase [DecidableEq β] (d : β) (m : SMap β) (k lo : Nat) (h : smWfFrom d lo m = true) :
    smWfFrom d lo (smErase m k) = true := by
  induction m generalizing lo with
  | nil => rfl
  | cons e r ih =>
    obtain ⟨j, v⟩ := e
    simp only [smWfFrom, Bool.and_eq_true, decide_eq_true_eq] at h
    by_cases hk : j = k
    · simp only [smErase, hk, ↓reduceIte]
      exact smWfFrom_mono d (by omega) (ih (j + 1) h.2)
    · simp only [smErase, hk, ↓reduceIte, smWfFrom, Bool.and_eq_true, decide_eq_true_eq]
      exact ⟨h.1, ih _ h.2⟩

theorem smWfFrom_insert_erase [DecidableEq β] (d : β) (m : SMap β) (k lo : Nat) (v : β) (hv : v ≠ d) (hk : lo ≤ k)
    (h : smWfFrom d lo m = true) : smWfFrom d lo (smInsert (smErase m k) k v) = true := by
  induction m generalizing lo with
  | nil => simp [smErase, smInsert, smWfFrom, hv, hk]
  | cons e r ih =>
    obtain ⟨j, w⟩ := e
    simp only [smWfFrom, Bool.and_eq_true, decide_eq_true_eq] at h
    by_cases hj : j = k
    · simp only [smErase, hj, ↓reduceIte]
      subst hj
      exact ih _ hk (smWfFrom_mono d (by omega) h.2)
    · simp only [smErase, hj, ↓reduceIte, smInsert]
      by_cases hl : k < j
      · simp only [hl, ↓reduceIte, smWfFrom, Bool.and_eq_true, decide_eq_true_eq]
        exact ⟨⟨hk, hv⟩, ⟨by omega, h.1.2⟩, smWfFrom_erase d r k _ h.2⟩
      · simp only [hl, ↓reduceIte, smWfFrom, Bool.and_eq_true, decide_eq_true_eq]
        exact ⟨h.1, ih _ (by omega) h.2⟩

theorem smWf_set [DecidableEq β] (d : β) (m : SMap β) (k : Nat) (v : β) (h : smWf d m = true) : smWf d (smSet d m k v) = true := by
  unfold smSet
  by_cases hv : v = d
  · simp only [hv, ↓reduceIte]; exact smWfFrom_erase d m k 0 h
  · simp only [hv, ↓reduceIte]; exact smWfFrom_insert_erase d m k 0 v hv (Nat.zero_le k) h

/-! ### Bytes -/

@[simp] theorem Memory.get_set_self (m : Memory) (a : Nat) (b : Byte) : (m.set a b).get a = b := smGet_set_self _ _ _ _

theorem Memory.get_set_ne (m : Memory) {a x : Nat} (b : Byte) (h : x ≠ a) : (m.set a b).get x = m.get x := smGet_set_ne _ _ _ h

theorem Memory.wf_set (m : Memory) (a : Nat) (b : Byte) (h : m.wf = true) : (m.set a b).wf = true := smWf_set _ _ _ _ h

/-- A write keeps the canonical form. -/
theorem Memory.wf_write (m : Memory) (a : Nat) (bs : List Byte) (h : m.wf = true) : (m.write a bs).wf = true := by
  induction bs generalizing m a with
  | nil => exact h
  | cons b r ih => exact ih _ _ (Memory.wf_set m a b h)

/-- A write leaves every byte outside it alone. -/
theorem Memory.get_write_out (m : Memory) (a x : Nat) (bs : List Byte) (h : x < a ∨ a + bs.length ≤ x) :
    (m.write a bs).get x = m.get x := by
  induction bs generalizing m a with
  | nil => rfl
  | cons b r ih =>
    simp only [List.length_cons] at h
    rw [show m.write a (b :: r) = (m.set a b).write (a + 1) r from rfl, ih _ _ (by omega), Memory.get_set_ne]
    omega

/-- A byte of a write reads back. -/
theorem Memory.get_write_in (m : Memory) (a k : Nat) (bs : List Byte) (h : k < bs.length) :
    (m.write a bs).get (a + k) = bs.getD k 0 := by
  induction bs generalizing m a k with
  | nil => simp at h
  | cons b r ih =>
    rw [show m.write a (b :: r) = (m.set a b).write (a + 1) r from rfl]
    cases k with
    | zero => rw [Memory.get_write_out _ _ _ _ (by omega)]; simp
    | succ k =>
      rw [show a + (k + 1) = (a + 1) + k by omega, ih _ _ _ (by simpa using h)]
      simp

/-- What is written reads back whole. -/
theorem Memory.read_write (m : Memory) (a : Nat) (bs : List Byte) : (m.write a bs).read a bs.length = bs := by
  apply List.ext_getElem
  · simp [Memory.read]
  · intro k h1 h2
    simp only [Memory.read, List.getElem_map, List.getElem_range]
    rw [Memory.get_write_in m a k bs h2]
    simp [List.getD_eq_getElem?_getD, h2]

end Sys2Proof.Machine
end

