-- ==== Sys2Proof/Laws/Ops.lean ====
section
/-! SUPPORT. Laws of the named operations over blocks, pairs, halves, lanes, registers, queues and cores. -/

namespace Sys2Proof.Machine
open Sys2Proof

/-! ### Blocks, pairs and cores -/

@[simp] theorem State.block?_setBlock (s : State) (p : Nat) (b : Block) : (s.setBlock p b).block? p = some b :=
  smFind_put_self _ _ _

theorem State.block?_setBlock_ne (s : State) {p q : Nat} (b : Block) (h : q ≠ p) : (s.setBlock p b).block? q = s.block? q :=
  smFind_put_ne _ _ h

@[simp] theorem State.setBlock_setBlock (s : State) (p : Nat) (b b' : Block) :
    (s.setBlock p b).setBlock p b' = s.setBlock p b' := by
  simp [State.setBlock]

@[simp] theorem Block.pair_setPair (b : Block) (g : Nat) (p : Pair) : (b.setPair g p).pair g = p := smGet_set_self _ _ _ _

theorem Block.pair_setPair_ne (b : Block) {g k : Nat} (p : Pair) (h : k ≠ g) : (b.setPair g p).pair k = b.pair k :=
  smGet_set_ne _ _ _ h

@[simp] theorem Block.setPair_setPair (b : Block) (g : Nat) (p p' : Pair) : (b.setPair g p).setPair g p' = b.setPair g p' := by
  simp [Block.setPair]

@[simp] theorem State.core_setCore (s : State) (c : Nat) (k : Core) : (s.setCore c k).core c = k := smGet_put_self _ _ _ _

theorem State.core_setCore_ne (s : State) {c d : Nat} (k : Core) (h : d ≠ c) : (s.setCore c k).core d = s.core d :=
  smGet_put_ne _ _ _ h

@[simp] theorem State.setCore_setCore (s : State) (c : Nat) (k k' : Core) : (s.setCore c k).setCore c k' = s.setCore c k' := by
  simp [State.setCore]

@[simp] theorem State.core_setBlock (s : State) (p c : Nat) (b : Block) : (s.setBlock p b).core c = s.core c := rfl
@[simp] theorem State.block?_setCore (s : State) (p c : Nat) (k : Core) : (s.setCore c k).block? p = s.block? p := rfl
@[simp] theorem State.pair_setCore (s : State) (p g c : Nat) (k : Core) : (s.setCore c k).pair p g = s.pair p g := rfl

theorem State.pair_of_block {s : State} {p : Nat} {b : Block} (h : s.block? p = some b) (g : Nat) : s.pair p g = b.pair g := by
  simp [State.pair, h]

@[simp] theorem State.pair_setBlock (s : State) (p g : Nat) (b : Block) : (s.setBlock p b).pair p g = b.pair g :=
  State.pair_of_block (State.block?_setBlock s p b) g

theorem State.pair_setBlock_ne (s : State) {p q : Nat} (g : Nat) (b : Block) (h : q ≠ p) : (s.setBlock p b).pair q g = s.pair q g := by
  simp [State.pair, State.block?_setBlock_ne s b h]

/-! ### Halves and lanes -/

@[simp] theorem Pair.half_setHalf (p : Pair) (sl : Slice) (h : Half) : (p.setHalf sl h).half sl = h := by cases sl <;> rfl

theorem Pair.half_setHalf_ne (p : Pair) {sl sl' : Slice} (h : Half) (hs : sl' ≠ sl) : (p.setHalf sl h).half sl' = p.half sl' := by
  cases sl <;> cases sl' <;> first | rfl | exact absurd rfl hs

@[simp] theorem Pair.setHalf_setHalf (p : Pair) (sl : Slice) (h h' : Half) : (p.setHalf sl h).setHalf sl h' = p.setHalf sl h' := by
  cases sl <;> rfl

@[simp] theorem Pair.half_setQueue (p : Pair) (sl : Slice) (q l : Nat) (es : List Elem) : (p.setQueue q l es).half sl = p.half sl := by
  cases sl <;> rfl

@[simp] theorem Pair.queue_setHalf (p : Pair) (sl : Slice) (h : Half) (q l : Nat) : (p.setHalf sl h).queue q l = p.queue q l := by
  cases sl <;> rfl

@[simp] theorem Half.lane_setLane (h : Half) (l : Nat) (x : Lane) : (h.setLane l x).lane l = x := smGet_set_self _ _ _ _

theorem Half.lane_setLane_ne (h : Half) {l m : Nat} (x : Lane) (hm : m ≠ l) : (h.setLane l x).lane m = h.lane m :=
  smGet_set_ne _ _ _ hm

@[simp] theorem Half.reg_setLane (h : Half) (l m n : Nat) (x : Lane) : (h.setLane l x).reg m n = h.reg m n := rfl
@[simp] theorem Half.ureg_setLane (h : Half) (l n : Nat) (x : Lane) : (h.setLane l x).ureg n = h.ureg n := rfl
@[simp] theorem Half.lane_setReg (h : Half) (l m n : Nat) (v : Word) : (h.setReg l n v).lane m = h.lane m := rfl
@[simp] theorem Half.lane_setUreg (h : Half) (m n : Nat) (v : Word) : (h.setUreg n v).lane m = h.lane m := rfl
@[simp] theorem Half.ureg_setReg (h : Half) (l m n : Nat) (v : Word) : (h.setReg l n v).ureg m = h.ureg m := rfl
@[simp] theorem Half.reg_setUreg (h : Half) (l m n : Nat) (v : Word) : (h.setUreg n v).reg l m = h.reg l m := rfl

@[simp] theorem Half.lane_putReg (h : Half) (w : Bool) (l m n : Nat) (v : DWord) : (h.putReg w l n v).lane m = h.lane m := by
  unfold Half.putReg; split <;> rfl
@[simp] theorem Half.ureg_putReg (h : Half) (w : Bool) (l m n : Nat) (v : DWord) : (h.putReg w l n v).ureg m = h.ureg m := by
  unfold Half.putReg; split <;> rfl
@[simp] theorem Half.lane_putUreg (h : Half) (w : Bool) (m n : Nat) (v : DWord) : (h.putUreg w n v).lane m = h.lane m := by
  unfold Half.putUreg; split <;> rfl
@[simp] theorem Half.reg_putUreg (h : Half) (w : Bool) (l m n : Nat) (v : DWord) : (h.putUreg w n v).reg l m = h.reg l m := by
  unfold Half.putUreg; split <;> rfl

/-! ### Registers (R41) -/

@[simp] theorem Half.reg_setReg (h : Half) (l n : Nat) (v : Word) : (h.setReg l n v).reg l n = v := smGet_set_self _ _ _ _

theorem Half.reg_setReg_ne (h : Half) {l m n k : Nat} (v : Word) (hk : m * 128 + k ≠ l * 128 + n) :
    (h.setReg l n v).reg m k = h.reg m k := smGet_set_ne _ _ _ hk

@[simp] theorem Half.ureg_setUreg (h : Half) (n : Nat) (v : Word) : (h.setUreg n v).ureg n = v := smGet_set_self _ _ _ _

theorem Half.ureg_setUreg_ne (h : Half) {n k : Nat} (v : Word) (hk : k ≠ n) : (h.setUreg n v).ureg k = h.ureg k :=
  smGet_set_ne _ _ _ hk

/-- The two halves of a 64-bit value join to it. -/
theorem join64_lo_hi (v : DWord) : join64 (lo32 v) (hi32 v) = v := by
  apply BitVec.eq_of_getLsbD_eq
  intro i hi
  simp only [join64, lo32, hi32, BitVec.getLsbD_append, BitVec.getLsbD_extractLsb']
  by_cases h : i < 32
  · simp [h]
  · simp [h, show i - 32 < 32 by omega, show 32 + (i - 32) = i by omega]

/-- A register write reads back (R41). -/
theorem Half.putReg_read (h : Half) (w : Bool) (l n : Nat) (v : DWord) :
    if w then (h.putReg w l n v).reg64 l n = v else (h.putReg w l n v).reg l n = lo32 v := by
  cases w
  · simp [Half.putReg]
  · simp only [Half.putReg, ↓reduceIte, Half.reg64, Half.reg_setReg]
    rw [Half.reg_setReg_ne _ _ (by omega), Half.reg_setReg, join64_lo_hi]

/-- A register write leaves every other register (R41). -/
theorem Half.putReg_other (h : Half) (w : Bool) {l m n k : Nat} (v : DWord) (h1 : m * 128 + k ≠ l * 128 + n)
    (h2 : w = true → m * 128 + k ≠ l * 128 + (n + 1)) : (h.putReg w l n v).reg m k = h.reg m k := by
  cases w
  · simp [Half.putReg, Half.reg_setReg_ne _ _ h1]
  · simp only [Half.putReg, ↓reduceIte]
    rw [Half.reg_setReg_ne _ _ (h2 rfl), Half.reg_setReg_ne _ _ h1]

theorem Half.putUreg_read (h : Half) (w : Bool) (n : Nat) (v : DWord) :
    if w then (h.putUreg w n v).ureg64 n = v else (h.putUreg w n v).ureg n = lo32 v := by
  cases w
  · simp [Half.putUreg]
  · simp only [Half.putUreg, ↓reduceIte, Half.ureg64, Half.ureg_setUreg]
    rw [Half.ureg_setUreg_ne _ _ (by omega), Half.ureg_setUreg, join64_lo_hi]

theorem Half.putUreg_other (h : Half) (w : Bool) {n k : Nat} (v : DWord) (h1 : k ≠ n) (h2 : w = true → k ≠ n + 1) :
    (h.putUreg w n v).ureg k = h.ureg k := by
  cases w
  · simp [Half.putUreg, Half.ureg_setUreg_ne _ _ h1]
  · simp only [Half.putUreg, ↓reduceIte]
    rw [Half.ureg_setUreg_ne _ _ (h2 rfl), Half.ureg_setUreg_ne _ _ h1]

/-! ### Predicates (R42) -/

@[simp] theorem Lane.pred_zero (x : Lane) : x.pred 0 = true := by simp [Lane.pred]

theorem Lane.pred_setPred (x : Lane) {n k : Nat} (v : Bool) (hk : k < 8) :
    (x.setPred n v).pred k = if k = n ∧ k ≠ 0 then v else x.pred k := by
  by_cases h0 : k = 0
  · subst h0; simp
  · by_cases hn : n = 0
    · simp [Lane.setPred, hn, h0]
    · have e : (x.setPred n v).pred k = (if v then x.preds ||| (1#8 <<< n) else x.preds &&& ~~~(1#8 <<< n)).getLsbD k := by
        simp [Lane.setPred, Lane.pred, hn, h0]
      rw [e]
      by_cases hkn : k = n
      · subst hkn
        cases v <;> simp [hk, h0]
      · have e1 : ¬ (n ≤ k ∧ k - n = 0) := by omega
        cases v
        · simp [hk, hkn, Lane.pred, h0]
          omega
        · simp [hk, hkn, Lane.pred, h0]
          omega

/-! ### Queues (R46) -/

@[simp] theorem Pair.queue_setQueue (p : Pair) (q l : Nat) (es : List Elem) : (p.setQueue q l es).queue q l = es :=
  smGet_set_self _ _ _ _

theorem Pair.queue_setQueue_ne (p : Pair) {q l r m : Nat} (es : List Elem) (h : r * 64 + m ≠ q * 64 + l) :
    (p.setQueue q l es).queue r m = p.queue r m := smGet_set_ne _ _ _ h

/-! ### Changes of one pair -/

/-- The state with one pair of a block replaced. -/
def State.withPair (s : State) (p : Nat) (b : Block) (g : Nat) (q : Pair) : State := s.setBlock p (b.setPair g q)

theorem State.mapPair_eq {s : State} {p : Nat} {b : Block} (h : s.block? p = some b) (g : Nat) (f : Pair → Pair) :
    s.mapPair p g f = s.withPair p b g (f (b.pair g)) := by
  simp [State.mapPair, State.mapBlock, h, State.withPair]

@[simp] theorem State.mapPair_withPair (s : State) (p : Nat) (b : Block) (g : Nat) (q : Pair) (f : Pair → Pair) :
    (s.withPair p b g q).mapPair p g f = s.withPair p b g (f q) := by
  simp [State.mapPair, State.mapBlock, State.withPair]

@[simp] theorem State.mapHalf_withPair (s : State) (p : Nat) (b : Block) (g : Nat) (q : Pair) (sl : Slice) (f : Half → Half) :
    (s.withPair p b g q).mapHalf p g sl f = s.withPair p b g (q.setHalf sl (f (q.half sl))) := by
  simp [State.mapHalf]

@[simp] theorem State.block?_withPair (s : State) (p : Nat) (b : Block) (g : Nat) (q : Pair) :
    (s.withPair p b g q).block? p = some (b.setPair g q) := by simp [State.withPair]

@[simp] theorem State.pair_withPair (s : State) (p : Nat) (b : Block) (g : Nat) (q : Pair) : (s.withPair p b g q).pair p g = q := by
  simp [State.withPair]

theorem State.setCore_withPair (s : State) (p : Nat) (b : Block) (g c : Nat) (q : Pair) (k : Core) :
    (s.withPair p b g q).setCore c k = (s.setCore c k).withPair p b g q := rfl

/-- A push into a replaced pair (R49). -/
theorem State.push_withPair (s : State) (p : Nat) (b : Block) (g q l : Nat) (x : Pair) (es : List Elem) :
    (s.withPair p b g x).push p g q l es
      = s.withPair p b g (if s.discards b x g q l then x else x.setQueue q l (x.queue q l ++ es)) := by
  have e : (s.withPair p b g x).discards (b.setPair g x) x g q l = s.discards b x g q l := rfl
  by_cases h : s.discards b x g q l = true
  · simp [State.push, State.block?_withPair, e, h]
  · simp [State.push, State.block?_withPair, e, h]

/-! ### Changes of a core's records and samples -/

/-- The states differ at most in one core, and there in its records and samples. -/
def CoreStep (n : Nat) (u t : State) : Prop :=
  t = u ∨ ∃ k : Core, t = u.setCore n k ∧
    ({ k with recs := [], sampleCount := 0, sample := none } : Core)
      = { u.core n with recs := [], sampleCount := 0, sample := none }

theorem CoreStep.refl (n : Nat) (u : State) : CoreStep n u u := .inl rfl

theorem CoreStep.trans {n : Nat} {u t v : State} (h : CoreStep n u t) (h' : CoreStep n t v) : CoreStep n u v := by
  rcases h' with rfl | ⟨k', rfl, hk'⟩
  · exact h
  · rcases h with rfl | ⟨k, rfl, hk⟩
    · exact .inr ⟨k', rfl, hk'⟩
    · refine .inr ⟨k', by simp, ?_⟩
      rw [hk', State.core_setCore, hk]

theorem CoreStep.rest {n : Nat} {u t : State} (h : CoreStep n u t) :
    ({ t with blocks := [], cores := [] } : State) = { u with blocks := [], cores := [] } := by
  rcases h with rfl | ⟨k, rfl, _⟩ <;> rfl

theorem CoreStep.blocks {n : Nat} {u t : State} (h : CoreStep n u t) : t.blocks = u.blocks := by
  rcases h with rfl | ⟨k, rfl, _⟩ <;> rfl

theorem CoreStep.core_ne {n m : Nat} {u t : State} (h : CoreStep n u t) (hm : m ≠ n) : t.core m = u.core m := by
  rcases h with rfl | ⟨k, rfl, _⟩
  · rfl
  · exact State.core_setCore_ne _ _ hm

theorem CoreStep.core {n : Nat} {u t : State} (h : CoreStep n u t) :
    ({ t.core n with recs := [], sampleCount := 0, sample := none } : Core)
      = { u.core n with recs := [], sampleCount := 0, sample := none } := by
  rcases h with rfl | ⟨k, rfl, hk⟩
  · rfl
  · simpa using hk

theorem CoreStep.held {n : Nat} {u t : State} (h : CoreStep n u t) : t.held = u.held := by
  rcases h with rfl | ⟨k, rfl, _⟩ <;> rfl

/-- A record joins the core's list, and nothing else changes. -/
theorem State.addRec_step (s : State) (n : Nat) (r : Rec) : CoreStep n s (s.addRec n r) :=
  .inr ⟨_, rfl, rfl⟩

end Sys2Proof.Machine
end

