-- ==== Sys2Proof/Laws/Issue.lean ====
section
/-! SUPPORT. What an issue can do (R97): its start, its commit, the delivery of results, and its end. -/

namespace Sys2Proof.Machine
open Sys2Proof

/-! ### The start of an issue -/

/-- What an issue starts with. -/
theorem State.begin?_facts {s : State} {i : Instr} {c : Ctx} (h : s.begin? i = some c) :
    c.st = s ∧ s.block? c.place = some c.blk ∧ c.f = (ext? i).getD {} ∧ c.len = byteLen i
      ∧ c.path = c.half.pathBut c.w c.pc s.cur.skip ∧ c.act = c.path.filter (c.half.acts c.f) ∧ c.path ≠ []
      ∧ s.sec = .run ∧ c.pair.live = true ∧ c.pair.run = .running
      ∧ c.place = s.cur.place ∧ c.group = s.cur.group ∧ c.sl = s.cur.sl ∧ c.pc = s.cur.pc := by
  unfold State.begin? at h
  split at h
  · cases h
  · rename_i b hb
    simp only at h
    split at h
    · rename_i hc
      cases h
      exact ⟨rfl, hb, rfl, rfl, rfl, rfl, hc.2.2.2, hc.1, hc.2.1, hc.2.2.1, rfl, rfl, rfl, rfl⟩
    · cases h

theorem Half.path_nodup (h : Half) (w : Nat) (pc : Word) : (h.path w pc).Nodup := List.nodup_range.sublist List.filter_sublist

theorem Half.pathBut_nodup (h : Half) (w : Nat) (pc : Word) (k : DWord) : (h.pathBut w pc k).Nodup :=
  (Half.path_nodup h w pc).sublist List.filter_sublist

theorem Half.pathBut_sub {h : Half} {w : Nat} {pc : Word} {k : DWord} {l : Nat} (hl : l ∈ h.pathBut w pc k) : l ∈ h.path w pc :=
  (List.mem_filter.1 hl).1

theorem Half.path_lt {h : Half} {w : Nat} {pc : Word} {l : Nat} (hl : l ∈ h.path w pc) : l < w := by
  simp only [Half.path, List.mem_filter, List.mem_range] at hl
  exact hl.1

/-- The lanes of `active` are lanes of the path, each once, and lanes of the group. -/
theorem Ctx.act_facts {s : State} {i : Instr} {c : Ctx} (h : s.begin? i = some c) :
    c.act.Nodup ∧ (∀ l ∈ c.act, l ∈ c.path) ∧ (∀ l ∈ c.path, l < c.w) ∧ c.path.Nodup := by
  obtain ⟨-, -, -, -, hp, ha, -⟩ := State.begin?_facts h
  have hn : c.path.Nodup := by rw [hp]; exact Half.pathBut_nodup _ _ _ _
  refine ⟨?_, ?_, ?_, hn⟩
  · rw [ha]; exact hn.sublist List.filter_sublist
  · intro l hl; rw [ha] at hl; exact (List.mem_filter.1 hl).1
  · intro l hl; rw [hp] at hl; exact Half.path_lt (Half.pathBut_sub hl)

/-! ### The checks before the instruction's own part -/

/-- With no late access among those asked for, none is placed (R266). -/
theorem lateWith_none {mine : Late → Bool} {hs : List Late} (h : hs.any mine = false) : lateWith mine hs = [] := by
  induction hs with
  | nil => rfl
  | cons a r ih =>
    rw [List.any_cons, Bool.or_eq_false_iff] at h
    simp [lateWith, ih h.2, h.1]

theorem State.settleLate_none {s : State} {mine : Late → Bool} (h : s.late.any mine = false) : s.settleLate mine = s := by
  simp [State.settleLate, lateWith_none h]

/-- With no element to read again and no late access to place, an issue is made in the state as it stands (R214, R266). -/
theorem Ctx.prepare_clear {c : Ctx} {i : Instr} (h : (c.toReplay (popList i)).isEmpty = true)
    (hl : c.st.late.any (c.lateBefore i) = false) : c.prepare i = some c.st := by
  rw [List.isEmpty_iff] at h
  unfold Ctx.prepare Ctx.replayStalls Ctx.replay
  rw [h]
  simp [State.lateWaits, lateWith_none hl, State.settleLate_none hl]

/-- An instruction that issues with nothing in its way is a legal encoding in the slice (R106). -/
theorem Clear.isLegal {i : Instr} {s : State} {c : Ctx} (h : Clear i s c) : legal c.sl i = true := by
  have hc := h.2.1
  simp only [Ctx.clear, Bool.and_eq_true] at hc
  simp [hc]

/-- With nothing in its way an issue comes to the instruction's own part. -/
theorem issueWith_clear {i : Instr} {s : State} {c : Ctx} (h : Clear i s c) (pre : Ctx → Option TrapInfo) (hp : pre c = none)
    (body : Ctx → State → Act) : issueWith i pre body s = c.conclude i (body c (c.commit i)) := by
  obtain ⟨hb, hc, -⟩ := h
  simp only [Ctx.clear, Bool.and_eq_true, Bool.not_eq_true', Option.isNone_iff_eq_none] at hc
  obtain ⟨⟨⟨⟨⟨⟨⟨⟨⟨h1, h2⟩, h3⟩, h4⟩, h5⟩, h6⟩, h7⟩, h8⟩, h9⟩, h10⟩ := hc
  obtain ⟨hst, hblk, -⟩ := State.begin?_facts hb
  have hr := Ctx.prepare_clear h9 h10
  have hcc : ({ c with st := c.st, blk := (c.st.block? c.place).getD c.blk } : Ctx) = c := by
    rw [hst, hblk]; cases c; simp_all
  unfold issueWith
  simp only [hb, h1, ↓reduceIte, hr, hcc]
  unfold Ctx.run
  simp [h2, h3, h4, h5, h6, h7, h8, hp]

theorem issue_clear {i : Instr} {s : State} {c : Ctx} (h : Clear i s c) (body : Ctx → State → Act) :
    issue i body s = c.conclude i (body c (c.commit i)) := issueWith_clear h noPre rfl body

/-- The same after a rendezvous. -/
theorem issueMeet_clear {quad : Bool} {i : Instr} {s : State} {c : Ctx} (h : Meets quad i s c) (body : Ctx → State → Act) :
    issueMeet quad i body s = c.conclude i (body c (c.commit i)) := by
  obtain ⟨c0, hb, hl, hg, hc⟩ := h
  unfold issueMeet
  simp only [hb, hl, hg, ↓reduceIte]
  exact issue_clear hc body

/-! ### The commit of an issue -/

/-- The pair after the pops, the advance of the path and the counters of an issue. -/
def Ctx.pairAfter (c : Ctx) (i : Instr) : Pair :=
  (c.count (c.popAll i c.pair)).setHalf c.sl (c.advance i ((c.count (c.popAll i c.pair)).half c.sl))

theorem Ctx.trace_step (c : Ctx) (i : Instr) (u : State) : CoreStep c.core u (c.trace i u) := by
  unfold Ctx.trace
  split
  · exact State.addRec_step _ _ _
  · exact CoreStep.refl _ _

/-- A step of the cores goes through a replaced pair. -/
theorem CoreStep.through {n p g : Nat} {u t : State} {b : Block} {q : Pair} (h : CoreStep n (u.withPair p b g q) t) :
    ∃ Y, CoreStep n u Y ∧ t = Y.withPair p b g q := by
  rcases h with rfl | ⟨k, rfl, hk⟩
  · exact ⟨u, CoreStep.refl _ _, rfl⟩
  · exact ⟨u.setCore n k, .inr ⟨k, rfl, hk⟩, rfl⟩

theorem Ctx.commit_form {s : State} {i : Instr} {c : Ctx} (h : s.begin? i = some c) :
    ∃ Y, CoreStep c.core s Y ∧ c.commit i = Y.withPair c.place c.blk c.group (c.pairAfter i) := by
  obtain ⟨hst, hblk, -⟩ := State.begin?_facts h
  have e : c.commit i = c.trace i (s.withPair c.place c.blk c.group (c.pairAfter i)) := by
    unfold Ctx.commit
    rw [hst, State.mapPair_eq hblk]
    rfl
  rw [e]
  exact (Ctx.trace_step c i _).through

/-! ### The end of an issue -/

/-- After the instruction's own part only the spin detector of the half, and the core's samples, change. -/
theorem Ctx.finish_form (c : Ctx) (i : Instr) {Y : State} {q : Pair} {s : State} (hY : CoreStep c.core s Y) :
    ∃ Y' k, CoreStep c.core s Y' ∧ c.conclude i (.done (Y.withPair c.place c.blk c.group q))
      = .next (Y'.withPair c.place c.blk c.group (q.setHalf c.sl { q.half c.sl with ctl := k })) := by
  have hw : ∃ k, c.watch i (Y.withPair c.place c.blk c.group q)
      = Y.withPair c.place c.blk c.group (q.setHalf c.sl { q.half c.sl with ctl := k }) := by
    unfold Ctx.watch
    simp only
    split
    · refine ⟨(q.half c.sl).ctl, ?_⟩
      congr 1
      cases c.sl <;> rfl
    · exact ⟨_, by rw [State.mapHalf_withPair]⟩
  obtain ⟨k, hk⟩ := hw
  have hs : CoreStep c.core (Y.withPair c.place c.blk c.group (q.setHalf c.sl { q.half c.sl with ctl := k }))
      (c.sample i (Y.withPair c.place c.blk c.group (q.setHalf c.sl { q.half c.sl with ctl := k }))) := by
    unfold Ctx.sample
    simp only
    split
    · split
      · exact .inr ⟨_, rfl, rfl⟩
      · exact .inr ⟨_, rfl, rfl⟩
    · exact CoreStep.refl _ _
  obtain ⟨Y', hY', e⟩ := hs.through
  exact ⟨Y', k, hY.trans hY', by simp [Ctx.conclude, hk, e]⟩

/-! ### What an issue leaves alone -/

/-- A state that differs from an issue's start in one pair and in the core's records keeps the rest. -/
theorem Kept.of_form {s : State} {i : Instr} {c : Ctx} (h : s.begin? i = some c) {Y : State} (hY : CoreStep c.core s Y) (q : Pair) :
    Kept c (Y.withPair c.place c.blk c.group q) := by
  obtain ⟨hst, hblk, -⟩ := State.begin?_facts h
  refine ⟨?_, ?_, ?_, ?_, ?_, ?_⟩
  · rw [hst, ← hY.rest]; rfl
  · intro p hp
    rw [hst]
    show (Y.setBlock _ _).block? p = _
    rw [State.block?_setBlock_ne _ _ hp]
    simp [State.block?, hY.blocks]
  · simp [Block.setPair]
  · intro g hg
    simp [State.withPair, Block.pair_setPair_ne _ _ hg]
  · intro k hk
    rw [hst]
    exact hY.core_ne hk
  · rw [hst]
    exact hY.core

/-- Popping changes nothing of a pair but its queues. -/
theorem Ctx.popAll_frame (c : Ctx) (i : Instr) (p : Pair) :
    ({ c.popAll i p with queues := [] } : Pair) = { p with queues := [] } ∧ ∀ sl, (c.popAll i p).half sl = p.half sl := by
  have inner : ∀ (ls : List Nat) (q n : Nat) (p : Pair),
      ({ ls.foldl (fun p l => p.setQueue q l ((p.queue q l).drop n)) p with queues := [] } : Pair) = { p with queues := [] } ∧
      ∀ sl, (ls.foldl (fun p l => p.setQueue q l ((p.queue q l).drop n)) p).half sl = p.half sl := by
    intro ls q n
    induction ls with
    | nil => intro p; exact ⟨rfl, fun _ => rfl⟩
    | cons l r ih =>
      intro p
      obtain ⟨e1, e2⟩ := ih (p.setQueue q l ((p.queue q l).drop n))
      exact ⟨by rw [List.foldl_cons, e1]; rfl, fun sl => by rw [List.foldl_cons, e2, Pair.half_setQueue]⟩
  unfold Ctx.popAll
  generalize popList i = ps
  induction ps generalizing p with
  | nil => exact ⟨rfl, fun _ => rfl⟩
  | cons a r ih =>
    obtain ⟨e1, e2⟩ := ih (c.act.foldl (fun p l => p.setQueue a.1 l ((p.queue a.1 l).drop a.2)) p)
    obtain ⟨f1, f2⟩ := inner c.act a.1 a.2 p
    exact ⟨by rw [List.foldl_cons, e1, f1], fun sl => by rw [List.foldl_cons, e2, f2]⟩

/-- Counting changes nothing of a pair but its counters. -/
theorem Ctx.count_frame (c : Ctx) (p : Pair) :
    ({ c.count p with lodSince := [], counters := {} } : Pair) = { p with lodSince := [], counters := {} }
      ∧ (∀ sl, (c.count p).half sl = p.half sl) ∧ (∀ q l, (c.count p).queue q l = p.queue q l) := by
  unfold Ctx.count
  simp only
  split
  · exact ⟨rfl, fun sl => by cases sl <;> rfl, fun _ _ => rfl⟩
  · exact ⟨rfl, fun sl => by cases sl <;> rfl, fun _ _ => rfl⟩

/-- Lanes of a half after a fold that rewrites the lanes of a list without repeats. -/
theorem Half.fold_lanes (f : Lane → Lane) (ls : List Nat) (hn : ls.Nodup) (h : Half) :
    (∀ l, (ls.foldl (fun h l => h.setLane l (f (h.lane l))) h).lane l = if l ∈ ls then f (h.lane l) else h.lane l)
      ∧ ({ ls.foldl (fun h l => h.setLane l (f (h.lane l))) h with lanes := [] } : Half) = { h with lanes := [] } := by
  induction ls generalizing h with
  | nil => exact ⟨fun l => by simp, rfl⟩
  | cons a r ih =>
    obtain ⟨ha, hr⟩ := List.nodup_cons.1 hn
    obtain ⟨e1, e2⟩ := ih hr (h.setLane a (f (h.lane a)))
    refine ⟨fun l => ?_, by rw [List.foldl_cons, e2]; rfl⟩
    rw [List.foldl_cons, e1]
    by_cases hl : l = a
    · subst hl; simp [ha]
    · simp [hl, Half.lane_setLane_ne _ _ hl]

/-- The half after the advance of an issue. -/
theorem Ctx.advance_frame {s : State} {i : Instr} {c : Ctx} (hb : s.begin? i = some c) (h : Half) :
    (∀ l, (c.advance i h).lane l = if l ∈ c.path then
        { h.lane l with pc := (h.lane l).pc + BitVec.ofNat 32 c.len, wins := stepWins c.st i c.pc (h.lane l), pass := false }
        else h.lane l)
      ∧ ({ c.advance i h with lanes := [], did := 0, ctl := {}, uniAt := [] } : Half)
          = { h with lanes := [], did := 0, ctl := {}, uniAt := [] } := by
  obtain ⟨-, -, -, hn⟩ := Ctx.act_facts hb
  obtain ⟨e1, e2⟩ := Half.fold_lanes
    (fun x => { x with pc := x.pc + BitVec.ofNat 32 c.len, wins := stepWins c.st i c.pc x, pass := false }) c.path hn
    (c.noted i h)
  refine ⟨fun l => ?_, ?_⟩
  · exact e1 l
  · have e3 := congrArg (fun x : Half => ({ x with did := 0, ctl := {}, uniAt := [] } : Half)) e2
    exact e3

/-- Queues after the pops of an issue. -/
theorem Ctx.popAll_queue {s : State} {i : Instr} {c : Ctx} (hb : s.begin? i = some c) (hw : c.w ≤ 64) (q l : Nat) (hl : l < 64) :
    (c.popAll i c.pair).queue q l = c.left i q l := by
  obtain ⟨hn, hp, hlt, -⟩ := Ctx.act_facts hb
  have hlt' : ∀ l ∈ c.act, l < 64 := fun l h => Nat.lt_of_lt_of_le (hlt l (hp l h)) hw
  have inner : ∀ (ls : List Nat), ls.Nodup → (∀ l ∈ ls, l < 64) → ∀ (q' n : Nat) (p : Pair),
      (ls.foldl (fun p l => p.setQueue q' l ((p.queue q' l).drop n)) p).queue q l
        = if q' = q ∧ l ∈ ls then (p.queue q l).drop n else p.queue q l := by
    intro ls
    induction ls with
    | nil => intro _ _ q' n p; simp
    | cons a r ih =>
      intro hn hlt q' n p
      obtain ⟨ha, hr⟩ := List.nodup_cons.1 hn
      have ha64 := hlt a (by simp)
      rw [List.foldl_cons, ih hr (fun l h => hlt l (by simp [h]))]
      by_cases hq : q' = q
      · by_cases hla : l = a
        · subst hq; subst hla; simp [ha]
        · rw [Pair.queue_setQueue_ne _ _ (by omega)]; simp [hq, hla]
      · rw [Pair.queue_setQueue_ne _ _ (by omega)]; simp [hq]
  unfold Ctx.popAll Ctx.left
  generalize popList i = ps
  generalize c.pair = p
  induction ps generalizing p with
  | nil => simp
  | cons a r ih =>
    rw [List.foldl_cons, ih, inner c.act hn hlt']
    by_cases hq : a.1 = q <;> by_cases hla : l ∈ c.act <;> simp [hq, hla]

/-- What the commit of an issue leaves of its pair. -/
theorem Ctx.pairAfter_facts {s : State} {i : Instr} {c : Ctx} (hb : s.begin? i = some c) (hw : c.w ≤ 64) :
    ({ c.pairAfter i with acc := {}, exe := {}, queues := [], lodSince := [], counters := {} } : Pair)
        = { c.pair with acc := {}, exe := {}, queues := [], lodSince := [], counters := {} }
      ∧ (c.pairAfter i).half (Slice.other c.sl) = c.pair.half (Slice.other c.sl)
      ∧ (c.pairAfter i).half c.sl = c.advance i c.half
      ∧ ∀ q l, l < 64 → (c.pairAfter i).queue q l = c.left i q l := by
  obtain ⟨p1, p2⟩ := Ctx.popAll_frame c i c.pair
  obtain ⟨k1, k2, k3⟩ := Ctx.count_frame c (c.popAll i c.pair)
  refine ⟨?_, ?_, ?_, ?_⟩
  · have e1 := congrArg (fun x : Pair => ({ x with acc := {}, exe := {}, queues := [] } : Pair)) k1
    have e2 := congrArg (fun x : Pair => ({ x with acc := {}, exe := {}, lodSince := [], counters := {} } : Pair)) p1
    have e3 : ({ c.pairAfter i with acc := {}, exe := {}, queues := [], lodSince := [], counters := {} } : Pair)
        = { c.count (c.popAll i c.pair) with acc := {}, exe := {}, queues := [], lodSince := [], counters := {} } := by
      unfold Ctx.pairAfter; cases c.sl <;> rfl
    exact e3.trans (e1.trans e2)
  · unfold Ctx.pairAfter
    rw [Pair.half_setHalf_ne _ _ (by cases c.sl <;> simp [Slice.other]), k2, p2]
  · unfold Ctx.pairAfter
    rw [Pair.half_setHalf, k2, p2]; rfl
  · intro q l hl
    unfold Ctx.pairAfter
    rw [Pair.queue_setHalf, k3, Ctx.popAll_queue hb hw q l hl]

end Sys2Proof.Machine
end

