-- ==== Sys2Proof/Laws/Results.lean ====
section
/-! SUPPORT. What an issue that only writes results can do: its destination, and nothing else. -/

namespace Sys2Proof.Machine
open Sys2Proof

/-! ### Folds over the lanes of `active` -/

theorem Pair.setHalf_half (p : Pair) (sl : Slice) : p.setHalf sl (p.half sl) = p := by cases sl <;> rfl

theorem foldl_mapHalf (Y : State) (p : Nat) (b : Block) (g : Nat) (sl : Slice) (F : Nat → Half → Half) (ls : List Nat) (q : Pair) :
    ls.foldl (fun s l => s.mapHalf p g sl (F l)) (Y.withPair p b g q)
      = Y.withPair p b g (q.setHalf sl (ls.foldl (fun h l => F l h) (q.half sl))) := by
  induction ls generalizing q with
  | nil => simp [Pair.setHalf_half]
  | cons a r ih => simp [ih]

/-- Registers after a fold of register writes over lanes without repeats. -/
theorem Half.fold_putReg (w : Bool) (n : Nat) (v : Nat → DWord) (hn : n < 128) (hw : w = true → n + 1 < 128) (ls : List Nat)
    (hd : ls.Nodup) (h : Half) :
    (∀ l ∈ ls, if w then (ls.foldl (fun h l => h.putReg w l n (v l)) h).reg64 l n = v l
        else (ls.foldl (fun h l => h.putReg w l n (v l)) h).reg l n = lo32 (v l))
      ∧ (∀ l k, k < 128 → ¬ (l ∈ ls ∧ (k = n ∨ (w = true ∧ k = n + 1))) →
          (ls.foldl (fun h l => h.putReg w l n (v l)) h).reg l k = h.reg l k)
      ∧ ({ ls.foldl (fun h l => h.putReg w l n (v l)) h with regs := [] } : Half) = { h with regs := [] } := by
  induction ls generalizing h with
  | nil => exact ⟨by simp, by simp, rfl⟩
  | cons a r ih =>
    obtain ⟨ha, hr⟩ := List.nodup_cons.1 hd
    obtain ⟨e1, e2, e3⟩ := ih hr (h.putReg w a n (v a))
    have other : ∀ l k, k < 128 → ¬ (l = a ∧ (k = n ∨ (w = true ∧ k = n + 1))) → (h.putReg w a n (v a)).reg l k = h.reg l k := by
      intro l k hk hne
      apply Half.putReg_other
      · intro e; exact hne ⟨by omega, .inl (by omega)⟩
      · intro hw' e; have := hw hw'; exact hne ⟨by omega, .inr ⟨hw', by omega⟩⟩
    refine ⟨fun l hl => ?_, fun l k hk hne => ?_, ?_⟩
    · rw [List.foldl_cons]
      by_cases hla : l = a
      · subst hla
        have h0 := e2 l n hn (by simp [ha])
        have h1 := Half.putReg_read h w l n (v l)
        cases w
        · simp only [Bool.false_eq_true, ↓reduceIte] at h1 ⊢
          rw [h0]; exact h1
        · have h2 := e2 l (n + 1) (hw rfl) (by simp [ha])
          simp only [↓reduceIte, Half.reg64] at h1 ⊢
          rw [h0, h2]; exact h1
      · exact e1 l (by simpa [hla] using hl)
    · rw [List.foldl_cons, e2 l k hk (fun ⟨hl, e⟩ => hne ⟨List.mem_cons_of_mem _ hl, e⟩), other l k hk (fun ⟨hl, e⟩ => hne ⟨hl ▸ List.mem_cons_self, e⟩)]
    · rw [List.foldl_cons, e3]
      unfold Half.putReg; split <;> rfl

/-- Predicates after a fold of predicate writes over lanes without repeats. -/
theorem Half.fold_setPred (n : Nat) (v : Nat → Bool) (ls : List Nat) (hd : ls.Nodup) (h : Half) :
    (∀ l k, k < 8 → ((ls.foldl (fun h l => h.setPred l n (v l)) h).lane l).pred k
        = if l ∈ ls ∧ k = n ∧ k ≠ 0 then v l else (h.lane l).pred k)
      ∧ (∀ l, ({ (ls.foldl (fun h l => h.setPred l n (v l)) h).lane l with preds := 0 } : Lane) = { h.lane l with preds := 0 })
      ∧ (∀ l, l ∉ ls → (ls.foldl (fun h l => h.setPred l n (v l)) h).lane l = h.lane l)
      ∧ ({ ls.foldl (fun h l => h.setPred l n (v l)) h with lanes := [] } : Half) = { h with lanes := [] } := by
  induction ls generalizing h with
  | nil => exact ⟨by simp, by simp, by simp, rfl⟩
  | cons a r ih =>
    obtain ⟨ha, hr⟩ := List.nodup_cons.1 hd
    obtain ⟨e1, e2, e3, e4⟩ := ih hr (h.setPred a n (v a))
    refine ⟨fun l k hk => ?_, fun l => ?_, fun l hl => ?_, ?_⟩
    · rw [List.foldl_cons, e1 l k hk]
      by_cases hla : l = a
      · subst hla
        simp [ha, Half.setPred, Lane.pred_setPred _ _ hk]
      · simp [hla, Half.setPred, Half.lane_setLane_ne _ _ hla]
    · rw [List.foldl_cons, e2 l]
      by_cases hla : l = a
      · subst hla
        simp only [Half.setPred, Half.lane_setLane]
        unfold Lane.setPred; split <;> rfl
      · simp [Half.setPred, Half.lane_setLane_ne _ _ hla]
    · simp only [List.mem_cons, not_or] at hl
      rw [List.foldl_cons, e3 l hl.2]
      simp [Half.setPred, Half.lane_setLane_ne _ _ hl.1]
    · rw [List.foldl_cons, e4]; rfl

/-- A fold of pushes over lanes without repeats. -/
theorem foldl_push (Y : State) (p : Nat) (b : Block) (g q : Nat) (es : Nat → List Elem) (ls : List Nat) (hd : ls.Nodup)
    (h64 : ∀ l ∈ ls, l < 64) (x : Pair) :
    ∃ y, ls.foldl (fun s l => s.push p g q l (es l)) (Y.withPair p b g x) = Y.withPair p b g y
      ∧ ({ y with queues := [] } : Pair) = { x with queues := [] } ∧ (∀ sl, y.half sl = x.half sl)
      ∧ ∀ r l, l < 64 → y.queue r l = x.queue r l
          ++ (if r = q ∧ l ∈ ls ∧ Y.discards b x g q l = false then es l else []) := by
  induction ls generalizing x with
  | nil => exact ⟨x, rfl, rfl, fun _ => rfl, by simp⟩
  | cons a rest ih =>
    obtain ⟨ha, hr⟩ := List.nodup_cons.1 hd
    have ha64 := h64 a (by simp)
    rw [List.foldl_cons, State.push_withPair]
    by_cases hc : Y.discards b x g q a = true
    · simp only [hc, ↓reduceIte]
      obtain ⟨y, e1, e2, e3, e4⟩ := ih hr (fun l h => h64 l (by simp [h])) x
      refine ⟨y, e1, e2, e3, fun r l hl => ?_⟩
      rw [e4 r l hl]
      by_cases hla : l = a
      · subst hla; simp [ha, hc]
      · simp [hla]
    · simp only [hc, Bool.false_eq_true, ↓reduceIte]
      obtain ⟨y, e1, e2, e3, e4⟩ := ih hr (fun l h => h64 l (by simp [h])) (x.setQueue q a (x.queue q a ++ es a))
      refine ⟨y, e1, by rw [e2]; rfl, fun sl => by rw [e3, Pair.half_setQueue], fun r l hl => ?_⟩
      rw [e4 r l hl]
      by_cases hla : l = a
      · subst hla
        by_cases hrq : r = q
        · subst hrq; simp [ha, hc]
        · rw [Pair.queue_setQueue_ne _ _ (by omega)]; simp [hrq]
      · rw [Pair.queue_setQueue_ne _ _ (by omega)]
        have hd' : Y.discards b (x.setQueue q a (x.queue q a ++ es a)) g q l = Y.discards b x g q l := by
          unfold State.discards
          rw [Pair.half_setQueue, Pair.queue_setQueue_ne _ _ (by omega)]
        simp [hla, hd']

/-! ### Records equal but for some fields -/

theorem Lane.of_preds {a b : Lane} (h : ({ a with preds := 0 } : Lane) = { b with preds := 0 }) :
    a.pc = b.pc ∧ a.life = b.life ∧ a.depth = b.depth ∧ a.wait = b.wait ∧ a.calls = b.calls := by
  cases a; cases b; simp at h; simp [h]

theorem Half.of_regs {a b : Half} (h : ({ a with regs := [] } : Half) = { b with regs := [] }) :
    a.lanes = b.lanes ∧ a.uni = b.uni ∧ a.sets = b.sets ∧ a.collstat = b.collstat ∧ a.timer = b.timer := by
  cases a; cases b; simp at h; simp [h]

theorem Half.of_lanes {a b : Half} (h : ({ a with lanes := [] } : Half) = { b with lanes := [] }) :
    a.regs = b.regs ∧ a.uni = b.uni ∧ a.sets = b.sets ∧ a.collstat = b.collstat ∧ a.timer = b.timer := by
  cases a; cases b; simp at h; simp [h]

theorem Half.of_state {a b : Half} (h : ({ a with regs := [], uni := [] } : Half) = { b with regs := [], uni := [] }) :
    a.lanes = b.lanes ∧ a.sets = b.sets ∧ a.collstat = b.collstat ∧ a.timer = b.timer := by
  cases a; cases b; simp at h; simp [h]

theorem Half.of_values {a b : Half} (h : ({ a with lanes := [], regs := [], uni := [] } : Half) = { b with lanes := [], regs := [], uni := [] }) :
    a.sets = b.sets ∧ a.collstat = b.collstat ∧ a.timer = b.timer := by
  cases a; cases b; simp at h; simp [h]

/-! ### The delivery of results -/

/-- What the results of an issue leave alone in a pair: all but registers, predicates and queues. -/
structure ResultsOnly (c : Ctx) (i : Instr) (q : Pair) : Prop where
  pair : ({ q with acc := {}, exe := {}, queues := [] } : Pair) = { c.pairAfter i with acc := {}, exe := {}, queues := [] }
  other : q.half (Slice.other c.sl) = (c.pairAfter i).half (Slice.other c.sl)
  lanes : ∀ l, ({ (q.half c.sl).lane l with preds := 0 } : Lane) = { ((c.pairAfter i).half c.sl).lane l with preds := 0 }
  off : ∀ l, l ∉ c.path → (q.half c.sl).lane l = ((c.pairAfter i).half c.sl).lane l
  half : ({ q.half c.sl with lanes := [], regs := [], uni := [] } : Half)
    = { (c.pairAfter i).half c.sl with lanes := [], regs := [], uni := [] }

/-- A pair after the commit and the results of an issue, with the spin detector and `%collstat` as they come to be. -/
theorem ResultsOnly.advanced {s : State} {i : Instr} {c : Ctx} (hb : s.begin? i = some c) (hw : c.w ≤ 64) {Y : State} {q : Pair}
    (h : ResultsOnly c i q) (k : Issue) (m : DWord) :
    let t := Y.withPair c.place c.blk c.group (q.setHalf c.sl { q.half c.sl with ctl := k, collstat := m })
    Advanced c t ∧ c.setsAnd m t := by
  intro t
  obtain ⟨h1, h2, h3, h4, h5⟩ := h
  obtain ⟨f1, f2, f3, f4⟩ := Ctx.pairAfter_facts hb hw
  obtain ⟨a1, a2⟩ := Ctx.advance_frame hb c.half
  have ht : t.pair c.place c.group = q.setHalf c.sl { q.half c.sl with ctl := k, collstat := m } := State.pair_withPair _ _ _ _ _
  have hh : ∀ l, (c.halfIn t).lane l = (q.half c.sl).lane l := by
    intro l; simp [Ctx.halfIn, ht, Half.lane]
  refine ⟨⟨?_, ?_, ?_, ?_⟩, ?_, ?_, ?_⟩
  · rw [ht]
    have e1 := congrArg (fun x : Pair => ({ x with lodSince := [], counters := {} } : Pair)) h1
    refine Eq.trans ?_ (e1.trans f1)
    cases c.sl <;> rfl
  · rw [ht, Pair.half_setHalf_ne _ _ (by cases c.sl <;> simp [Slice.other]), h2, f2]
  · intro l hl
    have e := h3 l
    rw [f3, a1 l, if_pos hl] at e
    rw [hh l]
    obtain ⟨p1, p2, p3, p4, p5⟩ := Lane.of_preds e
    exact ⟨p1, p2, p3, p4, p5⟩
  · intro l hl
    rw [hh l, h4 l hl, f3, a1 l, if_neg hl]
  all_goals
    rw [f3] at h5
    obtain ⟨e1, e2, e3⟩ := Half.of_values h5
    have g1 : (c.advance i c.half).sets = c.half.sets := by simpa using congrArg Half.sets a2
    have g3 : (c.advance i c.half).timer = c.half.timer := by simpa using congrArg Half.timer a2
    simp only [Ctx.halfIn, ht, Pair.half_setHalf]
  · exact e1.trans g1
  · exact e3.trans g3

/-- The same where `%collstat` keeps its value. -/
theorem ResultsOnly.kept {s : State} {i : Instr} {c : Ctx} (hb : s.begin? i = some c) (hw : c.w ≤ 64) {Y : State} {q : Pair}
    (h : ResultsOnly c i q) (k : Issue) :
    let t := Y.withPair c.place c.blk c.group (q.setHalf c.sl { q.half c.sl with ctl := k })
    Advanced c t ∧ c.setsKept t := by
  obtain ⟨f1, f2, f3, f4⟩ := Ctx.pairAfter_facts hb hw
  obtain ⟨a1, a2⟩ := Ctx.advance_frame hb c.half
  have h5 := h.half
  rw [f3] at h5
  have g2 : (c.advance i c.half).collstat = c.half.collstat := by simpa using congrArg Half.collstat a2
  have e : ({ q.half c.sl with ctl := k } : Half) = { q.half c.sl with ctl := k, collstat := c.half.collstat } := by
    rw [← g2, ← (Half.of_values h5).2.1]
  intro t
  have := h.advanced hb hw (Y := Y) k c.half.collstat
  rw [← e] at this
  exact this

/-- Registers, uniform registers and predicates of the half after the commit of an issue. -/
theorem Ctx.pairAfter_half {s : State} {i : Instr} {c : Ctx} (hb : s.begin? i = some c) (hw : c.w ≤ 64) :
    (∀ l n, ((c.pairAfter i).half c.sl).reg l n = c.half.reg l n) ∧ (∀ n, ((c.pairAfter i).half c.sl).ureg n = c.half.ureg n)
      ∧ (∀ l, (((c.pairAfter i).half c.sl).lane l).preds = (c.half.lane l).preds)
      ∧ (∀ l, (((c.pairAfter i).half c.sl).lane l).life = (c.half.lane l).life) := by
  obtain ⟨-, -, f3, -⟩ := Ctx.pairAfter_facts hb hw
  obtain ⟨a1, a2⟩ := Ctx.advance_frame hb c.half
  have er : (c.advance i c.half).regs = c.half.regs := by simpa using congrArg Half.regs a2
  have eu : (c.advance i c.half).uni = c.half.uni := by simpa using congrArg Half.uni a2
  refine ⟨fun l n => ?_, fun n => ?_, fun l => ?_, fun l => ?_⟩
  · rw [f3]; simp [Half.reg, er]
  · rw [f3]; simp [Half.ureg, eu]
  · rw [f3, a1 l]; split <;> rfl
  · rw [f3, a1 l]; split <;> rfl

/-- The delivery of values after the commit of an issue: one pair is replaced, with the values in it. -/
theorem Ctx.writeAll_form {i : Instr} {s : State} {c : Ctx} (hb : s.begin? i = some c) (hw : c.w ≤ 64) (wide : Bool)
    (hd : c.evenDst wide) (v : Nat → DWord) :
    ∃ Y q, CoreStep c.core s Y ∧ c.writeAll wide v (c.commit i) = Y.withPair c.place c.blk c.group q ∧ ResultsOnly c i q
      ∧ ∀ (Z : State) (h' : Half), h'.regs = (q.half c.sl).regs → h'.uni = (q.half c.sl).uni → h'.lanes = (q.half c.sl).lanes →
          c.wrote i wide v (Z.withPair c.place c.blk c.group (q.setHalf c.sl h')) := by
  obtain ⟨hn, hap, hlt, -⟩ := Ctx.act_facts hb
  obtain ⟨Y, hY, eY⟩ := Ctx.commit_form hb
  obtain ⟨r1, r2, r3, r4⟩ := Ctx.pairAfter_half hb hw
  obtain ⟨f1, f2, f3, f4⟩ := Ctx.pairAfter_facts hb hw
  have hpred : ∀ (X : State) (q : Pair) (h' : Half), (∀ l, h'.lane l = ((c.pairAfter i).half c.sl).lane l) →
      c.predsKept (X.withPair c.place c.blk c.group (q.setHalf c.sl h')) := by
    intro X q h' hq l n
    simp only [Ctx.halfIn, State.pair_withPair, Pair.half_setHalf]
    rw [hq l]; unfold Lane.pred; rw [r3]
  have hregs : ∀ (X : State) (q : Pair) (h' : Half), h'.regs = ((c.pairAfter i).half c.sl).regs →
      c.regsKept (X.withPair c.place c.blk c.group (q.setHalf c.sl h')) := by
    intro X q h' hq l n
    rw [← r1 l n]
    simp [Ctx.halfIn, Half.reg, hq]
  have huni : ∀ (X : State) (q : Pair) (h' : Half), h'.uni = ((c.pairAfter i).half c.sl).uni →
      c.uniKept (X.withPair c.place c.blk c.group (q.setHalf c.sl h')) := by
    intro X q h' hq n
    rw [← r2 n]
    simp [Ctx.halfIn, Half.ureg, hq]
  have hpops : ∀ (X : State) (q : Pair) (h' : Half), (∀ r l, l < 64 → q.queue r l = (c.pairAfter i).queue r l) →
      c.popsOnly i (X.withPair c.place c.blk c.group (q.setHalf c.sl h')) := by
    intro X q h' hq r l hl
    rw [State.pair_withPair, Pair.queue_setHalf, hq r l hl, f4 r l hl]
  have hlane : ∀ (h h' : Half), h'.lanes = h.lanes → ∀ l, h'.lane l = h.lane l := by
    intro h h' e l; simp [Half.lane, e]
  -- the value of the destination, by class
  match hdst : c.f.dst with
  | .reg n =>
    have e : c.writeAll wide v (c.commit i) = Y.withPair c.place c.blk c.group ((c.pairAfter i).setHalf c.sl
        (c.act.foldl (fun h l => h.putReg wide l n.toNat (v l)) ((c.pairAfter i).half c.sl))) := by
      rw [eY]; unfold Ctx.writeAll State.writeDst
      simp only [hdst]
      exact foldl_mapHalf Y c.place c.blk c.group c.sl (fun l h => h.putReg wide l n.toNat (v l)) c.act _
    have he : wide = true → n.toNat + 1 < 128 := by
      intro hw'; simp only [Ctx.evenDst, hdst] at hd; have := hd hw'; have := n.isLt; omega
    obtain ⟨w1, w2, w3⟩ := Half.fold_putReg wide n.toNat v n.isLt he c.act hn ((c.pairAfter i).half c.sl)
    have wl : (c.act.foldl (fun h l => h.putReg wide l n.toNat (v l)) ((c.pairAfter i).half c.sl)).lanes
        = ((c.pairAfter i).half c.sl).lanes := (Half.of_regs w3).1
    have wu : (c.act.foldl (fun h l => h.putReg wide l n.toNat (v l)) ((c.pairAfter i).half c.sl)).uni
        = ((c.pairAfter i).half c.sl).uni := (Half.of_regs w3).2.1
    refine ⟨Y, _, hY, e, ⟨?_, ?_, ?_, ?_, ?_⟩, ?_⟩
    · cases c.sl <;> rfl
    · rw [Pair.half_setHalf_ne _ _ (by cases c.sl <;> simp [Slice.other])]
    · intro l; rw [Pair.half_setHalf, hlane _ _ wl]
    · intro l _; rw [Pair.half_setHalf, hlane _ _ wl]
    · rw [Pair.half_setHalf]
      exact congrArg (fun x : Half => ({ x with lanes := [], uni := [] } : Half)) w3
    · intro Z h' g1 g2 g3
      rw [Pair.half_setHalf] at g1 g2 g3
      refine ⟨hpred _ _ _ (hlane _ _ (g3.trans wl)), ?_⟩
      simp only [hdst]
      have hreg : ∀ l k, h'.reg l k = (c.act.foldl (fun h l => h.putReg wide l n.toNat (v l)) ((c.pairAfter i).half c.sl)).reg l k := by
        intro l k; simp [Half.reg, g1]
      refine ⟨?_, ?_, huni _ _ _ (by rw [g2, wu]), hpops _ _ _ (by intro r l _; rw [Pair.queue_setHalf])⟩
      · intro l hl
        have := w1 l hl
        simpa [Ctx.halfIn, Half.reg64, hreg] using this
      · intro l k' hk hne
        have := w2 l k' hk hne
        rw [r1] at this
        rw [← this]
        simp [Ctx.halfIn, hreg]
  | .uni n =>
    match hact : c.act with
    | [] =>
      have e : c.writeAll wide v (c.commit i) = Y.withPair c.place c.blk c.group (c.pairAfter i) := by
        rw [eY]; unfold Ctx.writeAll; simp only [hdst, hact]
      refine ⟨Y, _, hY, e, ⟨rfl, rfl, fun _ => rfl, fun _ _ => rfl, rfl⟩, ?_⟩
      intro Z h' g1 g2 g3
      refine ⟨hpred _ _ _ (hlane _ _ g3), ?_⟩
      simp only [hdst, hact]
      refine ⟨by simp, ?_, hregs _ _ _ g1, hpops _ _ _ (fun _ _ _ => rfl)⟩
      intro k' _
      exact huni Z (c.pairAfter i) h' g2 k'
    | a :: rest =>
      have e : c.writeAll wide v (c.commit i) = Y.withPair c.place c.blk c.group ((c.pairAfter i).setHalf c.sl
          (((c.pairAfter i).half c.sl).putUreg wide n.toNat (v a))) := by
        rw [eY]; unfold Ctx.writeAll State.writeDst; simp only [hdst, hact, State.mapHalf_withPair]
      have wl : ∀ l, (((c.pairAfter i).half c.sl).putUreg wide n.toNat (v a)).lane l = ((c.pairAfter i).half c.sl).lane l :=
        fun l => Half.lane_putUreg _ _ _ _ _
      have wr : (((c.pairAfter i).half c.sl).putUreg wide n.toNat (v a)).regs = ((c.pairAfter i).half c.sl).regs :=
        Half.putUreg_regs _ _ _ _
      refine ⟨Y, _, hY, e, ⟨?_, ?_, ?_, ?_, ?_⟩, ?_⟩
      · cases c.sl <;> rfl
      · rw [Pair.half_setHalf_ne _ _ (by cases c.sl <;> simp [Slice.other])]
      · intro l; rw [Pair.half_setHalf, wl]
      · intro l _; rw [Pair.half_setHalf, wl]
      · rw [Pair.half_setHalf]; unfold Half.putUreg; split <;> rfl
      · intro Z h' g1 g2 g3
        rw [Pair.half_setHalf] at g1 g2 g3
        have hureg : ∀ k, h'.ureg k = (((c.pairAfter i).half c.sl).putUreg wide n.toNat (v a)).ureg k := by
          intro k; simp [Half.ureg, g2]
        refine ⟨hpred _ _ _ (fun l => by rw [hlane _ _ g3, wl]), ?_⟩
        simp only [hdst, hact]
        refine ⟨?_, ?_, hregs _ _ _ (by rw [g1, wr]), hpops _ _ _ (by intro r l _; rw [Pair.queue_setHalf])⟩
        · intro l hl
          have hla : l = a := by simpa [eq_comm] using hl
          subst hla
          have := Half.putUreg_read ((c.pairAfter i).half c.sl) wide n.toNat (v l)
          simpa [Ctx.halfIn, Half.ureg64, hureg] using this
        · intro k' hne
          rw [← r2 k']
          have h1 : k' ≠ n.toNat := fun e => hne ⟨by simp, .inl e⟩
          have h2 : wide = true → k' ≠ n.toNat + 1 := fun hw' e => hne ⟨by simp, .inr ⟨hw', e⟩⟩
          have := Half.putUreg_other ((c.pairAfter i).half c.sl) wide (v a) h1 h2
          simpa [Ctx.halfIn, hureg] using this
  | .queue n =>
    obtain ⟨y, e1, e2, e3, e4⟩ := foldl_push Y c.place c.blk c.group n.toNat (fun l => elemsOf wide (v l)) c.act hn
      (fun l hl => Nat.lt_of_lt_of_le (hlt l (hap l hl)) hw) (c.pairAfter i)
    have e : c.writeAll wide v (c.commit i) = Y.withPair c.place c.blk c.group y := by
      rw [eY, ← e1]; unfold Ctx.writeAll State.writeDst; simp only [hdst]
    refine ⟨Y, y, hY, e, ⟨?_, e3 _, fun _ => by rw [e3], fun _ _ => by rw [e3], by rw [e3]⟩, ?_⟩
    · exact congrArg (fun x : Pair => ({ x with acc := {}, exe := {} } : Pair)) e2
    · intro Z h' g1 g2 g3
      rw [e3] at g1 g2 g3
      refine ⟨hpred _ _ _ (hlane _ _ g3), ?_⟩
      simp only [hdst]
      refine ⟨?_, hregs _ _ _ g1, huni _ _ _ g2⟩
      intro r l hl
      rw [State.pair_withPair, Pair.queue_setHalf, e4 r l hl, f4 r l hl]
      have hlive : ∀ sl, ((c.pairAfter i).half sl).live l = (c.pair.half sl).live l := by
        intro sl
        unfold Half.live
        by_cases hs : sl = c.sl
        · subst hs; rw [r4]; rfl
        · have hso : sl = Slice.other c.sl := by cases sl <;> cases hcs : c.sl <;> simp_all [Slice.other]
          rw [hso, f2]
      have hheld : Y.heldNeed (c.blk.owner c.group l) = c.st.heldNeed (c.own l) := by
        obtain ⟨hst, -⟩ := State.begin?_facts hb
        unfold State.heldNeed; rw [hY.held, hst]; rfl
      congr 1
      have hdis : r = n.toNat → Y.discards c.blk (c.pairAfter i) c.group n.toNat l
          = c.lost i r l := by
        intro hr
        subst hr
        unfold State.discards Ctx.lost
        rw [hlive, hheld, f4 _ _ hl]
        cases (c.pair.half (consumer n.toNat)).live l
        · by_cases h13 : n.toNat = 13 <;> simp [h13]
        · simp
      by_cases hr : r = n.toNat
      · rw [hdis hr]
      · simp [hr]
  | .special _ | .lit | .imm _ | .set _ =>
    have hnoop : ∀ (ls : List Nat) (u : State),
        ls.foldl (fun s l => s.writeDst c.place c.group c.sl c.f.dst wide l (v l)) u = u := by
      intro ls
      induction ls with
      | nil => intro u; rfl
      | cons a r ih => intro u; rw [List.foldl_cons, ih]; simp [State.writeDst, hdst]
    have e : c.writeAll wide v (c.commit i) = Y.withPair c.place c.blk c.group (c.pairAfter i) := by
      rw [← eY]
      have := hnoop c.act (c.commit i)
      unfold Ctx.writeAll
      simp only [hdst] at this ⊢
      exact this
    refine ⟨Y, _, hY, e, ⟨rfl, rfl, fun _ => rfl, fun _ _ => rfl, rfl⟩, ?_⟩
    intro Z h' g1 g2 g3
    refine ⟨hpred _ _ _ (hlane _ _ g3), ?_⟩
    simp only [hdst]
    exact ⟨hregs _ _ _ g1, huni _ _ _ g2, hpops _ _ _ (fun _ _ _ => rfl)⟩

/-- A predicate result after the commit of an issue. -/
theorem Ctx.writePred_form {i : Instr} {s : State} {c : Ctx} (hb : s.begin? i = some c) (hw : c.w ≤ 64) {n : BitVec 7}
    (hdst : c.f.dst = .reg n) (v : Nat → Bool) :
    ∃ Y q, CoreStep c.core s Y ∧ c.writePred v (c.commit i) = Y.withPair c.place c.blk c.group q ∧ ResultsOnly c i q
      ∧ ∀ (Z : State) (h' : Half), h'.regs = (q.half c.sl).regs → h'.uni = (q.half c.sl).uni → h'.lanes = (q.half c.sl).lanes →
          c.wrotePred i n v (Z.withPair c.place c.blk c.group (q.setHalf c.sl h')) := by
  obtain ⟨hn, hap, hlt, -⟩ := Ctx.act_facts hb
  obtain ⟨Y, hY, eY⟩ := Ctx.commit_form hb
  obtain ⟨r1, r2, r3, r4⟩ := Ctx.pairAfter_half hb hw
  obtain ⟨f1, f2, f3, f4⟩ := Ctx.pairAfter_facts hb hw
  obtain ⟨w1, w2, w3, w4⟩ := Half.fold_setPred n.toNat v c.act hn ((c.pairAfter i).half c.sl)
  have e : c.writePred v (c.commit i) = Y.withPair c.place c.blk c.group ((c.pairAfter i).setHalf c.sl
      (c.act.foldl (fun h l => h.setPred l n.toNat (v l)) ((c.pairAfter i).half c.sl))) := by
    rw [eY]; unfold Ctx.writePred; simp only [hdst, State.mapHalf_withPair]
  refine ⟨Y, _, hY, e, ⟨?_, ?_, ?_, ?_, ?_⟩, ?_⟩
  · cases c.sl <;> rfl
  · rw [Pair.half_setHalf_ne _ _ (by cases c.sl <;> simp [Slice.other])]
  · intro l; rw [Pair.half_setHalf]; exact w2 l
  · intro l hl; rw [Pair.half_setHalf]; exact w3 l (fun h => hl (hap l h))
  · rw [Pair.half_setHalf]
    exact congrArg (fun x : Half => ({ x with regs := [], uni := [] } : Half)) w4
  · intro Z h' g1 g2 g3
    rw [Pair.half_setHalf] at g1 g2 g3
    have hl' : ∀ l, h'.lane l = (c.act.foldl (fun h l => h.setPred l n.toNat (v l)) ((c.pairAfter i).half c.sl)).lane l := by
      intro l; simp [Half.lane, g3]
    refine ⟨?_, ?_, ?_, ?_⟩
    · intro l k' hk
      have := w1 l k' hk
      simp only [Ctx.halfIn, State.pair_withPair, Pair.half_setHalf, hl']
      refine this.trans ?_
      unfold Lane.pred; rw [r3]
    · intro l m
      rw [← r1 l m]
      simp [Ctx.halfIn, Half.reg, g1, (Half.of_lanes w4).1]
    · intro m
      rw [← r2 m]
      simp [Ctx.halfIn, Half.ureg, g2, (Half.of_lanes w4).2.1]
    · intro r l hl
      rw [State.pair_withPair, Pair.queue_setHalf, Pair.queue_setHalf, f4 r l hl]

/-- An issue whose own part only delivers values: it answers a next state with the values delivered, the path advanced and
everything else kept. -/
theorem wrote_of_clear {i : Instr} {s : State} {c : Ctx} (h : Clear i s c) (wide : Bool) (hd : c.evenDst wide) (v : Nat → DWord) :
    ∃ t, c.conclude i (.done (c.writeAll wide v (c.commit i))) = .next t
      ∧ Kept c t ∧ Advanced c t ∧ c.setsKept t ∧ c.wrote i wide v t := by
  obtain ⟨hb, -, hw⟩ := h
  obtain ⟨Y, q, hY, e, ho, hv⟩ := Ctx.writeAll_form hb hw wide hd v
  obtain ⟨Y', k, hY', et⟩ := Ctx.finish_form c i (q := q) hY
  obtain ⟨h1, h2⟩ := ho.kept hb hw (Y := Y') k
  exact ⟨_, by rw [e]; exact et, Kept.of_form hb hY' _, h1, h2, hv _ _ rfl rfl rfl⟩

/-- The same with `%collstat` written after it (R54). -/
theorem wroteGroup_of_clear {i : Instr} {s : State} {c : Ctx} (h : Clear i s c) (wide : Bool) (hd : c.evenDst wide) (v : Nat → DWord)
    (m : DWord) :
    ∃ t, c.conclude i (.done (c.putCollstat m (c.writeAll wide v (c.commit i)))) = .next t
      ∧ Kept c t ∧ Advanced c t ∧ c.setsAnd m t ∧ c.wrote i wide v t := by
  obtain ⟨hb, -, hw⟩ := h
  obtain ⟨Y, q, hY, e, ho, hv⟩ := Ctx.writeAll_form hb hw wide hd v
  obtain ⟨Y', k, hY', et⟩ := Ctx.finish_form c i (q := q.setHalf c.sl { q.half c.sl with collstat := m }) hY
  obtain ⟨h1, h2⟩ := ho.advanced hb hw (Y := Y') k m
  refine ⟨_, by rw [e]; unfold Ctx.putCollstat; rw [State.mapHalf_withPair]; exact et, Kept.of_form hb hY' _, ?_⟩
  have e2 : (q.setHalf c.sl { q.half c.sl with collstat := m }).setHalf c.sl
      { (q.setHalf c.sl { q.half c.sl with collstat := m }).half c.sl with ctl := k }
      = q.setHalf c.sl { q.half c.sl with ctl := k, collstat := m } := by cases c.sl <;> rfl
  rw [e2]
  exact ⟨h1, h2, hv _ _ rfl rfl rfl⟩

/-- The same for a predicate result. -/
theorem wrotePred_of_clear {i : Instr} {s : State} {c : Ctx} (h : Clear i s c) {n : BitVec 7} (hdst : c.f.dst = .reg n)
    (v : Nat → Bool) :
    ∃ t, c.conclude i (.done (c.writePred v (c.commit i))) = .next t
      ∧ Kept c t ∧ Advanced c t ∧ c.setsKept t ∧ c.wrotePred i n v t := by
  obtain ⟨hb, -, hw⟩ := h
  obtain ⟨Y, q, hY, e, ho, hv⟩ := Ctx.writePred_form hb hw hdst v
  obtain ⟨Y', k, hY', et⟩ := Ctx.finish_form c i (q := q) hY
  obtain ⟨h1, h2⟩ := ho.kept hb hw (Y := Y') k
  exact ⟨_, by rw [e]; exact et, Kept.of_form hb hY' _, h1, h2, hv _ _ rfl rfl rfl⟩

/-- The same for a predicate result with `%collstat`. -/
theorem wrotePredGroup_of_clear {i : Instr} {s : State} {c : Ctx} (h : Clear i s c) {n : BitVec 7} (hdst : c.f.dst = .reg n)
    (v : Nat → Bool) (m : DWord) :
    ∃ t, c.conclude i (.done (c.putCollstat m (c.writePred v (c.commit i)))) = .next t
      ∧ Kept c t ∧ Advanced c t ∧ c.setsAnd m t ∧ c.wrotePred i n v t := by
  obtain ⟨hb, -, hw⟩ := h
  obtain ⟨Y, q, hY, e, ho, hv⟩ := Ctx.writePred_form hb hw hdst v
  obtain ⟨Y', k, hY', et⟩ := Ctx.finish_form c i (q := q.setHalf c.sl { q.half c.sl with collstat := m }) hY
  obtain ⟨h1, h2⟩ := ho.advanced hb hw (Y := Y') k m
  refine ⟨_, by rw [e]; unfold Ctx.putCollstat; rw [State.mapHalf_withPair]; exact et, Kept.of_form hb hY' _, ?_⟩
  have e2 : (q.setHalf c.sl { q.half c.sl with collstat := m }).setHalf c.sl
      { (q.setHalf c.sl { q.half c.sl with collstat := m }).half c.sl with ctl := k }
      = q.setHalf c.sl { q.half c.sl with ctl := k, collstat := m } := by cases c.sl <;> rfl
  rw [e2]
  exact ⟨h1, h2, hv _ _ rfl rfl rfl⟩

/-! ### Issues that only move lanes -/

/-- An issue whose own part changes lanes of the path, and the issue control, of the half. -/
theorem moved_of_clear {i : Instr} {s : State} {c : Ctx} (h : Clear i s c) (F : Half → Half) (lane : Nat → Lane)
    (h1 : ∀ x : Half, ({ F x with lanes := [], ctl := {} } : Half) = { x with lanes := [], ctl := {} })
    (h2 : ∀ x : Half, (∀ l ∈ c.path, (x.lane l).standsAs (c.next l)) → ∀ l ∈ c.path, ((F x).lane l).standsAs (lane l))
    (h3 : ∀ (x : Half) l, ((F x).lane l).preds = (x.lane l).preds)
    (h4 : ∀ (x : Half) l, l ∉ c.path → (F x).lane l = x.lane l) :
    ∃ t, c.conclude i (.done ((c.commit i).mapHalf c.place c.group c.sl F)) = .next t
      ∧ Kept c t ∧ Moved c lane t ∧ c.quiet i t := by
  obtain ⟨hb, -, hw⟩ := h
  obtain ⟨Y, hY, eY⟩ := Ctx.commit_form hb
  obtain ⟨r1, r2, r3, r4⟩ := Ctx.pairAfter_half hb hw
  obtain ⟨f1, f2, f3, f4⟩ := Ctx.pairAfter_facts hb hw
  obtain ⟨a1, a2⟩ := Ctx.advance_frame hb c.half
  have e : (c.commit i).mapHalf c.place c.group c.sl F = Y.withPair c.place c.blk c.group ((c.pairAfter i).setHalf c.sl
      (F ((c.pairAfter i).half c.sl))) := by rw [eY, State.mapHalf_withPair]
  obtain ⟨Y', k, hY', et⟩ := Ctx.finish_form c i (q := (c.pairAfter i).setHalf c.sl (F ((c.pairAfter i).half c.sl))) hY
  rw [Pair.half_setHalf] at et
  have e2 : ((c.pairAfter i).setHalf c.sl (F ((c.pairAfter i).half c.sl))).setHalf c.sl { F ((c.pairAfter i).half c.sl) with ctl := k }
      = (c.pairAfter i).setHalf c.sl { F ((c.pairAfter i).half c.sl) with ctl := k } := by cases c.sl <;> rfl
  rw [e2] at et
  have hf := h1 ((c.pairAfter i).half c.sl)
  have g : (F ((c.pairAfter i).half c.sl)).regs = ((c.pairAfter i).half c.sl).regs
      ∧ (F ((c.pairAfter i).half c.sl)).uni = ((c.pairAfter i).half c.sl).uni
      ∧ (F ((c.pairAfter i).half c.sl)).sets = ((c.pairAfter i).half c.sl).sets
      ∧ (F ((c.pairAfter i).half c.sl)).collstat = ((c.pairAfter i).half c.sl).collstat
      ∧ (F ((c.pairAfter i).half c.sl)).timer = ((c.pairAfter i).half c.sl).timer := by
    generalize F ((c.pairAfter i).half c.sl) = x at hf ⊢
    generalize (c.pairAfter i).half c.sl = y at hf ⊢
    cases x; cases y; simp at hf; simp [hf]
  have s1 : (c.advance i c.half).sets = c.half.sets := by simpa using congrArg Half.sets a2
  have s2 : (c.advance i c.half).collstat = c.half.collstat := by simpa using congrArg Half.collstat a2
  have s3 : (c.advance i c.half).timer = c.half.timer := by simpa using congrArg Half.timer a2
  have hl : ∀ l, (c.halfIn (Y'.withPair c.place c.blk c.group
      ((c.pairAfter i).setHalf c.sl { F ((c.pairAfter i).half c.sl) with ctl := k }))).lane l
      = (F ((c.pairAfter i).half c.sl)).lane l := by
    intro l; simp [Ctx.halfIn, Half.lane]
  refine ⟨_, by rw [e]; exact et, Kept.of_form hb hY' _, ⟨?_, ?_, ?_, ?_⟩, ⟨?_, ?_, ?_⟩, ?_, ?_, ?_, ?_⟩
  · rw [State.pair_withPair]
    refine Eq.trans ?_ f1
    cases c.sl <;> rfl
  · rw [State.pair_withPair, Pair.half_setHalf_ne _ _ (by cases c.sl <;> simp [Slice.other]), f2]
  · intro l hp
    rw [hl]
    refine h2 _ (fun l hp => ?_) l hp
    rw [f3, a1 l, if_pos hp]
    exact ⟨rfl, rfl, rfl, rfl, rfl⟩
  · intro l hp
    rw [hl, h4 _ _ hp, f3, a1 l, if_neg hp]
  · simp only [Ctx.halfIn, State.pair_withPair, Pair.half_setHalf]
    rw [g.2.2.1, f3, s1]
  · simp only [Ctx.halfIn, State.pair_withPair, Pair.half_setHalf]
    rw [g.2.2.2.1, f3, s2]
  · simp only [Ctx.halfIn, State.pair_withPair, Pair.half_setHalf]
    rw [g.2.2.2.2, f3, s3]
  · intro l n
    rw [← r1 l n]
    simp [Ctx.halfIn, Half.reg, g.1]
  · intro n
    rw [← r2 n]
    simp [Ctx.halfIn, Half.ureg, g.2.1]
  · intro l n
    unfold Lane.pred
    rw [hl, h3, r3]
  · intro r l hl'
    rw [State.pair_withPair, Pair.queue_setHalf, f4 r l hl']

end Sys2Proof.Machine
end

