-- ==== Sys2Proof/Laws/Translation.lean ====
section
/-! SUPPORT. A translation answers at once where nothing keeps the table entries (R265, R270). -/

namespace Sys2Proof.Machine
open Sys2Proof

/-- The checks of R368 answer at once. -/
theorem leafCheck_ready (r : PartRec) (c : TCtx) (rd wr : Bool) (va : DWord) (t : Tlb) : leafCheck r c rd wr va t ≠ .wait := by
  unfold leafCheck
  repeat' split
  all_goals simp

/-- A walk keeps waiting only for an entry that something keeps. -/
theorem State.walkFrom_ready {s : State} {kept : Nat → Bool} (h : ∀ a, kept a = false) (c : TCtx) (rd wr : Bool) (va : DWord)
    (n table : Nat) : s.walkFrom kept c rd wr va n table ≠ .wait := by
  induction n generalizing table with
  | zero => simp [State.walkFrom]
  | succ n ih =>
    unfold State.walkFrom
    simp only [h]
    repeat' split
    all_goals first | exact leafCheck_ready _ _ _ _ _ _ | exact ih _ | simp_all

/-- A translation waits only where a store or an engine keeps a table entry. -/
theorem State.translate_ready {s : State} (h : ∀ a, s.tableKept none a = false) (c : TCtx) (rd wr : Bool) (va : DWord) :
    s.translate c rd wr va ≠ .wait := by
  unfold State.translate State.translateBy
  repeat' split
  all_goals first | exact leafCheck_ready _ _ _ _ _ _ | exact walkFrom_ready h _ _ _ _ _ _ | simp

end Sys2Proof.Machine
end

