-- ==== Sys2Proof/Laws/Values.lean ====
section
/-! SUPPORT. The values of the integer and logic instructions: the model's arithmetic on numbers and the bit vectors of the
statements agree. -/

namespace Sys2Proof.Machine
open Sys2Proof

theorem tyWidth_pos (t : Ty) : 0 < tyWidth t := by cases t <;> decide

theorem Ctx.bits_eq (c : Ctx) (o : Operand) (l : Nat) : c.bits o l = (c.bv o l).toNat := by simp [Ctx.bits, Ctx.bv]

theorem Ctx.int_eq (c : Ctx) (o : Operand) (l : Nat) : c.int o l = c.asInt o l := by
  have hw := tyWidth_pos c.f.ty
  have hp : 2 * 2 ^ (tyWidth c.f.ty - 1) = 2 ^ tyWidth c.f.ty := by
    rw [← Nat.pow_succ']; congr 1; omega
  unfold Ctx.int readInt Ctx.asInt
  have e : (c.src c.f.ty o l).toNat % 2 ^ tyWidth c.f.ty = (c.bv o l).toNat := by simp [Ctx.bv]
  simp only [e]
  cases hs : isSigned c.f.ty
  · simp
  · simp only [true_and, ↓reduceIte, BitVec.toInt_eq_toNat_cond]
    split <;> split <;> first | rfl | omega

theorem ofNat_wrap (w : Nat) (x : Int) : BitVec.ofNat 64 (wrap w x) = ofBits (BitVec.ofInt w x) := by
  apply BitVec.eq_of_toNat_eq
  simp [wrap, ofBits, BitVec.toNat_ofInt]

/-- The types of the arithmetic rows of R125. -/
theorem intResult_eq (c : Ctx) (h : c.f.ty ∈ tyInt) (x : Int) : intResult c.f.ty c.f.sat x = c.result x := by
  unfold intResult Ctx.result Ctx.wrapped
  rw [ofNat_wrap]
  congr 2
  have : clampInt c.f.ty x = c.limited x := by
    unfold clampInt Ctx.limited
    simp only [tyInt, List.mem_cons, List.not_mem_nil, or_false] at h
    rcases h with h | h | h | h <;> rw [h] <;> rfl
  rw [this]

theorem ofNat_bits (c : Ctx) (o : Operand) (l : Nat) : BitVec.ofNat 64 (c.bits o l) = ofBits (c.bv o l) := by
  rw [Ctx.bits_eq]; apply BitVec.eq_of_toNat_eq; simp [ofBits]

/-! ### What legality says of the fields -/

theorem Clear.row {i : Instr} {s : State} {c : Ctx} {g : Sig} {f : Ext} (hs : sig? i = some (g, f)) (h : Clear i s c) :
    c.f = f ∧ f.ty ∈ g.tys ∧ (g.sat = false → f.sat = false) ∧ (g.modes = false → f.rnd = .rne) ∧ (g.fz = false → f.fz = false) := by
  have hl := h.isLegal
  obtain ⟨hb, -, -⟩ := h
  obtain ⟨-, -, hf, -⟩ := State.begin?_facts hb
  simp only [legal, hs, extOk, Bool.and_eq_true, Bool.or_eq_true, decide_eq_true_eq, Bool.not_eq_true'] at hl
  refine ⟨by simp [hf, ext?, hs], hl.1.1.1.1.1.1.1.1.1.1.1.1.1.1.1.2, fun e => ?_, fun e => ?_, fun e => ?_⟩
  · simpa [e] using hl.1.1.1.1.1.2
  · simpa [e] using hl.1.1.1.1.1.1.2
  · simpa [e] using hl.1.1.1.1.2

theorem Clear.baseRow {i : Instr} {s : State} {c : Ctx} {g : BaseSig} {f : Base} (hs : sig? i = none) (hb : base? i = some (g, f))
    (h : Clear i s c) : c.f = baseExt g f ∧ (g.uns = false → f.uns = false) := by
  have hl := h.isLegal
  obtain ⟨hb', -, -⟩ := h
  obtain ⟨-, -, hf, -⟩ := State.begin?_facts hb'
  simp only [legal, hs, hb, baseOk, Bool.and_eq_true, Bool.or_eq_true, Bool.not_eq_true'] at hl
  exact ⟨by simp [hf, ext?, hs, hb], fun e => by simpa [e] using hl.1.1⟩

/-! ### Completion from the own part of an instruction -/

theorem Yields.of {i : Instr} {wide : Ctx → Bool} {v : Ctx → Nat → DWord} (body : Ctx → State → Act)
    (he : ∀ s, exec i s = issue i body s)
    (hv : ∀ s c, Clear i s c → ∀ u, body c u = .done (c.writeAll (wide c) (v c) u)) : Yields i wide v := by
  intro s c h hd
  obtain ⟨t, e, r⟩ := wrote_of_clear h (wide c) hd (v c)
  exact ⟨t, by rw [he, issue_clear h, hv s c h]; exact e, r⟩

theorem YieldsPred.of {i : Instr} {v : Ctx → Nat → Bool} (body : Ctx → State → Act) (he : ∀ s, exec i s = issue i body s)
    (hv : ∀ s c, Clear i s c → ∀ u, body c u = .done (c.writePred (v c) u)) : YieldsPred i v := by
  intro s c n h hd
  obtain ⟨t, e, r⟩ := wrotePred_of_clear h hd (v c)
  exact ⟨t, by rw [he, issue_clear h, hv s c h]; exact e, r⟩

theorem YieldsQuad.of {i : Instr} {v : Ctx → Nat → DWord} (body : Ctx → State → Act) (he : ∀ s, exec i s = issueMeet true i body s)
    (hv : ∀ s c, Clear i s c → ∀ u, body c u = .done (c.writeAll (isWide c.f.ty) (v c) u)) : YieldsQuad i v := by
  intro s c h hd
  have hm := h
  obtain ⟨c0, -, -, -, hc⟩ := h
  obtain ⟨t, e, r⟩ := wrote_of_clear hc _ hd (v c)
  exact ⟨t, by rw [he, issueMeet_clear hm, hv _ c hc]; exact e, r⟩

theorem YieldsGroup.of {i : Instr} {wide : Ctx → Bool} {v : Ctx → Nat → DWord} {mask : Ctx → DWord} (body : Ctx → State → Act)
    (he : ∀ s, exec i s = issueMeet false i body s)
    (hv : ∀ s c, Clear i s c → ∀ u, body c u = .done (c.putCollstat (mask c) (c.writeAll (wide c) (v c) u))) :
    YieldsGroup i wide v mask := by
  intro s c h hd
  have hm := h
  obtain ⟨c0, -, -, -, hc⟩ := h
  obtain ⟨t, e, r⟩ := wroteGroup_of_clear hc _ hd (v c) (mask c)
  exact ⟨t, by rw [he, issueMeet_clear hm, hv _ c hc]; exact e, r⟩

theorem YieldsVote.of {i : Instr} {v : Ctx → Bool} {mask : Ctx → DWord} (body : Ctx → State → Act)
    (he : ∀ s, exec i s = issueMeet false i body s)
    (hv : ∀ s c, Clear i s c → ∀ u, body c u = .done (c.putCollstat (mask c) (c.writePred (fun _ => v c) u))) :
    YieldsVote i v mask := by
  intro s c n h hd
  have hm := h
  obtain ⟨c0, -, -, -, hc⟩ := h
  obtain ⟨t, e, r⟩ := wrotePredGroup_of_clear hc hd (fun _ => v c) (mask c)
  exact ⟨t, by rw [he, issueMeet_clear hm, hv _ c hc]; exact e, r⟩

end Sys2Proof.Machine
end

