-- ==== Sys2Proof/Tests/Slice0.lean ====
section
/-! SUPPORT. The model's own tests: words of the manual's examples, ill-formed instructions for each check of an encoding, the
manual's worked results, and for each statement with hypotheses a state and operands that meet them. -/

namespace Sys2Proof.Tests
open Sys2Proof Sys2Proof.Machine
set_option Elab.async false

/-! ### Encodings: the words of the manual's own examples (R2, R85 to R96, R105) -/

def acc (ws : List Word) (i : Instr) : Bool := decide ((decodeWords .access ws).toOption = some (i, 4 * ws.length))
def exe (ws : List Word) (i : Instr) : Bool := decide ((decodeWords .execute ws).toOption = some (i, 4 * ws.length))

/-- 05_encoding_and_assembly.md: `add y5, y3, s2`; `mov x4, 0x1234_5678`; `nop`. -/
theorem test_decode_base : acc [0x0c831400] (.addBase { d := 5, a := 3, b := 50 }) = true
    ∧ exe [0x000010ba, 0x12345678, 0] (.movBase { d := 4, lit := some 0x12345678 }) = true
    ∧ exe [0x00000318] (.nopBase {}) = true := by decide +kernel

/-- 13_program_linked_list.md: `shl.b32 y12, q14, 3`; 06_isa_compute.md: `cmp.lt.i32 p2, x4, 10`. -/
theorem test_decode_integer :
    acc [0x00600069, 0x0003070e, 0x00090000] (.shl { dst := .reg 12, a := .queue 14, b := .imm 3, ty := .b32 }) = true
    ∧ exe [0x001008b1, 0x00031404, 0x00030000] (.cmp .lt { dst := .reg 2, a := .reg 4, b := .imm 10, ty := .i32 }) = true := by
  decide +kernel

/-- 05: `[p1 & !p2] fma.f32.rz x8, x9, q0, x10 ahead 3`; 17_program_layer_norm.md: `div.f32`, `rsq.f32`; 06: word 0 of `cvt.e4m3.f32`. -/
theorem test_decode_float :
    exe [0x30400119, 0x082a0009, 0x00511400]
      (.fma { ahead := 3, dst := .reg 8, a := .reg 9, b := .queue 0, c := .reg 10, g0 := 1, g1 := 10, ty := .f32, rnd := .rz }) = true
    ∧ exe [0x00a80171, 0x00000410, 0x00110000] (.div { dst := .reg 21, a := .reg 16, b := .reg 2, ty := .f32 }) = true
    ∧ exe [0x00300161, 0x00000005, 0x00110000] (.rsq { dst := .reg 6, a := .reg 5, ty := .f32 }) = true
    ∧ exe [0x000045c1, 0, 0x00150000] (.cvt .f32 { ty := .e4m3 }) = true := by decide +kernel

/-- 17: `qswap.v`, `shfl.xor`; 06: `[p1] red.add.f32`; 14_program_sparse_convolution.md: `vote.any`. -/
theorem test_decode_cross_lane : exe [0x00500601, 0x00000002, 0x00090000] (.qswapV { dst := .reg 10, a := .reg 2, ty := .b32 }) = true
    ∧ exe [0x00500e19, 0x00001202, 0x00090000] (.shfl .xor { dst := .reg 10, a := .reg 2, b := .reg 9, ty := .b32 }) = true
    ∧ exe [0x00a00229, 0x08000007, 0x00110000] (.red .add { dst := .reg 20, a := .reg 7, g0 := 1, ty := .f32 }) = true
    ∧ exe [0x00200221, 0x00000003, 0] (.voteAny { dst := .reg 4, a := .reg 3 }) = true := by decide +kernel

/-- 07_isa_control_divergence.md: `[p3] bra`, `join.init j1, -1`, `join.wait j1`; 13: `[!p1] bra next`, `br.q q12, node`. -/
theorem test_decode_control : exe [0x000002c1, 0x180001e8, 0] (.bra { a := .imm (-24), g0 := 3 }) = true
    ∧ exe [0x000002f1, 0x0003ff11, 0] (.joinInit { a := .set 1, b := .imm (-1) }) = true
    ∧ exe [0x00000ef1, 0x00000111, 0] (.joinWait { a := .set 1 }) = true
    ∧ exe [0x000002c3, 0x4800017f, 0, 0xffffffb8, 0] (.bra { a := .lit, g0 := 9, lit := some 0xffffffb8 }) = true
    ∧ exe [0x000002c9, 0x0003410c, 0] (.brQ { a := .queue 12, b := .imm 32 }) = true := by decide +kernel

/-- 08_isa_memory_queues_engines.md: `ld.q`, `st`; 13: `ld.y.b64 ahead 1`, `qflush q12`; 15_program_beam_search.md: `stream`. -/
theorem test_decode_memory :
    acc [0x08000341, 0x00032004, 0x00090000] (.ldQ { dst := .queue 0, a := .reg 4, b := .imm 16, ty := .b32 }) = true
    ∧ acc [0x00000351, 0x04370006, 0x00090000] (.st { a := .reg 6, b := .imm 0, c := .queue 13, ty := .b32 }) = true
    ∧ acc [0x10400741, 0x00031006, 0x000a0000] (.ldY { ahead := 1, dst := .reg 8, a := .reg 6, b := .imm 8, ty := .b64 }) = true
    ∧ acc [0x00000361, 0x0000010c, 0] (.qflush { a := .queue 12 }) = true
    ∧ acc [0x08100349, 0x000000ac, 0x00090000] (.stream { dst := .queue 2, a := .uni 44, ty := .b32 }) = true := by decide +kernel

/-- 15: two atomics; 17: `bar.init.sp`, `bar.arrive.sp.nr`, `bar.wait.sp.nr`; 14: `copy.async.s2g.ch0`. -/
theorem test_decode_sync :
    acc [0x00000371, 0x26070020, 0x18070000] (.atom .add { a := .reg 32, b := .imm 0, c := .imm 1, g0 := 4, ty := .n32, mods := 6 }) = true
    ∧ acc [0x00380371, 0x27ff002c, 0x20070000]
      (.atom .add { dst := .reg 7, a := .reg 44, b := .imm 0, c := .imm (-1), g0 := 4, ty := .n32, mods := 8 }) = true
    ∧ acc [0x000003e1, 0x260b00a8, 0x04000000] (.barInit { a := .uni 40, b := .imm 0, c := .imm 2, g0 := 4, mods := 1 }) = true
    ∧ acc [0x000007e1, 0x1e0700a8, 0x0c000000] (.barArrive { a := .uni 40, b := .imm 0, c := .imm 1, g0 := 3, mods := 3 }) = true
    ∧ acc [0x00000be1, 0x060300a8, 0x0c000000] (.barWait { a := .uni 40, b := .imm 0, c := .imm 0, mods := 3 }) = true
    ∧ acc [0x000003eb, 0x2dfc301c, 0x20000000, 0x40, 0]
      (.copyAsync { a := .reg 28, b := .reg 24, c := .lit, g0 := 5, mods := 8, lit := some 0x40 }) = true := by decide +kernel

/-- 12_regions_and_device_launch.md: `post`; 16_program_expert_launch.md: `post.cnt.nr`, `seal`; 09_isa_matrix.md: `mma.ovw`;
18_privileged_state.md: `ctxsave.free`; 24_partitions_and_security.md: `fwcall`. -/
theorem test_decode_system : acc [0x00a087e9, 0x00001086, 0] (.post { dst := .reg 20, a := .uni 6, b := .reg 8 }) = true
    ∧ acc [0x000087e9, 0x3078229c, 0x0c000000] (.postCnt { a := .uni 28, b := .reg 17, c := .reg 30, g0 := 6, mods := 3 }) = true
    ∧ acc [0x00b88be9, 0x3800009e, 0] (.seal { dst := .reg 23, a := .uni 30, g0 := 7 }) = true
    ∧ exe [0x000003c1, 0x0011188a, 0x04000089] (.mma { a := .uni 10, b := .uni 12, c := .reg 4, d := .uni 9, mods := 1 }) = true
    ∧ exe [0x00101bf1, 0x02210c84, 0x04000000] (.ctxsaveFree { dst := .reg 2, a := .uni 4, b := .uni 6, c := .uni 8, mods := 1 }) = true
    ∧ exe [0x00102bf1, 0x00010d90, 0] (.fwcall { dst := .reg 2, a := .imm 16, b := .uni 6 }) = true := by decide +kernel

/-- R106: the all-ones word, a base `nop` with a register field, an unassigned minor and an access row in the execute slice. -/
theorem test_decode_refuses : (decodeWords .execute [0xffffffff]).toOption = none ∧ (decodeWords .execute [0x00000718]).toOption = none
    ∧ (decodeWords .execute [0x00001f01, 0, 0]).toOption = none
    ∧ (decodeWords .execute [0x08000341, 0x00032004, 0x00090000]).toOption = none := by decide +kernel

/-- R2: in memory `mov x4, 0x1234_5678` is the bytes ba 10 00 00 78 56 34 12 00 00 00 00 (05). -/
theorem test_encode_bytes : bytesOfWords (encode (.movBase { d := 4, lit := some 0x12345678 }))
    = [0xba, 0x10, 0, 0, 0x78, 0x56, 0x34, 0x12, 0, 0, 0, 0] := by decide +kernel

/-! ### Ill-formed instructions: one for each check (R86 to R96, R102, R105) -/

/-- A well-formed instruction, and one bit of it that each check refuses. -/
def ok : Ext := { dst := .reg 1, a := .reg 2, b := .reg 3, ty := .i32 }

theorem test_wellformed : WellFormed .execute (.add ok) = true ∧ WellFormed .access (.add ok) = true
    ∧ WellFormed .execute (.addBase { d := 1, a := 2, b := 3 }) = true := by decide +kernel
/-- Slice, TYPE, guard, rounding mode, `.sat`, `.fz`, HINT, MOD and AHEAD where the row has none (R92 to R96, R102). -/
theorem test_illformed_fields : WellFormed .execute (.ldY { dst := .reg 2, a := .reg 4, b := .imm 0, ty := .b32 }) = false
    ∧ WellFormed .access (.fadd { ok with ty := .f32 }) = false ∧ WellFormed .execute (.add { ok with ty := .f32 }) = false
    ∧ WellFormed .execute (.add { ok with g0 := 8 }) = false ∧ WellFormed .execute (.add { ok with g1 := 8 }) = false
    ∧ WellFormed .execute (.add { ok with rnd := .rz }) = false ∧ WellFormed .execute (.mulLo { ok with sat := true }) = false
    ∧ WellFormed .execute (.add { ok with fz := true }) = false ∧ WellFormed .execute (.add { ok with hint := .keep }) = false
    ∧ WellFormed .execute (.add { ok with mods := 1 }) = false
    ∧ WellFormed .execute (.bra { a := .imm 4, ahead := 1 }) = false := by decide +kernel
/-- Reserved positions, operand classes, register ranges, queues and directions, special registers, immediates, literals (R87 to R91,
R47, R120). -/
theorem test_illformed_operands : WellFormed .execute (.add { ok with c := .reg 1 }) = false
    ∧ WellFormed .execute (.add { ok with a := .set 1 }) = false ∧ WellFormed .access (.add { ok with a := .reg 64 }) = false
    ∧ WellFormed .execute (.add { ok with a := .queue 13 }) = false ∧ WellFormed .execute (.add { ok with dst := .queue 0 }) = false
    ∧ WellFormed .execute (.add { ok with a := .special 0x31 }) = false ∧ WellFormed .execute (.dot2 { ok with ty := .f16x2, a := .imm 1 }) = false
    ∧ WellFormed .execute (.add { ok with a := .lit }) = false ∧ WellFormed .execute (.add { ok with lit := some 1 }) = false
    ∧ WellFormed .execute (.add { ok with a := .lit, lit := some 0x100000000 }) = false
    ∧ WellFormed .execute (.pand { dst := .reg 8, a := .reg 1, b := .reg 1 }) = false := by decide +kernel
/-- Base words: UNS, reserved fields, literal bits above 32 (R86, R87). -/
theorem test_illformed_base : WellFormed .execute (.addBase { uns := true }) = false ∧ WellFormed .execute (.absBase { b := 1 }) = false
    ∧ WellFormed .execute (.nopBase { d := 1 }) = false ∧ WellFormed .execute (.movBase { a := 1, lit := some 1 }) = false
    ∧ WellFormed .execute (.movBase { lit := some 0x100000000 }) = false := by decide +kernel
/-- The steps without an encoding are no instructions of a slice. -/
theorem test_illformed_steps : WellFormed .execute .reset = false ∧ WellFormed .access (.packetTake 0) = false := by decide +kernel

/-! ### A small machine: one block, one group of W = 8 with two lanes, user mode unless said otherwise -/

def lane1 : Lane := { life := .live, preds := 3 }
/-- Lanes 0 and 1, `p1` false in lane 1; `r4:r5`, `s4:s5` and `r8`, `r9` of each lane hold values. -/
def half0 : Half :=
  { lanes := [(0, lane1), (1, { lane1 with preds := 1 })]
    regs := [(4, 0x1000), (8, 7), (9, 3), (132, 0x1004), (136, 9), (137, 4)], uni := [(4, 0x40), (6, 0x1000)] }
def kern (m : Mode) : Kernel :=
  let decl : Decl := { width := 8, nx := 48, ny := 48, ureg := 48, tiles := 4, lanes := 2, scratch := 4096, depths := List.replicate 14 8 }
  { mode := m, decl, asize := 64, xsize := 64 }
/-- A page of device memory, mapped to partition 0's granule. -/
def page : Tlb := { page := 1, frame := 0x100000, r := true, w := true, u := true }
def block0 (m : Mode) (h : Half) (p : Pair) : Block := { kernel := kern m, pairs := [(0, { p with live := true, acc := h, exe := h })] }
def unit (m : Mode) (sl : Slice) (h : Half) (p : Pair) : State :=
  { sec := .run, cur := { sl }, blocks := [(0, block0 m h p)], tlb := [page], parts := [(0, { valid := true, clusters := 1, memmap := [0] })] }
/-- The machine with one lane, whose registers are given. -/
def one (sl : Slice) (regs : SMap Word) : State := unit .user sl { half0 with lanes := [(0, lane1)], regs } {}
def after (i : Instr) (s : State) : State :=
  match exec i s with
  | .next t => t
  | _ => s
def xreg (t : State) (l n : Nat) : Word := (t.pair 0 0).exe.reg l n
def yreg (t : State) (l n : Nat) : Word := (t.pair 0 0).acc.reg l n

/-! ### Worked results of the manual -/

/-- R126: a sum wraps mod 2^32, and saturates under `.sat`; both lanes go on. -/
theorem test_add :
    let s := one .execute [(1, 0x7fffffff), (2, 1)]
    let f : Ext := { dst := .reg 3, a := .reg 1, b := .reg 2, ty := .i32 }
    xreg (after (.add f) s) 0 3 = 0x80000000 ∧ xreg (after (.add { f with sat := true }) s) 0 3 = 0x7fffffff
      ∧ ((after (.add f) s).pair 0 0).exe.lane 0 = { lane1 with pc := 12 } := by decide +kernel
/-- 06: `mul.hi` of −1 and 1. -/
theorem test_mul_hi :
    let s := one .execute [(1, 0xffffffff), (2, 1)]
    let f : Ext := { dst := .reg 3, a := .reg 1, b := .reg 2, ty := .i32 }
    xreg (after (.mulHi f) s) 0 3 = 0xffffffff ∧ xreg (after (.mulHi { f with ty := .n32 }) s) 0 3 = 0 := by decide +kernel
/-- 06: `bfx.i32 x2, x1, 4, 8` and `.n32`. -/
theorem test_bfx :
    let s := one .execute [(1, 0xa70)]
    let f : Ext := { dst := .reg 2, a := .reg 1, b := .imm 4, c := .imm 8, ty := .i32 }
    xreg (after (.bfx f) s) 0 2 = 0xffffffa7 ∧ xreg (after (.bfx { f with ty := .n32 }) s) 0 2 = 0xa7 := by decide +kernel
/-- 06: `cmp.lt` of −5 and 10, signed and unsigned. -/
theorem test_cmp :
    let s := one .execute [(4, 0xfffffffb)]
    let f : Ext := { dst := .reg 2, a := .reg 4, b := .imm 10, ty := .i32 }
    ((after (.cmp .lt f) s).pair 0 0).exe.lane 0 = { lane1 with pc := 12, preds := 7 }
      ∧ ((after (.cmp .lt { f with ty := .n32 }) s).pair 0 0).exe.lane 0 = { lane1 with pc := 12, preds := 3 } := by decide +kernel
/-- 06: `fmul.bf16x2`, to nearest and toward zero. -/
theorem test_fmul_packed :
    let s := one .execute [(1, 0x40403f81), (2, 0x3f813f81)]
    let f : Ext := { dst := .reg 3, a := .reg 1, b := .reg 2, ty := .bf16x2 }
    xreg (after (.fmul f) s) 0 3 = 0x40423f82 ∧ xreg (after (.fmul { f with rnd := .rz }) s) 0 3 = 0x40413f82 := by decide +kernel
/-- 06: `cvt.e4m3.f32` of 304.0 and 288.0. -/
theorem test_cvt :
    let s := one .execute [(1, 0x43980000), (2, 0x43900000)]
    let f : Ext := { dst := .reg 3, a := .reg 1, ty := .e4m3 }
    xreg (after (.cvt .f32 f) s) 0 3 = 0x7a ∧ xreg (after (.cvt .f32 { f with rnd := .rd }) s) 0 3 = 0x79
      ∧ xreg (after (.cvt .f32 { f with a := .reg 2 }) s) 0 3 = 0x79 := by decide +kernel
/-- 06: `dp4.i8`. -/
theorem test_dp4 : xreg (after (.dp4 { dst := .reg 4, a := .reg 1, b := .reg 2, c := .reg 3, ty := .i8 })
    (one .execute [(1, 0x7f8001ff), (2, 0x7f7f0202), (3, 10)])) 0 4 = 0xffffff8b := by decide +kernel
/-- 04_number_formats.md: `sqrt.f32` of 2.0. -/
theorem test_sqrt : xreg (after (.sqrt { dst := .reg 2, a := .reg 1, ty := .f32 }) (one .execute [(1, 0x40000000)])) 0 2 = 0x3fb504f3 := by
  decide +kernel

/-- 06: a group of eight lanes, lane 5 exited, `p1` false in lane 7. -/
def eight : State :=
  let lanes := (List.range 8).map fun l => (l, { lane1 with life := if l = 5 then .exited else .live, preds := if l = 7 then 1 else 3 })
  let vals : List Word := [0x3f800000, 0x4b800000, 0x3f800000, 0xcb800000, 0x40400000, 0, 0x3f000000, 0x42c80000]
  unit .user .execute { lanes, regs := (List.range 8).map fun l => (l * 128 + 7, vals.getD l 0) } {}
/-- 06: `[p1] red.add.f32` gives 4.5 in lanes 0 to 4 and 6, leaves lane 7, and `%collstat` names lane 5. -/
theorem test_red :
    let t := after (.red .add { dst := .reg 20, a := .reg 7, g0 := 1, ty := .f32 }) eight
    (List.range 8).map (fun l => xreg t l 20) = [0x40900000, 0x40900000, 0x40900000, 0x40900000, 0x40900000, 0, 0x40900000, 0]
      ∧ (t.pair 0 0).exe.collstat = 0x20 := by decide +kernel
/-- 06: `scan.add.f32` on the same contributions: 1, 2^24, 2^24, +0, 3 and, in lane 6, 3.5. -/
theorem test_scan :
    let t := after (.scan .add false { dst := .reg 20, a := .reg 7, g0 := 1, ty := .f32 }) eight
    (List.range 8).map (fun l => xreg t l 20) = [0x3f800000, 0x4b800000, 0x4b800000, 0, 0x40400000, 0, 0x40600000, 0] := by decide +kernel

/-- 07: `join.init j1, -1` with eight live lanes arms j1 with MEMBERS 0xff at depth 0. -/
theorem test_join_init :
    let s := unit .user .execute { lanes := (List.range 8).map fun l => (l, lane1) } {}
    ((after (.joinInit { a := .set 1, b := .imm (-1) }) s).pair 0 0).exe.set 1 = { members := 0xff, waiters := 0, depth := 0, state := jArmed } := by
  decide +kernel

/-- 12: `post.cnt` adding 5 to 0x000f_fffe returns it and leaves 0x001f_ffff; adding 1 again changes nothing. -/
theorem test_post_cnt :
    let s : State := { one .access [(4, 0x1000), (8, 5)] with mem := Memory.write [] 0x100000 [0xfe, 0xff, 0x0f, 0] }
    let t := after (.postCnt { dst := .reg 9, a := .reg 4, b := .imm 0, c := .reg 8, mods := 1 }) s
    t.mem.readNat 0x100000 4 = 0x1fffff ∧ t.outs.map (·.bytes) = [[.byte 0xfe, .byte 0xff, .byte 0x0f, .byte 0]] := by decide +kernel

/-- A block of start order 5 of a parallel launch, whose scratchpad word at 0x100 holds the given bytes, with its tag if any. -/
def barUnit (word : List Byte) (tags : List Nat) : State :=
  let b := block0 .user { half0 with lanes := [(0, lane1)], uni := [(8, 0x100)] } {}
  let b : Block := { b with start := 5, kernel := { b.kernel with decl := { b.kernel.decl with cls := .parallel } } }
  { unit .user .access {} {} with blocks := [(0, { b with scratch := Memory.write [] 0x100 word, tags })] }
/-- 08: `bar.init` of 2 leaves 0x0000_0512_0000_0002 in a word of zeros. -/
theorem test_bar_init :
    (after (.barInit { a := .uni 8, b := .imm 0, c := .imm 2, mods := 1 }) (barUnit [] [])).natAt (.sp 0 0x100) 8 = 0x0000051200000002 := by
  decide +kernel
/-- 08: the first `bar.arrive` leaves 0x0000_0512_0001_0002, the second completes the phase and leaves 0x0000_0513_0000_0002. -/
theorem test_bar_arrive :
    let i : Instr := .barArrive { a := .uni 8, b := .imm 0, c := .imm 1, mods := 3 }
    (after i (barUnit [2, 0, 0, 0, 0x12, 5] [32])).natAt (.sp 0 0x100) 8 = 0x0000051200010002
      ∧ (after i (barUnit [2, 0, 1, 0, 0x12, 5] [32])).natAt (.sp 0 0x100) 8 = 0x0000051300000002 := by decide +kernel

/-! ### Witnesses: for each statement with hypotheses, a state and operands that meet them together -/

def meets (i : Instr) (s : State) (P : Ctx → Prop) [DecidablePred P] : Bool :=
  match s.begin? i with
  | some c => c.clear i && decide (c.w ≤ 64) && decide (P c)
  | none => false
theorem clear_of_meets {i s} {P : Ctx → Prop} [DecidablePred P] (h : meets i s P = true) : ∃ c, Clear i s c ∧ P c := by
  unfold meets at h
  split at h
  · rename_i c hc
    simp only [Bool.and_eq_true, decide_eq_true_eq] at h
    exact ⟨c, ⟨hc, h.1.1, h.1.2⟩, h.2⟩
  · cases h
def joins (quad : Bool) (i : Instr) (s : State) (P : Ctx → Prop) [DecidablePred P] : Bool :=
  match s.begin? i with
  | some c => legal c.sl i && (c.gather quad).2 && meets i (c.gather quad).1 P
  | none => false
theorem meets_of_joins {quad i s} {P : Ctx → Prop} [DecidablePred P] (h : joins quad i s P = true) : ∃ c, Meets quad i s c ∧ P c := by
  unfold joins at h
  split at h
  · rename_i c hc
    simp only [Bool.and_eq_true] at h
    obtain ⟨d, hd, hp⟩ := clear_of_meets h.2
    exact ⟨d, ⟨c, hc, h.1.1, h.1.2, hd⟩, hp⟩
  · cases h
theorem even_of {c : Ctx} {n : BitVec 7} {w : Bool} (h : c.f.dst = .reg n) (he : n.toNat % 2 = 0) : c.evenDst w := by
  simp only [Ctx.evenDst, h]
  exact fun _ => he

theorem all_clear {s} {is : List Instr} {P : Ctx → Prop} [DecidablePred P] (h : is.all (fun i => meets i s P) = true) : ∀ i ∈ is, ∃ c, Clear i s c ∧ P c :=
  fun i hi => clear_of_meets (List.all_eq_true.mp h i hi)
theorem all_meet {quad s} {is : List Instr} {P : Ctx → Prop} [DecidablePred P] (h : is.all (fun i => joins quad i s P) = true) :
    ∀ i ∈ is, ∃ c, Meets quad i s c ∧ P c := fun i hi => meets_of_joins (List.all_eq_true.mp h i hi)

/-- An instruction issues with nothing in its way, some lane active, and its destination an even register. -/
def issues (i : Instr) (s : State) : Bool := meets i s fun c => c.act = [0] ∧ c.f.dst = .reg 6
theorem issues_spec {i s} (h : issues i s = true) : ∃ c, Clear i s c ∧ c.act ≠ [] ∧ ∀ w, c.evenDst w := by
  obtain ⟨c, hc, ha, hd⟩ := clear_of_meets h
  exact ⟨c, hc, by simp [ha], fun _ => even_of hd (by decide)⟩
theorem all_issue {s} {is : List Instr} (h : is.all (fun i => issues i s) = true) : ∀ i ∈ is, ∃ c, Clear i s c ∧ c.act ≠ [] ∧ ∀ w, c.evenDst w :=
  fun i hi => issues_spec (List.all_eq_true.mp h i hi)

/-- Operands of the execute slice and of the access slice; `p1` guards lane 1 off. -/
def fx (ty : Ty) : Ext := { dst := .reg 6, a := .reg 4, b := .reg 8, g0 := 1, ty }
def bx : Base := { d := 6, a := 4, b := 8 }
def X : State := one .execute [(4, 0x1000), (8, 7)]
def A : State := one .access [(4, 0x1000), (8, 7)]
def X2 (m : Mode) : State := unit m .execute half0 {}
def A2 (m : Mode) : State := unit m .access half0 {}

theorem witness_integer : ∀ i ∈ [Instr.add (fx .i32), .addBase bx, .sub (fx .i64), .subBase bx, .mad { fx .i32 with c := .imm 1 },
    .abs { fx .i32 with b := .reg 0 }, .absBase { bx with b := 0 }, .neg { fx .i64 with b := .reg 0 }, .negBase { bx with b := 0 },
    .mulLo (fx .n64), .mulHi (fx .i32), .min (fx .n32), .minBase { bx with uns := true }, .max (fx .i32), .maxBase bx],
    ∃ c, Clear i X c ∧ c.act ≠ [] ∧ ∀ w, c.evenDst w := all_issue (by decide +kernel)
theorem witness_logic : ∀ i ∈ [Instr.and (fx .b32), .andBase bx, .or (fx .b64), .orBase bx, .xor (fx .b32), .xorBase bx,
    .not { fx .b32 with b := .reg 0 }, .notBase { bx with b := 0 }, .shl (fx .b64), .shlBase bx, .shr (fx .b32), .shrBase bx, .sar (fx .b32),
    .sarBase bx, .popc { fx .b64 with b := .reg 0 }, .popcBase { bx with b := 0 }, .clz { fx .b32 with b := .reg 0 },
    .clzBase { bx with b := 0 }, .brev { fx .b32 with b := .reg 0 }, .brevBase { bx with b := 0 }, .sel { fx .b32 with c := .reg 1 },
    .mov { fx .b64 with b := .reg 0 }, .movBase { bx with b := 0 }, .bfx { fx .i32 with c := .imm 8 },
    .bfi { fx .b32 with c := .imm 8, d := .imm 4 }], ∃ c, Clear i X c ∧ c.act ≠ [] ∧ ∀ w, c.evenDst w := all_issue (by decide +kernel)
theorem witness_float : ∀ i ∈ [Instr.fadd (fx .f32), .fsub (fx .f64), .fmul (fx .bf16x2), .fma { fx .f16 with c := .reg 4 }, .div (fx .f32),
    .frint { fx .f32 with b := .reg 0 }, .fmin (fx .f32), .fmax (fx .bf16), .ex2s { fx .f32 with c := .reg 4 },
    .lg2 { fx .f32 with b := .reg 0 }, .rcp { fx .f32 with b := .reg 0 }, .rsq { fx .f16 with b := .reg 0 }, .sqrt { fx .f64 with b := .reg 0 },
    .cvt .f32 { fx .e4m3 with b := .reg 0 }, .pack (fx .bf16x2), .unpack (fx .e4m3), .dot2 { fx .f16x2 with c := .reg 4 },
    .dp4 { fx .i8 with c := .reg 4 }], ∃ c, Clear i X c ∧ c.act ≠ [] ∧ ∀ w, c.evenDst w := all_issue (by decide +kernel)
theorem witness_predicates : ∀ i ∈ [Instr.cmp .lt { fx .i32 with dst := .reg 2 }, .fcmp .un { fx .f32 with dst := .reg 2 },
    .fclass { fx .f32 with dst := .reg 2 }, .pand { dst := .reg 2, a := .reg 1, b := .reg 1 }, .por { dst := .reg 2, a := .reg 1, b := .reg 1 },
    .pxor { dst := .reg 2, a := .reg 1, b := .reg 1 }, .pnot { dst := .reg 2, a := .reg 1 }, .ptest { dst := .reg 0, a := .reg 4, ty := .b32 }],
    ∃ c, Clear i X c ∧ (c.f.dst = .reg 2 ∨ c.f.dst = .reg 0) := all_clear (by decide +kernel)

/-- The exchanges, once the whole quad or group has come. -/
theorem witness_quads : ∀ i ∈ [Instr.qswapH { fx .b32 with b := .reg 0 }, .qswapV { fx .b64 with b := .reg 0 }, .qbcast (fx .b32),
    .qsum { fx .f32 with b := .reg 0 }], ∃ c, Meets true i X c ∧ c.f.dst = .reg 6 := all_meet (by decide +kernel)
theorem witness_groups : ∀ i ∈ [Instr.shfl .xor (fx .b32), .voteBallot { dst := .reg 6, a := .reg 1, ty := .b32 },
    .matchLanes { fx .b32 with b := .reg 0 }, .scan .add true { fx .f32 with b := .reg 0 }], ∃ c, Meets false i eight c ∧ c.f.dst = .reg 6 :=
  all_meet (by decide +kernel)
theorem witness_votes : ∀ i ∈ [Instr.voteAny { dst := .reg 2, a := .reg 1 }, .voteAll { dst := .reg 2, a := .reg 1 }],
    ∃ c, Meets false i eight c ∧ c.f.dst = .reg 2 := all_meet (by decide +kernel)
theorem witness_reductions : ∃ c, Meets false (.red .max { fx .i32 with b := .reg 0 }) eight c ∧ c.evenDst false ∧ c.w = 2 ^ 3 := by
  obtain ⟨c, hc, hd, hw⟩ := meets_of_joins (P := fun c => c.f.dst = .reg 6 ∧ c.w = 8)
    (i := .red .max { fx .i32 with b := .reg 0 }) (quad := false) (s := eight) (by decide +kernel)
  exact ⟨c, hc, even_of hd (by decide), hw⟩
/-- Lane 0 has not come: the path of lane 1 waits for it. -/
theorem witness_rendezvous : let i : Instr := .voteAny { dst := .reg 2, a := .reg 1 }
    let s := unit .user .execute { half0 with lanes := [(0, { lane1 with pc := 24 }), (1, lane1)] } {}
    ∃ c, s.begin? i = some c ∧ legal c.sl i = true ∧ c.path = [1]
      ∧ ∀ l ∈ c.path, ((c.half.liveLanes c.w).all fun m => (false && decide (m / 4 ≠ l / 4))
          || decide (m ∈ (List.range c.w).filter (atPc c.half c.pc))) = false := by
  have h : (meets (.voteAny { dst := .reg 2, a := .reg 1 })
      (unit .user .execute { half0 with lanes := [(0, { lane1 with pc := 24 }), (1, lane1)] } {}) fun c =>
        legal c.sl (.voteAny { dst := .reg 2, a := .reg 1 }) = true ∧ c.path = [1]
        ∧ ∀ l ∈ c.path, ((c.half.liveLanes c.w).all fun m => (false && decide (m / 4 ≠ l / 4))
          || decide (m ∈ (List.range c.w).filter (atPc c.half c.pc))) = false) = true := by decide +kernel
  obtain ⟨c, hc, hp⟩ := clear_of_meets h
  exact ⟨c, hc.1, hp⟩

/-- The queue of a lane with one filled element. -/
def filled (q v : Nat) : SMap (List Elem) := [(q * 64, [{ val := BitVec.ofNat 32 v }])]
/-- A machine with one lane of each slice, three calls deep, r10 naming an instruction start, and a decision in `q12`. -/
def C : State :=
  unit .user .execute { half0 with lanes := [(0, { lane1 with depth := 3 })], regs := [(10, 8), (11, 0x0c831400)] } { queues := filled 12 1 }

theorem witness_branches : (∀ i ∈ [Instr.bra { a := .imm 8 }, .bra { a := .lit, lit := some 0xffffffb8 }, .brQ { a := .queue 12, b := .imm 32 },
      .brx { a := .reg 10 }], ∃ c, Clear i C c ∧ c.act = [0])
    ∧ ∃ c, Clear (.brx { a := .reg 10 }) C c
      ∧ (isSection (.reg 10) = true → ∀ l ∈ c.act, C.isStart c.blk.kernel c.sl (lo32 (c.src .b32 (.reg 10) l)) = true) :=
  ⟨all_clear (by decide +kernel), clear_of_meets (by decide +kernel)⟩
theorem witness_calls : ∀ i ∈ [Instr.call { dst := .reg 6, a := .imm 8 }, .call { dst := .reg 6, a := .reg 10 }, .ret { a := .reg 10 }],
    ∃ c, Clear i C c ∧ c.act = [0] ∧ (c.f.dst = .reg 6 ∨ c.f.dst = .reg 0)
      ∧ (∀ l ∈ c.act, (c.half.lane l).depth ≠ 255 ∧ (c.half.lane l).depth ≠ 0) ∧ (∀ n < 16, (c.half.set n).members = 0)
      ∧ (isSection c.f.a = true → ∀ l ∈ c.act, c.st.isStart c.blk.kernel c.sl (lo32 (c.src .b32 c.f.a l)) = true) :=
  all_clear (by decide +kernel)

/-- No lane, one of several lanes, and the last lane of the pair exits. -/
theorem witness_exit : (∃ c, Clear (.exit { g0 := 9 }) X c ∧ c.act = [])
    ∧ (∃ c, Clear (.exit {}) X c ∧ c.act ≠ [] ∧ X.outs = [] ∧ 0 < c.w ∧ (c.pair.half .access).live 0 = true ∧ c.sl = .execute)
    ∧ let s := { X with blocks := [(0, { block0 .user {} {} with pairs := [(0, { live := true, exe := { lanes := [(0, lane1)] } })] })] }
      ∃ c, Clear (.exit {}) s c ∧ c.act = [0] ∧ s.outs = [] ∧ (∀ e ∈ s.blocks, (e.2.pair c.group).teamWait = false)
        ∧ (∀ sl ∈ [Slice.access, .execute], ∀ l < c.w, (c.pair.half sl).live l = true → sl = c.sl ∧ l ∈ c.act)
        ∧ ∀ l < c.w, s.heldNeed (c.own l) = 0 :=
  ⟨clear_of_meets (by decide +kernel), clear_of_meets (by decide +kernel), clear_of_meets (by decide +kernel)⟩

/-- A debugger is attached where DBGCTL.ATTACH is set and the partition has a debug ring. -/
def attachedX : State := { X with sys := [(0x010, 1), (0x011, 0x3000), (0x012, 4)] }
theorem witness_hints : (∀ i ∈ [Instr.yield {}, .nap { a := .imm 5 }, .nop {}, .nopBase {}], ∃ c, Clear i X c ∧ c.act = [0])
    ∧ (∃ c, Clear (.prefetch { a := .reg 4, b := .imm 0 }) A c ∧ c.act = [0])
    ∧ (∀ i ∈ [Instr.trap { a := .imm 7, g0 := 9 }, .brk { a := .imm 7, g0 := 9 }], ∃ c, Clear i X c ∧ c.act = [])
    ∧ (∀ i ∈ [Instr.trap { a := .imm 7 }, .brk { a := .imm 7 }], ∃ c, Clear i X c ∧ c.act = [0] ∧ X.attached c.blk.part = false)
    ∧ ∃ c, Clear (.brk { a := .imm 7 }) attachedX c ∧ c.act = [0] ∧ attachedX.attached c.blk.part = true :=
  ⟨all_clear (by decide +kernel), clear_of_meets (by decide +kernel), all_clear (by decide +kernel), all_clear (by decide +kernel),
    clear_of_meets (by decide +kernel)⟩

/-- Set 1 armed with lanes 0 and 1 as members. -/
def J : State := unit .user .execute { half0 with sets := [(1, { members := 3, state := jArmed })] } {}
/-- The image of an armed set with member 0 lies at offset 32 of the scratchpad. -/
def Jimage : State := { J with blocks := J.blocks.map fun e => (e.1, { e.2 with scratch := [(32, 1), (48, 1)] }) }
theorem witness_rejoin :
    (∀ i ∈ [Instr.joinInit { a := .set 1, b := .imm (-1), g0 := 9, g1 := 1 }, .joinEnter { a := .set 1, g0 := 9, g1 := 1 },
        .joinQuit { a := .set 1, g0 := 9, g1 := 1 }, .joinWait { a := .set 1, g0 := 9, g1 := 1 },
        .joinTest { dst := .reg 2, a := .set 1, g0 := 9, g1 := 1 }, .joinSave { a := .set 1, b := .imm 32, g0 := 9, g1 := 1 },
        .joinLoad { a := .set 1, b := .imm 32, g0 := 9, g1 := 1 }], ∃ c, Clear i J c ∧ c.act = [])
    ∧ (∀ i ∈ [Instr.joinInit { a := .set 1, b := .imm (-1) }, .joinEnter { a := .set 1 }, .joinQuit { a := .set 1 }, .joinWait { a := .set 1 },
        .joinTest { dst := .reg 2, a := .set 1 }], ∃ c, Clear i J c ∧ c.act = [0, 1] ∧ c.theSet.state = jArmed
          ∧ ∀ l ∈ c.act, c.theSet.members.getLsbD l = true ∧ (c.half.lane l).depth = 0)
    ∧ (∃ c, Clear (.joinInit { a := .set 1, b := .imm (-1) }) J c ∧ ∀ l ∈ c.act, c.src .b64 (.imm (-1)) l = -1)
    ∧ (∀ i ∈ [Instr.joinSave { a := .set 1, b := .imm 32 }, .joinLoad { a := .set 1, b := .imm 32 }], ∃ c, Clear i Jimage c ∧ c.act ≠ []
        ∧ c.theSet.state = jArmed ∧ (∀ l ∈ c.act, c.word c.f.b l = 32) ∧ 64 ≤ c.blk.kernel.decl.scratch ∧ c.st.heldOver (.sp c.place 32) 32 = false
        ∧ c.st.ownedOver none (.sp c.place 32) 32 = false ∧ (∀ l ∈ c.act, c.st.acquiring (c.own l) = false) ∧ (∀ k < 32, Jimage.tagAt (.sp c.place (32 + k)) = none) ∧ Jimage.natAt (.sp c.place 32) 32 = 1 + jArmed.toNat * 2 ^ 128) :=
  ⟨all_clear (by decide +kernel), all_clear (by decide +kernel), clear_of_meets (by decide +kernel), all_clear (by decide +kernel)⟩

/-! #### Memory -/

def bytes (n k : Nat) : List Byte := leBytes k n
/-- A remote page at the start of the fabric window, and the peer entry it names, on port 0, which is up. -/
def remotePage : Tlb := { page := 0xffff000000000, r := true, w := true, u := true, remote := true }
def fabric (s : State) : State :=
  { s with tlb := s.tlb ++ [remotePage], ports := 1, sys := [(0x020, 0x200000), (0x021, 1)]
           mem := Memory.write [] 0x200014 [1, 0, 0, 7] }
/-- A lane whose y4:y5 is a global address of the page, y6:y7 a fabric address, and y8 data. -/
def M : State := fabric (one .access [(4, 0x1000), (6, 0), (7, 0xffff0000), (8, 0x11223344), (10, 0x200)])
def at0 : Nat → Loc := fun _ => .glob 0x100000
def spAt : Nat → Loc := fun _ => .sp 0 0x200

theorem witness_loads :
    (∀ i ∈ [Instr.ldQ { dst := .queue 0, a := .reg 4, b := .imm 0, ty := .b32 }, .ldY { dst := .reg 12, a := .reg 4, b := .imm 0, ty := .b64 },
        .lr { dst := .reg 12, a := .reg 4, b := .imm 0, ty := .b32 }], ∃ c, Clear i M c ∧ destOf c.f.dst ≠ .drop ∧ c.act = [0]
          ∧ (∀ l ∈ c.path, c.st.cur.late.getLsbD l = false ∧ ∀ h ∈ c.st.late, h.own ≠ c.own l)
          ∧ ∀ l ∈ c.act, c.reaches false true false (accBytes c.f.ty) l (at0 l))
    ∧ (∀ i ∈ [Instr.ldSp { dst := .reg 12, a := .reg 10, b := .imm 0, ty := .i16 }, .lr { dst := .reg 12, a := .reg 10, b := .imm 0, ty := .b32, mods := 1 }],
        ∃ c, Clear i M c ∧ destOf c.f.dst ≠ .drop ∧ c.act = [0]
          ∧ (∀ l ∈ c.path, c.st.cur.late.getLsbD l = false ∧ ∀ h ∈ c.st.late, h.own ≠ c.own l)
          ∧ ∀ l ∈ c.act, c.reaches true true false (accBytes c.f.ty) l (spAt l)) :=
  ⟨all_clear (by decide +kernel), all_clear (by decide +kernel)⟩
/-- The turn makes the lane's read late; and the turn of its place in the order. -/
def late0 (op : LateOp) : Late := { id := 7, issue := 7, loc := .glob 0x100000, op }
def placing (op : LateOp) : State := { M with late := [late0 op], agenda := [.place 7] }
theorem placing_next (op : LateOp) : (placing op).placesNext [] (late0 op) [] :=
  ⟨rfl, rfl, rfl, by simp, by simp, by simp [placing, State.ownedOver, M, fabric, one, unit],
    by simp [placing, State.errIn, M, fabric, one, unit, late0]⟩
theorem witness_late_loads :
    (∀ e ∈ [(Instr.ldQ { dst := .queue 0, a := .reg 4, b := .imm 0, ty := .b32 }, false), (.ldY { dst := .reg 12, a := .reg 4, b := .imm 0, ty := .b64 }, false),
        (.ldSp { dst := .reg 12, a := .reg 10, b := .imm 0, ty := .i16 }, true)],
      let s := { M with cur := { M.cur with late := 1 } }
      ∃ c, Clear e.1 s c ∧ destOf c.f.dst ≠ .drop ∧ c.act = [0]
        ∧ ∀ l ∈ c.act, c.reaches e.2 true false (accBytes c.f.ty) l (if e.2 then spAt l else at0 l) ∧ s.cur.late.getLsbD l = true)
    ∧ (placing .read).placesNext [] (late0 .read) [] := by
  refine ⟨fun e he => ?_, placing_next _⟩
  simp only [List.mem_cons, List.not_mem_nil, or_false] at he
  rcases he with rfl | rfl | rfl <;> exact clear_of_meets (by decide +kernel)
/-- No page is mapped at 0x9000: the walk from a root of zeros finds no entry. -/
theorem witness_load_fault :
    let s := { M with blocks := M.blocks.map fun e => (e.1, { e.2 with root := 0x5000 }) }
    ∃ c, Clear (.ldQ { dst := .queue 0, a := .lit, b := .imm 0, ty := .b32, lit := some 0x9000 }) s c ∧ c.act = [0]
      ∧ aligned (c.gaddr 0).toNat 4 = true ∧ inFabric (c.gaddr 0) = false ∧ c.st.acquiring (c.own 0) = false
      ∧ s.translate c.tctx true false (c.gaddr 0) = .fault 1
      ∧ c.lost (.ldQ { dst := .queue 0, a := .lit, b := .imm 0, ty := .b32, lit := some 0x9000 }) 0 0 = false :=
  clear_of_meets (by decide +kernel)

/-- The facts of `Ctx.sends` for a lane at the start of the fabric window. -/
def out (c : Ctx) (rd wr : Bool) (n : Nat) : Prop :=
  aligned (c.gaddr 0).toNat n = true ∧ inFabric (c.gaddr 0) = true ∧ c.xlates rd wr 0 = .ok remotePage ∧ c.st.acquiring (c.own 0) = false
    ∧ c.st.peer? c.blk.part remotePage.peer = M.peer? 0 0
theorem sends_of {c : Ctx} {rd wr n} (h : out c rd wr n) (hp : c.st.ports = 1) : ∃ head, c.sends rd wr n 0 remotePage 0 head := by
  have e : ∃ e, M.peer? 0 0 = some e ∧ e.outOk = true ∧ (List.range 12).filter (fun k => e.ports.getLsbD k && (1 : BitVec 12).getLsbD k) = [0] := by
    refine ⟨(M.peer? 0 0).get (by decide +kernel), by simp, by decide +kernel, by decide +kernel⟩
  obtain ⟨e, he, ho, hf⟩ := e
  have hq : c.st.portsTo e = [0] := by rw [State.portsTo, hp]; exact hf
  exact ⟨_, h.1, h.2.1, h.2.2.1, rfl, h.2.2.2.1, e, h.2.2.2.2.trans he, ho, by simp [hq], by simp [State.portFor, hq, Nat.mod_one], rfl⟩
/-- Nothing on its way and no element waiting is newer than the next number. -/
def fresh (c : Ctx) : Prop := c.st.remotes = [] ∧ c.pair.queues = [] ∧ ∀ l ∈ c.act, c.st.placeOfOwner (c.own l) = some c.place
theorem fresh_spec {c : Ctx} (h : fresh c) : (∀ r ∈ c.st.remotes, r.id < c.st.fresh) ∧ (∀ r l, ∀ e ∈ c.pair.queue r l, e.out < c.st.fresh)
    ∧ ∀ l ∈ c.act, c.st.placeOfOwner (c.own l) = some c.place := by
  obtain ⟨h1, h2, h3⟩ := h
  exact ⟨by simp [h1], by simp [Pair.queue, h2, smGet], h3⟩
def toFab : Instr := .ldFab { dst := .queue 0, a := .reg 6, b := .imm 0, ty := .b32 }
theorem witness_remote :
    (∃ c, Clear toFab M c ∧ fresh c ∧ ∀ l ∈ c.act, ∃ head, c.sends true false 4 l remotePage 0 head)
    ∧ (∃ c, Clear (.stY { a := .reg 6, b := .imm 0, c := .reg 8, ty := .b32 }) M c ∧ (fresh c ∧ c.prompt)
      ∧ ∀ l ∈ c.act, (∃ head, c.sends false true 4 l remotePage 0 head) ∧ c.pair.captured l = false)
    ∧ (∃ c, Clear (.atom .add { dst := .reg 12, a := .reg 6, b := .imm 0, c := .reg 8, ty := .n32 }) M c
      ∧ ∀ l ∈ c.act, (∃ head, c.sends true true 4 l remotePage 0 head) ∧ c.pair.captured l = false ∧ c.ordered (some .add) l = false) := by
  have key (i : Instr) (rd wr : Bool) (h : meets i M (fun c => (c.act = [0] ∧ aligned (c.gaddr 0).toNat 4 = true ∧ inFabric (c.gaddr 0) = true
      ∧ c.xlates rd wr 0 = .ok remotePage ∧ c.st.acquiring (c.own 0) = false) ∧ c.st.ports = 1
      ∧ c.st.peer? c.blk.part 0 = M.peer? 0 0 ∧ (c.pair.captured 0 = false ∧ c.ordered (some .add) 0 = false)
      ∧ (c.st.remotes = [] ∧ c.pair.queues = [] ∧ ∀ l ∈ c.act, c.st.placeOfOwner (c.own l) = some c.place)
      ∧ ∀ l ∈ c.path, c.st.cur.late.getLsbD l = false ∧ ∀ h ∈ c.st.late, h.own ≠ c.own l) = true) :
      ∃ c, Clear i M c ∧ (fresh c ∧ c.prompt)
        ∧ ∀ l ∈ c.act, (∃ head, c.sends rd wr 4 l remotePage 0 head) ∧ c.pair.captured l = false ∧ c.ordered (some .add) l = false := by
    obtain ⟨c, hc, ⟨ha, h1, h2, h3, h4⟩, hp, h5, ⟨h6, h7⟩, hn, hr⟩ := clear_of_meets h
    refine ⟨c, hc, ⟨hn, hr⟩, fun l hl => ?_⟩
    obtain rfl : l = 0 := by simpa [ha] using hl
    exact ⟨sends_of ⟨h1, h2, h3, h4, h5⟩ hp, h6, h7⟩
  obtain ⟨a, ha, hn, ha'⟩ := key toFab true false (by decide +kernel)
  obtain ⟨b, hb, hm, hb'⟩ := key (.stY { a := .reg 6, b := .imm 0, c := .reg 8, ty := .b32 }) false true (by decide +kernel)
  obtain ⟨d, hd, -, hd'⟩ := key (.atom .add { dst := .reg 12, a := .reg 6, b := .imm 0, c := .reg 8, ty := .n32 }) true true (by decide +kernel)
  exact ⟨⟨a, ha, hn.1, fun l hl => (ha' l hl).1⟩, ⟨b, hb, hm, fun l hl => ⟨(hb' l hl).1, (hb' l hl).2.1⟩⟩, d, hd, hd'⟩
/-- A fabric address that no page maps; a peer without a port that is up; a peer that its table does not admit. -/
theorem witness_remote_tokens :
    (let s := { M with tlb := [page], blocks := M.blocks.map fun e => (e.1, { e.2 with root := 0x5000 }) }
     ∃ c, Clear toFab s c ∧ c.act = [0] ∧ aligned (c.gaddr 0).toNat 4 = true ∧ inFabric (c.gaddr 0) = true
      ∧ c.st.acquiring (c.own 0) = false ∧ c.xlates true false 0 = .fault 1)
    ∧ (∀ k ∈ [(0, true, 6), (1, false, 5)], let s := { M with ports := k.1, mem := if k.2.1 then M.mem else [] }
     ∃ c, Clear toFab s c ∧ c.act = [0] ∧ aligned (c.gaddr 0).toNat 4 = true ∧ inFabric (c.gaddr 0) = true
      ∧ c.st.acquiring (c.own 0) = false ∧ c.xlates true false 0 = .ok remotePage ∧ fresh c
      ∧ ((s.peer? c.blk.part 0).any fun e => e.outOk && decide (s.portsTo e ≠ [])) = false
      ∧ (if (s.peer? c.blk.part 0).any fun e => e.outOk then 6 else 5) = k.2.2) := by
  unfold fresh
  exact ⟨clear_of_meets (by decide +kernel), by
    intro k hk
    simp only [List.mem_cons, List.not_mem_nil, or_false] at hk
    rcases hk with rfl | rfl
    · exact clear_of_meets (by decide +kernel)
    · exact clear_of_meets (by decide +kernel)⟩

/-- Two members of a team, member 0 on core 0 and member 1 on core 1. -/
def team : State :=
  let b := block0 .user { half0 with lanes := [(0, lane1)] } {}
  let b1 : Block := { b with t := 2, n := 2, block := 1, member := 1, pairs := [(0, { b.pair 0 with mcCount := [(0, 1)] })] }
  { A with blocks := [(0, { b with t := 2, n := 2 }), (16, b1)], fresh := 9, outs := [{ id := 8, own := { block := 1 }, dst := .queue 0, mc := some 0 }] }
/-- What a multicast of member 0 finds of the elements that the other members have reserved for it. -/
def alone (c : Ctx) (l : Nat) : Prop := ∀ o ∈ c.st.outs, mcOf c.blk c.group l (c.pair.mcIssued l) o = true →
  o.id < c.st.fresh ∧ c.st.placeOfOwner o.own ≠ some c.place
theorem witness_multicast :
    let i : Instr := .ldMc { dst := .queue 0, a := .reg 4, b := .imm 0, ty := .b32 }
    (∃ c, Clear i team c ∧ c.blk.member = 0 ∧ c.act = [0] ∧ fresh c ∧ c.st.outs.map (mcOf c.blk 0 0 0) = [true]
      ∧ ∀ l ∈ c.act, c.reaches false true false 4 l (at0 l) ∧ c.othersReady l (c.pair.mcIssued l) = true ∧ alone c l)
    ∧ (∀ gone ∈ [false, true], let s := { team with cur := { place := 16 }, blocks := if gone then team.blocks.drop 1 else team.blocks }
      ∃ c, Clear i s c ∧ c.blk.member ≠ 0 ∧ c.act = [0] ∧ ∀ l ∈ c.act, c.st.acquiring (c.own l) = false ∧ c.leadGone l = gone)
    ∧ let s := { team with tlb := [], blocks := team.blocks.map fun e => (e.1, { e.2 with root := 0x5000 }) }
      ∃ c, Clear i s c ∧ c.blk.member = 0 ∧ c.act = [0] ∧ fresh c ∧ aligned (c.gaddr 0).toNat 4 = true ∧ inFabric (c.gaddr 0) = false
        ∧ c.st.acquiring (c.own 0) = false ∧ c.xlates true false 0 = .fault 1 ∧ c.othersReady 0 (c.pair.mcIssued 0) = true ∧ alone c 0 := by
  unfold fresh alone
  refine ⟨clear_of_meets (by decide +kernel), ?_, clear_of_meets (by decide +kernel)⟩
  intro gone _
  cases gone
  · exact clear_of_meets (by decide +kernel)
  · exact clear_of_meets (by decide +kernel)

/-- A descriptor of three rows of one element at 0x1000. -/
def desc : SMap Word := [(8, 0x1000), (10, 4), (11, 0), (14, 0x10003), (15, 1)]
def S : State := unit .user .access { half0 with lanes := [(0, lane1)], uni := desc } { queues := filled 0 5 }
theorem witness_streams :
    (∃ c, Clear (.stream { dst := .queue 1, a := .uni 8, ty := .b32 }) S c ∧ c.act ≠ [] ∧ streamBad .b32 c.descWords = false
      ∧ streamRows c.descWords = 3 ∧ c.streaming 1 = false ∧ ∀ l ∈ c.act, c.st.acquiring (c.own l) = false)
    ∧ (∃ c, Clear (.stream { dst := .queue 1, a := .uni 8, ty := .b32, g0 := 9 }) S c ∧ c.act = [])
    ∧ (∃ c, Clear (.qflush { a := .queue 0 }) S c ∧ c.act = [0]) ∧ (∃ c, Clear (.qcount { dst := .reg 6, a := .queue 0 }) S c ∧ c.act = [0])
    ∧ ∃ c, Clear (.smov { dst := .reg 6, a := .imm 0x22, ty := .b32 }) S c ∧ c.f.dst = .reg 6 ∧ ∀ l ∈ c.act,
        specialListed (c.src .b32 (.imm 0x22) l).toNat = true ∧ specialWidth (c.src .b32 (.imm 0x22) l).toNat = 32
          ∧ specialSlice (c.src .b32 (.imm 0x22) l).toNat c.sl = true :=
  ⟨clear_of_meets (by decide +kernel), clear_of_meets (by decide +kernel), clear_of_meets (by decide +kernel),
    clear_of_meets (by decide +kernel), clear_of_meets (by decide +kernel)⟩

theorem witness_stores :
    (∀ i ∈ [Instr.stY { a := .reg 4, b := .imm 0, c := .reg 8, ty := .n8 }, .atom .max { dst := .reg 12, a := .reg 4, b := .imm 0, c := .reg 8, ty := .i32 },
        .atomCas { dst := .reg 12, a := .reg 4, b := .imm 0, c := .reg 8, d := .reg 9, ty := .b64 }],
      ∃ c, Clear i M c ∧ c.f.c ≠ .queue 13 ∧ c.act = [0]
        ∧ (∀ l ∈ c.path, c.st.cur.late.getLsbD l = false ∧ ∀ h ∈ c.st.late, h.own ≠ c.own l)
        ∧ ∀ l ∈ c.act, c.mayWrite false true true (accBytes c.f.ty) l (at0 l) ∧ M.plain (at0 l) (accBytes c.f.ty) ∧ c.ordered (some .max) l = false)
    ∧ (∃ c, Clear (.stSp { a := .reg 10, b := .imm 0, c := .reg 8, ty := .b32 }) M c ∧ c.f.c ≠ .queue 13 ∧ c.act = [0]
        ∧ (∀ l ∈ c.path, c.st.cur.late.getLsbD l = false ∧ ∀ h ∈ c.st.late, h.own ≠ c.own l)
        ∧ ∀ l ∈ c.act, c.mayWrite true false true 4 l (spAt l) ∧ M.plain (spAt l) 4)
    ∧ (∃ c, Clear (.st { a := .reg 4, b := .imm 0, c := .queue 13, ty := .b32 }) M c ∧ c.f.c = .queue 13 ∧ c.act = [0]
        ∧ M.late = [] ∧ ∀ l ∈ c.act, c.mayWrite false false true 4 l (at0 l) ∧ M.waitingStores (c.own l) < 64 ∧ c.noData l = false)
    ∧ (∃ c, Clear (.stSp { a := .reg 10, b := .imm 0, c := .queue 13, ty := .b32 }) M c ∧ c.f.c = .queue 13 ∧ c.act = [0]
        ∧ M.late = [] ∧ ∀ l ∈ c.act, c.mayWrite true false true 4 l (spAt l) ∧ M.waitingStores (c.own l) < 64 ∧ c.noData l = false)
    ∧ (∃ c, Clear (.st { a := .reg 6, b := .imm 0, c := .queue 13, ty := .b32 }) M c ∧ c.f.c = .queue 13 ∧ c.act = [0]
        ∧ ∀ l ∈ c.act, aligned (c.gaddr l).toNat 4 = true ∧ inFabric (c.gaddr l) = true ∧ c.xlates false true l = .ok remotePage
          ∧ remotePage.remote = true ∧ c.st.acquiring (c.own l) = false ∧ c.pair.captured l = false ∧ M.waitingStores (c.own l) < 64 ∧ c.noData l = false) :=
  ⟨all_clear (by decide +kernel), clear_of_meets (by decide +kernel), clear_of_meets (by decide +kernel), clear_of_meets (by decide +kernel),
    clear_of_meets (by decide +kernel)⟩
/-- The turn makes the lane's store late; and the turn of its place in the order. -/
theorem witness_late_stores :
    (∀ e ∈ [(Instr.stY { a := .reg 4, b := .imm 0, c := .reg 8, ty := .n8 }, false), (.stSp { a := .reg 10, b := .imm 0, c := .reg 8, ty := .b32 }, true)],
      let s := { M with cur := { M.cur with late := 1 } }
      ∃ c, Clear e.1 s c ∧ c.f.c ≠ .queue 13 ∧ c.act = [0]
        ∧ ∀ l ∈ c.act, c.mayWrite e.2 false true (accBytes c.f.ty) l (if e.2 then spAt l else at0 l) ∧ s.cur.late.getLsbD l = true)
    ∧ let h := late0 (.store [1, 2, 3, 4])
      (placing h.op).placesNext [] h [] ∧ [1, 2, 3, 4].length = h.n ∧ (placing h.op).plain h.loc h.n ∧ ∀ p off, h.loc = .sp p off → ((placing h.op).block? p).isSome = true := by
  refine ⟨fun e he => ?_, placing_next _, rfl, by decide +kernel, fun p off h => by cases h⟩
  simp only [List.mem_cons, List.not_mem_nil, or_false] at he
  rcases he with rfl | rfl
  · exact clear_of_meets (by decide +kernel)
  · exact clear_of_meets (by decide +kernel)
/-- An atomic that its turn makes late, one lane's part of it, and the turn of its place. -/
theorem witness_late_atomics :
    (let s := { M with cur := { M.cur with late := 1 } }
     ∃ c, Clear (.atom .max { dst := .reg 12, a := .reg 4, b := .imm 0, c := .reg 8, ty := .i32 }) s c ∧ c.act = [0]
      ∧ (s.block? c.place).isSome = true ∧ c.loc false (c.xlates true true) 4 0 = some (at0 0) ∧ s.plain (at0 0) 4 ∧ s.errIn (at0 0) 4 = none
      ∧ c.ordered (some .max) 0 = false ∧ c.isLate 0 = true)
    ∧ let h := late0 (.atom (some .max) 5 0)
      (placing h.op).placesNext [] h [] ∧ (placing h.op).plain h.loc h.n ∧ ∀ p off, h.loc = .sp p off → ((placing h.op).block? p).isSome = true :=
  ⟨clear_of_meets (by decide +kernel), placing_next _, by decide +kernel, fun p off h => by cases h⟩
/-- An ordered float add, in a launch that asked for it, with a buffer of eight entries. -/
theorem witness_ordered :
    let s : State := { A with blocks := A.blocks.map (fun e => (e.1, { e.2 with ofa := true })), sys := [(0x005, 0x2000), (0x006, 8)] }
    ∃ c, Clear (.atom .add { a := .reg 4, b := .imm 0, c := .reg 8, ty := .f32, mods := 2 }) s c ∧ c.act = [0]
      ∧ (∀ l ∈ c.act, c.ordered (some .add) l = true ∧ c.mayWrite false true true 4 l (at0 l) ∧ s.heldOver (at0 l) 4 = false)
      ∧ (c.act.filter (c.ordered (some .add))).length ≤ s.orderedFree c.blk.part ∧ (s.block? c.place).isSome = true
      ∧ c.loc false (c.xlates true true) 4 0 = some (at0 0) ∧ s.plain (at0 0) 4 ∧ s.errIn (at0 0) 4 = none := clear_of_meets (by decide +kernel)
/-- One lane's part of an atomic, on a word of memory and on one of the scratchpad. -/
theorem witness_atomic_lane : ∀ e ∈ [(Instr.atom .max { dst := .reg 12, a := .reg 4, b := .imm 0, c := .reg 8, ty := .i32 }, at0 0),
      (.atomCas { dst := .reg 12, a := .reg 10, b := .imm 0, c := .reg 8, d := .reg 9, ty := .b32, mods := 1 }, spAt 0)],
    ∃ c, Clear e.1 M c ∧ (M.block? c.place).isSome = true ∧ c.loc c.f.sp (c.xlates true true) 4 0 = some e.2 ∧ M.plain e.2 4
      ∧ M.errIn e.2 4 = none ∧ (M.block? 0).isSome = true ∧ c.ordered (some .max) 0 = false ∧ c.isLate 0 = false := by
  intro e he
  simp only [List.mem_cons, List.not_mem_nil, or_false] at he
  rcases he with rfl | rfl
  · exact clear_of_meets (by decide +kernel)
  · exact clear_of_meets (by decide +kernel)
/-- A lane that holds a reservation of its word. -/
def R : State := unit .user .access { half0 with lanes := [(0, lane1)] } { resv := [(0, { loc := .glob 0x100000, width := 4, leaseEnd := 9 })] }
theorem witness_conditional : ∃ c, Clear (.sc { dst := .reg 2, a := .reg 4, b := .imm 0, c := .reg 8, ty := .b32 }) R c ∧ c.act = [0]
    ∧ ∀ l ∈ c.act, c.mayWrite false true false 4 l (at0 l) ∧ R.heldOver (at0 l) 4 = false ∧ R.holdsResv c l (at0 l) = true
      ∧ c.xlates true true l = .ok page ∧ c.f.dst = .reg 2 ∧ (R.block? c.place).isSome = true
      ∧ c.loc false (c.xlates true false) 4 l = some (at0 l) ∧ R.plain (at0 l) 4 ∧ R.errIn (at0 l) 4 = none := clear_of_meets (by decide +kernel)
theorem witness_fence : (∀ i ∈ [Instr.fence .fabric { dst := .reg 6 }, .fence .block { dst := .reg 0, mods := 2 }],
    ∃ c, Clear i R c ∧ (c.f.dst = .reg 6 ∨ c.f.dst = .reg 0) ∧ c.act = [0]
      ∧ ∀ l ∈ c.act, R.unfenced (c.own l) = false ∧ c.pair.captured l = false)
    ∧ let s := { R with held := [{}] }
      ∃ c, Clear (.fence .device { dst := .reg 6 }) s c ∧ ∃ l ∈ c.act, s.unfenced (c.own l) = true ∨ c.pair.captured l = true :=
  ⟨all_clear (by decide +kernel), clear_of_meets (by decide +kernel)⟩

/-! #### Barriers, copies, collectives, tasks -/

def barAt0 : Nat → Loc := fun _ => .sp 0 0x100
/-- A live word of two expected arrivals, one counted. -/
def B : State := barUnit [2, 0, 1, 0, 0x12, 5] [32]
/-- Lanes 0, 1 and 2; lane 2 names the word behind that of the others. -/
def barAt1 : Nat → Loc := fun l => .sp 0 (if l = 2 then 0x108 else 0x100)
def B3 : State :=
  let h : Half := { lanes := [(0, lane1), (1, lane1), (2, lane1)], regs := [(8, 0x100), (136, 0x100), (264, 0x108)] }
  { B with blocks := B.blocks.map fun e => (e.1, { e.2 with
      scratch := Memory.write [] 0x100 [2, 0, 1, 0, 0x12, 5, 0, 0, 3, 0, 0, 0, 0x12, 5], tags := [32, 33], pairs := [(0, { live := true, acc := h, exe := h })] }) }
theorem witness_barriers :
    (∃ c, Clear (.barInit { a := .uni 8, b := .imm 0, c := .imm 2, mods := 1 }) (barUnit [] []) c ∧ c.act = [0] ∧ (barUnit [] []).waiters (barAt0 0) = []
      ∧ ∀ l ∈ c.act, c.mayWrite true true true 8 l (barAt0 l) ∧ c.st.heldOver (barAt0 l) 8 = false ∧ c.word (.imm 2) l ≤ 65535
        ∧ (barUnit [] []).tagAt (barAt0 l) = none)
    ∧ (∀ i ∈ [Instr.barArrive { dst := .reg 6, a := .uni 8, b := .imm 0, c := .imm 1, mods := 1 }, .barWait { dst := .reg 6, a := .uni 8, b := .imm 0, c := .imm 1, mods := 1 },
        .barInval { a := .uni 8, b := .imm 0, mods := 1 }, .barTest { dst := .reg 2, a := .uni 8, b := .imm 0, c := .imm 0, mods := 1 }],
      ∃ c, Clear i B c ∧ c.act = [0] ∧ (c.f.dst = .reg 6 ∨ c.f.dst = .reg 2 ∨ c.f.dst = .reg 0)
        ∧ (B.barAt (barAt0 0)).inval = false ∧ (B.barAt (barAt0 0)).expect = 2 ∧ waitOk c.blk (B.barAt (barAt0 0)) (B.tagAt (barAt0 0)) = true
        ∧ ∀ l ∈ c.act, c.mayWrite true true true 8 l (barAt0 l) ∧ c.st.heldOver (barAt0 l) 8 = false ∧ (c.st.tagAt (barAt0 l)).isSome = true)
    ∧ (∃ c, Clear (.barArrive { dst := .reg 6, a := .uni 8, b := .imm 0, c := .imm 1, mods := 1 }) B c ∧ ∀ l ∈ c.act, c.word (.imm 1) l = 1)
    ∧ ∀ i ∈ [Instr.barInit { a := .reg 8, b := .imm 0, c := .imm 2, mods := 1 }, .barArrive { dst := .reg 6, a := .reg 8, b := .imm 0, c := .imm 1, mods := 1 },
        .barWait { dst := .reg 6, a := .reg 8, b := .imm 0, c := .imm 1, mods := 1 }, .barInval { a := .reg 8, b := .imm 0, mods := 1 }],
      ∃ c, Clear i B3 c ∧ c.act = [0, 1, 2] ∧ (c.f.c = .reg 0 ∨ ∀ l ∈ c.act, 1 ≤ c.word c.f.c l ∧ c.word c.f.c l ≤ 65535)
        ∧ ∀ l ∈ c.act, c.mayWrite true true true 8 l (barAt1 l) ∧ c.st.heldOver (barAt1 l) 8 = false ∧ (B3.tagAt (barAt1 l)).isSome = true
          ∧ (B3.barAt (barAt1 l)).expect ≠ 0 ∧ B3.waiters (barAt1 l) = [] ∧ waitOk c.blk (B3.barAt (barAt1 l)) (B3.tagAt (barAt1 l)) = true :=
  ⟨clear_of_meets (by decide +kernel), all_clear (by decide +kernel), clear_of_meets (by decide +kernel), all_clear (by decide +kernel)⟩

/-- A communicator of one participant, this block, at 0x1000 of the table at 0x300000, its list at 0x1800. -/
def collMem : Memory := (Memory.write [] 0x300000 [1, 0, 1, 0, 0, 0]).write 0x300011 [0x18] |>.write 0x100800 [0xff, 0x0f, 0, 0]
def K : State :=
  { unit .user .access { half0 with lanes := [(0, lane1)], uni := [(8, 0x1000), (10, 0x1100), (12, 4), (13, 0x11), (14, 0xffffffff), (15, 0xffffffff)] } {}
      with mem := collMem, sys := [(0x022, 0x300000), (0x023, 1)] }
theorem witness_copies :
    (∃ c, Clear (.copyAsync { a := .reg 10, b := .reg 4, c := .imm 32 }) M c ∧ c.act = [0] ∧ (copyMisaligned c).1 = [] ∧ (copyScratch c).1 = []
      ∧ (copyOperand c).1 = [] ∧ (copyMemory c).1 = [] ∧ (copyBarrier c).1 = [] ∧ c.engineWaits = false ∧ (∀ l ∈ c.act, (c.copyXl l).waits = false)
      ∧ 0 < if c.pair.entering.any (fun r => decide (r.ch = c.f.ch)) then 0
        else 32 - (((M.core c.core).chan c.f.ch).filter fun k => !M.frozen k.own).length)
    ∧ (∃ c, Clear (.copyAsync { a := .reg 10, b := .reg 4, c := .imm 32, g0 := 9 }) M c ∧ c.act = [])
    ∧ (∃ c, Clear (.copyWait { dst := .reg 12, a := .imm 0, b := .imm 0 }) M c ∧ c.act = [0] ∧ ∀ l ∈ c.act, c.word (.imm 0) l ≤ 7)
    ∧ (∃ c, Clear (.collRs { a := .uni 8 }) K c ∧ c.act ≠ [] ∧ (collScratch c).1 = [] ∧ c.collBad false = false
      ∧ c.commWaits (c.collOf false).comm = false ∧ c.engineWaits = false
      ∧ (K.colls.filter fun k => decide (k.core = c.core ∧ k.result = none)).length < 16)
    ∧ (∃ c, Clear (.collAg { a := .uni 8 }) K c ∧ c.act ≠ [] ∧ (collScratch c).1 = [] ∧ c.collBad true = false
      ∧ c.commWaits (c.collOf true).comm = false ∧ c.engineWaits = false
      ∧ (K.colls.filter fun k => decide (k.core = c.core ∧ k.result = none)).length < 16)
    -- A store without data is held over the participant list.
    ∧ (let s := { K with held := [{ loc := .glob 0x100800 }] }
      ∃ c, Clear (.collRs { a := .uni 8 }) s c ∧ c.act ≠ [] ∧ (collScratch c).1 = [] ∧ c.collForm false = false ∧ c.commWaits (c.collOf false).comm = true)
    ∧ ∀ i ∈ [Instr.collRs { a := .uni 8, g0 := 9 }, .collAg { a := .uni 8, g0 := 9 }], ∃ c, Clear i K c ∧ c.act = [] :=
  ⟨clear_of_meets (by decide +kernel), clear_of_meets (by decide +kernel), clear_of_meets (by decide +kernel), clear_of_meets (by decide +kernel),
    clear_of_meets (by decide +kernel), clear_of_meets (by decide +kernel), all_clear (by decide +kernel)⟩

/-- A list with room for 16 records at 0x1000, and a record of one row in y8 to y15. -/
def L : State :=
  { one .access [(4, 0x1000), (9, 0x100000)] with mem := (Memory.write [] 0x100010 [16]).write 0x10001d [1] }
/-- The block holds a record of a submission. -/
def T : State :=
  { L with blocks := L.blocks.map (fun e => (e.1, { e.2 with own := some { sub := 7, idx := 0 } })), subs := [{ id := 7, recs := [{ state := .dispatched }] }] }
abbrev sound (s : State) (x : Loc) (n : Nat) : Prop := s.plain x n ∧ s.errIn x n = none
theorem witness_tasks :
    (∃ c, Clear (.task { dst := .reg 6 }) L c ∧ c.act = [0] ∧ c.blk.toComplete = none)
    ∧ (∃ c, Clear (.task { dst := .reg 6 }) T c ∧ c.act ≠ [] ∧ c.blk.toComplete = some { sub := 7, idx := 0 } ∧ c.taskWaits = false
        ∧ T.recBusy { sub := 7, idx := 0 } = false ∧ T.subs.map (fun b => (b.packet, T.isLatest b)) = [(none, true)]
        ∧ sound T (.glob 24) 4)
    ∧ (∃ c, Clear (.postCnt { dst := .reg 6, a := .reg 4, b := .imm 0, c := .reg 8, mods := 1 }) L c ∧ c.act = [0] ∧ aligned (c.gaddr 0).toNat 4 = true
        ∧ inFabric (c.gaddr 0) = false ∧ c.xlates true true 0 = .ok page ∧ c.busy 0 (page.addr (c.gaddr 0)) 4 = false
        ∧ sound L (.glob (page.addr (c.gaddr 0))) 4)
    ∧ (∃ c, Clear (.postCnt { dst := .reg 6, a := .reg 4, b := .imm 0, c := .reg 8, mods := 1, g0 := 9 }) L c ∧ c.act = [])
    ∧ (∀ i ∈ [Instr.task { dst := .reg 6, g0 := 9 }, .post { dst := .reg 6, a := .reg 4, b := .reg 8, g0 := 9 }, .seal { dst := .reg 6, a := .reg 4, g0 := 9 },
        .steal { dst := .uni 16, a := .reg 4, g0 := 9 }], ∃ c, Clear i L c ∧ c.act = []) :=
  ⟨clear_of_meets (by decide +kernel), clear_of_meets (by decide +kernel), clear_of_meets (by decide +kernel), clear_of_meets (by decide +kernel),
    all_clear (by decide +kernel)⟩

/-- A list at 0x1000 with its kernel table at 0x1800, CAP 16, COUNT 1, HOMECNT 1 and TEAM 1 in entry 0, some bytes changed, and a
snapshot area of one unit where it says so. -/
def listed (at_ : Nat) (bs : List Byte) (snap : Bool) : State :=
  { L with mem := (((((Memory.write [] 0x100000 [0, 0x18]).write 0x100010 [16]).write 0x100014 [1]).write 0x10001d [1]).write 0x100810 [1]).write
             (0x100000 + at_) bs
           sys := if snap then [(0x007, 0x3000), (0x008, 1)] else [] }
/-- The code of an append, and the case of a seal, from the fields that the statement names. -/
def appendCode (c : Ctx) : Nat :=
  let h := headerOf (c.st.bytesAt (.glob (c.listPa 0)) 64)
  let v := c.st.natAt (.glob (c.listPa 0 + 20)) 4
  if h.broken then 3 else if v.testBit 20 then 1 else if h.cap ≤ v % 2 ^ 20 then 2 else 0
def sealCase (c : Ctx) : Nat :=
  let h := headerOf (c.st.bytesAt (.glob (c.listPa 0)) 64)
  if h.sealed_ then 1 else
  match c.st.readAgent c.tctx (BitVec.ofNat 64 h.ktab) 2048, c.st.readAgent c.tctx (c.listAddr 0 + 64) (32 * h.count) with
  | .ok (some tab), .ok (some bs) =>
    let recs := (List.range h.count).map fun i => wordsOfBytes ((bs.drop (32 * i)).take 32)
    let used (w : List Word) : List Byte := tabEntry tab (recKidx w)
    if h.bad (c.st.partRec c.blk.part) || recs.any (fun w => c.st.isDesc c.blk.part (entImage (used w))
        && decide ((c.st.kernelAt c.blk.part (entImage (used w))).decl.cls = .concurrent)) then 3
    else if recs.any fun w => decide ((recs.filter fun v => decide (recKidx v = recKidx w)).length % entTeam (used w) ≠ 0) then 4
    else if c.st.snapFree c.blk.part < snapUnits h.count then 5 else 0
  | _, _ => 2
theorem witness_appends : ∀ e ∈ [(0, [0, 0x18], 0), (22, [0x10], 1), (20, [16], 2), (16, [0], 3)],
    ∃ c, Clear (.post { dst := .reg 6, a := .reg 4, b := .reg 8 }) (listed e.1 e.2.1 true) c ∧ c.act = [0] ∧ appendCode c = e.2.2
      ∧ aligned (c.listAddr 0).toNat 64 = true ∧ inFabric (c.listAddr 0) = false ∧ recordBad (c.recWords 0) = false
      ∧ c.listXl true 0 = .ok page ∧ c.busy 0 (c.listPa 0) 64 = false ∧ sound c.st (.glob (c.listPa 0)) 64
      ∧ (e.2.2 = 0 → let a := c.listAddr 0 + 96
          inFabric a = false ∧ c.st.translate c.tctx false true a = .ok page ∧ c.busy 0 (page.addr a) 32 = false
          ∧ sound c.st (.glob (page.addr a)) 32 ∧ overlap (.glob (page.addr a)) 32 (.glob (c.listPa 0)) 64 = false) := by
  intro e he
  simp only [List.mem_cons, List.not_mem_nil, or_false] at he
  rcases he with rfl | rfl | rfl | rfl <;> exact clear_of_meets (by decide +kernel)
/-- Sealed, without a table, unfit, uneven (TEAM 2 and TEAM 0), without room, and submitted. -/
theorem witness_seals : ∀ e ∈ [(22, [0x10], true, 1), (0, [0, 0], true, 2), (29, [0], true, 3), (0x810, [2], true, 4), (0x810, [0], true, 4),
      (0, [0, 0x18], false, 5), (0, [0, 0x18], true, 0)],
    ∃ c, Clear (.seal { dst := .reg 6, a := .reg 4 }) (listed e.1 e.2.1 e.2.2.1) c ∧ c.act = [0] ∧ (∀ m ∈ c.act, c.listAddr m = c.listAddr 0)
      ∧ aligned (c.listAddr 0).toNat 64 = true ∧ inFabric (c.listAddr 0) = false ∧ c.listXl true 0 = .ok page
      ∧ c.busy 0 (c.listPa 0) 64 = false ∧ sound c.st (.glob (c.listPa 0)) 64 ∧ c.st.subs = [] ∧ c.st.errs = [] ∧ sealCase c = e.2.2.2 := by
  intro e he
  simp only [List.mem_cons, List.not_mem_nil, or_false] at he
  rcases he with rfl | rfl | rfl | rfl | rfl | rfl | rfl <;> exact clear_of_meets (by decide +kernel)
/-- No list, a list with nothing to take, one with a ready record; and a block that still holds a stolen record. -/
theorem witness_steals :
    let i : Instr := .steal { dst := .uni 16, a := .reg 4 }
    let b : Submission := { id := 7, header := 0x100000, recs := [{ state := .ready }] }
    (∀ e ∈ [([], []), ([b], []), ([b], [(7, 0, 0)])], let s : State := { L with subs := e.1, ready := e.2 }
      ∃ c, Clear i s c ∧ c.act = [0] ∧ (∀ m ∈ c.act, c.listAddr m = c.listAddr 0) ∧ aligned (c.listAddr 0).toNat 64 = true
        ∧ inFabric (c.listAddr 0) = false ∧ c.listXl false 0 = .ok page ∧ c.blk.openStolen = none
        ∧ s.subs.filter (fun b => decide (b.part = c.blk.part ∧ b.header = c.listPa 0)) = e.1
        ∧ s.ready.find? (fun e => decide (e.1 = b.id ∧ Nat.max 1 (entTeam (b.entry e.2.1)) = 1 ∧ entImage (b.entry e.2.1) = c.blk.kernel.kd)) = e.2.head?)
    ∧ let h : HeldRec := { sub := 7, idx := 0 }
      let s : State := { L with subs := [b], blocks := L.blocks.map fun e => (e.1, { e.2 with stolen := some h }) }
      ∃ c, Clear i s c ∧ c.act = [0] ∧ (∀ m ∈ c.act, c.listAddr m = c.listAddr 0) ∧ aligned (c.listAddr 0).toNat 64 = true
        ∧ inFabric (c.listAddr 0) = false ∧ c.listXl false 0 = .ok page ∧ c.blk.openStolen = some h ∧ c.taskWaits = false ∧ s.recBusy h = false := by
  refine ⟨fun e he => ?_, clear_of_meets (by decide +kernel)⟩
  simp only [List.mem_cons, List.not_mem_nil, or_false] at he
  rcases he with rfl | rfl | rfl <;> exact clear_of_meets (by decide +kernel)

/-! #### The matrix engine: 09_isa_matrix.md's multiply of 16 × 16 with K = 32, and a 16 × 16 window of pitch 32 bytes -/

theorem ok_of {ε α} {e : Except ε α} {a : α} (h : e.toOption = some a) : e = .ok a := by
  cases e with
  | ok b => simp_all [Except.toOption]
  | error _ => simp [Except.toOption] at h

def shape0 : Word := 0x00020000
def Z : State :=
  unit .user .execute { half0 with lanes := [(0, lane1)], regs := [(4, 0x22), (8, 0x2078f), (9, 0x400)],
                                   uni := [(9, shape0), (11, 4), (12, 0x800), (13, 4), (20, 0x400)] } {}
def mma0 : Ext := { a := .uni 10, b := .uni 12, c := .reg 4, d := .uni 9, mods := 1 }
theorem witness_multiply : ∃ c g w, Meets false (.mma mma0) Z c ∧ c.act ≠ [] ∧ c.words2 = .ok (g, w) ∧ shapeOk w g = true ∧ w = shape0
    ∧ c.lateViolation (laneNames [c.opA g (shapeOf w), c.opB g (shapeOf w)] ++ regRun .z (tileNo mma0.dst) (tilesUsed g.acc64 (shapeOf w))) = none
    ∧ queuesOf [c.opA g (shapeOf w), c.opB g (shapeOf w)] = [] ∧ c.st.engineIdle c.core = true
    ∧ checkOps c [c.opA g (shapeOf w), c.opB g (shapeOf w)] g.acc64 (tileNo mma0.dst) (tilesUsed g.acc64 (shapeOf w)) = none
    ∧ opsWait c [c.opA g (shapeOf w), c.opB g (shapeOf w)] = false ∧ c.st.errs = [] ∧ ∀ e ∈ c.st.blocks, e.2.errs = [] := by
  let g := fmtWord 0x22
  obtain ⟨c, hc, h⟩ := meets_of_joins (quad := false) (i := .mma mma0) (s := Z)
    (P := fun c => c.act ≠ [] ∧ c.words2.toOption = some (fmtWord 0x22, shape0) ∧ shapeOk shape0 (fmtWord 0x22) = true
      ∧ c.lateViolation (laneNames [c.opA (fmtWord 0x22) (shapeOf shape0), c.opB (fmtWord 0x22) (shapeOf shape0)]
          ++ regRun .z (tileNo mma0.dst) (tilesUsed (fmtWord 0x22).acc64 (shapeOf shape0))) = none
      ∧ queuesOf [c.opA (fmtWord 0x22) (shapeOf shape0), c.opB (fmtWord 0x22) (shapeOf shape0)] = [] ∧ c.st.engineIdle c.core = true
      ∧ checkOps c [c.opA (fmtWord 0x22) (shapeOf shape0), c.opB (fmtWord 0x22) (shapeOf shape0)] (fmtWord 0x22).acc64 (tileNo mma0.dst)
          (tilesUsed (fmtWord 0x22).acc64 (shapeOf shape0)) = none
      ∧ opsWait c [c.opA (fmtWord 0x22) (shapeOf shape0), c.opB (fmtWord 0x22) (shapeOf shape0)] = false
      ∧ c.st.errs = [] ∧ ∀ e ∈ c.st.blocks, e.2.errs = []) (by decide +kernel)
  exact ⟨c, g, shape0, hc, h.1, ok_of h.2.1, h.2.2.1, rfl, h.2.2.2⟩

/-- Rows of the window, in the block's scratchpad. -/
def rows0 : List (Loc × Nat) := (List.range 16).map fun x => (.sp 0 (0x400 + 32 * x), 32)
theorem witness_tiles :
    (∃ c, Meets false (.zclr { dst := .reg 0 }) Z c ∧ c.act ≠ [] ∧ c.st.engineIdle c.core = true ∧ tileBad c.blk.kernel.decl.tiles false 0 1 = none)
    ∧ (∃ c, Meets false (.zld { dst := .reg 0, a := .reg 9, b := .reg 8, ty := .bf16 }) Z c ∧ c.act ≠ [] ∧ c.st.engineIdle c.core = true
        ∧ c.lateViolation (regRun .z 0 1) = none ∧ (c.window (.reg 8) 2 16).toOption = some (0x400, tileWin 0x2078f)
        ∧ tileBad c.blk.kernel.decl.tiles false 0 1 = none ∧ c.winRows 0x400 (tileWin 0x2078f) 16 = some rows0 ∧ c.st.rangesWait rows0 = false
        ∧ ∀ r ∈ rows0, c.st.errIn r.1 r.2 = none)
    ∧ (∃ c, Meets false (.zst { a := .reg 9, b := .reg 0, c := .reg 8, d := .reg 4, ty := .bf16 }) Z c ∧ c.act ≠ [] ∧ c.st.engineIdle c.core = true
        ∧ (c.voteFmt (.reg 4)).toOption = some (fmtWord 0x22) ∧ c.lateViolation (regRun .z 0 1) = none ∧ drainOk false .bf16 = true
        ∧ (c.window (.reg 8) 3 16).toOption = some (0x400, tileWin 0x2078f) ∧ c.winRows 0x400 (tileWin 0x2078f) 16 = some rows0
        ∧ c.st.rangesWait rows0 = false ∧ ∀ r ∈ rows0, c.st.plain r.1 r.2 ∧ c.st.errIn r.1 r.2 = none)
    ∧ (∃ c, Meets false (.zcvt { dst := .reg 2, a := .reg 0, b := .reg 4, ty := .bf16 }) Z c ∧ c.act ≠ [] ∧ c.st.engineIdle c.core = true
        ∧ (c.voteFmt (.reg 4)).toOption = some (fmtWord 0x22) ∧ c.lateViolation (regRun .z 2 1 ++ regRun .z 0 1) = none
        ∧ tileBad c.blk.kernel.decl.tiles false 2 1 = none ∧ tileBad c.blk.kernel.decl.tiles false 0 1 = none)
    ∧ (∃ c, Meets false (.zadd { dst := .reg 2, a := .reg 0, b := .reg 4 }) Z c ∧ c.act ≠ [] ∧ c.st.engineIdle c.core = true
        ∧ (c.voteFmt (.reg 4)).toOption = some (fmtWord 0x22) ∧ c.lateViolation (regRun .z 2 1 ++ regRun .z 0 1) = none
        ∧ tileBad c.blk.kernel.decl.tiles false 2 1 = none ∧ tileBad c.blk.kernel.decl.tiles false 0 1 = none)
    ∧ (∀ i ∈ [Instr.sclSetA { a := .uni 12, b := .imm 4 }, .sclSetB { a := .uni 12, b := .imm 4, mods := 1 }], ∃ c, Meets false i Z c ∧ c.act = [0]
        ∧ (c.src .b64 (.uni 12) 0).toNat % 4 = 0 ∧ (lo32 (c.src .b32 (.imm 4) 0)).toNat = 4)
    ∧ ∃ c, Meets false (.fmtVote { dst := .reg 6, a := .reg 4 }) Z c ∧ c.act ≠ [] ∧ c.f.dst = .reg 6 ∧ (c.voteFmt (.reg 4)).toOption = some (fmtWord 0x22) :=
  ⟨meets_of_joins (by decide +kernel), meets_of_joins (by decide +kernel), meets_of_joins (by decide +kernel), meets_of_joins (by decide +kernel),
    meets_of_joins (by decide +kernel), all_meet (by decide +kernel), meets_of_joins (by decide +kernel)⟩

def onEngine0 : List Instr := [.mma { mma0 with g0 := 9 }, .mmaTeam { mma0 with g0 := 9 }, .zclr { g0 := 9 },
  .zld { a := .reg 9, b := .reg 8, ty := .bf16, g0 := 9 }, .zst { a := .reg 9, c := .reg 8, d := .reg 4, ty := .bf16, g0 := 9 },
  .zcvt { a := .reg 1, b := .reg 4, ty := .bf16, g0 := 9 }, .zadd { a := .reg 1, b := .reg 4, g0 := 9 }]
/-- The core's engine works for another group. -/
def Zbusy : State := { Z with cores := [(0, { engine := some { place := 0, group := 1 } })] }
theorem witness_matrix_idle : (∀ i ∈ onEngine0, ∃ c, Meets false i Z c ∧ c.act = [] ∧ c.st.engineIdle c.core = true)
    ∧ (∀ i ∈ onEngine0, ∃ c, Meets false i Zbusy c ∧ c.act = [] ∧ c.st.engineIdle c.core = false)
    ∧ ∀ i ∈ [Instr.sclSetA { a := .uni 12, b := .imm 4, g0 := 9 }, .sclSetB { a := .uni 12, b := .imm 4, mods := 1, g0 := 9 },
        .fmtVote { a := .reg 4, g0 := 9 }], ∃ c, Meets false i Z c ∧ c.act = [] :=
  ⟨all_meet (by decide +kernel), all_meet (by decide +kernel), all_meet (by decide +kernel)⟩
/-- A member is still to come; or the engine is busy. -/
theorem witness_team_waits :
    (let s := { Z with blocks := Z.blocks.map (fun e => (e.1, { e.2 with t := 2, n := 2 })) ++ [(16, { block0 .user {} {} with t := 2, n := 2, member := 1, block := 1 })] }
     ∃ c, Meets false (.mmaTeam mma0) s c ∧ c.act = [0] ∧ ∃ e ∈ c.atTeam.blocks, e.2.part = c.blk.part ∧ e.2.serial = c.blk.serial ∧ e.2.team = c.blk.team
      ∧ (c.atTeam.pair e.1 c.group).teamWait = false)
    ∧ ∃ c, Meets false (.mmaTeam mma0) Zbusy c ∧ c.act = [0] ∧ ∃ e ∈ c.atTeam.blocks, e.2.part = c.blk.part ∧ e.2.serial = c.blk.serial
      ∧ e.2.team = c.blk.team ∧ c.atTeam.engineIdle (coreOf e.1) = false :=
  ⟨meets_of_joins (by decide +kernel), meets_of_joins (by decide +kernel)⟩

/-! #### System instructions -/

/-- A supervisor's lane beside a block of its partition: handles and arguments in registers. -/
def V (m : Mode) : State :=
  { unit m .execute { half0 with lanes := [(0, lane1)], regs := [(4, 0x1000), (8, 5), (10, 0), (12, 0x100)] } {} with
      blocks := [(0, block0 m { half0 with lanes := [(0, lane1)], regs := [(4, 0x1000), (8, 5), (10, 0), (12, 0x100)] } {}),
                 (1, block0 .user half0 {})]
      mbox := 0x40000000, mboxn := 8 }
theorem witness_sysregs :
    (∃ c, Clear (.sysrd { dst := .reg 6, a := .imm 3, ty := .b32 }) (V .supervisor) c ∧ c.blk.kernel.mode ≠ .user
      ∧ (sysWidth (sysIndex { dst := .reg 6, a := .imm 3, ty := .b32 })).isSome = true ∧ c.f.dst = .reg 6)
    ∧ (∀ i ∈ [Instr.syswr { a := .imm 3, b := .reg 8, ty := .b32 }, .sampleWrite { a := .imm 0x15, b := .reg 8, ty := .b32 }], ∃ c, Clear i (V .supervisor) c
      ∧ c.act ≠ [] ∧ c.blk.kernel.mode ≠ .user ∧ sysMask 3 5 ≠ 0 ∧ ∀ l ∈ c.act, c.src c.f.ty c.f.b l = 5)
    ∧ (∃ c, Clear (.syswr { a := .imm 3, b := .imm 0, ty := .b32 }) (V .supervisor) c ∧ c.act ≠ [] ∧ sysMask 3 0 = 0
      ∧ ∀ l ∈ c.act, c.src c.f.ty c.f.b l = 0)
    ∧ ∃ c, Clear (.syswr { a := .imm 9, b := .reg 8, ty := .b32, g0 := 9 }) (V .firmware) c ∧ c.act = [] ∧ c.blk.kernel.mode = .firmware :=
  ⟨clear_of_meets (by decide +kernel), all_clear (by decide +kernel), clear_of_meets (by decide +kernel), clear_of_meets (by decide +kernel)⟩

/-- In a given mode the machine comes to the instruction, with a legal encoding or without. -/
def arrives (i : Instr) (s : State) (leg : Bool) (m : Mode) : Bool :=
  match s.begin? i with
  | some c => decide (legal c.sl i = leg ∧ c.blk.kernel.mode = m)
  | none => false
theorem arrives_spec {i s leg m} (h : arrives i s leg m = true) : ∃ c, s.begin? i = some c ∧ legal c.sl i = leg ∧ c.blk.kernel.mode = m := by
  unfold arrives at h
  split at h
  · exact ⟨_, ‹_›, by simpa using h⟩
  · cases h
theorem witness_traps :
    (∀ i ∈ [Instr.sysrd { dst := .reg 6, a := .imm 3, ty := .b32 }, .syswr { a := .imm 3, b := .reg 8, ty := .b32 }, .eret { a := .reg 4, b := .reg 8 },
        .tret { dst := .reg 6, a := .reg 4 }, .tlbinv { a := .reg 4, b := .reg 8 }, .tlbinvAll { a := .reg 8 },
        .ctxsave { dst := .reg 6, a := .reg 4, b := .reg 8, c := .reg 9 }, .ctxload { dst := .reg 6, a := .reg 4, b := .reg 8 },
        .halt { dst := .reg 6, a := .reg 4 }, .l1wb {}, .fwcall { dst := .reg 6, a := .imm 0, b := .reg 8 }, .sysfence {}],
      arrives i (X2 .user) true .user = true)
    ∧ arrives (.eret { a := .reg 4, b := .reg 8 }) (X2 .supervisor) true .supervisor = true
    ∧ arrives (.fwcall { dst := .reg 6, a := .imm 0, b := .reg 8 }) (X2 .firmware) true .firmware = true
    ∧ arrives (.add { ok with g0 := 8 }) (X2 .user) false .user = true := by decide +kernel

theorem witness_maintenance :
    (∃ c, Clear (.tlbinv { a := .reg 4, b := .reg 8 }) (V .supervisor) c ∧ c.blk.kernel.mode ≠ .user ∧ c.act = [0]
      ∧ ∀ l ∈ c.act, canonical (c.src .b64 (.reg 4) l) = true ∧ c.word (.reg 8) l ≤ 0xffff)
    ∧ (∃ c, Clear (.tlbinvAll { a := .imm (-1) }) (V .supervisor) c ∧ c.blk.kernel.mode ≠ .user ∧ ∀ l ∈ c.act, c.word (.imm (-1)) l = 0xffffffff)
    ∧ (∀ i ∈ [Instr.sysfence {}, .l1wb {}], ∃ c, Clear i (V .supervisor) c ∧ c.blk.kernel.mode ≠ .user ∧ (V .supervisor).invals = [] ∧ c.act = [0])
    ∧ let s := { V .supervisor with invals := [{ id := 4, asid := some 0 }] }
      ∃ c, Clear (.sysfence {}) s c ∧ c.blk.kernel.mode ≠ .user ∧ ∃ v ∈ s.invals, ∃ l ∈ c.act, v.own = c.own l :=
  ⟨clear_of_meets (by decide +kernel), clear_of_meets (by decide +kernel), all_clear (by decide +kernel), clear_of_meets (by decide +kernel)⟩

/-- A lane of the access slice waits for the answer of tag 77. -/
def waitingCall : Call := { tag := 77 }
def F : State :=
  let h : Half := { lanes := [(0, { lane1 with wait := .fwcall 77 { dst := .reg 6 } })] }
  { V .firmware with blocks := [(0, { block0 .firmware { half0 with lanes := [(0, lane1)], regs := [(4, 77), (8, 5)] } {} with serial := 1 }),
                                (1, { block0 .supervisor h {} with serial := 0 })], calls := [waitingCall] }
theorem witness_calls_to_firmware :
    (∃ c, Clear (.fwcall { dst := .reg 6, a := .imm 0, b := .reg 4 }) (V .supervisor) c ∧ c.blk.kernel.mode = .supervisor ∧ c.act = [0]
      ∧ c.word (.imm 0) 0 ≤ 65535 ∧ (V .supervisor).mailRoom = true)
    ∧ (∃ c, Clear (.fwcall { dst := .reg 6, a := .imm 0, b := .reg 4, g0 := 9 }) (V .supervisor) c ∧ c.blk.kernel.mode = .supervisor ∧ c.act = [])
    ∧ (∃ c, Clear (.eret { a := .reg 4, b := .reg 8 }) F c ∧ c.blk.kernel.mode = .firmware ∧ c.act = [0] ∧ ∀ l ∈ c.act, c.unknownTag l = false)
    ∧ F.pendingCall 77 = some waitingCall ∧ F.callerOf waitingCall = some (1, { dst := .reg 6 }) ∧ (F.pair 1 0).run = .running :=
  ⟨clear_of_meets (by decide +kernel), clear_of_meets (by decide +kernel), clear_of_meets (by decide +kernel), by decide +kernel⟩

/-- x12 names the pair of slot 1, with a sequence of 0. -/
theorem witness_halts :
    (∀ i ∈ [Instr.halt { dst := .reg 6, a := .reg 12 }, .haltSafe { dst := .reg 6, a := .reg 12, mods := 1 }, .tret { dst := .reg 6, a := .reg 12 },
        .ctxsave { dst := .reg 6, a := .reg 12, b := .reg 4, c := .reg 8 }, .ctxload { dst := .reg 6, a := .reg 12, b := .reg 4 }],
      ∃ c, Clear i (V .supervisor) c ∧ c.blk.kernel.mode ≠ .user ∧ c.act = [0] ∧ malformed (c.handleAt 0) = false
        ∧ (handleWord (c.handleAt 0)).level = 0 ∧ c.handleCode (V .supervisor) (handleWord (c.handleAt 0)) = 0
        ∧ (V .supervisor).targetStopped (handleWord (c.handleAt 0)) = false)
    ∧ (∃ c, Clear (.ctxsaveFree { dst := .reg 6, a := .lit, b := .reg 4, c := .reg 8, mods := 1, lit := some 0x10100 }) (V .supervisor) c ∧ c.act = [0]
        ∧ malformed (c.handleAt 0) = false ∧ (handleWord (c.handleAt 0)).level ≠ 0)
    ∧ (∃ c, Clear (.ctxload { dst := .reg 6, a := .lit, b := .reg 4, lit := some 0x10200 }) (V .supervisor) c ∧ c.act = [0]
        ∧ malformed (c.handleAt 0) = false ∧ c.loadCode (V .supervisor) (handleWord (c.handleAt 0)) = 0)
    ∧ let s := { V .supervisor with blocks := [((V .supervisor).blocks.headD (0, {})), (1, block0 .user half0 { run := .stopped .halt })] }
      ∃ c, Clear (.tret { dst := .reg 6, a := .reg 12 }) s c ∧ c.act = [0] ∧ malformed (c.handleAt 0) = false ∧ c.handleCode s (handleWord (c.handleAt 0)) = 0
        ∧ s.pairStopped 1 0 = true ∧ s.pinned 1 0 = false ∧ (s.pair 1 0).teamWait = false ∧ (s.block? 1).map s.unitAway = some false :=
  ⟨all_clear (by decide +kernel), clear_of_meets (by decide +kernel), clear_of_meets (by decide +kernel), clear_of_meets (by decide +kernel)⟩

/-! #### Firmware, the scheduler and launches -/

/-- Partition 0 with a granule of memory, a granule of code, one queue and cluster 0; a call of the given code and argument waits. -/
def part0 : PartRec := { valid := true, clusters := 1, ways := 1, memmap := [0], codefirst := 1, codecnt := 1, qcount := 1 }
def call (code : Nat) (arg : DWord) : Call := { tag := 0x100, code, arg }
def D (code : Nat) (arg : DWord) : State := { sec := .run, parts := [(0, part0)], tlb := [page], calls := [call code arg], qtab := 0x80000000 }
/-- Some answer was given without waiting. -/
def reads (s : State) (c : Call) (n : Nat) : Bool :=
  match s.readArg c n with
  | .ok (some bs) => decide (bs = List.replicate n 0)
  | _ => false
theorem reads_spec {s c n} (h : reads s c n = true) : s.readArg c n = .ok (some (List.replicate n 0)) := by
  unfold reads at h
  split at h
  · simp_all
  · cases h
def places (s : State) (c : TCtx) (va : DWord) (n : Nat) : Bool :=
  match s.argPages c va (pagesOf n) n with
  | .ok ps => decide (ps = [(0x100000, n)])
  | _ => false
theorem places_spec {s c va n} (h : places s c va n = true) : s.argPages c va (pagesOf n) n = .ok [(0x100000, n)] := by
  unfold places at h
  split at h
  · simp_all
  · cases h
theorem witness_services :
    (∀ k ∈ [0x0000, 0x0001, 0x0010, 0x0011, 0x0020, 0x0030, 0x0031, 0x0040, 0x0041, 0x1234], (D k 0x1000).pendingCall 0x100 = some (call k 0x1000))
    ∧ (D 1 0x1000).argPages (call 1 0x1000).ctx 0x1000 (pagesOf 64) 64 = .ok [(0x100000, 64)]
    ∧ (D 0x20 0x1000).argPages (call 0x20 0x1000).ctx 0x1000 (pagesOf 64) 64 = .ok [(0x100000, 64)] ∧ (D 0x20 0).measure.length = 64
    ∧ (D 0x10 0x1000).readArg (call 0x10 0x1000) 256 = .ok (some (List.replicate 256 0))
    ∧ (D 0x30 0x1000).readArg (call 0x30 0x1000) 64 = .ok (some (List.replicate 64 0)) ∧ loadRequestBad (List.replicate 64 0) = false
    ∧ (D 0x40 0x1000).readArg (call 0x40 0x1000) 64 = .ok (some (List.replicate 64 0)) ∧ (D 0x10 0).freeKey 0 = some 0
    ∧ (D 0x10 0).acceptsBefore (call 0x10 0) = false
    ∧ ({ D 0x10 0 with calls := [call 0x10 0, { call 0x10 0 with tag := 0x101, own := { lane := 1 } }] } : State).acceptsBefore
        { call 0x10 0 with tag := 0x101, own := { lane := 1 } } = true :=
  ⟨by decide +kernel, places_spec (by decide +kernel), places_spec (by decide +kernel), by decide +kernel, reads_spec (by decide +kernel),
    reads_spec (by decide +kernel), by decide +kernel, reads_spec (by decide +kernel), by decide +kernel, by decide +kernel, by decide +kernel⟩
/-- FIPS 202: SHAKE256 of the empty message. -/
theorem test_shake256 : (shake256 []).take 8 = [0x46, 0xb9, 0xdd, 0x2b, 0x0b, 0xa8, 0x8d, 0x13] := by decide +kernel
def key0 : List Byte :=
  leBytes 57 0x806125e8afbe1afad16c0fe5f13d78d61b06c7469b7624f1ed7867e9805da70e8a1f0ea7852434a11d6ad46a61ec87e72cfd61b4599b44d75f
def sig0 : List Byte :=
  leBytes 114 0x0026652eff0858d9718c2663735af04911b6dbf4a013a13085dacdc7c59ab92d8504410bc08d5d925b342d1c5d6c003ef69d8ab1d428200dff8039fd1ba2d09bc528787dd4dd227afdf28182624f033f232b1f591ad423d84f07d2343e844a50fb2dae76f9880d3c021f2557e4bbf6373a53
/-- RFC 8032, 7.4: the signature of the empty message. -/
theorem test_ed448 : ed448Verify key0 [] sig0 = true := by decide +kernel
/-- A key, and a certificate that it has signed. -/
def owner0 : List Byte :=
  leBytes 57 0x0080c4321cb2699166f1a829259d8f503743f0cfceca127354d652fe62b9657f9afd7defac07f809e1bdae42a4f1d43282b2498a8703fe3a5b
def cert0 : List Byte :=
  List.replicate 64 0 ++
    leBytes 114 0x001f98ab4df6fecbfcae256d86b981597d475a270c9bd1a0ef1fffd12b33a8a4b3092663c3afa5b5c0a8e00bad3dec808dcff7e104eb44ce3a00d9c82df7ab0882b134e97e485a1a845a8433afd4b25d80e7f200cabdd6c23dc2fae6c7fdb159a2e945ff1e183682c00b0e79fb3579d3ae9b ++ List.replicate 78 0
/-- A certificate with a reserved byte is bad; one that the owner has signed is not. -/
theorem witness_certificates : certBad [] (List.replicate 57 0 ++ [1] ++ List.replicate 198 0) = true ∧ certBad owner0 cert0 = false := by
  refine ⟨?_, by decide +kernel⟩
  unfold certBad
  rw [Bool.or_eq_true]
  exact Or.inl (by decide +kernel)
def faults (s : State) (c : Call) : Bool :=
  (match s.readArg c 64 with
   | .error () => true
   | _ => false) && (match s.argPages c.ctx c.arg (pagesOf 64) 64 with
   | .fault => true
   | _ => false)
/-- An argument that does not translate; keys that are held; a key store that is full; a descriptor; an image that is refused. -/
theorem witness_services_more :
    faults (D 0x40 0xffff800000000000) (call 0x40 0xffff800000000000) = true
    ∧ (let s : State := { D 0x11 3 with kkeys := [(3, [1])], tkeys := [(3, [1])] }
       (smFind s.kkeys 3).isSome = true ∧ (smFind s.tkeys 3).isSome = true)
    ∧ ({ D 0x10 0 with kkeys := (List.range 64).map fun k => (k, []) } : State).freeKey 0 = none
    ∧ (let s : State := { D 0x31 0 with mem := Memory.write [] 0x40000000 [0x4b, 0x44, 0x53, 0x43] }
       s.isDesc 0 (descAddr (s.partRec 0) 0) = true ∧ s.descNamed 0 (descAddr (s.partRec 0) 0) = false)
    ∧ ((D 0x30 0).loadKernel 0 .user (call 0x30 0).ctx 0 []).isSome = true
    ∧ ((D 0x30 0).loadKernel 0 .firmware { part := 0, asid := 0, root := 0, user := false } 0 []).isSome = true := by decide +kernel
theorem witness_submissions :
    let r : PartRec := { part0 with part := 1, clusters := 2, ways := 2, memmap := [2], codefirst := 3, qfirst := 1 }
    (D 0 0).sec = .run ∧ (sysWidth 3).isSome = true ∧ ((D 0 0).partRec 0).valid = true
      ∧ recordOk r = true ∧ (∀ e ∈ (D 0 0).parts, e.1 ≠ r.part → e.2.valid = true → recordsClash e.2 r = false)
      ∧ (D 0 0).blocks = [] ∧ (D 0 0).packets = [] := by decide +kernel

/-- Queue 0's descriptor at the table's start: its ring at 0x1000, LOGN 2, enabled, WIDX 1. -/
def Q : State := { D 0 0 with mem := ((Memory.write [] 0x80000001 [0x10]).write 0x80000008 [2, 0, 1]).write 0x80000010 [1] }
theorem witness_queues :
    Q.queuePart 0 = some 0 ∧ Q.heldOver (.glob (Q.queueAt 0)) 64 = false ∧ Q.ownedOver none (.glob (Q.queueAt 0)) 64 = false
    ∧ Q.heldOver (.glob 0x1000) 64 = false ∧ Q.ownedOver none (.glob 0x1000) 64 = false
    ∧ (let d := Q.mem.read 0x80000000 64
       field d 10 1 % 4 = 1 ∧ queueBroken (Q.partRec 0) d (smGet 0 Q.lastIdx 0) = false ∧ field d 24 8 < field d 16 8
       ∧ queueBroken (Q.partRec 0) d 2 = true
       ∧ Q.packetCode (packetOf (Q.mem.read 0x1000 64) 0 0 0 0 0) (Q.mem.read 0x1000 64) = some 1)
    ∧ (D 0 0).queuePart 0 = some 0 ∧ field ((D 0 0).mem.read 0x80000000 64) 10 1 % 4 ≠ 1 := by decide +kernel

/-- A taken packet whose launch of two blocks is open, its kernel of a given class and split. -/
def packet0 : Packet := { queue := 0, idx := 0, wb := 256, n := 2, serial := some 0 }
def launch0 (cls : Cls) (ureg : Nat) : Launch := { kernel := { decl := { cls, ureg } }, n := 2, src := .packet 0 0 }
def P (cls : Cls) (ureg : Nat) : State := { D 0 0 with packets := [packet0], launches := [launch0 cls ureg] }
theorem witness_heads : (P .weak 1).headOf 0 = some packet0
    ∧ (let p : Packet := { packet0 with waitAddr := 0x1000, waitVal := 5 }
       let x : Tlb := { page with core := 1024, u := false }
       let s : State := { P .weak 1 with packets := [p], tlb := [x] }
       s.headOf 0 = some p ∧ s.translate (schedCtx p.part (s.mem.readNat (s.qtab + 64 * p.queue + 12) 2) (s.sysreg p.part 0x00a).toNat)
           true false p.waitAddr = .ok x ∧ x.remote = false
       ∧ s.heldOver (.glob 0x100000) 8 = false ∧ s.ownedOver none (.glob 0x100000) 8 = false)
    ∧ (let p : Packet := { packet0 with waitAddr := 0xffff000000000000, waitVal := 5 }
       let x : Tlb := { remotePage with core := 1024, u := false }
       let s : State := fabric { P .weak 1 with packets := [p], tlb := [x] }
       s.headOf 0 = some p ∧ s.translate (schedCtx p.part (s.mem.readNat (s.qtab + 64 * p.queue + 12) 2) (s.sysreg p.part 0x00a).toNat)
           true false p.waitAddr = .ok x ∧ x.remote = true
       ∧ (s.peer? p.part x.peer).map (fun e => (e.outOk, decide (s.portsTo e ≠ []))) = some (true, true) ∧ s.remotes = [])
    ∧ ((P .weak 1).heads 0).map (fun h => (h.sub.isNone, (P .weak 1).headCoresBut ((P .weak 1).claims 0 h.cls) h, h.opened, h.la))
      = [(true, some [0], true, launch0 .weak 1)] ∧ (launch0 .weak 1).t = [0].length ∧ [0].Nodup
    ∧ (P .weak 1).launch? 0 0 = some (launch0 .weak 1) := by decide +kernel
/-- A concurrent head with a plan of empty cores, one whose first core holds a block of another split, and a head that finds every
core of its cluster carved otherwise. -/
theorem witness_placement :
    (∀ full ∈ [false, true], let s : State := { P .concurrent 1 with blocks := if full then [(0, block0 .user half0 {})] else []
                                                                     cores := [(0, { split := some (5, 0) })] }
     (coresOf (s.partRec 0)).all (fun c => (s.core c).reserved.isNone) = true
       ∧ ((s.heads 0).find? (fun x => x.sub.isNone && decide (x.la.kernel.decl.cls = .concurrent ∧ x.la.placed = []))).map (·.la) = some (launch0 .concurrent 1)
       ∧ (s.plan (launch0 .concurrent 1)).map (fun p => decide (0 ∈ p.flatten)) = some true ∧ s.drainsFor 0 (launch0 .concurrent 1).src = false
       ∧ (s.core 0).split ≠ some (launch0 .concurrent 1).kernel.decl.split ∧ (s.core 0).drain = none ∧ (s.declsOn 0 = [] ↔ full = false))
    ∧ (let s : State := { P .weak 5 with blocks := (List.range 4).map (fun c => (16 * c, block0 .user half0 {}))
                                         cores := (List.range 4).map fun c => (c, { split := some (1, 1) }) }
       ((s.heads 0).find? (fun x => x.sub.isNone && !x.la.heldBack && !x.la.aborting && (s.headCores x).isNone)).map
           (fun h => (h.la.kernel.decl.cls, h.la.kernel.decl.split, h.la.t, s.drainsFor 0 h.la.src)) = some (.weak, (5, 0), 1, false)
       ∧ (coresOf (s.partRec 0)).all (fun c => decide ((s.core c).drain = none ∧ (s.core c).reserved = none ∧ (s.core c).split ≠ some (5, 0)
           ∧ s.declsOn c ≠ [] ∧ s.busyDecls c ≠ [])) = true ∧ coresOf (s.partRec 0) ≠ []) := by decide +kernel

/-- A block that has been placed and not started, one that is over, and their launch. -/
theorem witness_launches :
    (let b : Block := { block0 .user {} {} with started := false }
     let s : State := { P .weak 1 with blocks := [(0, b)] }
     s.launch? 0 0 = some (launch0 .weak 1) ∧ (launch0 .weak 1).aborting = false ∧ (launch0 .weak 1).startAt ≠ some s.clk
       ∧ (launch0 .weak 1).kernel.decl.cls ≠ .concurrent ∧ s.block? 0 = some b ∧ b.part = 0 ∧ b.serial = 0 ∧ b.started = false ∧ b.halted = false)
    ∧ (let b : Block := { block0 .user {} {} with started := false }
       let la : Launch := { launch0 .concurrent 1 with placed := [0, 1] }
       let s : State := { P .weak 1 with blocks := [(0, b), (16, { b with block := 1 })], launches := [la] }
       s.launch? 0 0 = some la ∧ la.placed.length * la.t = la.n ∧ ∀ e ∈ s.blocks, e.2.halted = false)
    ∧ (let b : Block := { block0 .user {} {} with block := 1, started := false }
       let la : Launch := { launch0 .parallel 1 with placed := [0, 1] }
       let s : State := { P .weak 1 with blocks := [(0, { b with block := 0, started := true }), (16, b)], launches := [la] }
       s.launch? 0 0 = some la ∧ s.block? 16 = some b ∧ b.team = 1 ∧ la.src = .packet 0 0
         ∧ ∀ k < b.team, k ∈ la.placed ∧ ∀ e ∈ s.blocks, e.2.team = k → e.2.started = true)
    ∧ (let b : Block := { pairs := [(0, {})] }
       let s : State := { P .weak 1 with blocks := [(0, b)] }
       s.block? (placeOf 0 0) = some b ∧ s.blockOver (placeOf 0 0) b = true ∧ b.own = none ∧ b.stolen = none)
    ∧ (let la : Launch := { launch0 .weak 1 with ended := 2, adds := [{ pa := 0x100000 }, { pa := 0x100000, b := 1 }] }
       let s : State := { P .weak 1 with launches := [la] }
       s.launch? 0 0 = some la ∧ s.launchOver la = true ∧ la.src = .packet 0 0 ∧ la.aborting = false) := by decide +kernel
/-- ABORT of serial 0 with GO set, in the header of a trap ring at 0x2000: of a launch that runs, and of one that is aborted and
whose completion word is written. -/
theorem witness_abort : ∀ gone ∈ [false, true], let la : Launch := { launch0 .weak 1 with aborting := gone }
    let s : State := { P .weak 1 with sys := [(0x001, 0x2000), (0x002, 4)], mem := Memory.write [] 0x201f [1], launches := [la]
                                      packets := if gone then [] else [packet0] }
    s.trapRing 0 = true ∧ (s.sysreg 0 0x001).toNat + 28 = 0x201c ∧ s.heldOver (.glob 0x201c) 4 = false ∧ s.ownedOver none (.glob 0x201c) 4 = false
      ∧ (∀ k < 4, s.tagAt (.glob (0x201c + k)) = none) ∧ (s.mem.readNat 0x201c 4).testBit 24 = true ∧ s.mem.readNat 0x201c 4 % 2 ^ 24 = 0
      ∧ s.launch? 0 0 = some la ∧ la.src = .packet 0 0 ∧ (gone = true → (s.endLaunch 0 0).abortDue 0 0 = false) := by decide +kernel

/-- A submission of one record of one row, whose kernel-table entry names an image. -/
def sub0 (rows : Word) (st : RecState) : Submission :=
  { id := 3, ktab := List.replicate 128 0, recs := [{ words := [0, rows, 0, 0, 0, 0, 0, 0], state := st }] }
def W (rows : Word) (st : RecState) (ready : List (Nat × Nat × Nat)) : State := { D 0 0 with subs := [sub0 rows st], ready }
theorem witness_records :
    (((W 0x100000 .outside []).nextEntry 0) = some (sub0 0x100000 .outside, 0) ∧ (W 0x100000 .outside []).window = []
      ∧ (W 0x100000 .outside []).sub? 3 = some (sub0 0x100000 .outside)
      ∧ 0 < ((W 0x100000 .outside []).sysreg 0 0x009).toNat % 2 ^ 11 ∧ recRows ((sub0 0x100000 .outside).slot 0).words = 1)
    ∧ ((W 0 .outside []).nextEntry 0 = some (sub0 0 .outside, 0) ∧ recRows ((sub0 0 .outside).slot 0).words = 0
      ∧ (sub0 0 .outside).teamRuns 0 = false ∧ (W 0 .outside []).sub? 3 = some (sub0 0 .outside) ∧ (W 0 .outside []).headerBusy (sub0 0 .outside).header = false)
    ∧ (let s := W 0x100000 .ready [(3, 0, 0)]
       s.ready.find? (fun e => decide (s.listOf e = some (0, 0))) = some (3, 0, 0)
       ∧ s.sub? 3 = some (sub0 0x100000 .ready) ∧ s.readyCores (s.claims 0 0) (3, 0, 0) 0 = some [0]
       ∧ (s.subLaunch (sub0 0x100000 .ready) 0).1.t = [0].length)
    ∧ (let s : State := { W 0x100000 .ready [(3, 0, 0)] with parts := [(0, { part0 with clusters := 3 })] }
       clustersOf (s.partRec 0) = [0, 1] ∧ (s.ready.filter fun e => decide (s.listOf e = some (0, 1))) = []
       ∧ s.ready.find? (fun e => decide (s.listOf e = some (0, 0))) = some (3, 0, 0) ∧ s.sub? 3 = some (sub0 0x100000 .ready)
       ∧ s.readyCores (s.claims 0 0) (3, 0, 0) 1 = some [4]) := by decide +kernel

/-! #### Results, streams, waits and stops -/

/-- A read of lane 0 with four bytes. -/
def out0 (d : Dest) : Out := { id := 5, dst := d, bytes := [1, 2, 3, 4].map .byte }
def remote0 (op : ROp) (d : Dest) : Remote := { id := 5, op, dst := d, sent := some 0 }
theorem witness_results :
    (∀ d ∈ [Dest.reg 12, .uni 12, .queue 0], let s : State := { A with outs := [out0 d] }
      s.outs.find? (fun o => decide (o.id = 5 ∧ o.mc = none)) = some (out0 d) ∧ s.placeOfOwner (out0 d).own = some 0
        ∧ (out0 d).bad = none)
    ∧ (∀ k ∈ [5, 6], let s : State := { A with outs := [out0 (.uni 12)], blocks := A.blocks.map fun e => (e.1, { e.2 with
          pairs := e.2.pairs.map fun p => (p.1, { p.2 with acc := { p.2.acc with uniAt := [(12, k)] } }) }) }
      s.outs = [out0 (.uni 12)] ∧ s.placeOfOwner {} = some 0 ∧ smGet 0 (s.pair 0 0).acc.uniAt 12 = k)
    ∧ (∀ r ∈ [remote0 .read (.reg 12), remote0 .read (.queue 0), remote0 .write .drop], let s : State := { A with remotes := [r] }
      s.remotes.find? (fun r => decide (r.id = 5 ∧ r.sent.isSome)) = some r ∧ s.placeOfOwner r.own = some 0 ∧ s.toSelf r = false
        ∧ r.head.tss = false ∧ r.unlisted = false ∧ ∀ x ∈ s.remotes, x.sent.isSome = true)
    ∧ (let o := { out0 (.queue 0) with mc := some 0 }
       let s : State := { A with outs := [o] }
       s.outs.filter (fun o => o.mc.isSome && !o.bytes.isEmpty
          && decide (o.own.part = 0 ∧ o.own.serial = 0 ∧ o.own.group = 0 ∧ o.own.lane = 0)
          && ((s.placeOfOwner o.own).bind s.block?).any fun b => decide (b.team = 0)) = [o]
        ∧ s.placeOfOwner o.own = some 0 ∧ (s.block? 0).isSome = true ∧ o.bad = none) := by decide +kernel

def blk (s : State) (p : Nat) : Block := (s.block? p).getD {}
/-- A machine whose pair is given, with lane 0 live in each slice where it says so. -/
def pairOf (p : Pair) : State := { A with blocks := [(0, { block0 .user {} {} with pairs := [(0, p)] })] }
def only (x : Lane) : Half := { lanes := [(0, x)] }
/-- The bytes of some instructions from address 0, where the sections of the kernel start. -/
def code (is : List Instr) : Memory := Memory.write [] 0 (is.flatMap fun i => bytesOfWords (encode i))
def stream0 : Stream := { desc := [0x1000, 0, 4, 0, 0, 0, 0x10003, 1], queue := 1, mask := 1 }
def held0 : Held := { loc := .glob 0x100000 }
theorem witness_stream_row : let s := pairOf { live := true, acc := only lane1, exe := only lane1, streams := [stream0] }
    s.block? (placeOf 0 0) = some (blk s 0) ∧ ((blk s 0).pair 0).streams.find? (fun x => decide (x.queue = 1)) = some stream0
      ∧ ((blk s 0).pair 0).run = .running
      ∧ ∀ l ∈ maskLanes stream0.mask, ((blk s 0).pair 0).exe.live l = true
        ∧ (((blk s 0).pair 0).queue 1 l).length + (if isWide stream0.ty then 2 else 1) ≤ (blk s 0).depth 1 ∧ inFabric (stream0.addr l) = false
        ∧ s.translate ((blk s 0).tctx 0) true false (stream0.addr l) = .ok page
        ∧ s.ownedOver none (.glob (page.addr (stream0.addr l))) (accBytes stream0.ty) = false
        ∧ s.errIn (.glob (page.addr (stream0.addr l))) (accBytes stream0.ty) = none := by decide +kernel
/-- The pair's lanes go on, or have all exited: it ends with the store's data. -/
theorem witness_store_data : ∀ life ∈ [Life.live, .exited],
    let s := { pairOf { live := true, acc := only { lane1 with life }, exe := only { lane1 with life }, queues := filled 13 5 } with held := [held0] }
    s.block? (placeOf 0 0) = some (blk s 0) ∧ ((blk s 0).pair 0).run = .running ∧ held0.own = (blk s 0).owner 0 0
      ∧ held0.n = accBytes held0.ty ∧ 1 ≤ (((blk s 0).pair 0).queue 13 0).length ∧ (∀ k < held0.n, s.tagAt (locAdd held0.loc k) = none)
      ∧ held0.data = none ∧ held0.retry = false ∧ held0.void = false ∧ held0.remote = false ∧ s.errIn held0.loc held0.n = none ∧ s.remotes = [] := by
  decide +kernel

/-- The access slice waits to put into the full `q0`, and the execute slice to take from the empty `q1`. -/
def stuck : State :=
  { pairOf { live := true, acc := { only lane1 with regs := [(4, 0x1000)] }, exe := only { lane1 with pc := 12 }, queues := [(0, List.replicate 8 {})] }
      with mem := code [.ldQ { dst := .queue 0, a := .reg 4, b := .imm 0, ty := .b32 }, .mov { dst := .reg 6, a := .queue 1, ty := .b32 }] }
/-- A store of a lane that has exited the execute slice waits for data that no one will put into `q13`. -/
def starving : State := { pairOf { live := true, acc := only lane1, exe := only { lane1 with life := .exited } } with held := [held0] }
def joining : Pair := { live := true, acc := only { lane1 with wait := .join 1 0 }, exe := only { lane1 with wait := .join 1 0 } }
theorem witness_deadlocks :
    (starving.starved 0 0 = some held0 ∧ (starving.pair 0 0).run = .running)
    ∧ (stuck.starved 0 0 = none ∧ stuck.decoupled 0 0 = some (0, 1)) ∧ (A.starved 0 0 = none ∧ A.decoupled 0 0 = none)
    ∧ (∀ p ∈ [joining, { joining with exe := { lanes := [(0, { lane1 with wait := .join 1 0 }), (1, { lane1 with pc := 24, wait := .rendezvous })]
                                               sets := [(1, { members := 3, waiters := 1, state := jWaiting })] } }],
       let s := pairOf p
       let b := blk s 0
       let h := (b.pair 0).exe
       s.block? 0 = some b ∧ (b.pair 0).live = true ∧ (b.pair 0).run = .running ∧ (b.pair 0).teamWait = false ∧ h.liveLanes b.w ≠ []
         ∧ (∀ l ∈ h.liveLanes b.w, (h.lane l).wait.inJoin = true) ∧ (∀ n < 16, (h.set n).waiters = (h.set n).members → (h.set n).members = 0)
         ∧ ∀ l ∈ h.liveLanes b.w, (h.lane l).wait = .rendezvous → scopeFull h b.w (s.quadAt b .execute (h.lane l).pc) (h.lane l).pc l = false)
    ∧ (let s := pairOf { joining with acc := only { lane1 with wait := .nap 0 } }
       (s.block? 0).isSome = true ∧ ((s.pair 0 0).acc.lane 0).wait = .nap 0 ∧ 0 ≤ s.clk)
    ∧ (let s := pairOf { joining with exe := { joining.exe with timer := 256 * 4096 } }
       s.waiting 0 0 .execute ≠ [] ∧ (blk s 0).wb * 4096 ≤ ((blk s 0).pair 0).exe.timer)
    ∧ (let w : Wait := .barrier 0x100 (.sp 0 0x100) 1 true {}
       let s := pairOf { live := true, acc := { only { lane1 with wait := w } with timer := 256 * 4096 }, exe := only lane1 }
       (s.waiting 0 0 .access).map (·.lane) = [0] ∧ (((blk s 0).pair 0).acc.lane 0).wait = w ∧ (blk s 0).wb * 4096 ≤ ((blk s 0).pair 0).acc.timer) := by
  decide +kernel

/-- A kernel whose one safe point, at offset 0 of the execute slice, is an instruction with STOP, selected for debugging; breakpoint 0 names it. -/
def debugged : State :=
  let s := pairOf { live := true, acc := only lane1, exe := only lane1 }
  { s with blocks := s.blocks.map fun e => (e.1, { e.2 with kernel := { e.2.kernel with kd := 64, safe := 0x4000, nsafe := 1 } })
           sys := [(0x010, 1), (0x011, 0x3000), (0x012, 4), (0x013, 64), (0x018, 0x100000)]
           mem := (code [.add { dst := .reg 6, a := .reg 4, b := .reg 8, ty := .i32, stop := true }]).write 0x4004 [1] }
theorem witness_breakpoint : let b := blk debugged 0
    debugged.block? 0 = some b ∧ (b.pair 0).live = true ∧ (b.pair 0).run = .running ∧ (b.pair 0).safe = none
      ∧ ((debugged.slotCtx 0 0 .execute 0).map fun e => (e.1, ((e.2.arrive e.1).2.filter fun l => !((b.pair 0).exe.lane l).pass),
          (e.2.arrive e.1).1.stopAt b .execute 0, (e.2.arrive e.1).1.bpsAt b .execute 0, decide ((e.2.arrive e.1).1.block? 0 = some b)))
        = some (.add { dst := .reg 6, a := .reg 4, b := .reg 8, ty := .i32, stop := true }, [0], true, [0], true) := by decide +kernel
theorem witness_stops :
    (∀ w ∈ [SafeWhy.haltSafe, .step], let s := pairOf { joining with safe := some { why := w } }
      s.safeDone 0 0 = true ∧ (s.pair 0 0).safe = some { why := w })
    ∧ (∀ w ∈ [SafeWhy.haltSafe, .step],
        let s : State := { pairOf { joining with safe := some { why := w }, exe := only { lane1 with wait := .held } } with clk := 65536 }
        s.block? 0 = some (blk s 0) ∧ ((blk s 0).pair 0).safe = some { why := w } ∧ ((blk s 0).pair 0).run = .running
          ∧ s.parkLimit (blk s 0).part = 65536 ∧ (((blk s 0).pair 0).exe.lane 0).wait = .held)
    ∧ (let s := { V .supervisor with blocks := (1, block0 .user half0 {}) :: (pairOf { joining with exe := only { lane1 with wait := .halt 0x10100 false {} } }).blocks }
       (∃ x ∈ s.haltWaiters, x.h = 0x10100 ∧ x.safe = false) ∧ (handleWord 0x10100).level ≠ 0 ∧ s.stale (handleWord 0x10100) = false
         ∧ s.targets (handleWord 0x10100) = [1] ∧ (blk s 1).started = true)
    ∧ (let s := { V .supervisor with blocks := (1, { block0 .user half0 {} with started := false })
                    :: (pairOf { joining with exe := only { lane1 with wait := .halt 0x10100 false {} } }).blocks }
       (∃ x ∈ s.haltWaiters, x.h = 0x10100 ∧ x.safe = false) ∧ s.stale (handleWord 0x10100) = false ∧ s.targets (handleWord 0x10100) = [1]) := by decide +kernel

/-! #### Images (R339 to R341, R389) -/

/-- A descriptor of a kernel of one lane whose code is `nop`, and a machine with a stopped pair of it in slot 1. -/
def kd1 : Nat := 0x40000000
def codeMem : Memory :=
  ((((((Memory.write [] kd1 [0x4b, 0x44, 0x53, 0x43]).write (kd1 + 14) [0, 1, 8, 8, 1]).write (kd1 + 24) [1]).write (kd1 + 85) [0x10]).write
    (kd1 + 89) [0x10]).write (kd1 + 96) [64, 0, 0, 0, 64]).write (kd1 + 0x1000) [0x18, 3]
def nopKernel : Kernel := ({ D 0 0 with mem := codeMem } : State).kernelAt 0 kd1
def stoppedBlock : Block :=
  { kernel := nopKernel, n := 1, pairs := [(0, { live := true, run := .stopped .halt, acc := only lane1, exe := only lane1 })] }
def stoppedPair : State :=
  { V .supervisor with
    mem := codeMem, parts := [(0, part0)]
    blocks := [(0, block0 .supervisor { half0 with lanes := [(0, lane1)], regs := [(4, 0x1000), (8, 0x10000), (12, 0x100)] } {}), (1, stoppedBlock)] }
def pairLoaded : State := { stoppedPair with mem := codeMem.write 0x100000 (stoppedPair.pairImage 1 0 stoppedBlock) }
def imageReason (s : State) (i : Instr) (why : State → Ctx → List Byte → Nat) : Option Nat :=
  (s.begin? i).bind fun c => match s.readImage c.imageCtx 0x1000 with
    | .ok (some bs) => some (why s c bs)
    | _ => none
def loadPair : Instr := .ctxload { dst := .reg 6, a := .reg 12, b := .reg 4 }
/-- The state with the block gone and known to its launch. -/
def noBlock : State :=
  let la : Launch := { kernel := nopKernel, n := 1, saved := [stoppedBlock] }
  { stoppedPair with
    blocks := stoppedPair.blocks.take 1, launches := [la], mem := codeMem.write 0x100000 (stoppedPair.blockImage 1 stoppedBlock) }
def loadBlock : Instr := .ctxload { dst := .reg 6, a := .lit, b := .reg 4, lit := some 0x10001 }
def loadCore : Instr := .ctxload { dst := .reg 6, a := .lit, b := .reg 4, lit := some 0x20001 }
set_option maxRecDepth 10000 in
/-- Images of the model's own making are taken: of a pair, of a block. -/
theorem witness_pair_image :
    imageReason pairLoaded loadPair (fun s c bs => s.pairReason (blk s 1) 1 0 0 bs + c.loadCode s (handleWord 0x100)) = some 0 := by
  decide +kernel
set_option maxRecDepth 10000 in
theorem witness_block_image :
    imageReason noBlock loadBlock (fun s c bs => s.blockReason 0 1 1 bs + c.loadCode s (handleWord 0x10001)
      + if (s.savedBlock 0 (bs.take 64)).isSome then 0 else 1) = some 0 := by
  decide +kernel
/-- A header alone: of a core without blocks, of a core with a reserved field, of a pair, and one without a size; and no page. -/
def headed (hd : List Byte) : State := { stoppedPair with mem := codeMem.write 0x100000 hd }
theorem witness_headers :
    (let s := headed [0x45, 0x5a, 0x42, 0x4b, 1, 0, 3]
     (s.begin? loadCore).map (fun c => (c.loadCode s (handleWord 0x20001), malformed (c.handleAt 0),
       match s.readBytes c.imageCtx 0x1000 64 with
       | .ok (some hd) => (coreHeaderBad hd, match s.readBlocks c.imageCtx 0x2000 17 with
         | .ok (some bs) => (bs.length, (s.loadCore 0 1 (handleWord 0x20001) hd bs).2)
         | _ => (1, 1))
       | _ => (true, 1, 1))) = some (0, false, false, 0, 0))
    ∧ (let s := headed [0x45, 0x5a, 0x42, 0x4b, 1, 0, 3, 1]
       (s.begin? loadCore).map (fun c => match s.readBytes c.imageCtx 0x1000 64 with
         | .ok (some hd) => coreHeaderBad hd
         | _ => false) = some true)
    ∧ (let s := { stoppedPair with mem := codeMem.write 0x100030 [64] }
       imageReason s loadPair (fun s _ bs => s.pairReason (blk s 1) 1 0 0 bs) = some 1)
    ∧ (let s := { stoppedPair with mem := codeMem.write 0x100030 [64], blocks := stoppedPair.blocks.take 1 }
       imageReason s loadBlock (fun s _ bs => s.blockReason 0 1 1 bs) = some 1)
    ∧ ∀ i ∈ [loadPair, loadBlock, loadCore], (stoppedPair.begin? i).map (fun c => match stoppedPair.readImage c.imageCtx 0x9000 with
         | .error e => decide (e.code ≠ 0)
         | .ok _ => false) = some true := by decide +kernel
set_option maxRecDepth 10000 in
/-- `ctxsave` of the stopped pair: with too small a buffer, an address that no page maps, another partition's memory, and with room. -/
theorem witness_saves : ∀ e ∈ [(4, 5, (0x1000, 0), none), (4, 0x10000, (0x9000, 0), some ImgReach.fault), (4, 0x10000, (0x2000, 0), some .outside),
      (4, 0x10000, (0x1000, 0), some .ok)],
    let s : State := { stoppedPair with
      tlb := [page, { page with page := 2, frame := 0x80000000 }], parts := [(0, part0), (1, { part0 with part := 1, memmap := [2] })]
      blocks := (0, block0 .supervisor { half0 with lanes := [(0, lane1)], regs := [(4, e.2.2.1.1), (5, e.2.2.1.2), (8, e.2.1), (12, 0x100)] } {})
        :: stoppedPair.blocks.drop 1 }
    (s.begin? (.ctxsave { dst := .reg 6, a := .reg 12, b := .reg e.1, c := .reg 8 })).map (fun c =>
      let h := handleWord (c.handleAt 0)
      let n := (s.pairImage 1 0 (blk s 1)).length
      (c.handleCode s h, s.targetStopped h,
        if c.word (.reg 8) 0 < n then none else some (s.reachImage c.imageCtx true (c.src .b64 (.reg e.1) 0) (pagesOf n) n))) = some (0, true, e.2.2.2) := by
  decide +kernel
set_option maxRecDepth 10000 in
/-- A store without data is held over the bytes that the image would take. -/
theorem witness_save_waits :
    let s : State := { stoppedPair with held := [{ loc := .glob 0x100040 }] }
    (s.begin? (.ctxsave { dst := .reg 6, a := .reg 12, b := .reg 4, c := .reg 8 })).map (fun c =>
      let h := handleWord (c.handleAt 0)
      let n := (s.pairImage 1 0 (blk s 1)).length
      (c.handleCode s h, s.targetStopped h, decide (n ≤ c.word (.reg 8) 0), s.reachImage c.imageCtx true (c.src .b64 (.reg 4) 0) (pagesOf n) n))
      = some (0, true, true, .wait) := by
  decide +kernel
/-- A handle that is stale; a stopped target; a block to halt; a pair that is pinned, and one whose launch has a block of its team saved. -/
theorem witness_halt_codes :
    (V .supervisor).haltWaiters = [] ∧ stoppedPair.haltWaiters = []
    ∧ (∀ e ∈ [(0x100100, 1, false), (0x10100, 0, false)], ((V .supervisor).begin? (.halt { dst := .reg 6, a := .lit, lit := some e.1 })).map (fun c =>
        (malformed (c.handleAt 0), c.handleCode (V .supervisor) (handleWord (c.handleAt 0)), (V .supervisor).targetStopped (handleWord (c.handleAt 0))))
          = some (false, e.2.1, e.2.2))
    ∧ (∀ i ∈ [Instr.halt { dst := .reg 6, a := .reg 12 }, .haltSafe { dst := .reg 6, a := .reg 12, mods := 1 }], (stoppedPair.begin? i).map (fun c =>
        (c.handleCode stoppedPair (handleWord (c.handleAt 0)), stoppedPair.targetStopped (handleWord (c.handleAt 0)))) = some (0, true))
    ∧ (let s : State := { stoppedPair with blocks := stoppedPair.blocks.map fun e => (e.1, { e.2 with pairs := e.2.pairs.map fun p => (p.1, { p.2 with broken := [1] }) }) }
       s.targetStopped (handleWord 0x100) = true ∧ s.pinned 1 0 = true)
    ∧ (let s : State := { stoppedPair with launches := [{ kernel := nopKernel, n := 1, saved := [stoppedBlock] }] }
       s.targetStopped (handleWord 0x100) = true ∧ s.pinned 1 0 = false ∧ (s.block? 1).map s.unitAway = some true) := by decide +kernel

/-! #### Engines -/

/-- Lane 0 of Z at an instruction at address 0, in a team of one that waits at it where it says so. -/
def Zat (i : Instr) (wait : Bool) : State :=
  { Z with mem := code [i], blocks := Z.blocks.map fun e => (e.1, { e.2 with pairs := e.2.pairs.map fun p => (p.1, { p.2 with
      teamWait := wait, exe := { p.2.exe with lanes := [(0, { lane1 with wait := if wait then .rendezvous else .none })] } }) }) }
theorem witness_engine : let s := Zat (.zclr { dst := .reg 0 }) false
    s.engineIdle 0 = true ∧ (s.engineOrder 0).findSome? (fun e => s.matrixAt e.1 e.2) = some ({ sl := .execute }, .zclr { dst := .reg 0 })
      ∧ (s.block? 0).isSome = true ∧ s.barred 0 0 .execute 0 (((blk s 0).pair 0).exe.liveLanes (blk s 0).w) = false := by
  decide +kernel
def teamPlaces (s : State) : List Nat :=
  (s.blocks.filter fun e => decide (e.2.part = 0 ∧ e.2.serial = 0 ∧ e.2.team = 0)).map (·.1)
def awake (s : State) : State := (teamPlaces s).foldl (fun s p => s.wakeTeam p 0) s
def members (s : State) : List (Instr × Ctx) := (teamPlaces s).filterMap fun p => (awake s).memberCtx p 0
def formatWords (m : Instr × Ctx) : Option Word × Option Word :=
  (vote m.2.act (fun l => lo32 (m.2.src .b32 m.2.f.c l)), vote m.2.act (fun l => lo32 (m.2.src .b32 m.2.f.d l)))
/-- A team of one member, ready; and one whose two lanes give different words. -/
theorem witness_team : let s := Zat (.mmaTeam mma0) true
    teamPlaces s = [0] ∧ (∀ p ∈ teamPlaces s, (s.block? p).isSome = true ∧ (blk s p).t = 1 ∧ ((blk s p).pair 0).teamWait = true
        ∧ ((blk s p).pair 0).run = .running ∧ s.engineIdle (coreOf p) = true) ∧ (members s).length = 1
      ∧ (∀ m ∈ members s, formatWords m = (some 0x22, some shape0) ∧ m.2.words2 = .ok (fmtWord 0x22, shape0)
        ∧ m.2.teamCheck (fmtWord 0x22) shape0 = none ∧ opsWait m.2 (m.2.teamOps (fmtWord 0x22) (shapeOf shape0)) = false)
      ∧ ((members s).map fun m => m.2.blk.member) = [0] ∧ (∀ m ∈ members s, s.teamHeld 0 m = none) ∧ (awake s).errs = []
      ∧ ∀ e ∈ (awake s).blocks, e.2.errs = [] := by
  have h : ∀ m ∈ members (Zat (.mmaTeam mma0) true), formatWords m = (some 0x22, some shape0) ∧ m.2.words2.toOption = some (fmtWord 0x22, shape0)
      ∧ m.2.teamCheck (fmtWord 0x22) shape0 = none ∧ opsWait m.2 (m.2.teamOps (fmtWord 0x22) (shapeOf shape0)) = false := by decide +kernel
  exact ⟨by decide +kernel, by decide +kernel, by decide +kernel, fun m hm => ⟨(h m hm).1, ok_of (h m hm).2.1, (h m hm).2.2⟩, by decide +kernel,
    by decide +kernel, by decide +kernel, by decide +kernel⟩
/-- A group of a team of one comes to the instruction with which the team is complete: it issues at once, or its words differ. -/
theorem witness_team_completes :
    (∃ c, Meets false (.mmaTeam mma0) (Zat (.mmaTeam mma0) false) c ∧ c.act ≠ [] ∧ let s := c.atTeam
      teamPlaces s = [0] ∧ (∀ p ∈ teamPlaces s, (s.block? p).isSome = true ∧ (blk s p).t = 1 ∧ ((blk s p).pair 0).teamWait = true
        ∧ ((blk s p).pair 0).run = .running ∧ s.engineIdle (coreOf p) = true) ∧ (members s).length = 1
      ∧ (∀ m ∈ members s, formatWords m = (some 0x22, some shape0) ∧ m.2.words2.toOption = some (fmtWord 0x22, shape0)
        ∧ m.2.teamCheck (fmtWord 0x22) shape0 = none ∧ opsWait m.2 (m.2.teamOps (fmtWord 0x22) (shapeOf shape0)) = false)
      ∧ ((members s).map fun m => m.2.blk.member) = [0] ∧ (∀ m ∈ members s, s.teamHeld 0 m = none)
      ∧ (awake s).errs = [] ∧ ∀ e ∈ (awake s).blocks, e.2.errs = [])
    ∧ let z := { Zat (.mmaTeam mma0) false with blocks := Z.blocks.map fun e => (e.1, { e.2 with pairs := e.2.pairs.map fun p => (p.1,
        { p.2 with exe := { p.2.exe with lanes := [(0, lane1), (1, lane1)] } }) }) }
      ∃ c, Meets false (.mmaTeam mma0) z c ∧ c.act ≠ [] ∧ (members c.atTeam).map (fun m => (formatWords m).1) = [none]
        ∧ teamPlaces c.atTeam = [0] ∧ (members c.atTeam).length = 1 ∧ ∀ m ∈ members c.atTeam, c.atTeam.teamHeld 0 m = none :=
  ⟨meets_of_joins (by decide +kernel), meets_of_joins (by decide +kernel)⟩
theorem witness_team_divergence :
    let s := { Zat (.mmaTeam mma0) true with blocks := (Zat (.mmaTeam mma0) true).blocks.map fun e => (e.1, { e.2 with pairs := e.2.pairs.map fun p => (p.1,
      { p.2 with exe := { p.2.exe with lanes := [(0, { lane1 with wait := .rendezvous }), (1, { lane1 with wait := .rendezvous })] } }) }) }
    (members s).map (fun m => (formatWords m).1) = [none] ∧ teamPlaces s = [0] ∧ (blk s 0).t = 1 ∧ ((blk s 0).pair 0).teamWait = true
      ∧ ((blk s 0).pair 0).run = .running ∧ s.engineIdle 0 = true ∧ ∀ m ∈ members s, s.teamHeld 0 m = none := by decide +kernel

/-- A copy of 32 bytes from the page to the scratchpad, waiting to enter, and at the head of channel 0. -/
def copy0 : Copy := { id := 7, dst := 0x200, src := 0x1000, left := 32, gpage := some page }
def chan0 (k : Copy) : State := { A with cores := [(0, { chans := [(0, [k])] })] }
theorem witness_copy_enters :
    let r : CopyReq := { dst := 0x200, src := 0x1000, len := 32 }
    let s := pairOf { live := true, acc := only { lane1 with wait := .entering 12 }, exe := only lane1, entering := [r] }
    s.block? (placeOf 0 0) = some (blk s 0) ∧ ((blk s 0).pair 0).entering.find? (fun r => s.chanRoom 0 r.ch) = some r
      ∧ (((blk s 0).pair 0).acc.lane r.lane).wait = .entering 12 ∧ (((blk s 0).pair 0).acc.lane r.lane).pc = r.pc ∧ r.lane < (blk s 0).w := by
  decide +kernel

/-- What an engine finds, as data. -/
def found : Reach → Option (Loc × Option Tlb)
  | .at_ l t => some (l, t)
  | _ => none
theorem found_spec {r l t} (h : found r = some (l, t)) : r = .at_ l t := by
  cases r <;> simp_all [found]
def stopped : Reach → Option (Nat × Option Nat)
  | .stop f e => some (f, e)
  | _ => none
theorem stopped_spec {r f e} (h : stopped r = some (f, e)) : r = .stop f e := by
  cases r <;> simp_all [stopped]
/-- The next source line of a copy: it is read, and what has been read grows. -/
def nextLine (s : State) (k : Copy) (x : Loc) : Option (State × Copy) :=
  let m := min (k.left - k.ahead.length) (128 - (k.src + BitVec.ofNat 64 k.ahead.length).toNat % 128)
  if found (s.copyReach k 0 false (k.src + BitVec.ofNat 64 k.ahead.length) m (k.left - k.ahead.length)) = some (x, some page)
  then some (s.touchRead 0 k.own.part x, { k with ahead := k.ahead ++ s.bytesAt x m, gpage := some page }) else none
def performing (s : State) (k : Copy) : Prop :=
  s.chanHead 0 0 = some k ∧ k.ch = 0 ∧ s.placeOfOwner k.own = some 0 ∧ (s.block? 0).isSome = true
/-- The line comes from one source line, from two, or has been read already. -/
theorem witness_copy_lines :
    (∀ k ∈ [copy0, { copy0 with src := 0x1070 }, { copy0 with ahead := List.replicate 32 5 }], let s := chan0 k
      performing s k ∧ k.stopped = false ∧ k.left ≠ 0 ∧ found (s.copyReach k 0 true k.dst 32 k.left) = some (.sp 0 0x200, some page)
        ∧ (∀ i < 32, s.tagAt (locAdd (.sp 0 0x200) i) = none))
    ∧ ((nextLine (chan0 copy0) copy0 (.glob 0x100000)).map fun p => p.2.ahead.length) = some 32
    ∧ (let k := { copy0 with src := 0x1070 }
       ((nextLine (chan0 k) k (.glob 0x100070)).map fun p => p.2.ahead.length) = some 16
       ∧ (((nextLine (chan0 k) k (.glob 0x100070)).bind fun p => nextLine p.1 p.2 (.glob 0x100080)).map fun p => p.2.ahead.length) = some 32) := by
  unfold performing
  decide +kernel
/-- A destination that no page maps, and one that holds an error. -/
theorem witness_copy_stops :
    (let k := { copy0 with dir := 1, src := 0x200, dst := 0x9000, gpage := none }
     let s := { chan0 k with blocks := (chan0 k).blocks.map fun e => (e.1, { e.2 with root := 0x5000 }) }
     performing s k ∧ k.stopped = false ∧ k.left ≠ 0 ∧ stopped (s.copyReach k 0 true k.dst 32 k.left) = some (1, none))
    ∧ (let k := { copy0 with dir := 1, src := 0x200, dst := 0x1000 }
       let s := { chan0 k with errs := [0x100000] }
       performing s k ∧ stopped (s.copyReach k 0 true k.dst 32 k.left) = some (4, some 0x100000)) := by
  unfold performing
  decide +kernel
/-- Finished and stopped copies: without a barrier, with one that no longer names its word, and with one of three arrivals. -/
theorem witness_copy_completes : ∀ e ∈ [((none : Option (Word × Nat)), true, 32), (some (0x100, 0), false, 0), (some (0x100, 1), false, 0)],
    let k := { copy0 with left := e.2.2, stopped := e.2.1, bar := e.1 }
    let s := { barUnit [3, 0, 1, 0, 0x12, 5] [32] with cores := [(0, { chans := [(0, [k])] })] }
    performing s k ∧ (k.stopped = true ∨ k.left = 0) ∧ s.arrivalWaits k 0 = false ∧ s.spTarget 0 0x100 8 = some (0, 0x100)
      ∧ (s.tagAt (.sp 0 0x100)).isSome = true ∧ (s.barAt (.sp 0 0x100)).inval = false ∧ (s.barAt (.sp 0 0x100)).gen = 1
      ∧ (s.barAt (.sp 0 0x100)).arrived + 1 < (s.barAt (.sp 0 0x100)).expect := by
  unfold performing
  decide +kernel

/-- A reduction of one element over ranks 0 (here) and 1 (elsewhere), which contributes 1. -/
def coll0 : Coll :=
  { id := 3, src := 0x1000, dst := 0x1000, count := 1, ty := .n32, peers := [(0xfff, 0), (1, 0)], got := [1, 0, 0, 0, 2, 0, 0, 0], stat := 0x40, bar := 0xffffffff }
def from1 (refused : Bool) (op : Nat) : List Contribution :=
  [{ rank := 1, gather := false, count := 1, ty := tyCode .n32, op, data := [1, 0, 0, 0, 0, 0, 0, 0], refused, port := 3 }]
def colls0 (k : Coll) : State := { A with colls := [k] }
/-- The engine of the command is free for it, and STATUS and BAR can be told. -/
def alive (s : State) (k : Coll) : Bool := decide (s.colls.filter (fun x => decide (x.id = k.id)) = [k] ∧ k.result = none ∧ k.told = false ∧ s.held = []
  ∧ (∀ e ∈ s.blocks, e.2.errs = [])
  ∧ (∀ x ∈ s.colls, x.id ≠ k.id → x.result.isSome = true → x.told = true)
  ∧ s.placeOfOwner k.own = some 0 ∧ s.frozen k.own = false ∧ s.collWord 0 k.stat 4 = some (.sp 0 0x40) ∧ s.keptBytes (some (.sp 0 0x40)) 4 = false
  ∧ s.keptBytes (s.collWord 0 k.bar 8) 8 = false ∧ (List.range 4).all (fun i => (s.tagAt (locAdd (.sp 0 0x40) i)).isNone) = true)
/-- Refused with port 3, mismatched, or agreed on; and with a destination that faults. -/
theorem witness_collectives :
    (∀ e ∈ [(true, 0), (false, 1), (false, 0)], alive (colls0 coll0) coll0 = true ∧ coll0.out = none ∧ (colls0 coll0).clk < coll0.accepted + 2 ^ 27
      ∧ (∀ x ∈ (colls0 coll0).colls, x.team = coll0.team → x.got.length = x.srcBytes)
      ∧ ((List.range coll0.peers.length).map ((colls0 coll0).contribution coll0 (from1 e.1 e.2))).map
        (fun x => x.map fun p => (decide (p.gather = false ∧ p.count = 1 ∧ p.ty = tyCode .n32), p.op, p.refused))
          = [some (true, 0, none), some (true, e.2, if e.1 then some 3 else none)])
    ∧ (coll0.put = 0 ∧ coll0.store = false ∧ 0 < coll0.dstBytes ∧ ((colls0 coll0).collReach coll0 true).2.1 = coll0.dstBytes
      ∧ found ((colls0 coll0).collReach coll0 true).2.2 = some (.glob 0x100000, some page)
      ∧ ∀ j < 4, (colls0 coll0).tagAt (.glob (0x100000 + j)) = none)
    ∧ (let k := { coll0 with dst := 0xffff800000000000 }
       alive (colls0 k) k = true ∧ (stopped ((colls0 k).collReach k true).2.2).isSome = true) := by decide +kernel
/-- A refusal is known before the contribution of another rank. -/
theorem witness_collective_refused :
    let k := { coll0 with peers := [(0xfff, 0), (1, 0), (2, 0)], got := [1, 0, 0, 0, 2, 0, 0, 0, 3, 0, 0, 0] }
    alive (colls0 k) k = true ∧ (∀ x ∈ (colls0 k).colls, x.team = k.team → x.got.length = x.srcBytes)
      ∧ ((List.range k.peers.length).map ((colls0 k).contribution k (from1 true 0))).map Option.isSome = [true, true, false]
      ∧ (((List.range k.peers.length).map ((colls0 k).contribution k (from1 true 0))).filterMap id).findSome? (·.refused) = some 3 := by
  decide +kernel
/-- A command is given up; its engine's turn reads a line of SRC, or writes one of DST. -/
theorem witness_collective_turns :
    (let s := { colls0 coll0 with clk := 2 ^ 27 }
     alive s coll0 = true ∧ coll0.accepted + 2 ^ 27 ≤ s.clk ∧ ((List.range coll0.peers.length).map (s.contribution coll0 [])).any Option.isNone = true)
    ∧ (let k := { coll0 with got := [] }
       let s := { colls0 k with agenda := [.collective 3 []] }
       alive s k = true ∧ s.sec = .run ∧ k.got.length < k.srcBytes ∧ found (s.collReach k false).2.2 = some (.glob 0x100000, some page))
    ∧ (let k := { coll0 with out := some [2, 0, 0, 0] }
       let s := { colls0 k with agenda := [.collective 3 []] }
       alive s k = true ∧ s.sec = .run ∧ k.got.length = k.srcBytes ∧ k.put < k.dstBytes ∧ found (s.collReach k true).2.2 = some (.glob 0x100000, some page)
         ∧ [2, 0, 0, 0].length = k.dstBytes ∧ ∀ j < 4, s.tagAt (.glob (0x100000 + j)) = none) := by decide +kernel
/-- 13: an integer sum and a gather. -/
theorem test_collective_results :
    let part (d : List Byte) : Part := { gather := false, count := 1, ty := 0, op := 0, data := d, refused := none }
    collResult { coll0 with peers := [(0xfff, 0), (1, 0)] } [part [0xff, 0xff, 0xff, 0xff, 2, 0, 0, 0], part [3, 0, 0, 0, 0, 0, 0, 0]] = [2, 0, 0, 0]
      ∧ collResult { coll0 with gather := true } [part [1, 2, 3, 4], part [5, 6, 7, 8]] = [1, 2, 3, 4, 5, 6, 7, 8] := by decide +kernel

/-! #### The memory system, records and checks -/

theorem witness_coherence :
    (({ A with clk := 63, cores := [(0, {})] } : State).core 0).crept + 64 ≤ 63 + 1 ∧ A.clk + 1 < (A.core 0).crept + 64
    -- The home's latest reply of line 9 goes to the access 5, which is over, or still outstanding.
    ∧ (let s : State := { A with cores := [(0, { requests := [{ id := 5, loc := .glob 0x480, tag := 3 }] })] }
       ((s.core 0).latest (2 * 9)).map (fun r => (r.id, r.tag)) = some (5, 3) ∧ s.replyDue (some 5) = false
       ∧ ({ s with outs := [out0 (.reg 12)] } : State).replyDue (some 5) = true ∧ ({ s with outs := [out0 (.reg 12)] } : State).outstanding 5 = true
       ∧ (A.core 0).latest (2 * 9) = none)
    ∧ (let h : LineTime := smGet {} A.lines (2 * 9)
       h.wtime ≤ 0 ∧ 0 ≤ h.leaseEnd ∧ smFind (A.core 0).granted (2 * 9) = none)
    ∧ smFind (({ A with cores := [(0, { granted := [(18, 7)] })] } : State).core 0).granted (2 * 9) = some 7
    ∧ (let v : Inval := { id := 4, asid := some 0 }
       let s := { A with invals := [v] }
       s.invals.find? (fun v => decide (v.id = 4)) = some v ∧ s.pinnedBy v = false) := by decide +kernel
/-- The translation that a walk finds, as data. -/
def walked : Xl → Option Tlb
  | .ok t => some t
  | _ => none
/-- A leaf at level 0 behind four tables maps 0x9000, for reads and writes, for writes only, or for neither: whatever context of the
ASID is picked. -/
def walkState (k : Byte) : State :=
  let mem := (((Memory.write [] 0x5000 [1, 0x60]).write 0x6000 [1, 0x70]).write 0x7000 [1, 0x80]).write 0x8000 [1, 0xa0]
  { A with mem := mem.write 0xa048 [k, 0x30], blocks := A.blocks.map fun e => (e.1, { e.2 with root := 0x5000, kernel := { e.2.kernel with mode := .supervisor } }) }
def walksTo (k : Byte) (rd wr : Option (Bool × Bool)) : Bool :=
  let s := walkState k
  decide ((s.walkCtxs 0 0 0).length = 1) && (s.walkCtxs 0 0 0).all fun c =>
    decide (s.partOfCore 0 = some 0) && (s.cached c 0x9000).isNone
      && decide ((walked (s.walk c true false 0x9000)).map (fun t => (t.r, t.w)) = rd)
      && decide ((walked (s.walk c false true 0x9000)).map (fun t => (t.r, t.w)) = wr)
theorem witness_walk : walksTo 0x0f (some (true, true)) (some (true, true)) = true ∧ walksTo 0x0b none (some (false, true)) = true
    ∧ walksTo 0x03 none none = true ∧ (D 0 0).walkCtxs 0 0 0 = [] := by decide +kernel

/-- Rings of four entries at 0x2000 and 0x3000; a record waits, in a ring that has room or is full. -/
def rec0 : Rec := { bytes := List.replicate 64 7 }
def ringed (k : Core) (mem : Memory) : State :=
  { A with sys := [(0x001, 0x2000), (0x002, 4), (0x011, 0x3000), (0x012, 4)], cores := [(0, k)], mem }
def freeRing (s : State) (base n : Nat) : Prop :=
  s.ringKept base n = false ∧ s.ringRoom base n = true ∧ s.ringWidx base + 1 < 2 ^ 64 ∧ s.mem.readNat (base + 16) 8 = 0
    ∧ ∀ k < 64, s.tagAt (.glob (base + k)) = none ∧ s.tagAt (.glob (s.ringSlot base n + k)) = none
theorem witness_records_written :
    (∀ r ∈ [rec0, { rec0 with debug := true }], let s := ringed { recs := [r] } []
      (s.core 0).recs = [r] ∧ r.bytes.length = 64 ∧ s.stopUnderWay r = false ∧ s.ringThere r = true ∧ s.ringOf r = (if r.debug then (0x3000, 4) else (0x2000, 4)))
    ∧ freeRing (ringed { recs := [rec0] } []) 0x2000 4
    ∧ (let s := ringed { recs := [rec0] } (Memory.write [] 0x2000 [4])
       (s.core 0).recs = [rec0] ∧ rec0.debug = false ∧ rec0.adv = none ∧ s.ringThere rec0 = true ∧ s.ringRoom 0x2000 4 = false)
    ∧ let x : Sample := { bytes := List.replicate 64 0 }
      let s := ringed { sample := some x } []
      (s.core 0).sample = some x ∧ s.sampleOver x = true ∧ (s.core 0).recs = [] ∧ s.ringThere { debug := true } = true ∧ freeRing s 0x3000 4 := by
  unfold freeRing
  decide +kernel

/-- A read into `q0`, a copy, a pair, a remote write and dropped stores meet errors. -/
theorem witness_machine_checks :
    (let s : State := { A with outs := [out0 (.queue 0)] }
     s.outs.find? (fun o => decide (o.id = 5 ∧ o.bad = none ∧ s.coreOfOwner o.own = some 0)) = some (out0 (.queue 0)) ∧ s.placeOfOwner {} = some 0
       ∧ s.partOfCore 0 = some 0 ∧ ((s.core 0).recs.filter Rec.isMc).length < 16)
    ∧ ((A.block? (placeOf 0 0)).isSome = true ∧ ((blk A 0).pair 0).live = true ∧ 0 < (blk A 0).w ∧ A.placeOfOwner ((blk A 0).owner 0 0) = some 0)
    ∧ ((chan0 copy0).core 0).chan 0 = [copy0] ∧ (chan0 copy0).partOfCore 0 = some 0
    ∧ (((blk A 0).pair 0).run = .running ∧ 0 < (blk A 0).groups)
    ∧ (let d : Drop := { handle := A.pairHandle 0 0 }
       let s : State := { A with drops := [d] }
       s.drops[0]? = some d ∧ s.placeOfOwner d.own = some 0 ∧ (s.pair 0 0).live = true ∧ (s.pair 0 0).run = .running ∧ s.pairHandle 0 0 = d.handle)
    ∧ (let d : Drop := { own := { block := 9 } }
       let s : State := { A with drops := [d] }
       s.drops[0]? = some d ∧ s.placeOfOwner d.own = none)
    ∧ let r := remote0 .write .drop
      let s : State := { pairOf { live := true, run := .stopped .halt, haltAt := some 0 } with remotes := [r], clk := 18000 }
      s.remotes.find? (fun r => decide (r.id = 5 ∧ r.op ≠ .read)) = some r ∧ s.placeOfOwner r.own = some 0 ∧ (s.pair 0 0).haltAt = some 0 := by
  decide +kernel

/-- A read of the block's scratchpad meets an error; and a sample whose last data went to lane 3. -/
theorem witness_scratch_check :
    (let s : State := { A with outs := [out0 (.queue 0)], cores := [(0, { requests := [{ id := 5, loc := .sp 0 0x40 }] })] }
     ((s.core 0).requests.find? fun r => decide (r.id = 5)).map Request.loc = some (.sp 0 0x40) ∧ (s.block? 0).isSome = true
       ∧ s.outs.find? (fun o => decide (o.id = 5 ∧ o.bad = none ∧ s.coreOfOwner o.own = some 0)) = some (out0 (.queue 0)))
    ∧ ((A.block? (placeOf 0 0)).isSome = true)
    ∧ let x : Sample := { bytes := List.replicate 64 0, last := some (9, 3), doneAt := some 9 }
      x.noData = false ∧ x.last = some (9, 3) ∧ x.full = true ∧ (ringed { sample := some x } []).sampleOver x = true := by decide +kernel

/-! #### The fabric, boot and power -/

/-- A peer entry that accepts requests of endpoint 0 and job 0, protected under a key where it says so, and a request of it. -/
def inbound (flags : Byte) : State :=
  { fabric A with mem := Memory.write [] 0x200014 [1, 0, 0, flags], tkeys := [(0, [1])], tlb := [{ page with core := 1024 }] }
def request (op : InOp) (job : Nat) : InRequest :=
  { fep := 0, job, rpart := 0, rasid := 0, op, is64 := false, addr := 0x1000, len := 4, data := [1, 0, 0, 0, 2, 0, 0, 0], key := none }
def givesBytes (s : State) (r : InRequest) (n : Nat) : Bool :=
  match ({ s with fresh := s.fresh + 1, inReply := none } : State).readVirt (s.inCtx r) (s.fresh + 1) r.addr (pagesOf r.len) r.len with
  | .ok (some bs) => decide (bs.length = n)
  | _ => false
def faultsAt (s : State) (r : InRequest) : Bool :=
  match ({ s with fresh := s.fresh + 1, inReply := none } : State).readVirt (s.inCtx r) (s.fresh + 1) r.addr (pagesOf r.len) r.len with
  | .error _ => true
  | _ => false
def placed (s : State) (r : InRequest) : Bool :=
  match ({ s with fresh := s.fresh + 1, inReply := none } : State).argPages (s.inCtx r) r.addr (pagesOf r.data.length) r.data.length with
  | .ok ps => decide (ps = [(0x100000, 8)])
  | _ => false
theorem witness_fabric :
    let s := inbound 5
    let r := request .add 0
    s.sec = .run ∧ (s.partRec 0).valid = true ∧ s.inPeers (request .read 7) = [] ∧ s.inPeers r ≠ []
      ∧ (∀ e ∈ (inbound 13).inPeers r, (inbound 13).verifies r e = false) ∧ (inbound 13).inPeers r ≠ []
      ∧ ((s.inPeers r).find? (s.verifies r)).isSome = true ∧ inFabric r.addr = false ∧ s.inPeers (request .other 0) ≠ []
      ∧ givesBytes s (request .read 0) 4 = true ∧ faultsAt s { request .read 0 with addr := 0xffff800000000000 } = true
      ∧ placed s (request .write 0) = true
      ∧ s.translate (s.inCtx r) true true r.addr = .ok { page with core := 1024 } ∧ s.heldOver (.glob 0x100000) 4 = false
      ∧ s.ownedOver none (.glob 0x100000) 4 = false ∧ ∀ k < 4, s.tagAt (.glob (0x100000 + k)) = none := by decide +kernel
/-- A ROD peer: a request whose turn has come, and one that must wait. -/
theorem witness_rod :
    let s := { inbound 5 with mem := Memory.write [] 0x200014 [1, 0, 1, 5], rod := [(0, 6)] }
    let r := { request .add 0 with seq := 6 }
    ((s.inPeers r).find? (s.verifies r)).map (·.rod) = some true ∧ ({ r with seq := 7 } : InRequest).seq ≠ 6
      ∧ smFind s.rod r.fep.toNat = some 6 := by
  decide +kernel
/-- A write of this device to itself: its peer entry names its own endpoint. -/
theorem witness_self_write :
    let r := { remote0 .write .drop with raddr := 0x1000, ty := .b32, val := 7 }
    let s := { inbound 5 with fep := some 0, remotes := [r] }
    s.remotes.find? (fun r => decide (r.id = 5 ∧ r.sent.isSome)) = some r ∧ s.toSelf r = true
      ∧ let q := r.selfRequest
        (s.partRec q.rpart).valid = true ∧ (∃ y ∈ s.inPeers q, s.verifies q y = true) ∧ inFabric q.addr = false ∧ r.op = .write ∧ r.dst = .drop
          ∧ q.addr.toNat % 4096 + accBytes r.ty ≤ 4096 ∧ walked (s.translate (s.inCtx q) false true q.addr) = some { page with core := 1024 }
          ∧ s.heldOver (.glob 0x100000) 4 = false ∧ s.ownedOver none (.glob 0x100000) 4 = false ∧ ∀ k < 4, s.tagAt (.glob (0x100000 + k)) = none := by
  decide +kernel
/-- An atomic on BF16 pairs to this device and to another, and an answer that does not verify. -/
theorem witness_unlisted :
    let r := { remote0 (.atom (some .add)) .drop with raddr := 0x1000, ty := .bf16x2 }
    let s := { inbound 5 with remotes := [r] }
    s.remotes.find? (fun r => decide (r.id = 5 ∧ r.sent.isSome)) = some r ∧ r.unlisted = true ∧ s.toSelf r = false ∧ r.head.tss = false
      ∧ (let s := { s with fep := some 0 }
         s.toSelf r = true ∧ (s.partRec r.head.rpart).valid = true ∧ ∃ y ∈ s.inPeers r.selfRequest, s.verifies r.selfRequest y = true)
      ∧ let t := { r with head := { tss := true } }
        s.toSelf t = false ∧ t.head.tss = true ∧ s.keyTakes t.own.part t.head.idx none = false
          ∧ s.keyTakes t.own.part t.head.idx (some [1]) = true := by decide +kernel
/-- R419's own example. -/
theorem test_home_slice : homeSlice 0x20a000000 = 112 ∧ homeSlice 0x20a000080 = 241 := by decide +kernel
theorem witness_links :
    let r := remote0 .write .drop
    let s : State := { fabric A with remotes := [r], clk := 1500000 }
    s.remotes.find? (fun r => decide (r.id = 5)) = some r ∧ r.sent = some 0 ∧ s.placeOfOwner r.own = some 0
      ∧ (let x := { r with head := { ports := 3 } }
         x.sent.isSome = true ∧ x.head.ports.getLsbD 0 = true ∧ s.ports.getLsbD 0 = true
           ∧ ∀ k < 12, x.head.ports.getLsbD k = true → ({ s with ports := 4 } : State).ports.getLsbD k = false) := by decide +kernel

/-- RESET_N is low with PWROK_N low in boot. Whatever the fused digest is, the boot input is sound or it is not. -/
theorem witness_boot (b : BootInput) : State.reset.resetN = false ∧ State.reset.sec = .boot ∧ State.reset.pwrokN = false ∧ State.reset.thermtripN = true
    ∧ let sound := shake256 (bootKey b) = Config.ownerDigest ∧ ed448Verify (bootKey b) (bootDigest b) (bootSig b) = true
      sound ∨ ¬ sound := ⟨rfl, rfl, rfl, rfl, Classical.em _⟩
/-- A sensor of a cluster and one of a stack are at their trip temperatures. -/
theorem witness_power : ({ State.reset with sec := .frost } : State).sec = .frost ∧ A.sec ≠ .frost
    ∧ (∀ h ∈ [({ sensor := .cluster 2, temp := 120000 } : Heat), { sensor := .stack 1, temp := 105000 }],
        ({ A with heats := [h] } : State).thermtripN = false)
    ∧ ({ A with heats := [{ sensor := .cluster 2, temp := 119999 }] } : State).thermtripN = true
    ∧ (let s : State := { A with sags := [{ supply := 3 }, { supply := 4, back := some 64 }] }
       s.sags[0]? = some { supply := 3, back := none } ∧ ({ s with sec := .boot } : State).sec ≠ .run ∧ s.agenda = []) := by decide +kernel
/-- Readings of a die at the thresholds of R436: above 105 degrees, 3 degrees below it, and at the trip temperature; and the turns of pins
and sensors. -/
theorem witness_readings :
    let at_ (v : Int) : State := { A with reading := some ⟨.cluster 2, v⟩ }
    (at_ 105001).reading = some ⟨.cluster 2, 105001⟩ ∧ (at_ 102000).reading = some ⟨.cluster 2, 102000⟩
      ∧ (at_ 120000).reading = some ⟨.cluster 2, 120000⟩ ∧ (A.sec ≠ .frost ∧ (A.pwrokN = true ∨ A.resetN = false))
      ∧ ({ A with agenda := [.pins true false, .sensor ⟨.stack 1, 95001⟩ 2] } : State).agenda = [.pins true false, .sensor ⟨.stack 1, 95001⟩ 2] := by
  decide +kernel
theorem test_stack_throttles : (match step { A with agenda := [.sensor ⟨.stack 1, 95001⟩ 2] } with
    | .next t => decide (t.heats = [{ sensor := .stack 1, temp := 95001, hot := true, steps := 2 }] ∧ t.sec = A.sec)
    | _ => false) = true := by decide +kernel
theorem test_die_trips : (match step { A with agenda := [.sensor ⟨.cluster 2, 120000⟩ 2] } with
    | .next t => decide (t.thermtripN = false ∧ t.sec = .boot ∧ t.blocks = [])
    | _ => false) = true := by decide +kernel
theorem witness_held_in_reset : State.reset.idle ∧ (∀ b, .event (.boot b) ∉ State.reset.agenda) ∧ ∃ t, step State.reset = .next t :=
  ⟨⟨by decide, rfl, by decide⟩, by simp [State.reset], _, rfl⟩

/-! #### Traps, steps and encodings -/

theorem witness_trap : A.block? 0 = some (blk A 0) ∧ ((blk A 0).pair 0).run = .running ∧ (∀ o ∈ A.outs, { o.own with lane := 0 } ≠ (blk A 0).owner 0 0)
    ∧ ((blk A 0).pair 0).safe = none ∧ ((blk A 0).pair 0).trapSl = none
    ∧ (let p : Pair := { live := true, run := .stopped .trap, haltAt := some 7 }
       p.run.isStopped = true ∧ p.haltAt = some 7) := by decide +kernel
/-- A slice of a machine whose memory holds an instruction, or one that does not decode, with its turn. -/
def turned (sl : Slice) (bs : Memory) : State := { A with mem := bs, agenda := [.issue 0 0 0 sl {}] }
def readAt (s : State) (sl : Slice) : List Byte := s.mem.read ((blk s 0).kernel.section sl).1 (min 20 ((blk s 0).kernel.section sl).2)
/-- The state in which a slice's turn finds its instruction at address 0. -/
def turnCtx (s : State) (sl : Slice) : State :=
  let u := (({ s with agenda := [] } : State).nextSlot 0 0 sl []).1
  { u with cur := { place := 0, group := 0, sl, pc := 0, skip := (((blk u 0).pair 0).half sl).did } }
def pathOf (s : State) (sl : Slice) : List Nat :=
  let v := turnCtx s sl
  (((blk v 0).pair 0).half sl).pathBut (blk v 0).w 0 (((blk v 0).pair 0).half sl).did
/-- A turn comes to an instruction at address 0: of one lane, of a rendezvous that is not complete, and of a team; and to bytes that do
not decode. -/
theorem witness_turns :
    (∀ e ∈ [(Slice.access, code [.add { dst := .reg 6, a := .reg 4, b := .reg 8, ty := .i32 }]), (.execute, code [.mmaTeam mma0]),
        (.access, Memory.write [] 0 [0xff, 0xff, 0xff, 0xff])], let s := turned e.1 e.2
      s.sec = .run ∧ (s.pair 0 0).live = true ∧ (s.pair 0 0).run = .running ∧ (({ s with agenda := [] } : State).nextSlot 0 0 e.1 []).2 = some 0
        ∧ ((turnCtx s e.1).block? 0).isSome = true ∧ pathOf s e.1 ≠ [])
    ∧ (let i : Instr := .add { dst := .reg 6, a := .reg 4, b := .reg 8, ty := .i32 }
       let s := turned .access (code [i])
       (decode .access (readAt s .access)).toOption = some (i, 12)
       ∧ (((turnCtx s .access).begin? i).map fun c => ((c.arrive i).2, ((c.arrive i).1.breakHit 0 0 .access 0 (c.arrive i).2).isNone,
           (c.arrive i).1.toHold (blk (c.arrive i).1 0) 0 .access 0 (c.arrive i).2, ((c.arrive i).1.block? 0).isSome)) = some ([0], true, [], true))
    ∧ (decode .access (readAt (turned .access (Memory.write [] 0 [0xff, 0xff, 0xff, 0xff])) .access)).toOption = none
    ∧ (let i : Instr := .voteAny { dst := .reg 2, a := .reg 1 }
       let h : Half := { half0 with lanes := [(0, { lane1 with pc := 24 }), (1, lane1)] }
       let s : State := { unit .user .execute h {} with mem := code [i], agenda := [.issue 0 0 0 .execute {}] }
       (decode .execute (readAt s .execute)).toOption = some (i, 12) ∧ (({ s with agenda := [] } : State).nextSlot 0 0 .execute []).2 = some 0
       ∧ pathOf s .execute = [1] ∧ ((turnCtx s .execute).begin? i).map (fun c => (c.arrive i).2) = some []) := by decide +kernel
theorem witness_choice : ((blk A 0).pair 0).acc.slots 8 = [0] ∧ ((blk A 0).pair 0).acc.ctl.chosenAt ≠ some A.clk
    ∧ ((blk A 0).pair 0).acc.ctl.serial = false ∧ ((blk A 0).pair 0).acc.ctl.yielded = [] ∧ ((blk A 0).pair 0).acc.ctl.waits = []
    ∧ isStep (.napEnd 0 0 0 .access 0) = true := by decide +kernel
theorem witness_words : WellFormed .access (.copyAsync { a := .reg 28, b := .reg 24, c := .lit, g0 := 5, mods := 8, lit := some 0x40 }) = true
    ∧ (decodeWords .access [0x0c831400]).toOption = some (.addBase { d := 5, a := 3, b := 50 }, 4) := by decide +kernel

/-- Bytes are written in front of, over and behind a live word of the scratchpad. -/
theorem witness_writes : (∀ p off, Loc.sp 0 0xfc = .sp p off → (B.block? p).isSome = true) ∧ (B.tagAt (.sp 0 0x100)).isSome = true
    ∧ (B.storeEngine (some 0) (.sp 0 0xfc) (List.replicate 16 7)).2 = true ∧ (B.storeEngine (some 0) (.sp 0 0xf8) (List.replicate 8 7)).2 = false
    ∧ B.mem.wf = true := by
  refine ⟨fun p off h => ?_, by decide +kernel, by decide +kernel, by decide +kernel, by decide⟩
  cases h
  decide +kernel
def goes (i : Instr) (s : State) : Bool :=
  match exec i s with
  | .next _ => true
  | _ => false
theorem goes_spec {i s} (h : goes i s = true) : ∃ t, exec i s = .next t := by
  unfold goes at h
  split at h
  · exact ⟨_, ‹_›⟩
  · cases h
/-- Each storing instruction goes on, and its one lane names a place. -/
def storing : List (Instr × Bool × (Bool × Bool) × Nat) :=
  [(.stY { a := .reg 4, b := .imm 0, c := .reg 8, ty := .n8 }, false, (false, true), 1),
   (.st { a := .reg 4, b := .imm 0, c := .queue 13, ty := .b32 }, false, (false, true), 4),
   (.stSp { a := .reg 10, b := .imm 0, c := .reg 8, ty := .b32 }, true, (false, true), 4),
   (.atom .max { dst := .reg 12, a := .reg 4, b := .imm 0, c := .reg 8, ty := .i32 }, false, (true, true), 4),
   (.atomCas { dst := .reg 12, a := .reg 4, b := .imm 0, c := .reg 8, d := .reg 9, ty := .b64 }, false, (true, true), 8),
   (.sc { dst := .reg 2, a := .reg 4, b := .imm 0, c := .reg 8, ty := .b32 }, false, (true, false), 4)]
def stores (s : State) (e : Instr × Bool × (Bool × Bool) × Nat) : Bool :=
  goes e.1 s && match s.begin? e.1 with
  | some c => decide (s.errs = [] ∧ (∀ l ∈ c.path, ∀ h ∈ s.late, h.own ≠ c.own l) ∧ c.act = [0]
      ∧ (c.replayed e.1).loc e.2.1 ((c.replayed e.1).xlates e.2.2.1.1 e.2.2.1.2) e.2.2.2 0
          = some (if e.2.1 then .sp 0 0x200 else .glob 0x100000))
  | none => false
theorem witness_store_places : ∀ e ∈ storing, (∃ t, exec e.1 M = .next t) ∧ ∃ c, M.begin? e.1 = some c ∧ M.errs = []
    ∧ (∀ l ∈ c.path, ∀ h ∈ M.late, h.own ≠ c.own l) ∧ c.act = [0]
    ∧ (c.replayed e.1).loc e.2.1 ((c.replayed e.1).xlates e.2.2.1.1 e.2.2.1.2) e.2.2.2 0
        = some (if e.2.1 then .sp 0 0x200 else .glob 0x100000) := by
  have h : storing.all (stores M) = true := by decide +kernel
  intro e he
  have h := List.all_eq_true.mp h e he
  simp only [stores, Bool.and_eq_true] at h
  refine ⟨goes_spec h.1, ?_⟩
  have h := h.2
  cases hc : M.begin? e.1 with
  | none => rw [hc] at h; cases h
  | some c => rw [hc] at h; exact ⟨c, rfl, by simpa using h⟩
theorem witness_image_place : goes (.joinSave { a := .set 1, b := .imm 32 }) Jimage = true ∧ Jimage.errs = [] ∧ Jimage.late = []
    ∧ (Jimage.begin? (.joinSave { a := .set 1, b := .imm 32 })).map (fun c => (c.act, (c.replayed (.joinSave { a := .set 1, b := .imm 32 })).offVote))
      = some ([0, 1], some 32) := by decide +kernel

end Sys2Proof.Tests
end

section
/-! SUPPORT. Bytes, tags and stores: what the writes of engines, firmware and lanes change of memory and what they leave alone
(R2, R206, R207, R225, R228, R266), and the words of the manual's examples. -/

namespace Sys2Proof.Machine
open Sys2Proof

/-! ### The words of the manual's examples (R85 to R96, R105, R110) -/

/-- Settles O58: every word is a closed input, so the decoder computes its instruction; a literal's frame without its words is
cut short, and a base `nop` with a register field is refused by its row. -/
theorem wordsDecode : Obligations.WordsDecode := by
  unfold Obligations.WordsDecode
  refine ⟨rfl, rfl, rfl, rfl, rfl, rfl, rfl, rfl, rfl, rfl, rfl, rfl, rfl, rfl, rfl, rfl, rfl, rfl, rfl, rfl, rfl, rfl, rfl, rfl,
    rfl, rfl, fun sl => ⟨⟨.truncated, rfl⟩, .illegal, ?_⟩⟩
  cases sl <;> rfl

/-! ### Bytes of a range -/

theorem locAdd_zero (x : Loc) : locAdd x 0 = x := by cases x <;> rfl

theorem locAdd_locAdd (x : Loc) (j k : Nat) : locAdd (locAdd x j) k = locAdd x (k + j) := by
  cases x <;> simp [locAdd, Nat.add_assoc, Nat.add_comm j k]

/-- A location lies in the `n` bytes from another up, at its offset. -/
theorem Loc.under_eq_some {x y : Loc} {n k : Nat} : x.under n y = some k ↔ k < n ∧ y = locAdd x k := by
  cases x <;> cases y <;> simp only [Loc.under, locAdd, Loc.glob.injEq, Loc.sp.injEq, reduceCtorEq, and_false]
  · split <;> simp <;> omega
  · split <;> simp <;> omega

theorem Loc.under_cons (x y : Loc) (n : Nat) :
    x.under (n + 1) y = if y = x then some 0 else ((locAdd x 1).under n y).map (· + 1) := by
  by_cases hy : y = x
  · rw [if_pos hy]
    exact Loc.under_eq_some.2 ⟨by omega, by rw [hy, locAdd_zero]⟩
  · rw [if_neg hy]
    refine Option.ext fun k => ?_
    cases k with
    | zero => simp [Loc.under_eq_some, locAdd_zero, hy]
    | succ k => simp [Loc.under_eq_some, locAdd_locAdd]

/-- The first byte of a range is not among the bytes after it. -/
theorem Loc.under_after (x : Loc) (n : Nat) : (locAdd x 1).under n x = none := by
  refine Option.eq_none_iff_forall_ne_some.2 fun k h => ?_
  have e := (Loc.under_eq_some.1 h).2
  rw [locAdd_locAdd] at e
  cases x with
  | glob a => have := Loc.glob.inj e; omega
  | sp p a => have := (Loc.sp.inj e).2; omega

/-- The byte at `y` once bytes are written from `x` up over `old`. -/
def overwrite (x : Loc) (bs : List Byte) (y : Loc) (old : Byte) : Byte :=
  ((x.under bs.length y).map fun k => bs.getD k 0).getD old

theorem overwrite_nil (x y : Loc) (old : Byte) : overwrite x [] y old = old := by
  cases h : x.under 0 y with
  | none => simp [overwrite, h]
  | some k => exact absurd (Loc.under_eq_some.1 h).1 (Nat.not_lt_zero k)

theorem overwrite_cons (x : Loc) (v : Byte) (bs : List Byte) (y : Loc) (old : Byte) :
    overwrite x (v :: bs) y old = overwrite (locAdd x 1) bs y (if y = x then v else old) := by
  unfold overwrite
  rw [List.length_cons, Loc.under_cons]
  by_cases hy : y = x
  · subst hy; simp [Loc.under_after]
  · simp only [hy, ↓reduceIte, Option.map_map]
    rfl

theorem leBytes_length (n v : Nat) : (leBytes n v).length = n := by
  induction n generalizing v with
  | zero => rfl
  | succ n ih => simp [leBytes, ih]

theorem leBytes_getD {n k : Nat} (v : Nat) (h : k < n) : (leBytes n v).getD k 0 = BitVec.ofNat 8 (v / 2 ^ (8 * k)) := by
  induction n generalizing v k with
  | zero => omega
  | succ n ih =>
    cases k with
    | zero => simp [leBytes]
    | succ k =>
      have e : 2 ^ (8 * (k + 1)) = 256 * 2 ^ (8 * k) := by rw [Nat.mul_add, Nat.pow_add, Nat.mul_comm]
      rw [e, ← Nat.div_div_eq_div_mul, ← ih (v / 256) (by omega)]
      rfl

/-- The bytes of a number in place, lowest first (R2). -/
theorem overwrite_leBytes (x : Loc) (n v : Nat) (y : Loc) (old : Byte) :
    overwrite x (leBytes n v) y old = (x.under n y).elim old fun k => BitVec.ofNat 8 (v / 2 ^ (8 * k)) := by
  unfold overwrite
  rw [leBytes_length]
  cases h : x.under n y with
  | none => rfl
  | some k => simpa using leBytes_getD v (Loc.under_eq_some.1 h).1

/-! ### Blocks under a change of all of them, or of one -/

theorem smFind_map {α β : Type} (f : α → β) (m : SMap α) (k : Nat) : smFind (m.map fun e => (e.1, f e.2)) k = (smFind m k).map f := by
  induction m with
  | nil => rfl
  | cons e r ih =>
    by_cases h : e.1 = k <;> simp [smFind, h, ih]

theorem smGet_map {α β : Type} (f : α → β) (d : α) (m : SMap α) (k : Nat) :
    smGet (f d) (m.map fun e => (e.1, f e.2)) k = f (smGet d m k) := by
  induction m with
  | nil => rfl
  | cons e r ih =>
    by_cases h : e.1 = k <;> simp [smGet, h, ih]

theorem State.block?_mapBlock (s : State) (p q : Nat) (f : Block → Block) :
    (s.mapBlock p f).block? q = if q = p then (s.block? p).map f else s.block? q := by
  unfold State.mapBlock
  cases h : s.block? p with
  | none => by_cases hq : q = p <;> simp [hq, h]
  | some b =>
    by_cases hq : q = p
    · subst hq; simp
    · simp [hq, State.block?_setBlock_ne]

/-- The pair of a group, in whatever block stands in the place. -/
theorem State.pair_eq (s : State) (p g : Nat) : s.pair p g = ((s.block? p).map fun b => b.pair g).getD {} := by
  unfold State.pair; cases s.block? p <;> rfl

theorem State.byteAt_sp (s : State) (p off : Nat) : s.byteAt (.sp p off) = ((s.block? p).map fun b => b.scratch.get off).getD 0 := by
  simp only [State.byteAt]; cases s.block? p <;> rfl

theorem State.tagAt_sp (s : State) (p off : Nat) :
    s.tagAt (.sp p off) = ((s.block? p).map fun b => if off / 8 ∈ b.tags then some b.serial else none).getD none := by
  simp only [State.tagAt]; cases s.block? p <;> rfl

theorem State.errIn_sp (s : State) (p off n : Nat) :
    s.errIn (.sp p off) n = (((s.block? p).map Block.errs).bind fun es => es.find? fun a => decide (a < off + n ∧ off < a + 8)).map fun a =>
      (Config.scratchAddr p a).toNat := by
  simp only [State.errIn]; cases s.block? p <;> rfl

/-- A location in a scratchpad names a block that is there. -/
def State.resident (s : State) (x : Loc) : Prop := ∀ p off, x = .sp p off → (s.block? p).isSome = true

theorem State.resident_locAdd {s : State} {x : Loc} (h : s.resident x) (k : Nat) : s.resident (locAdd x k) := by
  intro p off e
  cases x with
  | glob a => simp [locAdd] at e
  | sp q o => simp only [locAdd, Loc.sp.injEq] at e; exact h p o (by rw [e.1])

/-! ### What does not touch memory -/

/-- A change that leaves every byte, tag and error, the held and late stores and the accesses on their way as they were. -/
structure MemKept (s t : State) : Prop where
  rest : ({ t with blocks := [], cores := [], lines := [], launches := [], fresh := 0 } : State)
    = { s with blocks := [], cores := [], lines := [], launches := [], fresh := 0 }
  block : ∀ p, (t.block? p).map (fun b => { b with pairs := [] }) = (s.block? p).map (fun b => { b with pairs := [] })

namespace MemKept
variable {s t u : State}

theorem refl (s : State) : MemKept s s := ⟨rfl, fun _ => rfl⟩
theorem trans (h : MemKept s t) (h' : MemKept t u) : MemKept s u := ⟨h'.rest.trans h.rest, fun p => (h'.block p).trans (h.block p)⟩

/-- A field of the state that the change cannot reach. -/
theorem field (h : MemKept s t) {α : Type} (f : State → α)
    (hf : ∀ s : State, f { s with blocks := [], cores := [], lines := [], launches := [], fresh := 0 } = f s) : f t = f s := by
  rw [← hf t, h.rest, hf s]

theorem mem (h : MemKept s t) : t.mem = s.mem := h.field State.mem fun _ => rfl
theorem btags (h : MemKept s t) : t.btags = s.btags := h.field State.btags fun _ => rfl
theorem held (h : MemKept s t) : t.held = s.held := h.field State.held fun _ => rfl
theorem late (h : MemKept s t) : t.late = s.late := h.field State.late fun _ => rfl
theorem outs (h : MemKept s t) : t.outs = s.outs := h.field State.outs fun _ => rfl
theorem remotes (h : MemKept s t) : t.remotes = s.remotes := h.field State.remotes fun _ => rfl
theorem errs (h : MemKept s t) : t.errs = s.errs := h.field State.errs fun _ => rfl

/-- A field of a block other than its pairs. -/
theorem blockField (h : MemKept s t) {α : Type} (f : Block → α) (hf : ∀ b : Block, f { b with pairs := [] } = f b) (p : Nat) :
    (t.block? p).map f = (s.block? p).map f := by
  have e := congrArg (Option.map f) (h.block p)
  simpa [Option.map_map, Function.comp_def, hf] using e

theorem byteAt (h : MemKept s t) (y : Loc) : t.byteAt y = s.byteAt y := by
  cases y with
  | glob a => simp [State.byteAt, h.mem]
  | sp p off => rw [State.byteAt_sp, State.byteAt_sp, h.blockField _ (fun _ => rfl)]

theorem tagAt (h : MemKept s t) (y : Loc) : t.tagAt y = s.tagAt y := by
  cases y with
  | glob a => simp [State.tagAt, h.btags]
  | sp p off => rw [State.tagAt_sp, State.tagAt_sp, h.blockField _ (fun _ => rfl)]

theorem errIn (h : MemKept s t) (y : Loc) (n : Nat) : t.errIn y n = s.errIn y n := by
  cases y with
  | glob a => simp [State.errIn, h.errs]
  | sp p off => rw [State.errIn_sp, State.errIn_sp, h.blockField _ (fun _ => rfl)]

theorem resident (h : MemKept s t) {x : Loc} (hx : s.resident x) : t.resident x := by
  intro p off e
  have := congrArg Option.isSome (h.block p)
  simpa [hx p off e] using this

theorem heldOver (h : MemKept s t) (x : Loc) (n : Nat) : t.heldOver x n = s.heldOver x n := by simp [State.heldOver, h.held]

end MemKept

/-- A change of the pairs of one block. -/
theorem MemKept.mapBlock (s : State) (p : Nat) (f : Block → Block) (hf : ∀ b, ({ f b with pairs := [] } : Block) = { b with pairs := [] }) :
    MemKept s (s.mapBlock p f) := by
  refine ⟨by unfold State.mapBlock; split <;> rfl, fun q => ?_⟩
  rw [State.block?_mapBlock]
  by_cases hq : q = p
  · simp [hq, Option.map_map, Function.comp_def, hf]
  · simp [hq]

theorem MemKept.mapPair (s : State) (p g : Nat) (f : Pair → Pair) : MemKept s (s.mapPair p g f) := MemKept.mapBlock s p _ fun _ => rfl

theorem MemKept.withPair {s : State} {p : Nat} {b : Block} (h : s.block? p = some b) (g : Nat) (q : Pair) :
    MemKept s (s.withPair p b g q) := by
  have e : s.mapPair p g (fun _ => q) = s.withPair p b g q := State.mapPair_eq h g _
  exact e ▸ MemKept.mapPair s p g _

theorem CoreStep.memKept {n : Nat} {s t : State} (h : CoreStep n s t) : MemKept s t := by
  rcases h with rfl | ⟨k, rfl, -⟩ <;> exact ⟨rfl, fun _ => rfl⟩

/-! ### Reservations, logical time and the ordered-buffer region -/

/-- The pair without its reservations on the line of a location (R219). -/
def Pair.unreserve (x : Loc) (q : Pair) : Pair := { q with resv := q.resv.filter fun r => !sameLine r.2.loc x }

/-- The block without its pairs' reservations on the line of a location. -/
def Block.unreserve (x : Loc) (b : Block) : Block := { b with pairs := b.pairs.map fun e => (e.1, e.2.unreserve x) }

theorem State.block?_clearResv (s : State) (x : Loc) (p : Nat) : (s.clearResv x).block? p = (s.block? p).map (Block.unreserve x) :=
  smFind_map (Block.unreserve x) s.blocks p

theorem MemKept.clearResv (s : State) (x : Loc) : MemKept s (s.clearResv x) :=
  ⟨rfl, fun p => by rw [State.block?_clearResv, Option.map_map]; rfl⟩

theorem State.pair_clearResv (s : State) (x : Loc) (p g : Nat) : (s.clearResv x).pair p g = (s.pair p g).unreserve x := by
  rw [State.pair_eq, State.pair_eq, State.block?_clearResv]
  cases s.block? p with
  | none => rfl
  | some b => exact smGet_map (Pair.unreserve x) {} b.pairs g

theorem MemKept.touchWrite (s : State) (core : Option Nat) (x : Loc) : MemKept s (s.touchWrite core x) := by
  cases core <;> exact ⟨rfl, fun _ => rfl⟩

theorem State.touchWrite_blocks (s : State) (core : Option Nat) (x : Loc) : (s.touchWrite core x).blocks = s.blocks := by
  cases core <;> rfl

theorem State.spoilAdds_eq (s : State) (x : Loc) (n : Nat) : ∃ L, s.spoilAdds x n = { s with launches := L } := by
  unfold State.spoilAdds
  cases x with
  | sp p off => exact ⟨s.launches, rfl⟩
  | glob pa =>
    dsimp only
    split
    · exact ⟨s.launches, rfl⟩
    · exact ⟨_, rfl⟩

theorem MemKept.spoilAdds (s : State) (x : Loc) (n : Nat) : MemKept s (s.spoilAdds x n) := by
  obtain ⟨L, e⟩ := State.spoilAdds_eq s x n
  rw [e]; exact ⟨rfl, fun _ => rfl⟩

/-- A relation that each step of a fold keeps holds from the start of the fold to its end. -/
theorem foldl_rel {σ α : Type} {R : σ → σ → Prop} (hr : ∀ s, R s s) (ht : ∀ {s t u}, R s t → R t u → R s u) {f : σ → α → σ}
    (hf : ∀ s a, R s (f s a)) (l : List α) (s : σ) : R s (l.foldl f s) := by
  induction l generalizing s with
  | nil => exact hr s
  | cons a r ih => exact ht (hf s a) (ih _)

theorem MemKept.clearLines (s : State) (x : Loc) (n : Nat) : MemKept s (s.clearLines x n) :=
  foldl_rel MemKept.refl MemKept.trans MemKept.clearResv _ s

theorem MemKept.touchLines (s : State) (core : Option Nat) (x : Loc) (n : Nat) : MemKept s (s.touchLines core x n) :=
  foldl_rel MemKept.refl MemKept.trans (fun s y => MemKept.touchWrite s core y) _ s

/-! ### Writing bytes and clearing tags -/

theorem State.byteAt_putByte {s : State} {x : Loc} (hx : s.resident x) (v : Byte) (y : Loc) :
    (s.putByte x v).byteAt y = if y = x then v else s.byteAt y := by
  cases x with
  | glob a =>
    cases y with
    | glob b =>
      by_cases h : b = a
      · simp [State.putByte, State.byteAt, h]
      · simp [State.putByte, State.byteAt, h, Memory.get_set_ne]
    | sp q o => simp [State.putByte, State.byteAt, State.block?]
  | sp p off =>
    obtain ⟨b, hb⟩ := Option.isSome_iff_exists.1 (hx p off rfl)
    cases y with
    | glob b => simp [State.putByte, State.byteAt, State.mapBlock, hb]
    | sp q o =>
      rw [State.byteAt_sp, State.byteAt_sp]
      simp only [State.putByte, State.block?_mapBlock, Loc.sp.injEq]
      by_cases hq : q = p
      · by_cases ho : o = off
        · simp [hq, ho, hb]
        · simp [hq, ho, hb, Memory.get_set_ne]
      · simp [hq]

theorem State.tagAt_putByte (s : State) (x : Loc) (v : Byte) (y : Loc) : (s.putByte x v).tagAt y = s.tagAt y := by
  cases y with
  | glob b =>
    cases x with
    | glob a => rfl
    | sp p off => unfold State.putByte State.mapBlock; dsimp only; split <;> rfl
  | sp q o =>
    cases x with
    | glob a => rfl
    | sp p off =>
      rw [State.tagAt_sp, State.tagAt_sp]
      simp only [State.putByte, State.block?_mapBlock]
      by_cases hq : q = p
      · simp [hq, Option.map_map, Function.comp_def]
      · simp [hq]

theorem State.wf_putByte {s : State} (x : Loc) (v : Byte) (h : s.mem.wf = true) : (s.putByte x v).mem.wf = true := by
  cases x with
  | glob a => exact Memory.wf_set _ _ _ h
  | sp p off => unfold State.putByte State.mapBlock; dsimp only; split <;> exact h

theorem State.resident_putByte {s : State} {x : Loc} (h : s.resident x) (y : Loc) (v : Byte) : (s.putByte y v).resident x := by
  intro p off e
  cases y with
  | glob a => exact h p off e
  | sp q o =>
    simp only [State.putByte, State.block?_mapBlock]
    split
    · rename_i hq; simpa [← hq] using h p off e
    · exact h p off e

/-! ### Bytes dropped and bytes placed (R225, R266) -/

theorem State.putBytes_cons_tagged {s : State} {x : Loc} (v : Byte) (bs : List Byte) (h : (s.tagAt x).isSome = true) :
    s.putBytes x (v :: bs) = ((s.putBytes (locAdd x 1) bs).1, true) := by
  obtain ⟨n, hn⟩ := Option.isSome_iff_exists.1 h
  simp [State.putBytes, hn]

theorem State.putBytes_cons_plain {s : State} {x : Loc} (v : Byte) (bs : List Byte) (h : (s.tagAt x).isSome = false) :
    s.putBytes x (v :: bs) = (s.putByte x v).putBytes (locAdd x 1) bs := by
  simp only [Option.isSome_eq_false_iff, Option.isNone_iff_eq_none] at h
  simp [State.putBytes, h]

/-- Bytes written from a location up reach memory but where a live word is; whether one was met is reported (R225). -/
theorem State.putBytes_facts {s : State} {x : Loc} (hx : s.resident x) (bs : List Byte) :
    (∀ y, (s.putBytes x bs).1.byteAt y = if (s.tagAt y).isSome then s.byteAt y else overwrite x bs y (s.byteAt y))
      ∧ (∀ y, (s.putBytes x bs).1.tagAt y = s.tagAt y)
      ∧ ((s.putBytes x bs).2 = true ↔ ∃ k < bs.length, (s.tagAt (locAdd x k)).isSome = true)
      ∧ (s.mem.wf = true → (s.putBytes x bs).1.mem.wf = true) := by
  induction bs generalizing s x with
  | nil => exact ⟨fun y => by simp [State.putBytes, overwrite_nil], fun _ => rfl, by simp [State.putBytes], id⟩
  | cons v bs ih =>
    have hafter : (∃ k < (v :: bs).length, (s.tagAt (locAdd x k)).isSome = true)
        ↔ (s.tagAt x).isSome = true ∨ ∃ k < bs.length, (s.tagAt (locAdd (locAdd x 1) k)).isSome = true := by
      simp only [List.length_cons, Nat.exists_lt_succ_left, locAdd_zero, locAdd_locAdd]
    by_cases ht : (s.tagAt x).isSome = true
    · obtain ⟨hb, hg, -, hw⟩ := ih (State.resident_locAdd hx 1)
      rw [State.putBytes_cons_tagged v bs ht, hafter]
      refine ⟨fun y => ?_, hg, by simp [ht], hw⟩
      rw [hb y]
      by_cases hy : (s.tagAt y).isSome = true
      · simp [hy]
      · have hne : y ≠ x := fun e => hy (e ▸ ht)
        simp [hy, overwrite_cons, hne]
    · rw [Bool.not_eq_true] at ht
      obtain ⟨hb, hg, hd, hw⟩ := ih (State.resident_putByte (State.resident_locAdd hx 1) x v)
      simp only [State.tagAt_putByte] at hb hg hd
      rw [State.putBytes_cons_plain v bs ht, hafter]
      refine ⟨fun y => ?_, hg, by simp [hd, ht], fun h => hw (State.wf_putByte x v h)⟩
      rw [hb y, State.byteAt_putByte hx, overwrite_cons]
      by_cases hy : y = x
      · simp [hy, ht]
      · simp [hy]

/-! ### Tags cleared by privileged writes (R228) -/

theorem State.tagAt_clearTag_self (s : State) (pa : Nat) : (s.clearTag (.glob pa)).tagAt (.glob pa) = none :=
  smFind_erase_self _ _

/-- Clearing a word's tag sets none. -/
theorem State.tagAt_clearTag_none {s : State} {y : Loc} (pa : Nat) (h : s.tagAt y = none) : (s.clearTag (.glob pa)).tagAt y = none := by
  cases y with
  | glob b =>
    by_cases hb : b / 8 = pa / 8
    · simp only [State.tagAt, State.clearTag, hb, smFind_erase_self]
    · simpa only [State.tagAt, State.clearTag, smFind_erase_ne _ hb] using h
  | sp p off => exact h

/-- The tags of a range are cleared by changing tags of device memory alone. -/
theorem State.clearTags_eq (s : State) (x : Loc) (n : Nat) : ∃ T, s.clearTags x n = { s with btags := T } := by
  cases x with
  | sp p off => exact ⟨s.btags, rfl⟩
  | glob pa =>
    exact foldl_rel (R := fun s t : State => ∃ T, t = { s with btags := T }) (fun s => ⟨s.btags, rfl⟩)
      (fun ⟨_, h⟩ ⟨T, h'⟩ => ⟨T, by rw [h', h]⟩) (fun s k => ⟨_, rfl⟩) _ s

theorem State.tagAt_clearTags_none {s : State} {y : Loc} (x : Loc) (n : Nat) (h : s.tagAt y = none) : (s.clearTags x n).tagAt y = none := by
  cases x with
  | sp p off => exact h
  | glob pa =>
    exact foldl_rel (R := fun s t : State => s.tagAt y = none → t.tagAt y = none) (fun _ => id) (fun h h' e => h' (h e))
      (fun s k e => State.tagAt_clearTag_none (pa + k) e) _ s h

/-- No byte of a range of device memory has a tag once its tags are cleared. -/
theorem State.tagAt_clearTags (s : State) (pa n : Nat) : ∀ k < n, (s.clearTags (.glob pa) n).tagAt (.glob (pa + k)) = none := by
  induction n with
  | zero => omega
  | succ n ih =>
    intro k hk
    have e : s.clearTags (.glob pa) (n + 1) = (s.clearTags (.glob pa) n).clearTag (.glob (pa + n)) := by
      simp [State.clearTags, List.range_succ, locAdd]
    rw [e]
    by_cases hn : k = n
    · rw [hn]; exact State.tagAt_clearTag_self _ _
    · exact State.tagAt_clearTag_none _ (ih k (by omega))

theorem State.byteAt_clearTags (s : State) (x : Loc) (n : Nat) (y : Loc) : (s.clearTags x n).byteAt y = s.byteAt y := by
  obtain ⟨T, e⟩ := State.clearTags_eq s x n
  rw [e]; cases y <;> rfl

/-! ### Writes of engines and of firmware -/

/-- What comes before the bytes of a write touches no memory but the tags that the write clears. -/
theorem State.putNow_start (s : State) (core : Option Nat) (x : Loc) (bs : List Byte) (clears : Bool) :
    ∃ u, MemKept (if clears then s.clearTags x bs.length else s) u ∧ s.putNow core x bs clears = u.putBytes x bs :=
  ⟨_, (MemKept.spoilAdds _ x bs.length).trans (MemKept.touchLines _ core x bs.length), rfl⟩

theorem State.storeEngine_facts {s : State} (core : Option Nat) {x : Loc} (hx : s.resident x) (bs : List Byte) :
    (∀ y, (s.storeEngine core x bs).1.byteAt y = if (s.tagAt y).isSome then s.byteAt y else overwrite x bs y (s.byteAt y))
      ∧ ((s.storeEngine core x bs).2 = true ↔ ∃ k < bs.length, (s.tagAt (locAdd x k)).isSome = true)
      ∧ (∀ y, (s.storeEngine core x bs).1.tagAt y = s.tagAt y)
      ∧ (s.mem.wf = true → (s.storeEngine core x bs).1.mem.wf = true) := by
  obtain ⟨u, hu, e⟩ := State.putNow_start (s.clearLines x bs.length) core x bs false
  have hk : MemKept s u := (MemKept.clearLines s x bs.length).trans hu
  obtain ⟨hb, hg, hd, hw⟩ := State.putBytes_facts (hk.resident hx) bs
  simp only [hk.byteAt, hk.tagAt, hk.mem] at hb hg hd hw
  rw [show s.storeEngine core x bs = u.putBytes x bs from e]
  exact ⟨hb, hd, hg, hw⟩

theorem State.storeFirmware_facts (s : State) (pa : Nat) (bs : List Byte) :
    (∀ y, (s.storeFirmware pa bs).byteAt y = overwrite (.glob pa) bs y (s.byteAt y))
      ∧ (∀ k < bs.length, (s.storeFirmware pa bs).tagAt (.glob (pa + k)) = none)
      ∧ (s.mem.wf = true → (s.storeFirmware pa bs).mem.wf = true) := by
  obtain ⟨u, hu, e⟩ := State.putNow_start (s.clearLines (.glob pa) bs.length) none (.glob pa) bs true
  simp only [↓reduceIte] at hu
  obtain ⟨hb, hg, -, hw⟩ := State.putBytes_facts (s := u) (x := .glob pa) (fun _ _ h => by cases h) bs
  have hc := MemKept.clearLines s (.glob pa) bs.length
  have hbyte (y : Loc) : u.byteAt y = s.byteAt y := by rw [hu.byteAt, State.byteAt_clearTags, hc.byteAt]
  have htag (k : Nat) (hk : k < bs.length) : u.tagAt (.glob (pa + k)) = none := by
    rw [hu.tagAt]; exact State.tagAt_clearTags _ _ _ k hk
  have hmem : u.mem = s.mem := by
    obtain ⟨T, eT⟩ := State.clearTags_eq (s.clearLines (.glob pa) bs.length) (.glob pa) bs.length
    rw [hu.mem, eT]; exact hc.mem
  rw [show s.storeFirmware pa bs = (u.putBytes (.glob pa) bs).1 from congrArg Prod.fst e]
  refine ⟨fun y => ?_, fun k hk => by rw [hg]; exact htag k hk, fun h => hw (by rw [hmem]; exact h)⟩
  rw [hb y, hbyte y]
  cases hy : (Loc.glob pa).under bs.length y with
  | none => simp [overwrite, hy]
  | some k =>
    obtain ⟨hk, rfl⟩ := Loc.under_eq_some.1 hy
    rw [show locAdd (.glob pa) k = .glob (pa + k) from rfl, htag k hk]
    simp

/-- Settles O60: a write is its bytes put one by one, those at a live word dropped, after steps that touch no byte; firmware has
cleared the tags of its range before. -/
theorem writesPlaceTheirBytes : Obligations.WritesPlaceTheirBytes := by
  unfold Obligations.WritesPlaceTheirBytes
  refine ⟨fun s core x bs hx => ?_, fun s pa bs => ?_⟩
  · obtain ⟨hb, hrest⟩ := State.storeEngine_facts core hx bs
    refine ⟨fun y => ?_, hrest⟩
    rw [hb y]
    cases h : x.under bs.length y <;> simp [overwrite, h]
  · obtain ⟨hb, hrest⟩ := State.storeFirmware_facts s pa bs
    refine ⟨fun y => ?_, hrest⟩
    rw [hb y]
    cases h : (Loc.glob pa).under bs.length y <;> simp [overwrite, h]

/-! ### What a lane's store does beside its bytes -/

/-- A change that leaves all but memory, reservations, logical time, launches and cores as it was: what a store does beside its
bytes (R219, R266). -/
structure StoreStep (s t : State) : Prop where
  rest : ({ t with mem := [], btags := [], blocks := [], cores := [], lines := [], launches := [], fresh := 0 } : State)
    = { s with mem := [], btags := [], blocks := [], cores := [], lines := [], launches := [], fresh := 0 }
  block : ∀ p, (t.block? p).map (fun b => { b with pairs := [], scratch := [], tags := [] })
    = (s.block? p).map (fun b => { b with pairs := [], scratch := [], tags := [] })
  pair : ∀ p g, ({ t.pair p g with resv := [] } : Pair) = { s.pair p g with resv := [] }

namespace StoreStep
variable {s t u : State}

theorem refl (s : State) : StoreStep s s := ⟨rfl, fun _ => rfl, fun _ _ => rfl⟩
theorem trans (h : StoreStep s t) (h' : StoreStep t u) : StoreStep s u :=
  ⟨h'.rest.trans h.rest, fun p => (h'.block p).trans (h.block p), fun p g => (h'.pair p g).trans (h.pair p g)⟩

/-- A field of the state that the change cannot reach. -/
theorem field (h : StoreStep s t) {α : Type} (f : State → α)
    (hf : ∀ s : State, f { s with mem := [], btags := [], blocks := [], cores := [], lines := [], launches := [], fresh := 0 } = f s) :
    f t = f s := by
  rw [← hf t, h.rest, hf s]

theorem held (h : StoreStep s t) : t.held = s.held := h.field State.held fun _ => rfl

theorem errIn (h : StoreStep s t) (y : Loc) (n : Nat) : t.errIn y n = s.errIn y n := by
  cases y with
  | glob a => simp [State.errIn, h.field State.errs fun _ => rfl]
  | sp p off =>
    have e := congrArg (Option.map Block.errs) (h.block p)
    rw [State.errIn_sp, State.errIn_sp]
    simp only [Option.map_map, Function.comp_def] at e
    rw [show (t.block? p).map Block.errs = (s.block? p).map Block.errs from e]

theorem resident (h : StoreStep s t) {x : Loc} (hx : s.resident x) : t.resident x := by
  intro p off e
  have := congrArg Option.isSome (h.block p)
  simpa [hx p off e] using this

theorem heldOver (h : StoreStep s t) (x : Loc) (n : Nat) : t.heldOver x n = s.heldOver x n := by simp [State.heldOver, h.held]

/-- A change that keeps memory, and of the pairs all but the reservations. -/
theorem of_memKept (h : MemKept s t) (hp : ∀ p g, ({ t.pair p g with resv := [] } : Pair) = { s.pair p g with resv := [] }) :
    StoreStep s t := by
  refine ⟨congrArg (fun x : State => { x with mem := [], btags := [] }) h.rest, fun p => ?_, hp⟩
  have e := congrArg (Option.map fun b : Block => { b with scratch := [], tags := [] }) (h.block p)
  simpa [Option.map_map, Function.comp_def] using e

/-- A change of bytes and tags of one block. -/
theorem mapBlock (s : State) (p : Nat) (f : Block → Block)
    (hf : ∀ b, ({ f b with scratch := [], tags := [] } : Block) = { b with scratch := [], tags := [] }) : StoreStep s (s.mapBlock p f) := by
  refine ⟨by unfold State.mapBlock; split <;> rfl, fun q => ?_, fun q g => ?_⟩
  · have e (b : Block) := congrArg (fun x : Block => { x with pairs := [] }) (hf b)
    rw [State.block?_mapBlock]
    by_cases hq : q = p
    · simpa [hq, Option.map_map, Function.comp_def] using congrArg (fun F => (s.block? p).map F) (funext e)
    · simp [hq]
  · have e (b : Block) : (f b).pair g = b.pair g := (congrArg (fun x : Block => x.pair g) (hf b) :)
    rw [State.pair_eq, State.pair_eq, State.block?_mapBlock]
    by_cases hq : q = p
    · simp [hq, Option.map_map, Function.comp_def, e]
    · simp [hq]

theorem clearResv (s : State) (x : Loc) : StoreStep s (s.clearResv x) :=
  of_memKept (MemKept.clearResv s x) fun p g => by rw [State.pair_clearResv]; rfl

theorem touchWrite (s : State) (core : Option Nat) (x : Loc) : StoreStep s (s.touchWrite core x) :=
  of_memKept (MemKept.touchWrite s core x) fun p g => by simp [State.pair, State.block?, State.touchWrite_blocks]

theorem spoilAdds (s : State) (x : Loc) (n : Nat) : StoreStep s (s.spoilAdds x n) := by
  obtain ⟨L, e⟩ := State.spoilAdds_eq s x n
  rw [e]; exact ⟨rfl, fun _ => rfl, fun _ _ => rfl⟩

theorem clearTags (s : State) (x : Loc) (n : Nat) : StoreStep s (s.clearTags x n) := by
  obtain ⟨T, e⟩ := State.clearTags_eq s x n
  rw [e]; exact ⟨rfl, fun _ => rfl, fun _ _ => rfl⟩

theorem putByte (s : State) (x : Loc) (v : Byte) : StoreStep s (s.putByte x v) := by
  cases x with
  | glob a => exact ⟨rfl, fun _ => rfl, fun _ _ => rfl⟩
  | sp p off => exact mapBlock s p _ fun _ => rfl

theorem putBytes (s : State) (x : Loc) (bs : List Byte) : StoreStep s (s.putBytes x bs).1 := by
  induction bs generalizing s x with
  | nil => exact refl s
  | cons v bs ih =>
    by_cases h : (s.tagAt x).isSome = true
    · rw [State.putBytes_cons_tagged v bs h]; exact ih s _
    · rw [State.putBytes_cons_plain v bs (by simpa using h)]
      exact (putByte s x v).trans (ih _ _)

theorem clearLines (s : State) (x : Loc) (n : Nat) : StoreStep s (s.clearLines x n) := foldl_rel refl trans clearResv _ s

theorem touchLines (s : State) (core : Option Nat) (x : Loc) (n : Nat) : StoreStep s (s.touchLines core x n) :=
  foldl_rel refl trans (fun s y => touchWrite s core y) _ s

theorem putNow (s : State) (core : Option Nat) (x : Loc) (bs : List Byte) (clears : Bool) : StoreStep s (s.putNow core x bs clears).1 := by
  have h : StoreStep s (if clears then s.clearTags x bs.length else s) := by
    cases clears
    · exact refl s
    · exact clearTags s x _
  exact ((h.trans (spoilAdds _ x _)).trans (touchLines _ core x _)).trans (putBytes _ x bs)

end StoreStep

/-! ### A lane's store to plain bytes (R206, R225) -/

/-- Bytes of a lane go to memory at once where no word of them is live: all of them do, and none is reported dropped. -/
theorem State.putNow_plain {s : State} (core : Option Nat) {x : Loc} (hx : s.resident x) (bs : List Byte) (clears : Bool)
    (ht : ∀ k < bs.length, s.tagAt (locAdd x k) = none) :
    (∀ y, (s.putNow core x bs clears).1.byteAt y = overwrite x bs y (s.byteAt y))
      ∧ (∀ y, s.tagAt y = none → (s.putNow core x bs clears).1.tagAt y = none) ∧ (s.putNow core x bs clears).2 = false := by
  obtain ⟨u, hu, e⟩ := State.putNow_start s core x bs clears
  have hbyte (y : Loc) : u.byteAt y = s.byteAt y := by
    rw [hu.byteAt]; cases clears
    · rfl
    · exact State.byteAt_clearTags s x _ y
  have htag (y : Loc) (hy : s.tagAt y = none) : u.tagAt y = none := by
    rw [hu.tagAt]; cases clears
    · exact hy
    · exact State.tagAt_clearTags_none x _ hy
  have hres : u.resident x := hu.resident (by
    cases clears
    · exact hx
    · exact (StoreStep.clearTags s x _).resident hx)
  obtain ⟨hb, hg, hd, -⟩ := State.putBytes_facts hres bs
  rw [e]
  refine ⟨fun y => ?_, fun y hy => by rw [hg]; exact htag y hy, ?_⟩
  · rw [hb y, hbyte y]
    cases h : x.under bs.length y with
    | none => simp [overwrite, h]
    | some k =>
      obtain ⟨hk, rfl⟩ := Loc.under_eq_some.1 h
      simp [htag _ (ht k hk)]
  · rw [← Bool.not_eq_true, hd]
    rintro ⟨k, hk, h⟩
    simp [htag _ (ht k hk)] at h

/-- A lane's store to plain bytes puts them in place and does nothing else but clear reservations and pass logical time. -/
theorem State.storeLane_plain {s : State} {x : Loc} {bs : List Byte} (hx : s.resident x) (hp : s.plain x bs.length)
    (he : s.errIn x bs.length = none) (o : Owner) (sl : Slice) (pc : Word) (va : DWord) (clears : Bool) :
    StoreStep s (s.storeLane o sl pc va x bs clears)
      ∧ (∀ y, (s.storeLane o sl pc va x bs clears).byteAt y = overwrite x bs y (s.byteAt y))
      ∧ ∀ y, s.tagAt y = none → (s.storeLane o sl pc va x bs clears).tagAt y = none := by
  obtain ⟨hh, ht⟩ := hp
  have hc := MemKept.clearLines s x bs.length
  have e : s.storeLane o sl pc va x bs clears
      = ((s.clearLines x bs.length).putNow ((s.clearLines x bs.length).coreOfOwner o) x bs clears).1 := by
    have hd := (State.putNow_plain ((s.clearLines x bs.length).coreOfOwner o) (hc.resident hx) bs clears
      (fun k hk => by rw [hc.tagAt]; exact ht k hk)).2.2
    simp [State.storeLane, hc.heldOver, hh, State.putLane, hc.errIn, he, hd]
  obtain ⟨hb, hg, -⟩ := State.putNow_plain ((s.clearLines x bs.length).coreOfOwner o) (hc.resident hx) bs clears
    (fun k hk => by rw [hc.tagAt]; exact ht k hk)
  rw [e]
  exact ⟨(StoreStep.clearLines s x _).trans (StoreStep.putNow _ _ x bs clears), fun y => by rw [hb y, hc.byteAt],
    fun y hy => hg y (by rw [hc.tagAt]; exact hy)⟩

/-! ### The commit and the end of an issue, for an instruction with an effect of its own -/

theorem Ctx.commit_facts {s : State} {i : Instr} {c : Ctx} (h : s.begin? i = some c) :
    MemKept s (c.commit i) ∧ (c.commit i).fresh = s.fresh ∧ (c.commit i).clk = s.clk
      ∧ (c.commit i).block? c.place = some (c.blk.setPair c.group (c.pairAfter i)) := by
  obtain ⟨-, hblk, -⟩ := State.begin?_facts h
  obtain ⟨Y, hY, e⟩ := Ctx.commit_form h
  have hb : Y.block? c.place = some c.blk := by rw [← hblk]; exact congrArg (smFind · c.place) hY.blocks
  have hf : Y.fresh = s.fresh := (congrArg State.fresh hY.rest :)
  have hc : Y.clk = s.clk := (congrArg State.clk hY.rest :)
  rw [e]
  exact ⟨hY.memKept.trans (MemKept.withPair hb _ _), hf, hc, State.block?_withPair _ _ _ _ _⟩

/-- The end of an issue: at most the spin detector of the half changes, and the samples of the core (R289, R403). -/
theorem Ctx.finish_facts (c : Ctx) (i : Instr) {u : State} (hb : (u.block? c.place).isSome = true) :
    MemKept u (c.finish i u) ∧ ∃ k, (c.finish i u).pair c.place c.group
      = (u.pair c.place c.group).setHalf c.sl { (u.pair c.place c.group).half c.sl with ctl := k } := by
  have hs (w : State) : CoreStep c.core w (c.sample i w) := by
    unfold Ctx.sample
    simp only
    split
    · split
      · exact .inr ⟨_, rfl, rfl⟩
      · exact .inr ⟨_, rfl, rfl⟩
    · exact CoreStep.refl _ _
  have hp (w : State) : (c.sample i w).pair c.place c.group = w.pair c.place c.group := by
    simp [State.pair, State.block?, (hs w).blocks]
  obtain ⟨b, hb⟩ := Option.isSome_iff_exists.1 hb
  unfold Ctx.finish
  rw [hp]
  unfold Ctx.watch
  simp only
  split
  · refine ⟨(hs u).memKept, ((u.pair c.place c.group).half c.sl).ctl, ?_⟩
    cases c.sl <;> rfl
  · refine ⟨(MemKept.mapPair u _ _ _).trans (hs _).memKept, { ((u.pair c.place c.group).half c.sl).ctl with
      spins := c.spins i ((u.pair c.place c.group).half c.sl) }, ?_⟩
    unfold State.mapHalf
    rw [State.mapPair_eq hb, State.pair_withPair, State.pair_of_block hb]

/-- What an issue with an effect of its own leaves of its pair: the advance and the pops of the commit, whatever became of the
pair's reservations. -/
theorem Ctx.goes_of_pair {s : State} {i : Instr} {c : Ctx} (h : s.begin? i = some c) (hw : c.w ≤ 64) {t : State}
    {r : SMap Resv} {k : Issue}
    (ht : t.pair c.place c.group
      = ({ (c.pairAfter i) with resv := r } : Pair).setHalf c.sl { (c.pairAfter i).half c.sl with ctl := k }) :
    Goes c c.next t ∧ c.setsKept t ∧ c.valuesKept i t ∧ ((c.pairAfter i).resv = r → Advanced c t) := by
  have ho : ResultsOnly c i (c.pairAfter i) := ⟨rfl, rfl, fun _ => rfl, fun _ _ => rfl, rfl⟩
  obtain ⟨ha, hs⟩ := ho.kept h hw (Y := s) k
  obtain ⟨r1, r2, r3, -⟩ := Ctx.pairAfter_half h hw
  obtain ⟨-, -, -, f4⟩ := Ctx.pairAfter_facts h hw
  have e : c.halfIn t = c.halfIn (s.withPair c.place c.blk c.group
      ((c.pairAfter i).setHalf c.sl { (c.pairAfter i).half c.sl with ctl := k })) := by
    simp only [Ctx.halfIn, ht, State.pair_withPair, Pair.half_setHalf]
  have eh : c.halfIn t = { (c.pairAfter i).half c.sl with ctl := k } := by simp only [Ctx.halfIn, ht, Pair.half_setHalf]
  refine ⟨⟨fun l hl => e ▸ ha.onPath l hl, fun l hl => e ▸ ha.offPath l hl⟩, ?_, ⟨?_, ?_, ?_, ?_, ?_⟩, fun hr => ?_⟩
  · unfold Ctx.setsKept Ctx.setsAnd at hs ⊢; rw [e]; exact hs
  · intro l n; rw [eh]; exact r1 l n
  · intro n; rw [eh]; exact r2 n
  · intro l n
    unfold Lane.pred
    rw [eh, ← r3 l]; rfl
  · intro q l hl
    rw [ht, Pair.queue_setHalf]; exact f4 q l hl
  · rw [e]; exact hs.2.1
  · subst hr
    have et : t.pair c.place c.group = (s.withPair c.place c.blk c.group
        ((c.pairAfter i).setHalf c.sl { (c.pairAfter i).half c.sl with ctl := k })).pair c.place c.group := by
      rw [ht, State.pair_withPair]
    exact ⟨by rw [et]; exact ha.pair, by rw [et]; exact ha.other, fun l hl => e ▸ ha.onPath l hl, fun l hl => e ▸ ha.offPath l hl⟩

/-- An issue whose own part only stores: the path goes on, values are kept, and memory is as the own part left it. -/
theorem Ctx.stored_finish {s u : State} {i : Instr} {c : Ctx} (h : s.begin? i = some c) (hw : c.w ≤ 64) (H : List Held)
    (hu : StoreStep { c.commit i with held := H } u) :
    Goes c c.next (c.finish i u) ∧ c.setsKept (c.finish i u) ∧ c.valuesKept i (c.finish i u) ∧ MemKept u (c.finish i u) := by
  obtain ⟨-, -, -, hblk⟩ := Ctx.commit_facts h
  have hsome : (u.block? c.place).isSome = true := by
    simpa [show State.block? { c.commit i with held := H } c.place = _ from hblk] using congrArg Option.isSome (hu.block c.place)
  obtain ⟨hm, k, hp⟩ := Ctx.finish_facts c i hsome
  have e0 : ({ u.pair c.place c.group with resv := [] } : Pair) = { c.pairAfter i with resv := [] } := by
    rw [hu.pair c.place c.group, show State.pair { c.commit i with held := H } c.place c.group = c.pairAfter i by
      rw [State.pair_of_block (s := { c.commit i with held := H }) hblk, Block.pair_setPair]]
  have e1 : u.pair c.place c.group = { c.pairAfter i with resv := (u.pair c.place c.group).resv } :=
    (congrArg (fun x : Pair => { x with resv := (u.pair c.place c.group).resv }) e0 :)
  rw [e1] at hp
  have e2 : ({ c.pairAfter i with resv := (u.pair c.place c.group).resv } : Pair).half c.sl = (c.pairAfter i).half c.sl := by
    cases c.sl <;> rfl
  rw [e2] at hp
  obtain ⟨hg, hs, hv, -⟩ := Ctx.goes_of_pair h hw hp
  exact ⟨hg, hs, hv, hm⟩

/-- An issue whose own part changes no block: the path goes on, and values and memory are kept. -/
theorem Ctx.aside_finish {s u : State} {i : Instr} {c : Ctx} (h : s.begin? i = some c) (hw : c.w ≤ 64)
    (hu : u.blocks = (c.commit i).blocks) :
    Advanced c (c.finish i u) ∧ c.setsKept (c.finish i u) ∧ c.valuesKept i (c.finish i u) ∧ MemKept u (c.finish i u) := by
  obtain ⟨-, -, -, hblk⟩ := Ctx.commit_facts h
  have hb : u.block? c.place = some (c.blk.setPair c.group (c.pairAfter i)) := by rw [← hblk]; exact congrArg (smFind · c.place) hu
  obtain ⟨hm, k, hp⟩ := Ctx.finish_facts c i (by rw [hb]; rfl)
  rw [State.pair_of_block hb, Block.pair_setPair] at hp
  obtain ⟨-, hs, hv, ha⟩ := Ctx.goes_of_pair h hw (r := (c.pairAfter i).resv) hp
  exact ⟨ha rfl, hs, hv, hm⟩

/-- An issue whose own part only lists late accesses leaves everything outside the pair but that list and their numbers. -/
theorem Ctx.late_finish {s u : State} {i : Instr} {c : Ctx} (h : s.begin? i = some c) {L : List Late} {n : Nat}
    (hu : u = { c.commit i with late := L, fresh := n }) :
    KeptBut c (fun s => { s with late := [], fresh := 0 }) id (c.finish i u) ∧ (c.finish i u).late = L ∧ (c.finish i u).fresh = n := by
  obtain ⟨hst, hblk, -⟩ := State.begin?_facts h
  obtain ⟨Y, hY, e⟩ := Ctx.commit_form h
  have hY1 : CoreStep c.core { s with late := L, fresh := n } { Y with late := L, fresh := n } := by
    rcases hY with rfl | ⟨k, rfl, hk⟩
    · exact .refl _ _
    · exact .inr ⟨k, rfl, hk⟩
  obtain ⟨Y', k, hY', et⟩ := Ctx.finish_form c i (q := c.pairAfter i) hY1
  have e1 : c.finish i u = Y'.withPair c.place c.blk c.group
      ((c.pairAfter i).setHalf c.sl { (c.pairAfter i).half c.sl with ctl := k }) := by
    rw [hu, e]; exact Host.Outcome.next.inj et
  have hrest := hY'.rest
  rw [e1]
  refine ⟨⟨?_, ?_, ?_, ?_, ?_, ?_⟩, (congrArg State.late hrest :), (congrArg State.fresh hrest :)⟩
  · rw [hst]; exact congrArg (fun x : State => { x with late := [], fresh := 0 }) hrest
  · intro p hp
    rw [hst, State.withPair, State.block?_setBlock_ne _ _ hp]
    exact congrArg (smFind · p) hY'.blocks
  · simp [Block.setPair]
  · intro g hg
    simp [State.withPair, Block.pair_setPair_ne _ _ hg]
  · intro m hm
    rw [hst]; exact hY'.core_ne hm
  · rw [hst]; exact hY'.core

/-! ### A store's checks (R194, R206, R270) -/

theorem firstTrap_none {cs : List Check} (h : ∀ x ∈ cs, x.1 = []) : firstTrap cs = none := by
  induction cs with
  | nil => rfl
  | cons x r ih =>
    obtain ⟨ls, t⟩ := x
    have h0 : ls = [] := h (ls, t) (by simp)
    subst h0
    exact ih fun y hy => h y (by simp [hy])

/-- A lane's store passes the checks of R194 and waits for nothing. -/
structure Ctx.StorePasses (c : Ctx) (sp : Bool) (l : Nat) : Prop where
  aligned : aligned (c.addr sp l).toNat (accBytes c.f.ty) = true
  scratch : sp = true → (c.st.spTarget c.place (c.saddr l) (accBytes c.f.ty)).isSome = true
  xl : sp = false → ∃ t, c.xlates false true l = .ok t
  acq : c.st.acquiring (c.own l) = false
  free : c.pair.captured l = false
  owned : ∀ x, c.loc sp (c.xlates false true) (accBytes c.f.ty) l = some x → c.st.ownedOver none x (accBytes c.f.ty) = false

theorem Ctx.storePasses_of_mayWrite {c : Ctx} {sp : Bool} {l : Nat} {x : Loc} (h : c.mayWrite sp false true (accBytes c.f.ty) l x) :
    c.StorePasses sp l := by
  obtain ⟨⟨ha, hl, -, hq, ho, -⟩, hc⟩ := h
  refine ⟨ha, fun e => ?_, fun e => ?_, hq, hc, fun y hy => ?_⟩
  · subst e
    simp only [Ctx.loc, ↓reduceIte, Option.map_eq_some_iff] at hl
    obtain ⟨p, hp, -⟩ := hl
    simp [hp]
  · subst e
    simp only [Ctx.loc, Bool.false_eq_true, ↓reduceIte] at hl
    split at hl
    · exact ⟨_, ‹_›⟩
    · cases hl
  · rw [hl] at hy; cases hy; exact ho

theorem Ctx.storePasses_of_remote {c : Ctx} {l : Nat} {t : Tlb} (ha : Machine.aligned (c.gaddr l).toNat (accBytes c.f.ty) = true)
    (hx : c.xlates false true l = .ok t) (hr : t.remote = true) (hq : c.st.acquiring (c.own l) = false)
    (hc : c.pair.captured l = false) : c.StorePasses false l := by
  refine ⟨ha, nofun, fun _ => ⟨t, hx⟩, hq, hc, fun y hy => ?_⟩
  simp [Ctx.loc, hx, hr] at hy

section
variable {c : Ctx} {sp : Bool} (h : ∀ l ∈ c.act, c.StorePasses sp l)
include h

theorem Ctx.store_untrapped : firstTrap [misalignedCheck c sp (accBytes c.f.ty), scratchCheck c sp (accBytes c.f.ty),
    memoryCheck c sp (c.xlates false true)] = none := by
  refine firstTrap_none fun x hx => ?_
  simp only [List.mem_cons, List.not_mem_nil, or_false] at hx
  rcases hx with rfl | rfl | rfl
  · exact List.filter_eq_nil_iff.2 fun l hl => by simp [(h l hl).aligned]
  · refine List.filter_eq_nil_iff.2 fun l hl e => ?_
    simp only [Bool.and_eq_true, Option.isNone_iff_eq_none] at e
    simpa [e.2] using (h l hl).scratch e.1
  · refine List.filter_eq_nil_iff.2 fun l hl e => ?_
    simp only [Bool.and_eq_true, Bool.not_eq_true'] at e
    obtain ⟨t, ht⟩ := (h l hl).xl e.1
    simp [ht, xlFault] at e

theorem Ctx.store_unstalled : ((!sp && c.walkWaits (c.xlates false true))
    || c.writeWaits false (c.loc sp (c.xlates false true) (accBytes c.f.ty)) (accBytes c.f.ty)) = false := by
  have hwalk : (!sp && c.walkWaits (c.xlates false true)) = false := by
    cases sp with
    | true => rfl
    | false =>
      simp only [Bool.not_false, Bool.true_and, Ctx.walkWaits, List.any_eq_false]
      intro l hl
      obtain ⟨t, ht⟩ := (h l hl).xl rfl
      simp [ht, Xl.waits]
  have hread : c.readWaits (c.loc sp (c.xlates false true) (accBytes c.f.ty)) (accBytes c.f.ty) = false := by
    simp only [Ctx.readWaits, List.any_eq_false]
    intro l hl
    have ho := (h l hl).owned
    rw [(h l hl).acq]
    cases hx : c.loc sp (c.xlates false true) (accBytes c.f.ty) l with
    | none => simp
    | some x => simp [ho x hx]
  have hlane : (c.act.any fun l => c.pair.captured l || (match c.loc sp (c.xlates false true) (accBytes c.f.ty) l with
      | some x => false && c.st.heldOver x (accBytes c.f.ty)
      | none => false)) = false := by
    rw [List.any_eq_false]
    intro l hl
    rw [(h l hl).free]
    cases c.loc sp (c.xlates false true) (accBytes c.f.ty) l <;> simp
  rw [hwalk, Bool.false_or]
  unfold Ctx.writeWaits
  rw [hread, Bool.false_or]
  exact hlane

/-- A store whose data is there comes to its lanes' bytes. -/
theorem Ctx.storeBody_now (hq : c.f.c ≠ .queue 13) (v : State) :
    storeBody sp c v = .done (c.act.foldl (c.storeNow sp (c.xlates false true)) v) := by
  unfold storeBody
  simp only [Ctx.store_untrapped h, Ctx.store_unstalled h, fromQ13, hq, decide_false, Bool.false_eq_true, ↓reduceIte]

/-- A store from `q13` comes to its lanes' places (R206). -/
theorem Ctx.storeBody_held (hq : c.f.c = .queue 13) {v : State} (hv : v.late = c.st.late)
    (hl : c.st.late.any (c.lateUnder (c.loc sp (c.xlates false true) (accBytes c.f.ty))) = false)
    (hd : ∀ l ∈ c.act, c.st.waitingStores (c.own l) < 64 ∧ c.noData l = false) :
    storeBody sp c v = .done (c.act.foldl (c.holdStore sp (c.xlates false true)) v) := by
  have hroom : (c.act.any fun l => decide (64 ≤ c.st.waitingStores (c.own l))) = false := by
    rw [List.any_eq_false]
    intro l hl
    simpa using (hd l hl).1
  have hdata (t : Nat → TrapInfo) : firstTrap [(c.act.filter c.noData, t)] = none := firstTrap_none fun x hx => by
    rw [List.mem_singleton.1 hx]
    exact List.filter_eq_nil_iff.2 fun l hl => by simp [(hd l hl).2]
  unfold storeBody
  simp only [Ctx.store_untrapped h, Ctx.store_unstalled h, fromQ13, hq, decide_true, Bool.false_eq_true, ↓reduceIte, hroom,
    State.lateWaits, lateWith_none hl, List.any_nil, Bool.or_self, hdata,
    State.settleLate_none (s := v) (by rw [hv]; exact hl)]

end

/-! ### The lanes of a store, one after another -/

/-- Entries numbered along a list: the first has the first number, the others go on from the next. -/
theorem map_zipIdx_cons {α : Type} (f : Nat → Nat → α) (n a : Nat) (r : List Nat) :
    (a :: r).zipIdx.map (fun p => f (n + p.2) p.1) = f n a :: r.zipIdx.map fun p => f (n + 1 + p.2) p.1 := by
  rw [List.zipIdx_cons', List.map_cons, List.map_map]
  simp [Function.comp_def, Nat.add_assoc, Nat.add_comm 1]

theorem State.clearLines_fresh (s : State) (x : Loc) (n : Nat) : (s.clearLines x n).fresh = s.fresh :=
  foldl_rel (R := fun s t : State => t.fresh = s.fresh) (f := State.clearResv) (fun _ => rfl) (fun h h' => h'.trans h) (fun _ _ => rfl) _ s

theorem MemKept.withHeld {s t : State} (h : MemKept s t) (H : List Held) (n : Nat) :
    MemKept { s with held := H } { t with held := H, fresh := n } :=
  ⟨congrArg (fun x : State => { x with held := H }) h.rest, h.block⟩

theorem StoreStep.withHeld {s t : State} (h : StoreStep s t) (H : List Held) (n : Nat) :
    StoreStep { s with held := H } { t with held := H, fresh := n } :=
  ⟨congrArg (fun x : State => { x with held := H }) h.rest, h.block, h.pair⟩

/-- A location that an access names is there. -/
theorem Ctx.loc_resident {c : Ctx} {sp : Bool} {xl : Nat → Xl} {n l : Nat} {x : Loc} (h : c.loc sp xl n l = some x) : c.st.resident x := by
  intro p off e
  subst e
  unfold Ctx.loc at h
  split at h
  · simp only [Option.map_eq_some_iff] at h
    obtain ⟨q, hq, e⟩ := h
    cases e
    unfold State.spTarget at hq
    split at hq
    · cases hq
    · simp only at hq
      split at hq
      · cases hq
      · split at hq
        · rename_i hb
          split at hq
          · cases hq; simp [hb]
          · cases hq
        · cases hq
  · split at h
    · split at h
      · cases h
      · cases h
    · cases h

/-- No access of the path is late where none is by the turn and none of its lanes still waits (log 1). -/
theorem Ctx.isLate_of_prompt {s : State} {i : Instr} {c : Ctx} (hb : s.begin? i = some c) (h : c.prompt) (l : Nat) : c.isLate l = false := by
  obtain ⟨-, hp, -⟩ := Ctx.act_facts hb
  unfold Ctx.isLate
  rw [List.any_eq_false]
  intro m hm
  obtain ⟨h1, h2⟩ := h m (hp m hm)
  have : (c.st.late.any fun h => decide (h.own = c.own m) && h.isLocal && c.st.lateKept h) = false := by
    rw [List.any_eq_false]
    intro e he
    simp [h2 e he]
  rw [h1, this]
  simp

theorem Ctx.isLate_of_turn {c : Ctx} {l : Nat} (hl : l ∈ c.act) (h : c.st.cur.late.getLsbD l = true) : c.isLate l = true :=
  List.any_eq_true.2 ⟨l, hl, by simp [h]⟩

section
variable (c : Ctx) (sp : Bool) (x : Nat → Loc)

/-- The bytes that a lane stores, lowest first (R2). -/
def Ctx.storeBytes (l : Nat) : List Byte := leBytes (accBytes c.f.ty) (c.src c.f.ty c.f.c l).toNat

/-- Lanes store plain bytes in turn: a higher lane's stand over a lower's. -/
theorem Ctx.foldl_storeNow_plain (ls : List Nat)
    (h : ∀ l ∈ ls, c.loc sp (c.xlates false true) (accBytes c.f.ty) l = some (x l) ∧ c.isLate l = false) (v : State)
    (hv : ∀ l ∈ ls, v.resident (x l) ∧ v.plain (x l) (accBytes c.f.ty) ∧ v.errIn (x l) (accBytes c.f.ty) = none) :
    StoreStep v (ls.foldl (c.storeNow sp (c.xlates false true)) v)
      ∧ ∀ y, (ls.foldl (c.storeNow sp (c.xlates false true)) v).byteAt y
          = ls.foldl (fun b l => overwrite (x l) (c.storeBytes l) y b) (v.byteAt y) := by
  induction ls generalizing v with
  | nil => exact ⟨StoreStep.refl v, fun _ => rfl⟩
  | cons a r ih =>
    obtain ⟨hx, hlate⟩ := h a (by simp)
    obtain ⟨hres, hpl, herr⟩ := hv a (by simp)
    have hlen : (c.storeBytes a).length = accBytes c.f.ty := leBytes_length _ _
    rw [← hlen] at hpl herr
    have e : c.storeNow sp (c.xlates false true) v a
        = v.storeLane (c.own a) c.sl c.pc (c.addr sp a) (x a) (c.storeBytes a) c.clears := by
      simp [Ctx.storeNow, hx, hlate, Ctx.storeBytes]
    obtain ⟨hs, hb, ht⟩ := State.storeLane_plain hres hpl herr (c.own a) c.sl c.pc (c.addr sp a) c.clears
    rw [← e] at hs hb ht
    obtain ⟨is, ib⟩ := ih (fun l hl => h l (by simp [hl])) (c.storeNow sp (c.xlates false true) v a) (fun l hl => by
      obtain ⟨h1, ⟨h2, h3⟩, h4⟩ := hv l (by simp [hl])
      exact ⟨hs.resident h1, ⟨by rw [hs.heldOver]; exact h2, fun k hk => ht _ (h3 k hk)⟩, by rw [hs.errIn]; exact h4⟩)
    exact ⟨hs.trans is, fun y => by rw [List.foldl_cons, ib y, hb y, List.foldl_cons]⟩

/-- A lane's late store (log 1). -/
def Ctx.lateStore (id l : Nat) : Late :=
  { id, issue := c.st.fresh, own := c.own l, op := .store (c.storeBytes l), loc := x l, n := accBytes c.f.ty, ty := c.f.ty,
    addr := c.addr sp l, pc := c.pc, clears := c.clears }

/-- Late stores of lanes are listed in turn. -/
theorem Ctx.foldl_storeNow_late (ls : List Nat)
    (h : ∀ l ∈ ls, c.loc sp (c.xlates false true) (accBytes c.f.ty) l = some (x l) ∧ c.isLate l = true) (v : State) :
    ls.foldl (c.storeNow sp (c.xlates false true)) v
      = { v with late := v.late ++ ls.zipIdx.map (fun p => c.lateStore sp x (v.fresh + p.2) p.1), fresh := v.fresh + ls.length } := by
  induction ls generalizing v with
  | nil => simp
  | cons a r ih =>
    obtain ⟨hx, hlate⟩ := h a (by simp)
    have e : c.storeNow sp (c.xlates false true) v a = { v with late := v.late ++ [c.lateStore sp x v.fresh a], fresh := v.fresh + 1 } := by
      simp [Ctx.storeNow, hx, hlate, Ctx.deferAt, Ctx.lateStore, Ctx.storeBytes]
    rw [List.foldl_cons, e, ih (fun l hl => h l (by simp [hl])), map_zipIdx_cons]
    simp [Nat.add_assoc, Nat.add_comm 1]

/-- A lane's store that waits for its data (R206). -/
def Ctx.heldStore (id l : Nat) : Held :=
  { id, own := c.own l, loc := x l, n := accBytes c.f.ty, addr := c.addr sp l, pc := c.pc, ty := c.f.ty, sp, rel := c.f.rel && !sp,
    hint := c.f.hint, clears := c.clears }

/-- Stores of lanes that wait for their data are listed in turn, and clear the reservations on their lines. -/
theorem Ctx.foldl_holdStore (ls : List Nat) (h : ∀ l ∈ ls, c.loc sp (c.xlates false true) (accBytes c.f.ty) l = some (x l)) (v : State) :
    let H := v.held ++ ls.zipIdx.map fun p => c.heldStore sp x (v.fresh + p.2) p.1
    MemKept { v with held := H } (ls.foldl (c.holdStore sp (c.xlates false true)) v)
      ∧ StoreStep { v with held := H } (ls.foldl (c.holdStore sp (c.xlates false true)) v) := by
  induction ls generalizing v with
  | nil =>
    simp only [List.zipIdx_nil, List.map_nil, List.append_nil]
    exact ⟨MemKept.refl v, StoreStep.refl v⟩
  | cons a r ih =>
    have hx := h a (by simp)
    have e : c.holdStore sp (c.xlates false true) v a = { v.clearLines (x a) (accBytes c.f.ty) with
        held := v.held ++ [c.heldStore sp x v.fresh a], fresh := v.fresh + 1 } := by
      simp [Ctx.holdStore, hx, Ctx.heldStore, (MemKept.clearLines v (x a) (accBytes c.f.ty)).held, State.clearLines_fresh]
    obtain ⟨im, is⟩ := ih (fun l hl => h l (by simp [hl])) (c.holdStore sp (c.xlates false true) v a)
    intro H
    have eH : (c.holdStore sp (c.xlates false true) v a).held ++ r.zipIdx.map (fun p =>
        c.heldStore sp x ((c.holdStore sp (c.xlates false true) v a).fresh + p.2) p.1) = H := by
      rw [e]; simp only [H, map_zipIdx_cons, List.append_assoc, List.singleton_append]
    rw [eH] at im is
    have ew : ({ c.holdStore sp (c.xlates false true) v a with held := H } : State)
        = { v.clearLines (x a) (accBytes c.f.ty) with held := H, fresh := v.fresh + 1 } := by rw [e]
    rw [ew] at im is
    exact ⟨((MemKept.clearLines v _ _).withHeld H _).trans im, ((StoreStep.clearLines v _ _).withHeld H _).trans is⟩

end

/-! ### Stores that leave for a peer (R199, R206, R411) -/

section
variable (c : Ctx) (x : Nat → Tlb)

/-- A lane's remote store that waits for its data. -/
def Ctx.heldRemote (id l : Nat) : Held :=
  { id, own := c.own l, loc := .glob ((x l).addr (c.gaddr l)), n := accBytes c.f.ty, addr := c.gaddr l, pc := c.pc, ty := c.f.ty,
    rel := c.f.rel, hint := c.f.hint, clears := c.clears, remote := true, peer := (x l).peer }

theorem Ctx.foldl_holdStore_remote (ls : List Nat) (h : ∀ l ∈ ls, c.xlates false true l = .ok (x l) ∧ (x l).remote = true) (v : State) :
    ls.foldl (c.holdStore false (c.xlates false true)) v
      = { v with held := v.held ++ ls.zipIdx.map (fun p => c.heldRemote x (v.fresh + p.2) p.1), fresh := v.fresh + ls.length } := by
  induction ls generalizing v with
  | nil => simp
  | cons a r ih =>
    obtain ⟨hx, hr⟩ := h a (by simp)
    have e : c.holdStore false (c.xlates false true) v a = { v with held := v.held ++ [c.heldRemote x v.fresh a], fresh := v.fresh + 1 } := by
      simp [Ctx.holdStore, Ctx.loc, hx, hr, Ctx.heldRemote, Ctx.addr]
    rw [List.foldl_cons, e, ih (fun l hl => h l (by simp [hl])), map_zipIdx_cons]
    simp [Nat.add_assoc, Nat.add_comm 1]

variable (port : Nat → Nat) (head : Nat → Carried)

/-- A lane's remote write that has left. -/
def Ctx.remoteWrite (clk id l : Nat) : Remote :=
  { id, own := c.own l, op := .write, peer := (x l).peer, addr := c.gaddr l, raddr := (x l).addr (c.gaddr l), ty := c.f.ty,
    val := c.src c.f.ty c.f.c l, pc := c.pc, sent := some clk, head := head l, port := port l }

/-- The lane's peer may be written through a port that is up, and the packet of a number takes that port and carries what the peer's
entry holds (R408, R411). -/
def Ctx.leaves (v : State) (id l : Nat) : Prop :=
  ∃ e, v.peer? c.blk.part (x l).peer = some e ∧ e.outOk = true ∧ v.portsTo e ≠ [] ∧ port l = v.portFor e id
    ∧ head l = v.headFor c.blk.part e

/-- A lane's remote write leaves at once where no earlier access has its number. -/
theorem Ctx.storeNow_remote {l : Nat} {v : State} (hrel : c.f.rel = false) (hx : c.xlates false true l = .ok (x l))
    (hr : (x l).remote = true) (hl : c.leaves x port head v v.fresh l) (hid : ∀ r ∈ v.remotes, r.id < v.fresh) :
    c.storeNow false (c.xlates false true) v l
      = { v with remotes := v.remotes ++ [c.remoteWrite x port head v.clk v.fresh l], fresh := v.fresh + 1 } := by
  obtain ⟨e, hp, ho, hne, hport, hhead⟩ := hl
  let R : Remote :=
    { id := v.fresh, own := c.own l, op := .write, peer := (x l).peer, addr := c.gaddr l, raddr := (x l).addr (c.gaddr l),
      ty := c.f.ty, val := c.src c.f.ty c.f.c l, rel := c.f.rel, pc := c.pc }
  let u : State := { v with fresh := v.fresh + 1, remotes := v.remotes ++ [R] }
  have e0 : c.storeNow false (c.xlates false true) v l = u.sendRemote R := by
    simp [Ctx.storeNow, Ctx.loc, hx, hr, State.addRemote, hrel, u, R]
  have e1 : u.sendRemote R = { u with remotes := u.remotes.map fun x => if x.id = v.fresh then
      { x with sent := some v.clk, head := v.headFor c.blk.part e, port := v.portFor e v.fresh } else x } := by
    have hp' : u.peer? R.own.part R.peer = some e := hp
    have hne' : u.portsTo e ≠ [] := hne
    unfold State.sendRemote
    simp only [hp', ho, ↓reduceIte, if_neg hne']
    rfl
  have hold : v.remotes.map (fun r => if r.id = v.fresh then
      { r with sent := some v.clk, head := v.headFor c.blk.part e, port := v.portFor e v.fresh } else r) = v.remotes :=
    (List.map_congr_left fun r hr => if_neg (Nat.ne_of_lt (hid r hr))).trans (List.map_id _)
  rw [e0, e1]
  simp [u, R, hold, Ctx.remoteWrite, hport, hhead, hrel]

/-- Remote writes of lanes leave in turn. -/
theorem Ctx.foldl_storeNow_remote (hrel : c.f.rel = false) (ls : List Nat)
    (h : ∀ l ∈ ls, c.xlates false true l = .ok (x l) ∧ (x l).remote = true) (v : State)
    (hl : ∀ p ∈ ls.zipIdx, c.leaves x port head v (v.fresh + p.2) p.1) (hid : ∀ r ∈ v.remotes, r.id < v.fresh) :
    ls.foldl (c.storeNow false (c.xlates false true)) v
      = { v with remotes := v.remotes ++ ls.zipIdx.map (fun p => c.remoteWrite x port head v.clk (v.fresh + p.2) p.1),
                 fresh := v.fresh + ls.length } := by
  induction ls generalizing v with
  | nil => simp
  | cons a r ih =>
    obtain ⟨hx, hr⟩ := h a (by simp)
    have e := c.storeNow_remote x port head hrel hx hr (by simpa using hl (a, 0) (by simp)) hid
    have hl' : ∀ p ∈ r.zipIdx, c.leaves x port head (c.storeNow false (c.xlates false true) v a)
        ((c.storeNow false (c.xlates false true) v a).fresh + p.2) p.1 := by
      intro p hp
      have hp' := hl (p.1, p.2 + 1) (by
        rw [List.zipIdx_cons']
        exact List.mem_cons_of_mem _ (List.mem_map.2 ⟨p, hp, rfl⟩))
      rw [show v.fresh + (p.2 + 1) = v.fresh + 1 + p.2 by omega] at hp'
      rw [e]
      exact hp'
    have hid' : ∀ q ∈ (c.storeNow false (c.xlates false true) v a).remotes, q.id < (c.storeNow false (c.xlates false true) v a).fresh := by
      rw [e]
      intro q hq
      rcases List.mem_append.1 hq with hq | hq
      · exact Nat.lt_succ_of_lt (hid q hq)
      · rw [List.mem_singleton.1 hq]; exact Nat.lt_succ_self _
    rw [List.foldl_cons, ih (fun l hl => h l (by simp [hl])) _ hl' hid', e, map_zipIdx_cons]
    simp [Nat.add_assoc, Nat.add_comm 1]

end

/-! ### The kinds of stores -/

section
variable {i : Instr} {sp : Bool} {s : State} {c : Ctx} {x : Nat → Loc}

/-- An instruction whose own part completes in a state has that state's end of issue as its next state. -/
theorem exec_of_done {body : Ctx → State → Act} (he : ∀ s, exec i s = issue i body s) (h : Clear i s c) {u : State}
    (hu : body c (c.commit i) = .done u) : exec i s = .next (c.finish i u) := by
  rw [he, issue_clear h, hu]; rfl

/-- Stores of plain bytes of this device, none of them late (R206). -/
theorem store_places (he : ∀ s, exec i s = issue i (storeBody sp) s) (h : Clear i s c) (hq : c.f.c ≠ .queue 13) (hp : c.prompt)
    (hl : ∀ l ∈ c.act, c.mayWrite sp false true (accBytes c.f.ty) l (x l) ∧ s.plain (x l) (accBytes c.f.ty)) :
    ∃ t, exec i s = .next t ∧ Goes c c.next t ∧ c.valuesKept i t ∧ t.held = s.held ∧ t.outs = s.outs ∧ t.remotes = s.remotes
      ∧ t.late = s.late ∧ ∀ y, t.byteAt y = c.act.foldl (fun v l => overwrite (x l) (c.storeBytes l) y v) (s.byteAt y) := by
  have ⟨hb, _, hw⟩ := h
  have hst : c.st = s := (State.begin?_facts hb).1
  obtain ⟨hm, -, -, -⟩ := Ctx.commit_facts hb
  have hbody := Ctx.storeBody_now (fun l hl' => Ctx.storePasses_of_mayWrite (hl l hl').1) hq (c.commit i)
  obtain ⟨hs, hbytes⟩ := c.foldl_storeNow_plain sp x c.act
    (fun l hl' => ⟨(hl l hl').1.1.2.1, Ctx.isLate_of_prompt hb hp l⟩) (c.commit i) (fun l hl' => by
      obtain ⟨⟨⟨-, hloc, -, -, -, herr⟩, -⟩, hheld, htag⟩ := hl l hl'
      have hres : s.resident (x l) := hst ▸ Ctx.loc_resident hloc
      exact ⟨hm.resident hres, ⟨by rw [hm.heldOver]; exact hheld, fun k hk => by rw [hm.tagAt]; exact htag k hk⟩,
        by rw [hm.errIn, ← hst]; exact herr⟩)
  obtain ⟨hg, -, hv, hf⟩ := Ctx.stored_finish hb hw (c.commit i).held hs
  refine ⟨_, exec_of_done he h hbody, hg, hv, ?_, ?_, ?_, ?_, fun y => ?_⟩
  · rw [hf.held, hs.held, hm.held]
  · rw [hf.outs, hs.field State.outs fun _ => rfl, hm.outs]
  · rw [hf.remotes, hs.field State.remotes fun _ => rfl, hm.remotes]
  · rw [hf.late, hs.field State.late fun _ => rfl, hm.late]
  · rw [hf.byteAt, hbytes, hm.byteAt]

/-- Stores that the turn makes late (log 1). -/
theorem store_waitsForPlace (he : ∀ s, exec i s = issue i (storeBody sp) s) (h : Clear i s c) (hq : c.f.c ≠ .queue 13)
    (hl : ∀ l ∈ c.act, c.mayWrite sp false true (accBytes c.f.ty) l (x l) ∧ s.cur.late.getLsbD l = true) :
    ∃ t, exec i s = .next t ∧ KeptBut c (fun s => { s with late := [], fresh := 0 }) id t ∧ Advanced c t ∧ c.setsKept t
      ∧ c.valuesKept i t ∧ (∀ y, t.byteAt y = s.byteAt y) ∧ c.isLater sp c.act (fun l => .store (c.storeBytes l)) x t := by
  have ⟨hb, _, hw⟩ := h
  have hst : c.st = s := (State.begin?_facts hb).1
  obtain ⟨hm, hfresh, -, -⟩ := Ctx.commit_facts hb
  have hbody := Ctx.storeBody_now (fun l hl' => Ctx.storePasses_of_mayWrite (hl l hl').1) hq (c.commit i)
  have hfold := c.foldl_storeNow_late sp x c.act (fun l hl' => ⟨(hl l hl').1.1.2.1,
    Ctx.isLate_of_turn hl' (by rw [hst]; exact (hl l hl').2)⟩) (c.commit i)
  obtain ⟨hk, hL, hF⟩ := Ctx.late_finish hb hfold
  obtain ⟨ha, hs, hv, hf⟩ := Ctx.aside_finish hb hw (congrArg State.blocks hfold :)
  refine ⟨_, exec_of_done he h hbody, hk, ha, hs, hv, fun y => ?_, ?_, ?_⟩
  · rw [hf.byteAt, hfold, ← hm.byteAt]; cases y <;> rfl
  · rw [hL, hm.late, hfresh, hst]; simp only [Ctx.lateStore, hst]
  · rw [hF, hfresh, hst]

/-- Stores of this device from `q13` (R206). -/
theorem store_waitsForData (he : ∀ s, exec i s = issue i (storeBody sp) s) (h : Clear i s c) (hq : c.f.c = .queue 13)
    (hfree : ∀ l ∈ c.act, ∀ e ∈ s.late, overlap e.loc e.n (x l) (accBytes c.f.ty) = false)
    (hl : ∀ l ∈ c.act, c.mayWrite sp false true (accBytes c.f.ty) l (x l) ∧ s.waitingStores (c.own l) < 64 ∧ c.noData l = false) :
    ∃ t, exec i s = .next t ∧ Goes c c.next t ∧ c.setsKept t ∧ c.valuesKept i t ∧ (∀ y, t.byteAt y = s.byteAt y)
      ∧ t.held = s.held ++ c.act.zipIdx.map fun p => c.heldStore sp x (s.fresh + p.2) p.1 := by
  have ⟨hb, _, hw⟩ := h
  have hst : c.st = s := (State.begin?_facts hb).1
  obtain ⟨hm, hfresh, -, -⟩ := Ctx.commit_facts hb
  have hloc (l : Nat) (hl' : l ∈ c.act) : c.loc sp (c.xlates false true) (accBytes c.f.ty) l = some (x l) := (hl l hl').1.1.2.1
  have hunder : c.st.late.any (c.lateUnder (c.loc sp (c.xlates false true) (accBytes c.f.ty))) = false := by
    refine List.any_eq_false.2 fun e he' => ?_
    simp only [Ctx.lateUnder, Bool.not_eq_true, List.any_eq_false]
    intro l hl'
    simp [hloc l hl', hfree l hl' e (hst ▸ he')]
  have hbody := Ctx.storeBody_held (fun l hl' => Ctx.storePasses_of_mayWrite (hl l hl').1) hq (v := c.commit i)
    (by rw [hm.late, hst]) hunder (fun l hl' => by rw [hst]; exact (hl l hl').2)
  obtain ⟨hmem, hstep⟩ := c.foldl_holdStore sp x c.act hloc (c.commit i)
  obtain ⟨hg, hs, hv, hf⟩ := Ctx.stored_finish hb hw _ hstep
  refine ⟨_, exec_of_done he h hbody, hg, hs, hv, fun y => ?_, ?_⟩
  · rw [hf.byteAt, hmem.byteAt, ← hm.byteAt]; cases y <;> rfl
  · rw [hf.held, hmem.held, hm.held, hfresh]

end

section
variable {i : Instr} {s : State} {c : Ctx} {x : Nat → Tlb}

/-- Stores to a peer with their data (R207, R411). -/
theorem store_leaves {port : Nat → Nat} {head : Nat → Carried} (he : ∀ s, exec i s = issue i (storeBody false) s) (h : Clear i s c)
    (hq : c.f.c ≠ .queue 13) (hrel : c.f.rel = false) (hid : ∀ r ∈ s.remotes, r.id < s.fresh)
    (hl : ∀ l ∈ c.act, c.sends false true (accBytes c.f.ty) l (x l) (port l) (head l) ∧ c.pair.captured l = false) :
    ∃ t, exec i s = .next t ∧ Advanced c t ∧ c.setsKept t ∧ c.valuesKept i t ∧ (∀ y, t.byteAt y = s.byteAt y)
      ∧ t.remotes = s.remotes ++ c.act.zipIdx.map fun p => c.remoteWrite x port head s.clk (s.fresh + p.2) p.1 := by
  have ⟨hb, _, hw⟩ := h
  have hst : c.st = s := (State.begin?_facts hb).1
  obtain ⟨hm, hfresh, hclk, -⟩ := Ctx.commit_facts hb
  have hbody := Ctx.storeBody_now (sp := false) (fun l hl' => by
    obtain ⟨⟨ha, -, hxl, hr, hacq, -⟩, hc⟩ := hl l hl'
    exact Ctx.storePasses_of_remote ha hxl hr hacq hc) hq (c.commit i)
  have hleaves : ∀ p ∈ c.act.zipIdx, c.leaves x port head (c.commit i) ((c.commit i).fresh + p.2) p.1 := by
    intro p hp
    obtain ⟨l, j⟩ := p
    have hj : c.act[j]? = some l := List.mem_zipIdx_iff_getElem?.1 hp
    obtain ⟨hlt, hjl⟩ := List.getElem?_eq_some_iff.1 hj
    have hidx : c.act.idxOf l = j := by rw [← hjl]; exact (Ctx.act_facts hb).1.idxOf_getElem j hlt
    obtain ⟨⟨-, -, -, -, -, e, hpeer, hout, hne, hport, hhead⟩, -⟩ := hl l (hjl ▸ List.getElem_mem hlt)
    rw [hst] at hpeer hne hport hhead
    rw [hidx] at hport
    refine ⟨e, ?_, hout, ?_, ?_, ?_⟩
    · rw [hm.field (fun s => s.peer? c.blk.part (x l).peer) fun _ => rfl]; exact hpeer
    · rw [hm.field (fun s => s.portsTo e) fun _ => rfl]; exact hne
    · rw [hm.field (fun u => u.portFor e ((c.commit i).fresh + j)) fun _ => rfl, hfresh]; exact hport
    · rw [hm.field (fun s => s.headFor c.blk.part e) fun _ => rfl]; exact hhead
  have hfold := c.foldl_storeNow_remote x port head hrel c.act (fun l hl' => by
    obtain ⟨⟨-, -, hxl, hr, -⟩, -⟩ := hl l hl'
    exact ⟨hxl, hr⟩) (c.commit i) hleaves (by rw [hm.remotes, hfresh]; exact hid)
  obtain ⟨ha, hs, hv, hf⟩ := Ctx.aside_finish hb hw (congrArg State.blocks hfold :)
  refine ⟨_, exec_of_done he h hbody, ha, hs, hv, fun y => ?_, ?_⟩
  · rw [hf.byteAt, hfold, ← hm.byteAt]; cases y <;> rfl
  · rw [hf.remotes, hfold, hm.remotes, hfresh, hclk]

/-- Stores to a peer from `q13` (R206). -/
theorem store_waitsToLeave (he : ∀ s, exec i s = issue i (storeBody false) s) (h : Clear i s c) (hq : c.f.c = .queue 13)
    (hl : ∀ l ∈ c.act, aligned (c.gaddr l).toNat (accBytes c.f.ty) = true ∧ inFabric (c.gaddr l) = true
      ∧ c.xlates false true l = .ok (x l) ∧ (x l).remote = true ∧ c.st.acquiring (c.own l) = false ∧ c.pair.captured l = false
      ∧ s.waitingStores (c.own l) < 64 ∧ c.noData l = false) :
    ∃ t, exec i s = .next t ∧ Advanced c t ∧ c.setsKept t ∧ c.valuesKept i t ∧ (∀ y, t.byteAt y = s.byteAt y)
      ∧ t.held = s.held ++ c.act.zipIdx.map fun p => c.heldRemote x (s.fresh + p.2) p.1 := by
  have ⟨hb, _, hw⟩ := h
  have hst : c.st = s := (State.begin?_facts hb).1
  obtain ⟨hm, hfresh, -, -⟩ := Ctx.commit_facts hb
  have hxl (l : Nat) (hl' : l ∈ c.act) : c.xlates false true l = .ok (x l) ∧ (x l).remote = true := by
    obtain ⟨-, -, h1, h2, -⟩ := hl l hl'
    exact ⟨h1, h2⟩
  have hunder : c.st.late.any (c.lateUnder (c.loc false (c.xlates false true) (accBytes c.f.ty))) = false := by
    refine List.any_eq_false.2 fun e _ => ?_
    simp only [Ctx.lateUnder, Bool.not_eq_true, List.any_eq_false]
    intro l hl'
    obtain ⟨h1, h2⟩ := hxl l hl'
    simp [Ctx.loc, h1, h2]
  have hbody := Ctx.storeBody_held (sp := false) (fun l hl' => by
      obtain ⟨ha, -, h1, h2, hacq, hc, -⟩ := hl l hl'
      exact Ctx.storePasses_of_remote ha h1 h2 hacq hc) hq (v := c.commit i)
    (by rw [hm.late, hst]) hunder (fun l hl' => by
      obtain ⟨-, -, -, -, -, -, hd⟩ := hl l hl'
      rw [hst]; exact hd)
  have hfold := c.foldl_holdStore_remote x c.act hxl (c.commit i)
  obtain ⟨ha, hs, hv, hf⟩ := Ctx.aside_finish hb hw (congrArg State.blocks hfold :)
  refine ⟨_, exec_of_done he h hbody, ha, hs, hv, fun y => ?_, ?_⟩
  · rw [hf.byteAt, hfold, ← hm.byteAt]; cases y <;> rfl
  · rw [hf.held, hfold, hm.held, hfresh]

end

/-! ### A late store takes its place (R265, R266) -/

/-- Of the accesses to place, none but the one of the turn where no other is of its lane or its issue. -/
theorem lateWith_single {pre post : List Late} {h : Late} {mine : Late → Bool} (hm : mine h = true)
    (hpre : ∀ e ∈ pre, mine e = false ∧ e.own ≠ h.own ∧ e.issue ≠ h.issue) (hpost : ∀ e ∈ post, mine e = false) :
    lateWith mine (pre ++ h :: post) = [h] := by
  have h0 : lateWith mine (h :: post) = [h] := by
    have hn : lateWith mine post = [] := lateWith_none (List.any_eq_false.2 fun e he => by simp [hpost e he])
    simp [lateWith, hm, hn]
  induction pre with
  | nil => exact h0
  | cons a r ih =>
    obtain ⟨h1, h2, h3⟩ := hpre a (by simp)
    have hr := ih fun e he => hpre e (by simp [he])
    simp [lateWith, hr, h1, Ne.symm h2, Ne.symm h3]

/-- A list of accesses without the one that is placed. -/
theorem filter_placed {pre post : List Late} {h : Late} (hpre : h ∉ pre) (hpost : h ∉ post) :
    (pre ++ h :: post).filter (fun e => decide (e ∉ [h])) = pre ++ post := by
  have hf (l : List Late) (hl : h ∉ l) : l.filter (fun e => decide (e ∉ [h])) = l :=
    List.filter_eq_self.2 fun e he => by simpa using fun eq : e = h => hl (eq ▸ he)
  rw [List.filter_append, List.filter_cons, hf pre hpre, hf post hpost]
  simp

/-- The turn of an access places it alone where none of its lane or its issue stands before it and it waits for nothing. -/
theorem State.placeTurn_single {s : State} {pre : List Late} {h : Late} {post : List Late} (hlate : s.late = pre ++ h :: post)
    (hpre : ∀ e ∈ pre, e.id ≠ h.id ∧ e.own ≠ h.own ∧ e.issue ≠ h.issue) (hpost : ∀ e ∈ post, e.id ≠ h.id)
    (hkept : s.lateKept h = false) : s.placeTurn h.id = State.placeLate { s with late := pre ++ post } h := by
  have hwith : lateWith (fun e => decide (e.id = h.id)) s.late = [h] := by
    rw [hlate]
    refine lateWith_single (by simp) (fun e he => ?_) fun e he => by simp [hpost e he]
    obtain ⟨h1, h2, h3⟩ := hpre e he
    exact ⟨by simp [h1], h2, h3⟩
  have hrest : s.late.filter (fun e => decide (e ∉ [h])) = pre ++ post := by
    rw [hlate, filter_placed (fun he => (hpre h he).1 rfl) (fun he => hpost h he rfl)]
  simp only [State.placeTurn, State.lateWaits, State.settleLate, hwith, List.any_cons, hkept, List.any_nil, Bool.or_self,
    Bool.false_eq_true, ↓reduceIte, List.cons_ne_nil, List.foldl_cons, List.foldl_nil, hrest]

/-- The turn of a late store puts its bytes in place. -/
theorem step_placeStore {s : State} {pre : List Late} {h : Late} {post : List Late} {bs : List Byte} (hp : s.placesNext pre h post)
    (hop : h.op = .store bs) (hn : bs.length = h.n) (hplain : s.plain h.loc h.n) (hres : s.resident h.loc) :
    ∃ t, step s = .next t ∧ t.late = pre ++ post ∧ ∀ y, t.byteAt y = overwrite h.loc bs y (s.byteAt y) := by
  obtain ⟨hsec, hag, hlate, hpre, hpost, hown, herr⟩ := hp
  obtain ⟨r, hr⟩ := List.head?_eq_some_iff.1 hag
  let u : State := { s with agenda := r }
  let v : State := { u with late := pre ++ post }
  have hkept : u.lateKept h = false := by
    have hown' : u.ownedOver none h.loc h.n = false := hown
    simp [State.lateKept, Late.untranslated, State.lateLoc, hop, hown']
  have hstep : step s = .next (v.storeLane h.own .access h.pc h.addr h.loc bs h.clears) := by
    have hmove : s.move = .now (u.placeTurn h.id) := by simp only [State.move, hr, hsec, ↓reduceIte, u]
    have hplace : v.placeLate h = v.storeLane h.own .access h.pc h.addr h.loc bs h.clears := by simp only [State.placeLate, hop]
    unfold step
    rw [hmove, State.placeTurn_single (s := u) hlate hpre hpost hkept]
    exact congrArg _ hplace
  have hbyte (y : Loc) : v.byteAt y = s.byteAt y := by cases y <;> rfl
  have htag (y : Loc) : v.tagAt y = s.tagAt y := by cases y <;> rfl
  have herr' (n : Nat) : v.errIn h.loc n = s.errIn h.loc n := by cases h.loc <;> rfl
  obtain ⟨hheld, htags⟩ := hplain
  obtain ⟨hs, hbytes, -⟩ := State.storeLane_plain (s := v) (bs := bs) hres
    ⟨hn ▸ hheld, fun k hk => (htag _).trans (htags k (hn ▸ hk))⟩ (by rw [herr', hn]; exact herr) h.own .access h.pc h.addr h.clears
  exact ⟨_, hstep, hs.field State.late fun _ => rfl, fun y => by rw [hbytes, hbyte]⟩

/-- Settles O19, a store at a time: a store of plain bytes puts its lanes' bytes one over another; a late one, one from `q13` and one
to a peer lists an entry a lane; and a late store's turn stores its bytes. -/
theorem storesPlaceTheirBytes : Obligations.StoresPlaceTheirBytes := by
  unfold Obligations.StoresPlaceTheirBytes
  intro bytes local_ late waiting remote
  have hbytes (c : Ctx) (x : Nat → Loc) (y : Loc) (b : Byte) :
      c.act.foldl (fun v l => overwrite (x l) (c.storeBytes l) y v) b
        = c.act.foldl (fun v l => match (x l).under (accBytes c.f.ty) y with
          | some k => BitVec.ofNat 8 ((c.src c.f.ty c.f.c l).toNat / 2 ^ (8 * k))
          | none => v) b := by
    congr 1
    funext v l
    rw [Ctx.storeBytes, overwrite_leBytes]
    cases (x l).under (accBytes c.f.ty) y <;> rfl
  have hlocal {i : Instr} {g : Sig} {f : Ext} {sp : Bool} (he : ∀ s, exec i s = issue i (storeBody sp) s)
      (hrow : sig? i = some (g, f)) : local_ i f sp := by
    intro s c x h hq hp hl
    obtain rfl := (h.row hrow).1
    obtain ⟨t, ht, hg, hv, h1, h2, h3, h4, hb⟩ := store_places he h hq hp hl
    exact ⟨t, ht, hg, hv, h1, h2, h3, h4, fun y => (hb y).trans (hbytes c x y _)⟩
  have hlate {i : Instr} {g : Sig} {f : Ext} {sp : Bool} (he : ∀ s, exec i s = issue i (storeBody sp) s)
      (hrow : sig? i = some (g, f)) : late i f sp := by
    intro s c x h hq hl
    obtain rfl := (h.row hrow).1
    exact store_waitsForPlace he h hq hl
  have hwaiting {i : Instr} {g : Sig} {f : Ext} {sp : Bool} (he : ∀ s, exec i s = issue i (storeBody sp) s)
      (hrow : sig? i = some (g, f)) : waiting i f sp := by
    intro s c x h hq hfree hl
    obtain rfl := (h.row hrow).1
    exact store_waitsForData he h hq hfree hl
  refine ⟨fun f => hwaiting (fun _ => rfl) rfl, fun f => hwaiting (fun _ => rfl) rfl, fun f => hlocal (fun _ => rfl) rfl,
    fun f => hlocal (fun _ => rfl) rfl, ?_, fun f => hlate (fun _ => rfl) rfl, fun f => hlate (fun _ => rfl) rfl, ?_, ?_⟩
  · intro f s c x port head h hq hrel hid hp hl
    obtain rfl := (h.row rfl).1
    exact store_leaves (fun _ => rfl) h hq hrel hid hl
  · intro f s c x h hq hl
    obtain rfl := (h.row rfl).1
    exact store_waitsToLeave (fun _ => rfl) h hq hl
  · intro s pre h post bs hp hop hn hplain hres
    obtain ⟨t, ht, hl, hb⟩ := step_placeStore hp hop hn hplain hres
    refine ⟨t, ht, hl, fun y => ?_⟩
    rw [hb, ← hn]
    cases e : h.loc.under bs.length y <;> simp [overwrite, e]

end Sys2Proof.Machine
end

section
/-! SUPPORT. Fences: what a fence delivers, and the fence intervals that it ends (R55, R220). -/

namespace Sys2Proof.Machine
open Sys2Proof

/-! ### Fences (R55, R220) -/

section
variable {β : Type} (d : β)

theorem smGet_foldl_set [DecidableEq β] (v : Nat → β) (ls : List Nat) (m : SMap β) (k : Nat) :
    smGet d (ls.foldl (fun m l => smSet d m l (v l)) m) k = if k ∈ ls then v k else smGet d m k := by
  induction ls generalizing m with
  | nil => simp
  | cons a r ih =>
    rw [List.foldl_cons, ih]
    by_cases h : k = a
    · subst h; simp
    · simp [h, smGet_set_ne d m (v a) h]

theorem smGet_foldl_erase (ls : List Nat) (m : SMap β) (k : Nat) :
    smGet d (ls.foldl smErase m) k = if k ∈ ls then d else smGet d m k := by
  induction ls generalizing m with
  | nil => simp
  | cons a r ih =>
    rw [List.foldl_cons, ih]
    by_cases h : k = a
    · subst h; simp [smGet_erase_self]
    · simp [h, smGet_erase_ne d m h]

end

/-- The pair once the fence interval of each listed lane has ended with its status word and started anew (R55). -/
def Pair.fenced (ls : List Nat) (word : Nat → Word) (p : Pair) : Pair :=
  { p with fencestat := ls.foldl (fun m l => smSet 0xf0 m l (word l)) p.fencestat, fences := ls.foldl smErase p.fences }

theorem Pair.foldl_fenced (ls : List Nat) (word : Nat → Word) (p : Pair) :
    ls.foldl (fun p l => { p with fencestat := smSet 0xf0 p.fencestat l (word l), fences := smErase p.fences l }) p
      = p.fenced ls word := by
  induction ls generalizing p with
  | nil => rfl
  | cons a r ih => rw [List.foldl_cons, ih]; rfl

@[simp] theorem Pair.half_fenced (ls : List Nat) (word : Nat → Word) (p : Pair) (sl : Slice) : (p.fenced ls word).half sl = p.half sl := by
  cases sl <;> rfl

@[simp] theorem Pair.fenced_setHalf (ls : List Nat) (word : Nat → Word) (p : Pair) (sl : Slice) (h : Half) :
    (p.setHalf sl h).fenced ls word = (p.fenced ls word).setHalf sl h := by
  cases sl <;> rfl

@[simp] theorem Pair.queue_fenced (ls : List Nat) (word : Nat → Word) (p : Pair) (q l : Nat) :
    (p.fenced ls word).queue q l = p.queue q l := rfl

/-- A push changes the pair where it is not discarded (R49). -/
theorem State.push_eq {s : State} {p : Nat} {b : Block} (h : s.block? p = some b) (g q l : Nat) (es : List Elem) :
    s.push p g q l es = if s.discards b (b.pair g) g q l then s
      else s.withPair p b g ((b.pair g).setQueue q l ((b.pair g).queue q l ++ es)) := by
  simp only [State.push, h, State.mapPair_eq h]

/-- The delivery of one lane's result and the end of intervals do not meet. -/
theorem State.writeDst_fenced (ls : List Nat) (word : Nat → Word) (s : State) (p g : Nat) (sl : Slice) (o : Operand) (wide : Bool)
    (l : Nat) (v : DWord) :
    (s.mapPair p g (Pair.fenced ls word)).writeDst p g sl o wide l v
      = (s.writeDst p g sl o wide l v).mapPair p g (Pair.fenced ls word) := by
  cases hb : s.block? p with
  | none =>
    have hm (f : Pair → Pair) : s.mapPair p g f = s := by simp [State.mapPair, State.mapBlock, hb]
    have hd : s.writeDst p g sl o wide l v = s := by
      cases o <;> simp [State.writeDst, State.mapHalf, hm, State.push, hb]
    rw [hm, hd, hm]
  | some b =>
    have hm := State.mapPair_eq hb g
    cases o with
    | reg n => simp [State.writeDst, State.mapHalf, hm]
    | uni n => simp [State.writeDst, State.mapHalf, hm]
    | queue q =>
      have hd : s.discards b ((b.pair g).fenced ls word) g q.toNat l = s.discards b (b.pair g) g q.toNat l := by
        unfold State.discards
        rw [Pair.half_fenced, Pair.queue_fenced]
      simp only [State.writeDst, hm, State.push_withPair, State.push_eq hb, hd]
      split
      · rw [hm]
      · rw [State.mapPair_withPair]; rfl
    | special _ | lit | imm _ | set _ => rfl

theorem Ctx.writeAll_fenced (c : Ctx) (ls : List Nat) (word : Nat → Word) (wide : Bool) (v : Nat → DWord) (s : State) :
    c.writeAll wide v (s.mapPair c.place c.group (Pair.fenced ls word))
      = (c.writeAll wide v s).mapPair c.place c.group (Pair.fenced ls word) := by
  have hfold := List.foldl_hom (State.mapPair · c.place c.group (Pair.fenced ls word))
    (g₁ := fun s l => s.writeDst c.place c.group c.sl c.f.dst wide l (v l))
    (g₂ := fun s l => s.writeDst c.place c.group c.sl c.f.dst wide l (v l)) (l := c.act) (init := s)
    (fun s l => State.writeDst_fenced ls word s _ _ _ _ _ _ _)
  unfold Ctx.writeAll
  split
  · split
    · rfl
    · exact State.writeDst_fenced ..
  · exact hfold

/-- The states agree in the issuing half and in the queues of its pair. -/
structure Ctx.Agree (c : Ctx) (t u : State) : Prop where
  half : c.halfIn t = c.halfIn u
  queue : ∀ q l, (t.pair c.place c.group).queue q l = (u.pair c.place c.group).queue q l

theorem Ctx.Agree.wrote {c : Ctx} {i : Instr} {wide : Bool} {v : Nat → DWord} {t u : State} (h : c.Agree t u)
    (hu : c.wrote i wide v u) : c.wrote i wide v t := by
  simpa only [Ctx.wrote, Ctx.predsKept, Ctx.regsKept, Ctx.uniKept, Ctx.popsOnly, h.half, h.queue] using hu

theorem Ctx.Agree.valuesKept {c : Ctx} {i : Instr} {t u : State} (h : c.Agree t u) (hu : c.valuesKept i u) :
    c.valuesKept i t := by
  simpa only [Ctx.valuesKept, Ctx.predsKept, Ctx.regsKept, Ctx.uniKept, Ctx.popsOnly, h.half, h.queue] using hu

/-- A fence waits while an access of one of its lanes is outstanding, or a stream holds one. -/
theorem fenceBody_waits {scope : Nat} {c : Ctx} (h : ∃ l ∈ c.act, c.st.unfenced (c.own l) = true ∨ c.pair.captured l = true) (u : State) :
    fenceBody scope c u = .stall c.st := by
  have hany : (c.act.any fun l => c.st.unfenced (c.own l) || c.pair.captured l) = true := by
    simpa [List.any_eq_true] using h
  simp only [fenceBody, hany, ↓reduceIte]

/-- The status word of a lane's interval at a fence. -/
def Ctx.fenceStatus (c : Ctx) (scope l : Nat) : Word := fenceWord (smGet {} c.pair.fences l) scope

/-- With nothing outstanding the intervals end, and unless `.nr` their status words are delivered. -/
theorem fenceBody_reports {scope : Nat} {c : Ctx} (h : ∀ l ∈ c.act, c.st.unfenced (c.own l) = false ∧ c.pair.captured l = false) (u : State) :
    fenceBody scope c u
      = .done ((if c.f.nr then u else c.writeAll false (fun l => (c.fenceStatus scope l).zeroExtend 64) u).mapPair c.place c.group
          (Pair.fenced c.act (c.fenceStatus scope))) := by
  have hany : (c.act.any fun l => c.st.unfenced (c.own l) || c.pair.captured l) = false := by
    rw [List.any_eq_false]
    intro l hl
    simp [h l hl]
  have hfold : (fun p : Pair => c.act.foldl (fun p l => { p with
        fencestat := smSet 0xf0 p.fencestat l (c.fenceStatus scope l), fences := smErase p.fences l }) p)
      = Pair.fenced c.act (c.fenceStatus scope) := funext fun p => Pair.foldl_fenced ..
  have hbody : fenceBody scope c u
      = if c.f.nr then .done (u.mapPair c.place c.group (Pair.fenced c.act (c.fenceStatus scope)))
        else .done (c.writeAll false (fun l => (c.fenceStatus scope l).zeroExtend 64)
          (u.mapPair c.place c.group (Pair.fenced c.act (c.fenceStatus scope)))) := by
    rw [← hfold]
    unfold fenceBody
    rw [hany]
    rfl
  rw [hbody, Ctx.writeAll_fenced]
  cases c.f.nr <;> rfl

/-- The end of a fence's issue: the path goes on, the intervals of the active lanes have ended, and the half and the queues are as the
delivery of the words left them. -/
theorem fenced_finish {s : State} {i : Instr} {c : Ctx} (h : Clear i s c) {Y : State} {q : Pair} (hY : CoreStep c.core s Y)
    (ho : ResultsOnly c i q) (word : Nat → Word) :
    ∃ (t Y' : State) (k : Issue), c.conclude i (.done (Y.withPair c.place c.blk c.group (q.fenced c.act word))) = .next t
      ∧ Kept c t ∧ Goes c c.next t ∧ c.setsKept t
      ∧ (∀ l, smGet 0xf0 (t.pair c.place c.group).fencestat l = (if l ∈ c.act then word l else smGet 0xf0 c.pair.fencestat l)
        ∧ smGet {} (t.pair c.place c.group).fences l = if l ∈ c.act then {} else smGet {} c.pair.fences l)
      ∧ c.Agree t (Y'.withPair c.place c.blk c.group (q.setHalf c.sl { q.half c.sl with ctl := k })) := by
  obtain ⟨hb, -, hw⟩ := h
  obtain ⟨Y', k, hY', et⟩ := Ctx.finish_form c i (q := q.fenced c.act word) hY
  obtain ⟨ha, hs⟩ := ho.kept hb hw (Y := Y') k
  obtain ⟨f1, -⟩ := Ctx.pairAfter_facts hb hw
  have hstat : q.fencestat = c.pair.fencestat := (congrArg Pair.fencestat ho.pair).trans (congrArg Pair.fencestat f1 :)
  have hfences : q.fences = c.pair.fences := (congrArg Pair.fences ho.pair).trans (congrArg Pair.fences f1 :)
  have hsame : c.Agree (Y'.withPair c.place c.blk c.group
        ((q.fenced c.act word).setHalf c.sl { (q.fenced c.act word).half c.sl with ctl := k }))
      (Y'.withPair c.place c.blk c.group (q.setHalf c.sl { q.half c.sl with ctl := k })) :=
    ⟨by simp [Ctx.halfIn], fun r l => by simp⟩
  refine ⟨_, Y', k, et, Kept.of_form hb hY' _, ?_, ?_, fun l => ⟨?_, ?_⟩, hsame⟩
  · exact ⟨fun l hl => hsame.half ▸ ha.onPath l hl, fun l hl => hsame.half ▸ ha.offPath l hl⟩
  · unfold Ctx.setsKept Ctx.setsAnd
    rw [hsame.half]; exact hs
  · simp [Pair.fenced, smGet_foldl_set, hstat]
  · simp [Pair.fenced, smGet_foldl_erase, hfences]

theorem exec_fence_waits {scope : Scope} {f : Ext} {s : State} {c : Ctx} (h : Clear (.fence scope f) s c)
    (hwait : ∃ l ∈ c.act, c.st.unfenced (c.own l) = true ∨ c.pair.captured l = true) : exec (.fence scope f) s = .next s := by
  obtain ⟨hst, -⟩ := State.begin?_facts h.1
  change issue (.fence scope f) (fenceBody (scopeCode scope)) s = _
  rw [issue_clear h, fenceBody_waits hwait, hst]
  rfl

theorem exec_fence_reports {scope : Scope} {f : Ext} {s : State} {c : Ctx} (h : Clear (.fence scope f) s c)
    (hfree : ∀ l ∈ c.act, c.st.unfenced (c.own l) = false ∧ c.pair.captured l = false) {Y : State} {q : Pair}
    (hu : (if c.f.nr then c.commit (.fence scope f)
        else c.writeAll false (fun l => (c.fenceStatus (scopeCode scope) l).zeroExtend 64) (c.commit (.fence scope f)))
      = Y.withPair c.place c.blk c.group q) :
    exec (.fence scope f) s = c.conclude (.fence scope f)
      (.done (Y.withPair c.place c.blk c.group (q.fenced c.act (c.fenceStatus (scopeCode scope))))) := by
  change issue (.fence scope f) (fenceBody (scopeCode scope)) s = _
  rw [issue_clear h, fenceBody_reports hfree, hu, State.mapPair_withPair]

/-- Settles O23: a fence comes to its own part, which waits or ends the intervals of the active lanes; that and the delivery of the
status words change different fields of the pair. -/
theorem fencesReportTheirInterval : Obligations.FencesReportTheirInterval := by
  unfold Obligations.FencesReportTheirInterval
  refine ⟨fun scope f s c h hwait => ?_, fun scope f s c h hd hfree => ?_⟩
  · obtain ⟨rfl, -⟩ := State.begin?_facts h.1
    exact exec_fence_waits h hwait
  obtain ⟨rfl, -⟩ := State.begin?_facts h.1
  obtain rfl := (h.row rfl).1
  cases hn : c.f.nr with
  | true =>
    obtain ⟨Y, hY, eY⟩ := Ctx.commit_form h.1
    have ho : ResultsOnly c (.fence scope c.f) (c.pairAfter (.fence scope c.f)) := ⟨rfl, rfl, fun _ => rfl, fun _ _ => rfl, rfl⟩
    obtain ⟨t, Y', k, et, hk, hg, hs, hfence, hsame⟩ := fenced_finish h hY ho (c.fenceStatus (scopeCode scope))
    obtain ⟨-, -, hv, -⟩ := Ctx.goes_of_pair h.1 h.2.2 (r := (c.pairAfter (.fence scope c.f)).resv) (State.pair_withPair Y' _ _ _ _)
    obtain ⟨hregs, huni, hpreds, hpops, -⟩ := hsame.valuesKept hv
    exact ⟨t, (exec_fence_reports h hfree ((if_pos hn).trans eY)).trans et, hk, hg, hs, ⟨hregs, huni, hpreds, hpops⟩, hfence⟩
  | false =>
    obtain ⟨Y, q, hY, eY, ho, hv⟩ := Ctx.writeAll_form h.1 h.2.2 false hd fun l => (c.fenceStatus (scopeCode scope) l).zeroExtend 64
    obtain ⟨t, Y', k, et, hk, hg, hs, hfence, hsame⟩ := fenced_finish h hY ho (c.fenceStatus (scopeCode scope))
    exact ⟨t, (exec_fence_reports h hfree ((if_neg (by simp [hn])).trans eY)).trans et, hk, hg, hs,
      hsame.wrote (hv Y' _ rfl rfl rfl), hfence⟩

end Sys2Proof.Machine
end

section
/-! SUPPORT. Rejoin sets: a load of a set's image in a scratchpad word that an uncorrectable error has reached (R183, R384). -/

namespace Sys2Proof.Machine
open Sys2Proof

/-! ### A rejoin-set image that an uncorrectable error has reached (R183, R281, R384) -/

/-- A block with one live lane. Set 1 is armed with members 0 and 1; the image at offset 32 of the scratchpad is that of a set armed
with member 0, and an uncorrectable error has reached its first word. -/
def imageErrBlock : Block :=
  { kernel := { decl := { width := 8, scratch := 64 } }
    pairs := [(0, { live := true
                    exe := { lanes := [(0, { life := .live })], sets := [(1, { members := 3, state := jArmed })] } })]
    scratch := [(32, 1), (48, 1)], errs := [32] }

/-- The machine with that block, whose lane comes to issue. -/
def imageErrState : State := { sec := .run, cur := { sl := .execute }, blocks := [(0, imageErrBlock)] }

/-- `join.load j1, 32`. -/
def loadSet1 : Ext := { a := .set 1, b := .imm 32 }

/-- What the load issues with. -/
def imageErrCtx : Ctx :=
  { st := imageErrState, place := 0, group := 0, sl := .execute, pc := 0, blk := imageErrBlock, f := loadSet1, len := 12,
    path := [0], act := [0] }

theorem imageErr_clear : Clear (.joinLoad loadSet1) imageErrState imageErrCtx := ⟨rfl, by decide +kernel, by decide +kernel⟩

/-- The load fails as a load into a register does, and leaves the set (log 83). -/
theorem imageErr_set_kept {t : State} (h : exec (.joinLoad loadSet1) imageErrState = .next t) :
    (imageErrCtx.halfIn t).set 1 = imageErrCtx.theSet := by
  have e : (match exec (.joinLoad loadSet1) imageErrState with
      | .next u => (imageErrCtx.halfIn u).set 1
      | _ => {}) = imageErrCtx.theSet := by decide +kernel
  rw [h] at e
  exact e

/-- Refutes O15: the premises of the image clauses leave out an uncorrectable error in the image's bytes. There a `join.load` fails
(R281, log 83) and the set keeps its members, where the clause has it become the image's set. -/
theorem not_rejoinSets : ¬ Obligations.RejoinSets := by
  unfold Obligations.RejoinSets
  rintro ⟨-, -, hload⟩
  obtain ⟨t, ht, -, -, hset, -⟩ := hload loadSet1 imageErrState imageErrCtx 32 { members := 1, state := jArmed } imageErr_clear
    (by decide +kernel) (by decide +kernel) (by decide +kernel) (by decide +kernel) (by decide +kernel)
  have hkept := imageErr_set_kept ht
  rw [hset 1] at hkept
  exact absurd hkept (by decide +kernel)

end Sys2Proof.Machine
end

section
/-! SUPPORT. The integer and logic instructions: the model's results in one lane as bit vectors of the operands (R126 to R132). -/

namespace Sys2Proof.Machine
open Sys2Proof

/-! ### Completion with a number, with bits, or with a 32-bit number -/

/-- An instruction of R126 completes with the result of its exact value; its type is one of the integer types. -/
theorem Yields.of_int {i : Instr} {x : Ctx → Nat → Int} {v : Ctx → Nat → DWord} (he : ∀ s, exec i s = issue i (intBody x) s)
    (hty : ∀ s c, Clear i s c → c.f.ty ∈ tyInt) (hv : ∀ s c, Clear i s c → ∀ l, c.result (x c l) = v c l) :
    Yields i (fun c => isWide c.f.ty) v := by
  refine Yields.of _ he fun s c h u => ?_
  have hval : (fun l => intResult c.f.ty c.f.sat (x c l)) = v c := funext fun l => by
    rw [intResult_eq c (hty s c h), hv s c h]
  rw [← hval]; rfl

/-- An instruction whose own part writes bits of its type completes with them. -/
theorem Yields.of_bits {i : Instr} {x : Ctx → Nat → Nat} {v : (c : Ctx) → Nat → BitVec (tyWidth c.f.ty)}
    (he : ∀ s, exec i s = issue i (bitsBody x) s) (hv : ∀ c l, x c l = (v c l).toNat) :
    Yields i (fun c => isWide c.f.ty) fun c l => ofBits (v c l) := by
  refine Yields.of _ he fun s c _ u => ?_
  have hval : (fun l => BitVec.ofNat 64 (x c l)) = fun l => ofBits (v c l) := funext fun l => by
    rw [hv, BitVec.ofNat_toNat]; rfl
  rw [← hval]; rfl

/-- An instruction whose own part writes a 32-bit number completes with it. -/
theorem Yields.of_word {i : Instr} {x : Ctx → Nat → Nat} {v : Ctx → Nat → DWord} (he : ∀ s, exec i s = issue i (wordBody x) s)
    (hv : ∀ s c, Clear i s c → ∀ l, BitVec.ofNat 64 (x c l) = v c l) : Yields i (fun _ => false) v := by
  refine Yields.of _ he fun s c h u => ?_
  rw [← show _ = v c from funext (hv s c h)]; rfl

/-! ### Types and modifiers of the integer rows -/

/-- The type of an instruction is one of its row's. -/
theorem Clear.ty_mem {i : Instr} {s : State} {c : Ctx} {g : Sig} {f : Ext} (h : Clear i s c) (hs : sig? i = some (g, f)) :
    c.f.ty ∈ g.tys := by
  obtain ⟨rfl, hty, -⟩ := h.row hs
  exact hty

/-- A row of R125 with the integer types. -/
theorem Clear.ty_int {i : Instr} {s : State} {c : Ctx} {g : Sig} {f : Ext} (h : Clear i s c) (hs : sig? i = some (g, f))
    (hg : g.tys ⊆ tyInt) : c.f.ty ∈ tyInt := hg (h.ty_mem hs)

/-- A base word of R86 is of a 32-bit integer type, without `.sat`. -/
theorem Clear.base_int {i : Instr} {s : State} {c : Ctx} {g : BaseSig} {f : Base} (h : Clear i s c) (hs : sig? i = none)
    (hb : base? i = some (g, f)) (hg : g.ty = .i32) : c.f.ty ∈ tyInt ∧ c.f.sat = false := by
  obtain ⟨hf, -⟩ := h.baseRow hs hb
  rw [hf]
  refine ⟨?_, rfl⟩
  simp only [baseExt, hg]
  cases f.uns <;> decide

/-- A row without `.sat`. -/
theorem Clear.unsat {i : Instr} {s : State} {c : Ctx} {g : Sig} {f : Ext} (h : Clear i s c) (hs : sig? i = some (g, f))
    (hg : g.sat = false) : c.f.sat = false := by
  obtain ⟨rfl, -, hsat, -⟩ := h.row hs
  exact hsat hg

/-! ### Arithmetic mod 2^w (R126) -/

theorem Ctx.result_unsat {c : Ctx} (h : c.f.sat = false) (x : Int) : c.result x = c.wrapped x := by simp [Ctx.result, h]

theorem Ctx.ofInt_asInt (c : Ctx) (o : Operand) (l : Nat) : BitVec.ofInt (tyWidth c.f.ty) (c.asInt o l) = c.bv o l := by
  unfold Ctx.asInt
  split <;> simp

theorem Ctx.wrapped_asInt (c : Ctx) (o : Operand) (l : Nat) : c.wrapped (c.asInt o l) = ofBits (c.bv o l) := by
  rw [Ctx.wrapped, Ctx.ofInt_asInt]

theorem Ctx.wrapped_mul (c : Ctx) (o p : Operand) (l : Nat) :
    c.wrapped (c.asInt o l * c.asInt p l) = ofBits (c.bv o l * c.bv p l) := by
  rw [Ctx.wrapped, BitVec.ofInt_mul, Ctx.ofInt_asInt, Ctx.ofInt_asInt]

theorem Ctx.wrapped_min (c : Ctx) (o p : Operand) (l : Nat) :
    c.wrapped (min (c.asInt o l) (c.asInt p l)) = ofBits (if c.asInt o l ≤ c.asInt p l then c.bv o l else c.bv p l) := by
  rw [Int.min_def]
  split <;> exact c.wrapped_asInt _ l

theorem Ctx.wrapped_max (c : Ctx) (o p : Operand) (l : Nat) :
    c.wrapped (max (c.asInt o l) (c.asInt p l)) = ofBits (if c.asInt p l ≤ c.asInt o l then c.bv o l else c.bv p l) := by
  rw [Int.max_comm, Int.max_def]
  split <;> exact c.wrapped_asInt _ l

/-- Settles O1: each result is the exact value in the integers of the operands, which R126 limits or takes mod 2^w; without `.sat` a
product, or the smaller or larger operand, is that of the operands' bits. -/
theorem integerArithmetic : Obligations.IntegerArithmetic := by
  unfold Obligations.IntegerArithmetic
  have hext {i : Instr} {g : Sig} {f : Ext} (hs : sig? i = some (g, f)) (hg : g.tys ⊆ tyInt) (s : State) (c : Ctx) (h : Clear i s c) :
      c.f.ty ∈ tyInt := h.ty_int hs hg
  have hbase {i : Instr} {g : BaseSig} {f : Base} (hs : sig? i = none) (hb : base? i = some (g, f)) (hg : g.ty = .i32) (s : State) (c : Ctx)
      (h : Clear i s c) : c.f.ty ∈ tyInt := (h.base_int hs hb hg).1
  have hmin {c : Ctx} (h : c.f.sat = false) (l : Nat) : c.result (minVal c l)
      = ofBits (if c.asInt c.f.a l ≤ c.asInt c.f.b l then c.bv c.f.a l else c.bv c.f.b l) := by
    rw [Ctx.result_unsat h, minVal, Ctx.int_eq, Ctx.int_eq, Ctx.wrapped_min]
  have hmax {c : Ctx} (h : c.f.sat = false) (l : Nat) : c.result (maxVal c l)
      = ofBits (if c.asInt c.f.b l ≤ c.asInt c.f.a l then c.bv c.f.a l else c.bv c.f.b l) := by
    rw [Ctx.result_unsat h, maxVal, Ctx.int_eq, Ctx.int_eq, Ctx.wrapped_max]
  refine ⟨fun f => ?add, fun f => ?addBase, fun f => ?sub, fun f => ?subBase, fun f => ?mulLo, fun f => ?mad, fun f => ?abs,
    fun f => ?absBase, fun f => ?neg, fun f => ?negBase, fun f => ?mulHi, fun f => ?min, fun f => ?minBase, fun f => ?max,
    fun f => ?maxBase⟩
  case add => exact .of_int (fun _ => rfl) (hext rfl (by decide)) fun _ c _ l => by simp only [addVal, Ctx.int_eq]
  case addBase => exact .of_int (fun _ => rfl) (hbase rfl rfl rfl) fun _ c _ l => by simp only [addVal, Ctx.int_eq]
  case sub => exact .of_int (fun _ => rfl) (hext rfl (by decide)) fun _ c _ l => by simp only [subVal, Ctx.int_eq]
  case subBase => exact .of_int (fun _ => rfl) (hbase rfl rfl rfl) fun _ c _ l => by simp only [subVal, Ctx.int_eq]
  case mulLo =>
    refine .of_int (fun _ => rfl) (hext rfl (by decide)) fun _ c h l => ?_
    rw [Ctx.result_unsat (h.unsat rfl rfl), mulVal, Ctx.int_eq, Ctx.int_eq, Ctx.wrapped_mul]
  case mad => exact .of_int (fun _ => rfl) (hext rfl (by decide)) fun _ c _ l => by simp only [madVal, mulVal, Ctx.int_eq]
  case abs => exact .of_int (fun _ => rfl) (hext rfl (by decide)) fun _ c _ l => by simp only [absVal, Ctx.int_eq]
  case absBase => exact .of_int (fun _ => rfl) (hbase rfl rfl rfl) fun _ c _ l => by simp only [absVal, Ctx.int_eq]
  case neg => exact .of_int (fun _ => rfl) (hext rfl (by decide)) fun _ c _ l => by simp only [negVal, Ctx.int_eq]
  case negBase => exact .of_int (fun _ => rfl) (hbase rfl rfl rfl) fun _ c _ l => by simp only [negVal, Ctx.int_eq]
  case mulHi =>
    refine .of_int (fun _ => rfl) (hext rfl (by decide)) fun _ c h l => ?_
    rw [Ctx.result_unsat (h.unsat rfl rfl), mulHiVal, mulVal, Ctx.int_eq, Ctx.int_eq]
  case min => exact .of_int (fun _ => rfl) (hext rfl (by decide)) fun _ c h l => hmin (h.unsat rfl rfl) l
  case minBase => exact .of_int (fun _ => rfl) (hbase rfl rfl rfl) fun _ c h l => hmin (h.base_int rfl rfl rfl).2 l
  case max => exact .of_int (fun _ => rfl) (hext rfl (by decide)) fun _ c h l => hmax (h.unsat rfl rfl) l
  case maxBase => exact .of_int (fun _ => rfl) (hbase rfl rfl rfl) fun _ c h l => hmax (h.base_int rfl rfl rfl).2 l

end Sys2Proof.Machine
end

section
/-! SUPPORT. The bitwise, shift, count, selection, move and field instructions: the model's numbers as bit vectors of the operands
(R127 to R130, R132). -/

namespace Sys2Proof.Machine
open Sys2Proof

/-! ### Bitwise operations and shifts (R127) -/

theorem andVal_eq (c : Ctx) (l : Nat) : andVal c l = (c.bv c.f.a l &&& c.bv c.f.b l).toNat := by
  simp [andVal, Ctx.bits_eq]

theorem orVal_eq (c : Ctx) (l : Nat) : orVal c l = (c.bv c.f.a l ||| c.bv c.f.b l).toNat := by
  simp [orVal, Ctx.bits_eq]

theorem xorVal_eq (c : Ctx) (l : Nat) : xorVal c l = (c.bv c.f.a l ^^^ c.bv c.f.b l).toNat := by
  simp [xorVal, Ctx.bits_eq]

theorem notVal_eq (c : Ctx) (l : Nat) : notVal c l = (~~~ c.bv c.f.a l).toNat := by
  simp [notVal, Ctx.bits_eq]

/-- A left shift by w or more leaves no bit. -/
theorem shlVal_eq (c : Ctx) (l : Nat) : shlVal c l = (c.bv c.f.a l <<< c.word c.f.b l).toNat := by
  unfold shlVal
  simp only [Ctx.bits_eq, BitVec.toNat_shiftLeft, Nat.shiftLeft_eq]
  split
  case isTrue h => exact (Nat.mod_eq_zero_of_dvd (Nat.dvd_mul_left_of_dvd (Nat.pow_dvd_pow 2 h) _)).symm
  case isFalse => rfl

/-- A right shift by w or more leaves no bit. -/
theorem shrVal_eq (c : Ctx) (l : Nat) : shrVal c l = (c.bv c.f.a l >>> c.word c.f.b l).toNat := by
  unfold shrVal
  simp only [Ctx.bits_eq, BitVec.toNat_ushiftRight, Nat.shiftRight_eq_div_pow]
  split
  case isTrue h =>
    exact (Nat.div_eq_of_lt (Nat.lt_of_lt_of_le (c.bv c.f.a l).isLt (Nat.pow_le_pow_right (by decide) h))).symm
  case isFalse => rfl

/-- Bits read as a number of a signed type. -/
theorem readInt_signed {t : Ty} (h : isSigned t = true) {w : Nat} (hw : 0 < w) (x : BitVec w) : readInt t w x.toNat = x.toInt := by
  have hp : 2 * 2 ^ (w - 1) = 2 ^ w := by rw [← Nat.pow_succ']; congr 1; omega
  unfold readInt
  simp only [h, true_and, Nat.mod_eq_of_lt x.isLt, BitVec.toInt_eq_toNat_cond]
  by_cases hneg : 2 ^ (w - 1) ≤ x.toNat
  · rw [if_pos hneg, if_neg (by omega)]
    norm_cast
  · rw [if_neg hneg, if_pos (by omega)]

/-- A number of w bits divided by 2^w or more is its sign. -/
theorem toInt_div_of_le {w n : Nat} (x : BitVec w) (h : w ≤ n) : x.toInt / 2 ^ n = if x.toInt < 0 then -1 else 0 := by
  have hpow : (2 : Int) ^ w ≤ 2 ^ n := by exact_mod_cast Nat.pow_le_pow_right (by decide) h
  have hlt : x.toInt < 2 ^ w := by
    have := BitVec.toInt_lt (x := x)
    have : (2 : Int) ^ (w - 1) ≤ 2 ^ w := by exact_mod_cast Nat.pow_le_pow_right (by decide) (Nat.sub_le w 1)
    omega
  have hge : -2 ^ w ≤ x.toInt := by
    have := BitVec.le_toInt x
    have : (2 : Int) ^ (w - 1) ≤ 2 ^ w := by exact_mod_cast Nat.pow_le_pow_right (by decide) (Nat.sub_le w 1)
    omega
  split
  case isTrue hneg => exact Int.ediv_eq_neg_one_of_neg_of_le hneg (by omega)
  case isFalse hpos => exact Int.ediv_eq_zero_of_lt (by omega) (by omega)

/-- An arithmetic right shift by w or more leaves the sign everywhere. -/
theorem sarVal_eq (c : Ctx) (l : Nat) : sarVal c l = ((c.bv c.f.a l).sshiftRight (c.word c.f.b l)).toNat := by
  unfold sarVal
  have hsigned : isSigned (if tyWidth c.f.ty = 64 then Ty.i64 else Ty.i32) = true := by split <;> rfl
  have hcount : (c.bv c.f.a l).toInt / 2 ^ (if tyWidth c.f.ty ≤ c.word c.f.b l then tyWidth c.f.ty else c.word c.f.b l)
      = (c.bv c.f.a l).toInt / 2 ^ c.word c.f.b l := by
    split
    case isTrue h => rw [toInt_div_of_le _ h, toInt_div_of_le _ (Nat.le_refl _)]
    case isFalse => rfl
  simp only [Ctx.bits_eq, readInt_signed hsigned (tyWidth_pos _), hcount, BitVec.sshiftRight_eq, BitVec.toNat_ofInt,
    Int.shiftRight_eq_div_pow, wrap]
  norm_cast

/-- Settles O2: the numbers that the model forms are those of the bit vector operations, at every width. -/
theorem logicAndShifts : Obligations.LogicAndShifts := by
  unfold Obligations.LogicAndShifts
  exact ⟨fun _ => .of_bits (fun _ => rfl) andVal_eq, fun _ => .of_bits (fun _ => rfl) andVal_eq,
    fun _ => .of_bits (fun _ => rfl) orVal_eq, fun _ => .of_bits (fun _ => rfl) orVal_eq,
    fun _ => .of_bits (fun _ => rfl) xorVal_eq, fun _ => .of_bits (fun _ => rfl) xorVal_eq,
    fun _ => .of_bits (fun _ => rfl) notVal_eq, fun _ => .of_bits (fun _ => rfl) notVal_eq,
    fun _ => .of_bits (fun _ => rfl) shlVal_eq, fun _ => .of_bits (fun _ => rfl) shlVal_eq,
    fun _ => .of_bits (fun _ => rfl) shrVal_eq, fun _ => .of_bits (fun _ => rfl) shrVal_eq,
    fun _ => .of_bits (fun _ => rfl) sarVal_eq, fun _ => .of_bits (fun _ => rfl) sarVal_eq⟩

/-! ### Counts, reversal and selection (R129, R130, R132) -/

theorem popcVal_eq (c : Ctx) (l : Nat) :
    popcVal c l = (List.range (tyWidth c.f.ty)).countP fun k => (c.bv c.f.a l).getLsbD k := by
  rw [popcVal, Ctx.bits_eq, List.countP_eq_length_filter]
  rfl

/-- The zeros above the leading one of a number, within w bits. -/
theorem length_takeWhile_getMsbD {w : Nat} (x : BitVec w) :
    ((List.range w).takeWhile fun k => !x.getMsbD k).length = if x.toNat = 0 then w else w - 1 - Nat.log2 x.toNat := by
  split
  case isTrue h =>
    have hx : x = 0#w := BitVec.eq_of_toNat_eq (by simpa using h)
    have hall : (List.range w).takeWhile (fun k => !x.getMsbD k) = List.range w := by
      simpa only [List.append_nil, List.takeWhile_nil] using
        List.takeWhile_append_of_pos (l₂ := []) (p := fun k => !x.getMsbD k) (l₁ := List.range w) fun k _ => by
          rw [hx, BitVec.getMsbD_zero, Bool.not_false]
    rw [hall, List.length_range]
  case isFalse h =>
    have hlog : Nat.log2 x.toNat < w := (Nat.log2_lt h).2 x.isLt
    have hlead : x.getMsbD (w - 1 - Nat.log2 x.toNat) = true := by
      rw [BitVec.getMsbD_eq_getLsbD, show w - 1 - (w - 1 - Nat.log2 x.toNat) = Nat.log2 x.toNat by omega,
        ← BitVec.testBit_toNat, Nat.testBit_log2 h]
      simp only [Bool.and_true, decide_eq_true_eq]
      omega
    have hzero : ∀ j < w - 1 - Nat.log2 x.toNat, x.getMsbD j = false := fun j hj => by
      have hhigh : x.toNat.testBit (w - 1 - j) = false := Nat.testBit_lt_two_pow ((Nat.log2_lt h).1 (by omega))
      rw [BitVec.getMsbD_eq_getLsbD, ← BitVec.testBit_toNat, hhigh, Bool.and_false]
    have hidx : (List.range w).findIdx (fun k => !!x.getMsbD k) = w - 1 - Nat.log2 x.toNat := by
      rw [List.findIdx_eq (by simp only [List.length_range]; omega)]
      simpa [hlead] using hzero
    rw [List.takeWhile_eq_take_findIdx_not, hidx, List.length_take, List.length_range]
    omega

theorem clzVal_eq (c : Ctx) (l : Nat) :
    clzVal c l = ((List.range (tyWidth c.f.ty)).takeWhile fun k => !(c.bv c.f.a l).getMsbD k).length := by
  rw [length_takeWhile_getMsbD, clzVal, Ctx.bits_eq]

/-- The first n bits of a number, the lowest one first, as a number with the highest one first. -/
theorem testBit_foldl_bits (x n j : Nat) :
    ((List.range n).foldl (fun r k => 2 * r + (if x.testBit k then 1 else 0)) 0).testBit j = (decide (j < n) && x.testBit (n - 1 - j)) := by
  induction n generalizing j with
  | zero => simp
  | succ n ih =>
    rw [List.range_succ, List.foldl_append, List.foldl_cons, List.foldl_nil]
    generalize (List.range n).foldl (fun r k => 2 * r + (if x.testBit k then 1 else 0)) 0 = r at ih
    have hlow : (2 * r + (if x.testBit n then 1 else 0)) % 2 = if x.testBit n then 1 else 0 := by split <;> omega
    have hhigh : (2 * r + (if x.testBit n then 1 else 0)) / 2 = r := by split <;> omega
    cases j with
    | zero =>
      rw [Nat.testBit_zero, hlow, Nat.add_sub_cancel, Nat.sub_zero, decide_eq_true (Nat.succ_pos n), Bool.true_and]
      cases x.testBit n <;> rfl
    | succ j =>
      rw [Nat.testBit_succ, hhigh, ih, show n + 1 - 1 - (j + 1) = n - 1 - j by omega]
      exact congrArg (· && _) (decide_eq_decide.2 Nat.succ_lt_succ_iff.symm)

theorem brevVal_eq (c : Ctx) (l : Nat) : brevVal c l = (c.bv c.f.a l).reverse.toNat := by
  refine Nat.eq_of_testBit_eq fun j => ?_
  rw [brevVal, testBit_foldl_bits, Ctx.bits_eq, BitVec.testBit_toNat, BitVec.testBit_toNat, BitVec.getLsbD_reverse,
    BitVec.getMsbD_eq_getLsbD]

theorem selVal_eq (c : Ctx) (l : Nat) :
    selVal c l = (if c.predSrc c.f.c l then c.bv c.f.a l else c.bv c.f.b l).toNat := by
  simp only [selVal, Ctx.bits_eq]
  split <;> rfl

theorem movVal_eq (c : Ctx) (l : Nat) : movVal c l = (c.bv c.f.a l).toNat := by rw [movVal, Ctx.bits_eq]

/-! ### Fields (R128) -/

/-- The mask of the field that `bfi` replaces. -/
def Ctx.fieldMask (c : Ctx) (l : Nat) : BitVec (tyWidth c.f.ty) :=
  BitVec.ofNat _ ((2 ^ (c.word c.f.d l % 256) - 1) * 2 ^ (c.word c.f.c l % 256))

theorem bfiVal_eq (c : Ctx) (l : Nat) : bfiVal c l
    = ((c.bv c.f.b l &&& ~~~ c.fieldMask l) ||| ((c.bv c.f.a l <<< (c.word c.f.c l % 256)) &&& c.fieldMask l)).toNat := by
  simp [bfiVal, Ctx.fieldMask, Ctx.bits_eq, Nat.shiftLeft_eq]

/-- Settles O3: counts and reversal by the places of the bits, fields by the mask of the places that they take. -/
theorem countsFieldsAndMoves : Obligations.CountsFieldsAndMoves := by
  unfold Obligations.CountsFieldsAndMoves
  have hones {i : Instr} (s : State) (c : Ctx) (_ : Clear i s c) (l : Nat) := congrArg (BitVec.ofNat 64) (popcVal_eq c l)
  have hzeros {i : Instr} (s : State) (c : Ctx) (_ : Clear i s c) (l : Nat) := congrArg (BitVec.ofNat 64) (clzVal_eq c l)
  refine ⟨⟨fun _ => .of_word (fun _ => rfl) hones, fun _ => .of_word (fun _ => rfl) hones,
    fun _ => .of_word (fun _ => rfl) hzeros, fun _ => .of_word (fun _ => rfl) hzeros,
    fun _ => .of_bits (fun _ => rfl) brevVal_eq, fun _ => .of_bits (fun _ => rfl) brevVal_eq,
    fun _ => .of_bits (fun _ => rfl) selVal_eq, fun _ => .of_bits (fun _ => rfl) movVal_eq,
    fun _ => .of_bits (fun _ => rfl) movVal_eq⟩, fun f => ?bfx, fun _ => .of_bits (fun _ => rfl) bfiVal_eq⟩
  case bfx =>
    refine .of_int (fun _ => rfl) (fun _ _ h => h.ty_int rfl (by decide)) fun _ c h l => ?_
    rw [Ctx.result_unsat (h.unsat rfl rfl), bfxVal, Ctx.int_eq]
    rfl

end Sys2Proof.Machine
end

section
/-! SUPPORT. Predicate results: comparisons, classes and the operations on predicates (R131, R136, R137, R146). -/

namespace Sys2Proof.Machine
open Sys2Proof

/-- An instruction whose own part writes a predicate completes with it. -/
theorem YieldsPred.of_pred {i : Instr} {x v : Ctx → Nat → Bool} (he : ∀ s, exec i s = issue i (predBody x) s)
    (hv : ∀ c l, x c l = v c l) : YieldsPred i v := by
  refine YieldsPred.of _ he fun s c _ u => ?_
  rw [← show x c = v c from funext (hv c)]; rfl

/-- Operands of one type are the same integer exactly when they are the same bits. -/
theorem Ctx.asInt_inj (c : Ctx) (o p : Operand) (l : Nat) : c.asInt o l = c.asInt p l ↔ c.bv o l = c.bv p l := by
  refine ⟨fun h => ?_, fun h => by unfold Ctx.asInt; rw [h]⟩
  rw [← Ctx.ofInt_asInt, h, Ctx.ofInt_asInt]

theorem Num.isNan_eq (x : Num) : x.isNan = decide (x = .nan) := by cases x <;> rfl

/-- Settles O4: the comparisons of the model are those of the operands' integers or values, condition by condition. -/
theorem predicateResults : Obligations.PredicateResults := by
  unfold Obligations.PredicateResults
  refine ⟨fun cc f => .of_pred (fun _ => rfl) fun c l => ?cmp, fun cc f => .of_pred (fun _ => rfl) fun c l => ?fcmp,
    fun f => .of_pred (fun _ => rfl) fun c l => ?fclass, fun f => .of_pred (fun _ => rfl) fun c l => rfl,
    fun f => .of_pred (fun _ => rfl) fun c l => rfl, fun f => .of_pred (fun _ => rfl) fun c l => rfl,
    fun f => .of_pred (fun _ => rfl) fun c l => rfl, fun f => .of_pred (fun _ => rfl) fun c l => ?ptest⟩
  case cmp => cases cc <;> simp only [cmpInt, Ctx.int_eq, Ctx.asInt_inj, ne_eq, gt_iff_lt, ge_iff_le]
  case fcmp =>
    have hnan (x y : Num) : (x.isNan || y.isNan) = decide (x = .nan ∨ y = .nan) := by
      rw [Num.isNan_eq, Num.isNan_eq, Bool.decide_or]
    cases cc <;> simp only [cmpNum, leNum, hnan]
    case eq => rw [Bool.and_right_comm]
    case ne => rw [Bool.not_and, Bool.not_not, Bool.not_not, Bool.or_assoc, Bool.or_comm (ltNum _ _)]
  case fclass => exact Nat.testBit_eq_decide_div_mod_eq
  case ptest =>
    rw [Ctx.bits_eq]
    exact decide_eq_decide.2 (not_congr (by rw [BitVec.toNat_eq]; rfl))

end Sys2Proof.Machine
end

section
/-! SUPPORT. Floating-point and special functions: the model's operations on lists of operand codes, element by element (R134 to R140). -/

namespace Sys2Proof.Machine
open Sys2Proof

/-! ### Operations element by element (R121, R134) -/

/-- An operation on the codes of three operands of a scalar type, or on each element of a packed type (R121, R134). -/
def Ctx.each (c : Ctx) (l : Nat) (op : Nat → Nat → Nat → Nat) : DWord :=
  BitVec.ofNat 64 (if c.f.ty = .bf16x2 ∨ c.f.ty = .f16x2 then
      op (c.bits c.f.a l % 2 ^ 16) (c.bits c.f.b l % 2 ^ 16) (c.bits c.f.c l % 2 ^ 16)
        + 2 ^ 16 * op (c.bits c.f.a l / 2 ^ 16 % 2 ^ 16) (c.bits c.f.b l / 2 ^ 16 % 2 ^ 16) (c.bits c.f.c l / 2 ^ 16 % 2 ^ 16)
    else op (c.bits c.f.a l) (c.bits c.f.b l) (c.bits c.f.c l))

/-- The model's operation on a list of codes is the rule's on the first three. -/
theorem ofNat_byElement (c : Ctx) (l : Nat) {op : List Nat → Nat} {rule : Nat → Nat → Nat → Nat}
    (h : ∀ vs, op vs = rule (arg vs 0) (arg vs 1) (arg vs 2)) :
    BitVec.ofNat 64 (byElement c.f.ty op [c.bits c.f.a l, c.bits c.f.b l, c.bits c.f.c l]) = c.each l rule := by
  obtain rfl : op = fun vs => rule (arg vs 0) (arg vs 1) (arg vs 2) := funext h
  simp only [byElement, isPacked, Ctx.each, decide_eq_true_eq]
  rfl

/-- A floating-point instruction completes with its rule element by element. -/
theorem Yields.of_each {i : Instr} {op : Ctx → List Nat → Nat} {rule : Ctx → Nat → Nat → Nat → Nat}
    (he : ∀ s, exec i s = issue i (fltBody op) s) (hop : ∀ c vs, op c vs = rule c (arg vs 0) (arg vs 1) (arg vs 2)) :
    Yields i (fun c => isWide c.f.ty) fun c l => c.each l (rule c) :=
  Yields.of _ he fun _ c _ u => congrArg (fun v => Act.done (c.writeAll (isWide c.f.ty) v u))
    (funext fun l => ofNat_byElement c l (hop c))

/-- Settles O5: the model's operations are those of the rules on one element; they apply `sat` and `.fz` in the rules' order. -/
theorem floatingPointResults : Obligations.FloatingPointResults := by
  unfold Obligations.FloatingPointResults
  intro wide each flush val last rounded
  have heach : each = Ctx.each := rfl
  clear_value each
  subst heach
  refine ⟨fun f => .of_each (fun _ => rfl) fun c vs => rfl, fun f => .of_each (fun _ => rfl) fun c vs => rfl,
    fun f => .of_each (fun _ => rfl) fun c vs => rfl, fun f => .of_each (fun _ => rfl) fun c vs => rfl,
    fun f => .of_each (fun _ => rfl) fun c vs => rfl, fun f => .of_each (fun _ => rfl) fun c vs => ?frint,
    fun f => .of_each (fun _ => rfl) fun c vs => rfl, fun f => .of_each (fun _ => rfl) fun c vs => rfl⟩
  case frint =>
    rw [frintOp, show val c (arg vs 0) = c.num (arg vs 0) from rfl]
    cases c.num (arg vs 0) <;> rfl

/-! ### Special functions (R139) -/

/-- A scalar type has one element. -/
theorem byElement_scalar {t : Ty} (h : t ∈ tyF4) (op : List Nat → Nat) (vs : List Nat) : byElement t op vs = op vs := by
  have hscalar : isPacked t = false := by
    simp only [tyF4, List.mem_cons, List.not_mem_nil, or_false] at h
    rcases h with rfl | rfl | rfl | rfl <;> rfl
  simp [byElement, hscalar]

/-- Without `.sat` a result only flushes its subnormal codes. -/
theorem Ctx.seal_unsat {c : Ctx} (h : c.f.sat = false) (code : Nat) : c.seal code = flushIf c.f.fz (fmtOf c.f.ty) code := by
  simp [Ctx.seal, satIf, h]

/-- A special function, of a scalar type and without `.sat`, completes with its procedure's code, flushed under `.fz`. -/
theorem Yields.of_special {i : Instr} {g : Sig} {f : Ext} {op : Ctx → List Nat → Nat} {code : Ctx → List Nat → Nat}
    (he : ∀ s, exec i s = issue i (fltBody op) s) (hs : sig? i = some (g, f)) (hty : g.tys ⊆ tyF4) (hsat : g.sat = false)
    (hop : ∀ c vs, op c vs = c.seal (code c vs)) :
    Yields i (fun c => isWide c.f.ty) fun c l =>
      BitVec.ofNat 64 (flushIf c.f.fz (fmtOf c.f.ty) (code c [c.bits c.f.a l, c.bits c.f.b l, c.bits c.f.c l])) := by
  refine Yields.of _ he fun s c h u => ?_
  simp only [fltBody, byElement_scalar (hty (h.ty_mem hs)), hop, Ctx.seal_unsat (h.unsat hs hsat)]

/-- Settles O6: each instruction is its procedure on the operands' values; `sqrt` takes that of its type. -/
theorem specialFunctions : Obligations.SpecialFunctions := by
  unfold Obligations.SpecialFunctions
  have hunary {i : Instr} {g : Sig} {f : Ext} (p : Fmt → Num → Nat) (he : ∀ s, exec i s = issue i (fltBody (specialOp p)) s)
      (hs : sig? i = some (g, f)) (hty : g.tys ⊆ tyF4) (hsat : g.sat = false) :=
    Yields.of_special (code := fun c vs => p (fmtOf c.f.ty) (c.num (arg vs 0))) he hs hty hsat fun _ _ => rfl
  refine ⟨fun f => ?ex2s, fun f => hunary lg2Code (fun _ => rfl) rfl (by decide) rfl,
    fun f => hunary rcpCode (fun _ => rfl) rfl (by decide) rfl, fun f => hunary rsqCode (fun _ => rfl) rfl (by decide) rfl,
    fun f => ?sqrt⟩
  case ex2s =>
    exact .of_special (code := fun c vs => ex2sCode (fmtOf c.f.ty) (c.num (arg vs 0)) (c.num (arg vs 1)) (c.num (arg vs 2)))
      (fun _ => rfl) rfl (by decide) rfl fun c vs => rfl
  case sqrt =>
    refine .of_special (code := fun c vs => if c.f.ty = .f64 then sqrtCode fp64 c.f.rnd (c.num (arg vs 0))
      else sqrtSpecialCode (fmtOf c.f.ty) (c.num (arg vs 0))) (fun _ => rfl) rfl (fun _ h => h) rfl fun c vs => ?_
    rw [sqrtOp, specialOp, apply_ite c.seal]

end Sys2Proof.Machine
end

section
/-! SUPPORT. Conversions and packed products: the elements of packed operands and results (R141 to R145). -/

namespace Sys2Proof.Machine
open Sys2Proof

/-! ### Packing (R142) -/

/-- The element that `pack` makes of an FP32 operand. -/
def Ctx.element (c : Ctx) (t : Ty) (o : Operand) (l : Nat) : Nat :=
  cvtVal .f32 t c.f.rnd c.f.sat false (c.src .f32 o l).toNat

/-- Two elements of b bits, the first one lowest. -/
theorem packVal_two {c : Ctx} {t : Ty} {b : Nat} (h : packShape c.f.ty = (t, b, 2)) (l : Nat) :
    packVal c l = c.element t c.f.a l + 2 ^ b * c.element t c.f.b l := by
  simp [packVal, h, Ctx.element]

/-- Four elements of b bits, the first one lowest. -/
theorem packVal_four {c : Ctx} {t : Ty} {b : Nat} (h : packShape c.f.ty = (t, b, 4)) (l : Nat) :
    packVal c l = c.element t c.f.a l + 2 ^ b * c.element t c.f.b l + 2 ^ (2 * b) * c.element t c.f.c l
      + 2 ^ (3 * b) * c.element t c.f.d l := by
  have h2 : 2 ^ (2 * b) = 2 ^ b * 2 ^ b := by rw [Nat.two_mul, Nat.pow_add]
  have h3 : 2 ^ (3 * b) = 2 ^ b * (2 ^ b * 2 ^ b) := by rw [Nat.succ_mul, Nat.pow_add, h2, Nat.mul_comm]
  rw [h2, h3]
  simp only [packVal, h, List.take, List.foldr, Ctx.element, Nat.mul_add, Nat.mul_zero, Nat.add_zero, Nat.add_assoc, Nat.mul_assoc]

/-! ### Packed operands (R143 to R145) -/

theorem packedAt_eq {t e : Ty} {b n : Nat} (h : packShape t = (e, b, n)) (v k : Nat) : packedAt t v k = v / 2 ^ (b * k) % 2 ^ b := by
  simp [packedAt, h]

/-- A byte of a packed operand. -/
def Ctx.byte (c : Ctx) (o : Operand) (l k : Nat) : BitVec 8 := BitVec.ofNat 8 (c.word o l / 2 ^ (8 * k))

theorem packedAt_byte {c : Ctx} {e : Ty} {n : Nat} (h : packShape c.f.ty = (e, 8, n)) (o : Operand) (l k : Nat) :
    packedAt c.f.ty (c.word o l) k = (c.byte o l k).toNat := by
  rw [packedAt_eq h, Ctx.byte, BitVec.toNat_ofNat]

/-- Bits read as a number of an unsigned type. -/
theorem readInt_unsigned {t : Ty} (h : isSigned t = false) {w : Nat} (x : BitVec w) : readInt t w x.toNat = x.toNat := by
  simp [readInt, h, Nat.mod_eq_of_lt x.isLt]

/-- A 32-bit integer is read from the low bits of an operand. -/
theorem readInt_lo32 (t : Ty) (v : DWord) : readInt t 32 v.toNat = readInt t 32 (lo32 v).toNat := by simp [readInt, lo32]

/-- The exact sum of four products of bytes and an accumulator, as integers of their types (R145). -/
def Ctx.dotSum (c : Ctx) (acc : Ty) (l : Nat) : Int :=
  let el (o : Operand) (k : Nat) := readInt c.f.ty 8 (c.byte o l k).toNat
  el c.f.a 0 * el c.f.b 0 + el c.f.a 1 * el c.f.b 1 + el c.f.a 2 * el c.f.b 2 + el c.f.a 3 * el c.f.b 3
    + readInt acc 32 (lo32 (c.src acc c.f.c l)).toNat

/-- `dp4` of an integer type: the exact sum, limited under `.sat` and otherwise mod 2^32. -/
theorem dp4Val_int {c : Ctx} {t : Ty} (h : (c.f.ty = .i8 ∧ t = .i32) ∨ (c.f.ty = .n8 ∧ t = .n32)) (l : Nat) :
    dp4Val c l = wrap 32 (if c.f.sat then clampInt t (c.dotSum t l) else c.dotSum t l) := by
  have hint : isIntTy c.f.ty = true := by rcases h with ⟨e, -⟩ | ⟨e, -⟩ <;> rw [e] <;> rfl
  have hshape : packShape c.f.ty = (c.f.ty, 8, 4) := by rcases h with ⟨e, -⟩ | ⟨e, -⟩ <;> rw [e] <;> rfl
  have hacc : (if c.f.ty = .i8 then Ty.i32 else .n32) = t := by rcases h with ⟨e, rfl⟩ | ⟨e, rfl⟩ <;> rw [e] <;> rfl
  rw [dp4Val, if_pos hint]
  simp only [hacc, packedAt_byte hshape, readInt_lo32, List.range_succ, List.range_zero, List.nil_append, List.cons_append,
    List.foldl_cons, List.foldl_nil]
  rw [show _ + _ + _ + _ + _ = c.dotSum t l from by simp only [Ctx.dotSum]; omega]

/-- The sum of signed products. -/
theorem Ctx.dotSum_signed {c : Ctx} (h : c.f.ty = .i8) (l : Nat) : c.dotSum .i32 l
    = (c.byte c.f.a l 0).toInt * (c.byte c.f.b l 0).toInt + (c.byte c.f.a l 1).toInt * (c.byte c.f.b l 1).toInt
      + (c.byte c.f.a l 2).toInt * (c.byte c.f.b l 2).toInt + (c.byte c.f.a l 3).toInt * (c.byte c.f.b l 3).toInt
      + (lo32 (c.src .i32 c.f.c l)).toInt := by
  have hbyte (x : BitVec 8) : readInt c.f.ty 8 x.toNat = x.toInt := readInt_signed (by rw [h]; rfl) (by decide) x
  have hacc (x : Word) : readInt .i32 32 x.toNat = x.toInt := readInt_signed rfl (by decide) x
  simp only [Ctx.dotSum, hbyte, hacc]

/-- The sum of unsigned products. -/
theorem Ctx.dotSum_unsigned {c : Ctx} (h : c.f.ty = .n8) (l : Nat) : c.dotSum .n32 l
    = ((c.byte c.f.a l 0).toNat * (c.byte c.f.b l 0).toNat + (c.byte c.f.a l 1).toNat * (c.byte c.f.b l 1).toNat
      + (c.byte c.f.a l 2).toNat * (c.byte c.f.b l 2).toNat + (c.byte c.f.a l 3).toNat * (c.byte c.f.b l 3).toNat
      + (lo32 (c.src .n32 c.f.c l)).toNat : Nat) := by
  have hbyte (x : BitVec 8) : readInt c.f.ty 8 x.toNat = x.toNat := readInt_unsigned (by rw [h]; rfl) x
  have hacc (x : Word) : readInt .n32 32 x.toNat = x.toNat := readInt_unsigned rfl x
  simp only [Ctx.dotSum, hbyte, hacc]
  push_cast
  rfl

/-- A natural number limited to 32 bits. -/
theorem clampInt_n32 (x : Nat) : clampInt .n32 x = (min (2 ^ 32 - 1) x : Nat) := by
  simp only [clampInt, intRange]
  omega

/-- `dp4` of a float type: the exact block of four products, and one rounding of its sum with c (log 26). -/
theorem dp4Val_float {c : Ctx} (hint : isIntTy c.f.ty = false) (hshape : packShape c.f.ty = (c.f.ty, 8, 4)) (l : Nat) :
    let p (k : Nat) := mulNum (decodeF (fmtOf c.f.ty) (c.byte c.f.a l k).toNat) (decodeF (fmtOf c.f.ty) (c.byte c.f.b l k).toNat)
    dp4Val c l = satIf c.f.sat fp32
      (round fp32 c.f.rnd (addNum c.f.rnd (exactBlock [p 0, p 1, p 2, p 3]) (decodeF fp32 (c.src .f32 c.f.c l).toNat))) := by
  rw [dp4Val, if_neg (by simp [hint])]
  simp only [packedAt_byte hshape]
  rfl

/-- Settles O7: each shape of a packed type is a sum of its elements at their places, and `dp4` one sum over them. -/
theorem conversionsAndPackedProducts : Obligations.ConversionsAndPackedProducts := by
  unfold Obligations.ConversionsAndPackedProducts
  refine ⟨fun S f => .of _ (fun _ => rfl) fun _ _ _ _ => rfl, fun f => .of_word (fun _ => rfl) fun s c h l => ?pack,
    fun f => .of_word (fun _ => rfl) fun s c h l => ?unpack, fun f => .of_word (fun _ => rfl) fun s c h l => ?dot2,
    fun f => .of_word (fun _ => rfl) fun s c h l => ?dp4⟩
  case pack =>
    have hty : c.f.ty ∈ tyPack := h.ty_mem rfl
    simp only [tyPack, List.mem_cons, List.not_mem_nil, or_false] at hty
    rcases hty with e | e | e | e | e | e | e | e
    iterate 2 · rw [packVal_two (by rw [e]; rfl), e]; rfl
    all_goals rw [packVal_four (by rw [e]; rfl), e]; rfl
  case unpack =>
    have hty : c.f.ty ∈ tyPack := h.ty_mem rfl
    simp only [tyPack, List.mem_cons, List.not_mem_nil, or_false] at hty
    rcases hty with e | e | e | e | e | e | e | e <;> rw [unpackVal, e] <;> rfl
  case dot2 =>
    have hty : c.f.ty ∈ [Ty.bf16x2, .f16x2] := h.ty_mem rfl
    simp only [List.mem_cons, List.not_mem_nil, or_false] at hty
    have hhalf : ∃ e, packShape c.f.ty = (e, 16, 2) := by rcases hty with e | e <;> exact ⟨_, by rw [e]; rfl⟩
    obtain ⟨e, he⟩ := hhalf
    simp only [dot2Val, packedAt_eq he, Nat.mul_zero, Nat.pow_zero, Nat.div_one, Nat.mul_one]
    rfl
  case dp4 =>
    have hty : c.f.ty ∈ [Ty.i8, .n8, .e4m3, .e5m2] := h.ty_mem rfl
    simp only [List.mem_cons, List.not_mem_nil, or_false] at hty
    rcases hty with e | e | e | e
    · rw [dp4Val_int (.inl ⟨e, rfl⟩), ofNat_wrap, Ctx.dotSum_signed e]
      exact (if_pos e).symm
    · rw [dp4Val_int (.inr ⟨e, rfl⟩), ofNat_wrap, Ctx.dotSum_unsigned e, clampInt_n32, ← apply_ite Nat.cast, BitVec.ofInt_natCast]
      exact ((if_neg (by simp [e])).trans (if_pos e)).symm
    all_goals
      rw [dp4Val_float (by rw [e]; rfl) (by rw [e]; rfl)]
      exact ((if_neg (by simp [e])).trans (if_neg (by simp [e]))).symm

end Sys2Proof.Machine
end

section
/-! SUPPORT. Cross-lane instructions: quads, shuffles, votes and matches (R147 to R152, R156). -/

namespace Sys2Proof.Machine
open Sys2Proof

/-! ### Steps that skip neutral marks (R150, R153, R154) -/

theorem markOp_eq_merge (op : Nat → Nat → Nat) : markOp op = Option.merge op := by
  funext x y
  cases x <;> cases y <;> rfl

/-- The sum of two codes of a type of R150, rounded for a float type and otherwise mod 2^w. -/
theorem combine_add {t : Ty} (h : t ∈ tyNum) (rnd : Rnd) (x y : Nat) : combine .add t rnd x y
    = if t = .f32 ∨ t = .f64 then round (fmtOf t) rnd (addNum rnd (decodeF (fmtOf t) x) (decodeF (fmtOf t) y))
      else (x + y) % 2 ^ tyWidth t := by
  have hfloat : isFloatTy t = decide (t = .f32 ∨ t = .f64) := by
    simp only [tyNum, List.mem_cons, List.not_mem_nil, or_false] at h
    rcases h with rfl | rfl | rfl | rfl | rfl | rfl <;> rfl
  simp only [combine, hfloat, decide_eq_true_eq]

/-! ### Values of the active lanes -/

/-- Steps that agree on a list's members lead to one result. -/
theorem foldl_congr_mem {α β : Type} {f g : α → β → α} {ls : List β} (h : ∀ a, ∀ b ∈ ls, f a b = g a b) (a : α) :
    ls.foldl f a = ls.foldl g a := by
  induction ls generalizing a with
  | nil => rfl
  | cons b r ih =>
    rw [List.foldl_cons, List.foldl_cons, h a b List.mem_cons_self]
    exact ih (fun a b hb => h a b (List.mem_cons_of_mem _ hb)) _

/-- Selections that agree on a list's members are one. -/
theorem filterMap_congr_mem {α β : Type} {f g : α → Option β} {ls : List α} (h : ∀ a ∈ ls, f a = g a) :
    ls.filterMap f = ls.filterMap g := by
  induction ls with
  | nil => rfl
  | cons a r ih =>
    rw [List.filterMap_cons, List.filterMap_cons, h a List.mem_cons_self, ih fun b hb => h b (List.mem_cons_of_mem _ hb)]

/-- Only the values of active lanes are delivered. -/
theorem Ctx.writeAll_congr (c : Ctx) (wide : Bool) {v v' : Nat → DWord} (h : ∀ l ∈ c.act, v l = v' l) (u : State) :
    c.writeAll wide v u = c.writeAll wide v' u := by
  unfold Ctx.writeAll
  split
  case h_1 =>
    cases hact : c.act with
    | nil => rfl
    | cons a r => simp only [h a (by simp [hact])]
  case h_2 => exact foldl_congr_mem (fun s l hl => by rw [h l hl]) u

/-- The active lanes are lanes of the group. -/
theorem Clear.act_lt {i : Instr} {s : State} {c : Ctx} (h : Clear i s c) {l : Nat} (hl : l ∈ c.act) : l < c.w := by
  obtain ⟨-, hpath, hlt, -⟩ := Ctx.act_facts h.1
  exact hlt l (hpath l hl)

/-- The lane that a shuffle's mode counts to, which may lie outside the group (R151). -/
def shflLane (m : ShflMode) (l b : Nat) : Int :=
  match m with
  | .idx => b
  | .up => (l : Int) - b
  | .down => (l : Int) + b
  | .xor => (l ^^^ b : Nat)

/-- A shuffle reads the lane that its mode counts to, if that is a lane of the group (R151). -/
theorem shflFrom_eq (m : ShflMode) {w l : Nat} (b : Nat) (hl : l < w) {k : Int} (hk : k = shflLane m l b) :
    shflFrom m w l b = if 0 ≤ k ∧ k < w then some k.toNat else none := by
  cases m with
  | idx => simp [shflFrom, shflLane, hk]
  | up =>
    replace hk : k = (l : Int) - b := hk
    by_cases h : b ≤ l
    · rw [if_pos (by omega), show k.toNat = l - b by omega]
      exact if_pos h
    · rw [if_neg (by omega)]
      exact if_neg h
  | down =>
    replace hk : k = (l : Int) + b := hk
    by_cases h : l + b < w
    · rw [if_pos (by omega), show k.toNat = l + b by omega]
      exact if_pos h
    · rw [if_neg (by omega)]
      exact if_neg h
  | xor => simp [shflFrom, shflLane, hk]

/-- Settles O8: the lanes of a quad are those of the rule; a shuffle's source is the lane its mode counts to, and only active lanes
receive a value. -/
theorem quadAndGroupExchanges : Obligations.QuadAndGroupExchanges := by
  unfold Obligations.QuadAndGroupExchanges
  refine ⟨?_, ?_⟩
  · refine ⟨fun f => .of _ (fun _ => rfl) fun s c h u => rfl, fun f => .of _ (fun _ => rfl) fun s c h u => rfl,
      fun f => .of _ (fun _ => rfl) fun s c h u => rfl, fun f => .of _ (fun _ => rfl) fun s c h u => ?_⟩
    have hadd : combine .add c.f.ty c.f.rnd = _ := funext fun x => funext fun y => combine_add (h.ty_mem rfl) c.f.rnd x y
    simp only [quadBody, qsumVal, markOp_eq_merge, hadd]
    rfl
  · intro out wide gone from_
    have hfrom (m : ShflMode) (c : Ctx) (l : Nat) (hl : l < c.w) : from_ m c l = shflFrom m c.w l (c.word c.f.b l) := by
      rw [shflFrom_eq m _ hl rfl]
      cases m <;> rfl
    refine ⟨fun m f => .of _ (fun _ => rfl) fun s c h u => ?shfl, fun f => .of _ (fun _ => rfl) fun s c h u => rfl,
      fun f => .of _ (fun _ => rfl) fun s c h u => ?matchLanes, fun f => .of _ (fun _ => rfl) fun s c h u => rfl,
      fun f => .of _ (fun _ => rfl) fun s c h u => rfl⟩
    case shfl =>
      have hgone : (c.act.filterMap fun l => shflFrom m c.w l (c.word c.f.b l)) = c.act.filterMap (from_ m c) :=
        filterMap_congr_mem fun l hl => (hfrom m c l (h.act_lt hl)).symm
      rw [shflGone, hgone]
      refine congrArg (fun t => Act.done (c.putCollstat _ t)) (c.writeAll_congr _ (fun l hl => ?_) u)
      rw [hfrom m c l (h.act_lt hl)]
      rfl
    case matchLanes =>
      have hsame (l m : Nat) : decide (c.bits c.f.a m = c.bits c.f.a l) = decide (c.bv c.f.a m = c.bv c.f.a l) :=
        decide_eq_decide.2 (by rw [Ctx.bits_eq, Ctx.bits_eq, BitVec.toNat_inj])
      simp only [groupBody, matchVal, hsame, BitVec.ofNat_toNat, BitVec.setWidth_eq]
      rfl

end Sys2Proof.Machine
end

section
/-! SUPPORT. Reductions and scans: the levels of the pairwise tree and the left fold over the lanes of a group (R153, R154). -/

namespace Sys2Proof.Machine
open Sys2Proof

/-! ### The pairwise tree (R153) -/

/-- A level of the tree by positions: position j of the next level combines positions 2j and 2j + 1. -/
def treeLevel (op : Nat → Nat → Nat) (v : List (Option Nat)) : List (Option Nat) :=
  (List.range (v.length / 2)).map fun j => Option.merge op (v.getD (2 * j) none) (v.getD (2 * j + 1) none)

theorem length_treeLevel (op : Nat → Nat → Nat) (v : List (Option Nat)) : (treeLevel op v).length = v.length / 2 := by
  simp [treeLevel]

/-- The first pair of a level, and the level of the rest. -/
theorem treeLevel_cons_cons (op : Nat → Nat → Nat) (x y : Option Nat) (v : List (Option Nat)) :
    treeLevel op (x :: y :: v) = Option.merge op x y :: treeLevel op v := by
  have hlen : (x :: y :: v).length / 2 = v.length / 2 + 1 := by simp only [List.length_cons]; omega
  rw [treeLevel, hlen, List.range_succ_eq_map, List.map_cons, List.map_map]
  rfl

/-- On a list of even length the model's level is the level by positions. -/
theorem pairUp_of_even (op : Nat → Nat → Nat) {v : List (Option Nat)} {n : Nat} (h : v.length = 2 * n) :
    pairUp op v = treeLevel op v := by
  induction n generalizing v with
  | zero =>
    obtain rfl := List.eq_nil_of_length_eq_zero h
    rfl
  | succ n ih =>
    match v, h with
    | x :: y :: r, h =>
      rw [treeLevel_cons_cons, pairUp, markOp_eq_merge, ih (by simpa [Nat.mul_succ] using h)]

/-- The first of n + 1 levels comes before the n others. -/
theorem foldl_levels_succ (f : List (Option Nat) → List (Option Nat)) (n : Nat) (v : List (Option Nat)) :
    (List.range (n + 1)).foldl (fun v _ => f v) v = (List.range n).foldl (fun v _ => f v) (f v) := by
  rw [List.range_succ_eq_map, List.foldl_cons, List.foldl_map]

/-- k levels over 2^k positions leave one. -/
theorem foldl_pairUp (op : Nat → Nat → Nat) {v : List (Option Nat)} {k : Nat} (h : v.length = 2 ^ k) :
    (List.range k).foldl (fun v _ => pairUp op v) v = (List.range k).foldl (fun v _ => treeLevel op v) v
      ∧ ((List.range k).foldl (fun v _ => pairUp op v) v).length = 1 := by
  induction k generalizing v with
  | zero => exact ⟨rfl, h⟩
  | succ k ih =>
    have hlevel : pairUp op v = treeLevel op v := pairUp_of_even op (h.trans Nat.pow_succ')
    rw [foldl_levels_succ, foldl_levels_succ, hlevel]
    refine ih ?_
    rw [length_treeLevel, h, Nat.pow_succ, Nat.mul_div_cancel _ (by decide)]

/-- Further levels leave a root as it is. -/
theorem foldl_pairUp_root (op : Nat → Nat → Nat) {v : List (Option Nat)} (h : v.length = 1) (n : Nat) :
    (List.range n).foldl (fun v _ => pairUp op v) v = v := by
  obtain ⟨x, rfl⟩ := List.length_eq_one_iff.1 h
  induction n with
  | zero => rfl
  | succ n ih => rw [foldl_levels_succ]; exact ih

/-- The tree of more levels goes on from the root of the first ones. -/
theorem foldl_levels_add (f : List (Option Nat) → List (Option Nat)) (k n : Nat) (v : List (Option Nat)) :
    (List.range (k + n)).foldl (fun v _ => f v) v
      = (List.range n).foldl (fun v _ => f v) ((List.range k).foldl (fun v _ => f v) v) := by
  rw [List.range_add, List.foldl_append, List.foldl_map]

/-- The root over 2^k positions, for at most the tree's levels. -/
theorem treeRoot_eq (op : Nat → Nat → Nat) {v : List (Option Nat)} {k n : Nat} (h : v.length = 2 ^ k) (hk : k ≤ n) :
    treeRoot n op v = ((List.range k).foldl (fun v _ => treeLevel op v) v).headD none := by
  obtain ⟨hlevels, hroot⟩ := foldl_pairUp op h
  obtain ⟨more, rfl⟩ := Nat.exists_eq_add_of_le hk
  rw [treeRoot, foldl_levels_add, foldl_pairUp_root op hroot, hlevels]

/-! ### The left fold (R154) -/

/-- The fold over the first n positions; positions past the group are skipped. -/
theorem foldMarks_eq (op : Nat → Nat → Nat) (term : Nat → Option Nat) (w n : Nat) :
    foldMarks op ((List.range w).map term) n
      = ((List.range n).map fun k => if k < w then term k else none).foldl (Option.merge op) none := by
  rw [foldMarks, markOp_eq_merge]
  induction n with
  | zero => rfl
  | succ n ih =>
    rw [List.take_add_one, List.foldl_append, ih, List.range_succ, List.map_append, List.foldl_append]
    by_cases hn : n < w <;> simp [hn]

/-- A group instruction completes with its number in each active lane and the lanes found gone in `%collstat`. -/
theorem YieldsGroup.of_group {i : Instr} {wide : Ctx → Bool} {x : Ctx → Nat → Nat}
    (he : ∀ s, exec i s = issueMeet false i (groupBody wide x) s) : YieldsGroup i wide (fun c l => BitVec.ofNat 64 (x c l)) Ctx.gone :=
  .of _ he fun _ _ _ _ => rfl

/-- Settles O9: the tree by the levels of its positions, of which a group of 2^k lanes has k; the scan by induction on the lanes that it
takes in. -/
theorem reductionsAndScans : Obligations.ReductionsAndScans := by
  unfold Obligations.ReductionsAndScans
  refine ⟨fun op f s c h hd k hw hk => ?red, fun op excl f => ?scan⟩
  case red =>
    have hroot : treeRoot 6 (combine op c.f.ty c.f.rnd) c.terms = _ := treeRoot_eq _ (by simp [Ctx.terms, hw]) hk
    obtain ⟨t, ht, hkept, hadv, hsets, hwrote⟩ := YieldsGroup.of_group (i := .red op f) (fun _ => rfl) s c h hd
    simp only [redVal, hroot] at hwrote
    exact ⟨t, ht, hkept, hadv, hsets, hwrote⟩
  case scan =>
    refine .of _ (fun _ => rfl) fun s c h u => ?_
    simp only [groupBody, scanVal, Ctx.terms, foldMarks_eq]
    rfl

end Sys2Proof.Machine
end

section
/-! SUPPORT. Rendezvous: what a path that must wait at one changes (R148, R239). -/

namespace Sys2Proof.Machine
open Sys2Proof

/-- Lanes of a half after a fold that rewrites each lane of a list without repeats in its own way. -/
theorem Half.fold_lanesAt (f : Nat → Lane → Lane) (ls : List Nat) (hn : ls.Nodup) (h : Half) :
    (∀ l, (ls.foldl (fun h l => h.setLane l (f l (h.lane l))) h).lane l = if l ∈ ls then f l (h.lane l) else h.lane l)
      ∧ ({ ls.foldl (fun h l => h.setLane l (f l (h.lane l))) h with lanes := [] } : Half) = { h with lanes := [] } := by
  induction ls generalizing h with
  | nil => exact ⟨fun l => by simp, rfl⟩
  | cons a r ih =>
    obtain ⟨ha, hr⟩ := List.nodup_cons.1 hn
    obtain ⟨hlane, hrest⟩ := ih hr (h.setLane a (f a (h.lane a)))
    refine ⟨fun l => ?_, by rw [List.foldl_cons, hrest]; rfl⟩
    rw [List.foldl_cons, hlane]
    by_cases hl : l = a
    · subst hl; simp [ha]
    · simp [hl, Half.lane_setLane_ne _ _ hl]

/-- The lanes of the group that are at the instruction. -/
def Ctx.here (c : Ctx) : List Nat := (List.range c.w).filter (atPc c.half c.pc)

/-- Every live lane of a lane's scope, its quad or the group, is at the instruction. -/
def Ctx.complete (c : Ctx) (quad : Bool) (l : Nat) : Bool :=
  (c.half.liveLanes c.w).all fun m => (quad && decide (m / 4 ≠ l / 4)) || decide (m ∈ c.here)

theorem Ctx.scopeFull_eq (c : Ctx) (quad : Bool) (l : Nat) : scopeFull c.half c.w quad c.pc l = c.complete quad l := by
  unfold scopeFull Ctx.complete
  rw [Bool.eq_iff_iff, List.all_eq_true, List.all_eq_true]
  refine forall₂_congr fun m hm => ?_
  have hlt : m < c.w := List.mem_range.1 (List.mem_filter.1 hm).1
  simp [Ctx.here, hlt]

/-- A lane of a group that comes to a rendezvous: one at the instruction waits unless its scope is complete. -/
def Ctx.gathered (c : Ctx) (quad : Bool) (l : Nat) (x : Lane) : Lane :=
  { x with wait := if c.complete quad l then .none else .rendezvous }

/-- The half of a path at a rendezvous. -/
def Ctx.gatheredHalf (c : Ctx) (quad : Bool) : Half :=
  c.here.foldl (fun h l => h.setLane l (c.gathered quad l (h.lane l))) c.half

theorem Ctx.gatheredHalf_facts (c : Ctx) (quad : Bool) :
    (∀ l, (c.gatheredHalf quad).lane l = if l ∈ c.here then c.gathered quad l (c.half.lane l) else c.half.lane l)
      ∧ ({ c.gatheredHalf quad with lanes := [] } : Half) = { c.half with lanes := [] } :=
  Half.fold_lanesAt (c.gathered quad) c.here (List.nodup_range.sublist List.filter_sublist) c.half

/-- A rendezvous replaces the half of its path, and is full for the path when the scope of one of its lanes is complete. -/
theorem Ctx.gather_eq {s : State} {i : Instr} {c : Ctx} (hb : s.begin? i = some c) (quad : Bool) :
    c.gather quad = (s.withPair c.place c.blk c.group (c.pair.setHalf c.sl (c.gatheredHalf quad)), c.path.any (c.complete quad)) := by
  obtain ⟨rfl, hblk, -⟩ := State.begin?_facts hb
  have hfull : scopeFull c.half c.w quad c.pc = c.complete quad := funext (c.scopeFull_eq quad)
  unfold Ctx.gather
  simp only [hfull]
  rw [State.mapHalf, State.mapPair_eq hblk]
  rfl

/-- What a path that reaches a rendezvous and must wait there leaves: which of the lanes at the instruction wait has changed, and
nothing else (R148). -/
structure HeldAt (c : Ctx) (quad : Bool) (t : State) : Prop where
  kept : Kept c t
  lanes : ∀ l, (c.halfIn t).lane l = if l ∈ c.here then c.gathered quad l (c.half.lane l) else c.half.lane l
  regs : c.regsKept t
  uni : c.uniKept t
  sets : c.setsKept t
  queues : ∀ q l, (t.pair c.place c.group).queue q l = c.pair.queue q l

theorem Ctx.heldAt_gather {s : State} {i : Instr} {c : Ctx} (hb : s.begin? i = some c) (quad : Bool) :
    HeldAt c quad (c.gather quad).1 := by
  obtain ⟨hlane, hrest⟩ := c.gatheredHalf_facts quad
  obtain ⟨hregs, huni, hsets, hstat, htimer⟩ := Half.of_lanes hrest
  have hhalf : c.halfIn (c.gather quad).1 = c.gatheredHalf quad := by simp [Ctx.gather_eq hb, Ctx.halfIn]
  refine ⟨?_, fun l => by rw [hhalf, hlane], fun l n => by rw [hhalf, Half.reg, hregs]; rfl,
    fun n => by rw [hhalf, Half.ureg, huni]; rfl, ?_, fun q l => by simp [Ctx.gather_eq hb]⟩
  · rw [Ctx.gather_eq hb]
    exact Kept.of_form hb (CoreStep.refl _ _) _
  · rw [Ctx.setsKept, Ctx.setsAnd, hhalf]
    exact ⟨hsets, hstat, htimer⟩

/-- An instruction that meets does not issue while no lane of its path has a complete scope: its path is held. -/
theorem issueMeet_held {quad : Bool} {i : Instr} {s : State} {c : Ctx} (hb : s.begin? i = some c) (hl : legal c.sl i = true)
    (h : ∀ l ∈ c.path, c.complete quad l = false) (body : Ctx → State → Act) :
    ∃ t, issueMeet quad i body s = .next t ∧ HeldAt c quad t := by
  have hnone : (c.gather quad).2 = false := by
    rw [Ctx.gather_eq hb]
    exact List.any_eq_false.2 fun l hp => by simp [h l hp]
  refine ⟨_, ?_, Ctx.heldAt_gather hb quad⟩
  simp [issueMeet, hb, hl, hnone]

/-- Settles O10: each of these instructions issues through a rendezvous, of the quad or of the group. -/
theorem rendezvousHoldsThePath : Obligations.RendezvousHoldsThePath := by
  unfold Obligations.RendezvousHoldsThePath
  intro holds
  have hmeets {quad : Bool} {i : Instr} (body : Ctx → State → Act) (he : ∀ s, exec i s = issueMeet quad i body s) : holds quad i := by
    intro s c hb hl here complete h
    obtain ⟨t, ht, ⟨hk, hlanes, hregs, huni, hsets, hqueues⟩⟩ := issueMeet_held hb hl h body
    exact ⟨t, (he s).trans ht, hk, hlanes, hregs, huni, hsets, hqueues⟩
  clear_value holds
  refine ⟨fun f => ⟨?_, ?_, ?_, ?_⟩, fun f => ⟨fun m => ?_, ?_, ?_, ?_, fun op => ⟨?_, fun excl => ?_⟩, ?_⟩,
    fun f => ⟨?_, ?_, ?_, ?_, ?_, ?_, ?_, ?_, ?_, ?_⟩⟩
  all_goals exact hmeets _ fun _ => rfl

end Sys2Proof.Machine
end
